-- ==== Sys2Proof/Word.lean ====
section
/-! DEFINITION. The words of the Tolbur T418: bytes, 24-bit header fields and 512-byte blocks (spec/00, 0.4). -/

namespace Sys2Proof

/-- One byte of a frame or of a block. -/
abbrev Byte := BitVec 8

/-- A 24-bit header field: offset, base, length, spare count (R186). -/
abbrev Word24 := BitVec 24

/-- The data of one block, 512 bytes in the order they are clocked (spec/00, 0.4.3). -/
abbrev Block := List Byte

end Sys2Proof
end

