-- ==== Sys2Proof/Syntax.lean ====
section
/-! DEFINITION. The commands of the T418: one constructor of `Instr` for each row of spec/opcode_table.json, with the
row's operands, and the small vocabulary those operands are made of. -/

namespace Sys2Proof

/-- The two host ports (spec/00, 0.1). -/
inductive PortId where
  | A
  | B
  deriving DecidableEq, Repr, Inhabited

/-- Region attributes: mode, peer_read, write_policy, persistence (R1, R186 byte 10). -/
structure Attrs where
  exclusive : Bool
  peerRead : Bool
  through : Bool
  kept : Bool
  deriving DecidableEq, Repr, Inhabited

/-- Table phase (R25). -/
inductive Phase where
  | provisioning
  | agreed
  deriving DecidableEq, Repr, Inhabited

/-- One entry of the spare table (R101). -/
inductive Spare where
  | free
  | inUse (lbn : Nat)
  | retired
  deriving DecidableEq, Repr, Inhabited

/-- The medium's answers to a READ (R140). -/
inductive ReadAnswer where
  | good (data : Block)
  | corrected (data : Block)
  | unrecoverable
  deriving DecidableEq, Repr, Inhabited

/-- The medium's answers to a WRITE (R140). -/
inductive WriteAnswer where
  | good
  | failed
  deriving DecidableEq, Repr, Inhabited

/-- The header fields of a PROPOSE that R27 names, as they stand in the frame (R186). -/
structure ProposeFields where
  region : Byte
  base : Word24
  length : Word24
  attrs : Byte
  leasePeriod : Byte
  kind : Byte
  window : Byte
  deriving DecidableEq, Repr, Inhabited

/-- A request as its frame states it: the code (R68) and the header fields that the code uses (R186). -/
inductive Request where
  | attach
  | detach
  | read (region count : Byte) (offset : Word24)
  | write (region count : Byte) (offset : Word24) (payload : List Byte)
  | flush (region : Byte)
  | claim (region : Byte)
  | renew (region : Byte)
  | release (region : Byte)
  | fix (region : Byte)
  | queryRegion (region : Byte)
  | propose (fields : ProposeFields)
  | answer (id answer : Byte)
  | withdraw (id : Byte)
  | inquire
  | quiesce
  | resume
  | mediaRestart
  | unknown (code : Byte)
  deriving DecidableEq, Repr, Inhabited

/-- A portion of a transaction on one port's wires (R175): whether SEL# falls at its start and the type byte is clocked,
the levels of SDI at the clocks that follow, and whether SEL# rises at its end. A whole transaction is one portion that
opens and closes (log 10). -/
structure Portion where
  opens : Bool
  sdi : List Bool
  closes : Bool
  deriving DecidableEq, Repr, Inhabited

/-- The commands: the rows of spec/opcode_table.json. -/
inductive Instr where
  | coldReset
  | startUp (selLowA selLowB : Bool)
  | tick
  | leaseExpiry (region : Fin 16)
  | lapsedDeadline
  | attach (port : PortId) (tag : Byte)
  | detach (port : PortId) (tag : Byte)
  | read (port : PortId) (tag region count : Byte) (offset : Word24)
  | write (port : PortId) (tag region count : Byte) (offset : Word24) (payload : List Byte)
  | flush (port : PortId) (tag region : Byte)
  | claim (port : PortId) (tag region : Byte)
  | renew (port : PortId) (tag region : Byte)
  | release (port : PortId) (tag region : Byte)
  | fix (port : PortId) (tag region : Byte)
  | queryRegion (port : PortId) (tag region : Byte)
  | propose (port : PortId) (tag : Byte) (fields : ProposeFields)
  | answer (port : PortId) (tag id answer : Byte)
  | withdraw (port : PortId) (tag id : Byte)
  | inquire (port : PortId) (tag : Byte)
  | quiesce (port : PortId) (tag : Byte)
  | resume (port : PortId) (tag : Byte)
  | mediaRestart (port : PortId) (tag : Byte)
  | unknownRequestCode (port : PortId) (tag code : Byte)
  | fetch (port : PortId) (io : Portion)
  | peek (port : PortId) (io : Portion)
  | portReset (port : PortId)
  | unknownTypeByte (port : PortId) (typeByte : Byte) (io : Portion)
  | truncatedTypeByte (port : PortId) (bits : List Bool)
  | clockedPortReset (port : PortId) (io : Portion)
  | writePlacement (port : PortId)
  | writeThroughCompletion (waiter : Nat)
  | flushCompletion (waiter : Nat)
  | apply
  | readJobBegin
  | flushJobBegin
  | checkpointJobBegin
  | readJobAnswer (issue : Byte) (answer : ReadAnswer)
  | flushWriteAnswer (issue : Byte) (answer : WriteAnswer)
  | verifyAnswer (issue : Byte) (answer : ReadAnswer)
  | spareWriteAnswer (issue : Byte) (answer : WriteAnswer)
  | checkpointWriteAnswer (issue : Byte) (answer : WriteAnswer)
  | quiesceEnd
  | identifyAnswer (issue : Byte) (blockCount : BitVec 32) (blockSize : BitVec 16)
  | loadReadAnswer (issue : Byte) (answer : ReadAnswer)
  | operationTimeout
  | malformedAnswer (reply : List Byte)
  | submitFrameDiscarded (port : PortId) (io : Portion)
  deriving DecidableEq, Repr, Inhabited

end Sys2Proof
end

