-- ==== Sys2Proof/Decode.lean ====
section
/-! DEFINITION. The command a table word spells. spec/opcode_table.json gives no row any bits (its rows are operations and
events of a block, not words), so no word spells a command. -/

namespace Sys2Proof

/-- No row of spec/opcode_table.json has bits ("n_rows_with_fixed": 0 in spec/98_reader.md): every word is refused. -/
def decodeTableWord (_nbits _w : Nat) : Option Instr := none

end Sys2Proof
end

