-- ==== Sys2Proof/Config.lean ====
section
/-! DEFINITION. What an implementation fixes and what the spec leaves open: the fixed values of spec/00 section 0.5, and
the free values, uninterpreted constants of which nothing can be proved. -/

namespace Sys2Proof.Config

/-- Bytes in a block (0.5). -/
def blockSize : Nat := 512
/-- Blocks of the metadata area, two copies of 12 (0.5, R98). -/
def metadataBlocks : Nat := 24
/-- Blocks of one metadata copy (R155). -/
def copyBlocks : Nat := 12
/-- Least and greatest number of physical blocks (0.5, R144). -/
def minBlocks : Nat := 1024
def maxBlocks : Nat := 1048576
/-- Least and greatest spare count, and the count on a blank medium (0.5). -/
def minSpares : Nat := 16
def maxSpares : Nat := 1024
def blankSpares : Nat := 64
/-- Least number of logical blocks (0.5). -/
def minLogical : Nat := 256
/-- Pressure marks (R85). -/
def pressureOn : Nat := 48
def pressureOff : Nat := 40
/-- Blocks in one READ or WRITE (0.5, R58). -/
def maxCount : Nat := 8
/-- Outstanding requests of a port (R54). -/
def maxOutstanding : Nat := 8
/-- Notice room of a response queue (R65). -/
def noticeRoom : Nat := 4
/-- Length of the candidate list (R112). -/
def maxCandidates : Nat := 32
/-- Spare reserve mark (R114). -/
def spareReserve : Nat := 8
/-- Spares tried for one failing block (R107). -/
def maxSparesTried : Nat := 3
/-- Read attempts for one block (R127). -/
def maxAttempts : Nat := 3
/-- Media operation deadline in ms (R142). -/
def deadlineMs : Nat := 50
/-- Consecutive timeouts to media FAULT (R143). -/
def maxTimeouts : Nat := 3
/-- The highest generation (R154). -/
def maxGeneration : Nat := 0xFFFFFFFF
/-- Where the FLUSH lost count stops (R94) and where the quiesce lost count stops (R168). -/
def maxFlushLost : Nat := 0xFFFFFF
def maxQuiesceLost : Nat := 255

/-- FREE VALUE (log 2). The choice the part makes where the spec lets either of several things be taken first; it is read
with the counter `State.choices`. -/
opaque choice : Nat → Nat

/-- One saved region definition of a metadata copy (R155); its persistence is KEPT. -/
structure SavedRegion where
  id : Nat
  base : Nat
  length : Nat
  exclusive : Bool
  peerRead : Bool
  through : Bool
  leasePeriod : Nat
  deriving DecidableEq, Repr, Inhabited

/-- What a checkpoint saves: the snapshot of R159. -/
structure Snapshot where
  phase : Phase
  p : Nat
  s : Nat
  regions : List SavedRegion
  spares : List Spare
  deriving DecidableEq, Repr, Inhabited

/-- The fields of R155 as they are read from the 6,144 bytes of a copy; `phase` is none for a code that is neither
PROVISIONING nor AGREED. -/
structure RawCopy where
  mark : BitVec 32
  generation : Nat
  p : Nat
  phase : Option Phase
  s : Nat
  regions : List SavedRegion
  spares : List Spare
  closing : Nat
  crc : BitVec 32
  deriving DecidableEq, Repr, Inhabited

/-- FREE VALUE (log 7). The fixed value the T418 writes at the start of every copy (R155); that it is four bytes long is a DESIGN
CHOICE. -/
opaque formatMark : BitVec 32

/-- FREE VALUE (log 7). How a generation fills its four bytes: R155 does not give it. -/
opaque generationCode : Equiv.Perm (BitVec 32)

/-- FREE VALUE (log 7). The order of the four bytes of the CRC-32: which of them, counted from the most significant, stands in each
place. R155 gives the value of the CRC and the four places, not this order. -/
opaque crcOrder : Equiv.Perm (Fin 4)

/-- Bytes of the header after the generation, of a region definition and of a spare entry (log 7). -/
def headerBytes : Nat := 8
def definitionBytes : Nat := 9
def spareBytes : Nat := 3

/-- FREE VALUE (log 7). How P, the table phase, S and the number of definitions fill the rest of the header, how a definition
fills its bytes, and a spare entry its: R155 does not give their coding. -/
opaque headerCode : Equiv.Perm (Vector Byte headerBytes)
opaque definitionCode : Equiv.Perm (Vector Byte definitionBytes)
opaque spareCode : Equiv.Perm (Vector Byte spareBytes)

/-- FREE VALUE (log 11). SDO at a clock for which R175 gives it no value: after B4h, and in a transaction that began in cold
reset; it is read with the counter `State.choices`. -/
opaque strayBit : Nat → Bool

/-- FREE VALUE (log 18). The level of MSCK between two exchanges, which R141 does not give. -/
opaque idleClock : Bool

end Sys2Proof.Config
end

