-- ==== Sys2Proof/Machine/State.lean ====
section
/-! DEFINITION. The state of the T418 as plain data, block by block as spec/00 section 0.2 lists them, the outcomes a step
can have, and the state after cold reset. -/

namespace Sys2Proof.Machine

/-- No event of the part stops it (log 27): no constructor, so no meaning can fault. -/
inductive Fault where
  deriving DecidableEq, Repr

/-- Reasons for which a command has no meaning. -/
inductive Refusal where
  /-- Raised by a refused arm of `exec` only, for a command that has no meaning yet; safe. No arm raises it. -/
  | notModelled (mnemonic : String)
  deriving DecidableEq, Repr

/-! ### Vocabulary of the blocks -/

/-- Service state (R164). -/
inductive ServiceState where
  | starting
  | ready
  | quiescing
  | quiesced
  deriving DecidableEq, Repr

/-- Media state (R139). -/
inductive MediaState where
  | unknown
  | online
  | fault
  deriving DecidableEq, Repr

/-- Last checkpoint result (R154). -/
inductive CheckpointResult where
  | none
  | good
  | failed
  deriving DecidableEq, Repr

/-- The two metadata copies (R98). -/
inductive CopyId where
  | copy0
  | copy1
  deriving DecidableEq, Repr

/-- State of a region record (R2). -/
inductive RegionState where
  | undefined
  | defined
  | fixed
  deriving DecidableEq, Repr

/-- A hold: the holder with its lease_remaining (R9). -/
structure Hold where
  holder : PortId
  remaining : Nat
  deriving DecidableEq, Repr

/-- A region record (R1). -/
structure Region where
  state : RegionState
  base : Nat
  length : Nat
  attrs : Attrs
  leasePeriod : Nat
  hold : Option Hold
  changing : Bool
  deriving DecidableEq, Repr

/-- The UNDEFINED record (R1, R22); the fields without a meaning are zero (log 9). -/
def Region.undefinedRecord : Region :=
  { state := .undefined, base := 0, length := 0, attrs := ⟨false, false, false, false⟩, leasePeriod := 0,
    hold := none, changing := false }

/-- The change a proposal asks for: its kind and the new values that the kind uses (R24, R27). -/
inductive Change where
  | define (region : Fin 16) (base length : Nat) (attrs : Attrs) (leasePeriod : Nat)
  | delete (region : Fin 16)
  | resize (region : Fin 16) (length : Nat)
  | reconfigure (region : Fin 16) (attrs : Attrs) (leasePeriod : Nat)
  | resetTable
  | close
  | setSpares (count : Nat)
  deriving DecidableEq, Repr

/-- OPEN with window_remaining, or APPLYING (R24). -/
inductive ProposalState where
  | opened (window : Nat)
  | applying
  deriving DecidableEq, Repr

/-- The proposal record (R24). -/
structure Proposal where
  id : Nat
  proposer : PortId
  change : Change
  state : ProposalState
  deriving DecidableEq, Repr

/-! ### Requests, completions and notices -/

/-- Completion statuses (R68). -/
inductive Status where
  | ok
  | partialOk
  | notReady
  | notOnline
  | badRequest
  | noRegion
  | outOfBounds
  | noRight
  | notHolder
  | held
  | regionChanging
  | leaseLost
  | proposalPending
  | noSuchProposal
  | invalidChange
  | targetFixed
  | peerAbsent
  | wrongPhase
  | quiesced
  | mediaFault
  | readError
  | writeError
  | portBusy
  deriving DecidableEq, Repr

/-- Proposal state as a PROPOSE completion reports it (R189). -/
inductive ProposalReport where
  | none
  | opened
  | applying
  deriving DecidableEq, Repr

/-- The INQUIRE result (R70). -/
structure Inquiry where
  service : ServiceState
  media : MediaState
  loaded : Bool
  phase : Phase
  p : Nat
  s : Nat
  l : Nat
  freeSpares : Nat
  inUseSpares : Nat
  retiredSpares : Nat
  candidates : Nat
  dirty : Nat
  forced : Bool
  checkpointPending : Bool
  lastResult : CheckpointResult
  generation : Nat
  deriving DecidableEq, Repr

/-- Result fields of a completion (R62, R188); `blank` is zero in every field. -/
inductive Result where
  | blank
  | attach (identity : PortId) (service : ServiceState) (media : MediaState) (loaded : Bool) (phase : Phase) (peerOnline : Bool)
  | read (good failing : Nat) (data : List Block)
  | lost (count : Nat)
  | lease (remaining : Nat)
  | region (record : Region)
  | proposal (id : Nat) (state : ProposalReport)
  | inquire (inquiry : Inquiry)
  deriving DecidableEq, Repr

/-- A completion: the tag and code of its request, its status and its result fields (R62). -/
structure Completion where
  tag : Byte
  code : Byte
  status : Status
  result : Result
  deriving DecidableEq, Repr

/-- Reasons of an OUTCOME notice (R46, R69). -/
inductive OutcomeReason where
  | applied
  | declined
  | lapsedDeadline
  | lapsedPeerAbsent
  | lapsedTargetFixed
  | withdrawnProposer
  | withdrawnProposerOffline
  deriving DecidableEq, Repr

/-- Reasons of a HOLD_LOST notice (R69). -/
inductive HoldLostReason where
  | expired
  | reconfigured
  | deleted
  deriving DecidableEq, Repr

/-- Notices with their contents (R69). -/
inductive Notice where
  | proposal (id : Nat) (change : Change) (window : Nat)
  | outcome (reason : OutcomeReason) (id : Nat) (change : Change)
  | holdLost (reason : HoldLostReason) (region : Fin 16)
  | writeLost (region : Fin 16) (offset : Nat)
  | checkpointFailed (generation : Nat)
  | mediaFault
  | mediaRestored
  | serviceQuiesced
  | serviceResumed
  | peerOnline
  | peerOffline
  deriving DecidableEq, Repr

/-- A frame of a response queue: a completion, or a notice with its gap flag (R63, R65). -/
inductive Frame where
  | completion (c : Completion)
  | notice (n : Notice) (gap : Bool)
  deriving DecidableEq, Repr

/-- States of a request record (R53); PRESENTED is split into its two cases. -/
inductive RecordState where
  | awaitingTurn
  | awaitingSlots
  | dispatched
  | started
  | complete
  deriving DecidableEq, Repr

/-- A request record (R53). -/
structure Record where
  tag : Byte
  request : Request
  state : RecordState
  deriving DecidableEq, Repr

/-! ### Port unit -/

/-- The four sticky flags (R48). -/
structure Sticky where
  frameError : Bool
  overrun : Bool
  tagClash : Bool
  noticesLost : Bool
  deriving DecidableEq, Repr

def Sticky.clear : Sticky := ⟨false, false, false, false⟩

/-- Why the frame receiver ignores a transaction (R176): an unknown type byte, a clock after B4h, or SEL# low at the end of
cold reset. -/
inductive Ignored where
  | unknownType
  | clockedReset
  | sinceColdReset
  deriving DecidableEq, Repr

/-- States of the frame receiver with the progress of the transaction in hand (R176). `sending` holds the bytes of the
frame chosen, whether it stands in the response queue (an EMPTY frame does not), and the fetch position in bits; `peeking`
the status bytes taken so far, the position and the flags that the last bit clears (R182). -/
inductive Receiver where
  | idle
  | typing (bits : List Bool)
  | receiving (bits : List Bool)
  | sending (frame : List Byte) (queued : Bool) (position : Nat)
  | peeking (bytes : List Byte) (position : Nat) (toClear : Sticky)
  | resetArmed
  | ignoring (why : Ignored)
  deriving DecidableEq, Repr

/-- A port unit (R48). `sdo` is the model's own: the bits on SDO at the clocks since SEL# last fell (R175, log 11). -/
structure PortUnit where
  online : Bool
  requests : List Record
  queue : List Frame
  flags : Sticky
  gapPending : Bool
  receiver : Receiver
  sdo : List Bool
  deriving DecidableEq, Repr

/-- A port unit after cold reset (R48). -/
def PortUnit.coldReset : PortUnit :=
  { online := false, requests := [], queue := [], flags := Sticky.clear, gapPending := false, receiver := .idle, sdo := [] }

/-! ### Agreement Unit -/

/-- The Agreement Unit (R24 to R26). `entering` is the model's own: the port whose request has just made the proposal
APPLYING, while the drain has not yet been judged in that event (R40, log 17). -/
structure Agreement where
  proposal : Option Proposal
  nextId : Nat
  phase : Phase
  entering : Option PortId
  deriving DecidableEq, Repr

/-! ### Staging Buffer -/

/-- Number of a slot; slots are not numbered for the outside (R73). -/
abbrev SlotId := Fin 64

/-- What a DIRTY or FLUSHING slot holds (R73). -/
structure Dirty where
  lbn : Nat
  region : Fin 16
  firstDirty : Nat
  lastWrite : Nat
  relocate : Bool
  data : Block
  deriving DecidableEq, Repr

/-- A slot in its state, with the fields present in that state (R73, R74). -/
inductive Slot where
  | free
  | clean (lbn : Nat) (region : Fin 16) (data : Block)
  | dirty (d : Dirty)
  | flushing (d : Dirty) (flushingWrite : Nat)
  deriving DecidableEq, Repr

/-- State of an entry of a write-through waiter (R82). -/
inductive EntryState where
  | awaiting
  | satisfied
  | lost
  deriving DecidableEq, Repr

/-- An entry of a write-through waiter: the block's slot and the entry's state (R82). -/
structure Entry where
  slot : SlotId
  state : EntryState
  deriving DecidableEq, Repr

/-- A write-through waiter (R82); the region is the one its WRITE names (log 19). -/
structure WtWaiter where
  port : PortId
  tag : Byte
  detached : Bool
  region : Fin 16
  position : Nat
  entries : List Entry
  deriving DecidableEq, Repr

/-- A FLUSH waiter (R93); scope none is every slot (FFh). -/
structure FlushWaiter where
  port : PortId
  tag : Byte
  detached : Bool
  scope : Option (Fin 16)
  mark : Nat
  lost : Nat
  deriving DecidableEq, Repr

/-- The drain scope: the extents leaving the table (R41, R96). -/
inductive DrainScope where
  | nothing
  | extent (first count : Nat)
  | everything
  deriving DecidableEq, Repr

/-- The Staging Buffer (R73 to R97). -/
structure Staging where
  slots : Vector Slot 64
  dirtyOrder : List SlotId
  cleanOrder : List SlotId
  writeOrder : Nat
  wtWaiters : List WtWaiter
  flushWaiters : List FlushWaiter
  pressure : Bool
  forced : Bool
  drain : DrainScope
  deriving DecidableEq, Repr

/-- The Staging Buffer after cold reset (R97). -/
def Staging.coldReset : Staging :=
  { slots := Vector.replicate 64 .free, dirtyOrder := [], cleanOrder := [], writeOrder := 0, wtWaiters := [],
    flushWaiters := [], pressure := false, forced := false, drain := .nothing }

/-! ### Block Map -/

/-- P and S once they have values (R99). -/
structure Geometry where
  p : Nat
  s : Nat
  deriving DecidableEq, Repr

/-- The Block Map (R99, R101, R112). -/
structure BlockMap where
  geometry : Option Geometry
  spares : List Spare
  candidates : List Nat
  deriving DecidableEq, Repr

/-- The Block Map after cold reset (R117). -/
def BlockMap.coldReset : BlockMap := { geometry := none, spares := [], candidates := [] }

/-! ### Media Scheduler -/

/-- A READ in a read wait list: its missed blocks are the empty places of its data area (R121). -/
structure WaitingRead where
  tag : Byte
  region : Fin 16
  offset : Nat
  count : Nat
  lbn : Nat
  area : List (Option Block)
  deriving DecidableEq, Repr

/-- A read job (R126). `todo` are the numbers of the missed blocks not yet ended, the one in hand first. -/
structure ReadJob where
  port : PortId
  detached : Bool
  read : WaitingRead
  todo : List Nat
  attempt : Nat
  deriving DecidableEq, Repr

/-- Where a flush write goes (R103). -/
inductive Target where
  | current
  | spare (index : Nat)
  deriving DecidableEq, Repr

/-- A flush job with the Block Map's trial record (R87, R103). -/
structure FlushJob where
  slot : SlotId
  lbn : Nat
  data : Block
  relocate : Bool
  target : Target
  tried : Nat
  verify : Bool
  deriving DecidableEq, Repr

/-- A checkpoint job, which is also the Metadata Store's checkpoint in progress (R154, R159). -/
structure CheckpointJob where
  snapshot : Config.Snapshot
  copy : CopyId
  generation : Nat
  written : Nat
  deriving DecidableEq, Repr

/-- Step of an identify job: the IDENTIFY, or the load reads with the blocks ended so far (none is UNRECOVERABLE) and the
attempt count of the block in hand (R133). -/
inductive IdentifyStep where
  | identifying
  | loading (blocks : List (Option Block)) (attempt : Nat)
  deriving DecidableEq, Repr

/-- The job in progress (R119). -/
inductive Job where
  | read (job : ReadJob)
  | flush (job : FlushJob)
  | checkpoint (job : CheckpointJob)
  | identify (step : IdentifyStep)
  deriving DecidableEq, Repr

/-- The Media Scheduler (R120). -/
structure Scheduler where
  job : Option Job
  waitA : List WaitingRead
  waitB : List WaitingRead
  lastServed : PortId
  yield : Bool
  deriving DecidableEq, Repr

/-- The Media Scheduler after cold reset (R120). -/
def Scheduler.coldReset : Scheduler := { job := none, waitA := [], waitB := [], lastServed := .B, yield := false }

/-! ### Media Link Controller -/

/-- A media operation (R138, R140). -/
inductive Op where
  | identify
  | read (pbn : Nat)
  | write (pbn : Nat) (data : Block)
  deriving DecidableEq, Repr

/-- A request that waits for a restart or for the end of a quiesce (R138, R168). -/
structure Waiter where
  port : PortId
  tag : Byte
  detached : Bool
  deriving DecidableEq, Repr

/-- The Media Link Controller (R138). `issueNo` 0 stands for no number yet; `identified` is the identified P that the table
load judges the copies by (R144). -/
structure MediaLink where
  media : MediaState
  flight : Option Op
  issueNo : Nat
  deadline : Option Nat
  timeouts : Nat
  restart : Bool
  restartWaiters : List Waiter
  identified : Option Nat
  deriving DecidableEq, Repr

/-- The Media Link Controller after cold reset (R138). -/
def MediaLink.coldReset : MediaLink :=
  { media := .unknown, flight := none, issueNo := 0, deadline := none, timeouts := 0, restart := false,
    restartWaiters := [], identified := none }

/-! ### Metadata Store and Service Control -/

/-- The Metadata Store (R154); the checkpoint in progress is the scheduler's job. -/
structure MetaStore where
  loaded : Bool
  newest : Option CopyId
  generation : Nat
  checkpointPending : Bool
  lastResult : CheckpointResult
  deriving DecidableEq, Repr

/-- The Metadata Store after cold reset (R154). -/
def MetaStore.coldReset : MetaStore :=
  { loaded := false, newest := none, generation := 0, checkpointPending := false, lastResult := .none }

/-- The quiesce record (R168). `ended` is the model's own: the outcome (good or failed) of the checkpoint job whose end in
the event in hand ends the quiesce (R172, log 26). -/
structure Quiesce where
  waiters : List Waiter
  lost : Nat
  begun : Bool
  ended : Option Bool
  deriving DecidableEq, Repr

/-- Service Control (R164); the timebase counts the ticks made since the cold reset ended (log 6). -/
structure ServiceControl where
  state : ServiceState
  ticks : Nat
  quiesce : Option Quiesce
  deriving DecidableEq, Repr

/-- Service Control after cold reset (R164). -/
def ServiceControl.coldReset : ServiceControl := { state := .starting, ticks := 0, quiesce := none }

/-- The model's own: how many frames of each response queue were there before the event in hand (R64, log 1). -/
structure EventMarks where
  baseA : Nat
  baseB : Nat
  deriving DecidableEq, Repr

/-- The model's own: what the tick in hand has still to count, each in an event of its own: leases with one tick left, and the
window of an OPEN proposal with one tick left (R14, R34, log 21). -/
structure TickMarks where
  leases : List (Fin 16)
  window : Bool
  deriving DecidableEq, Repr

/-! ### The machine -/

structure State where
  pending : List Instr
  resetLow : Bool
  portA : PortUnit
  portB : PortUnit
  regions : Vector Region 16
  agree : Agreement
  staging : Staging
  blockMap : BlockMap
  sched : Scheduler
  link : MediaLink
  store : MetaStore
  service : ServiceControl
  ticking : TickMarks
  event : EventMarks
  choices : Nat
  deriving DecidableEq, Repr

/-- Every block in its cold reset state, RESET# low (R22, R47, R48, R97, R117, R120, R138, R154, R164, R192; log 5). -/
def State.reset : State :=
  { pending := [], resetLow := true, portA := PortUnit.coldReset, portB := PortUnit.coldReset,
    regions := Vector.replicate 16 Region.undefinedRecord,
    agree := { proposal := none, nextId := 1, phase := .provisioning, entering := none },
    staging := Staging.coldReset, blockMap := BlockMap.coldReset, sched := Scheduler.coldReset,
    link := MediaLink.coldReset, store := MetaStore.coldReset, service := ServiceControl.coldReset,
    ticking := ⟨[], false⟩, event := ⟨0, 0⟩, choices := 0 }

end Sys2Proof.Machine
end

