-- ==== Sys2Proof/Machine/Operands.lean ====
section
/-! DEFINITION. The operand forms of the commands: the request header, its fields and their checks (R27, R58, R68, R186),
bytes and bits of the wires (R175), and the coding of states (R189). -/

namespace Sys2Proof

/-- The peer of a port (0.4.5). -/
def PortId.other : PortId → PortId
  | .A => .B
  | .B => .A

end Sys2Proof

namespace Sys2Proof.Machine

/-! ### Bits and bytes -/

/-- The bits of a byte, most significant first (R175). -/
def bitsOfByte (b : Byte) : List Bool :=
  [b.getLsbD 7, b.getLsbD 6, b.getLsbD 5, b.getLsbD 4, b.getLsbD 3, b.getLsbD 2, b.getLsbD 1, b.getLsbD 0]

def bitsOfBytes (bs : List Byte) : List Bool := bs.flatMap bitsOfByte

/-- The byte that a run of bits spells, most significant first. -/
def byteOfBits (bits : List Bool) : Byte :=
  bits.foldl (fun acc b => (acc <<< 1) ||| (if b then 1 else 0)) 0

/-- The whole bytes among sampled bits; an incomplete last byte is left out. -/
def bytesOfBits : List Bool → List Byte
  | b7 :: b6 :: b5 :: b4 :: b3 :: b2 :: b1 :: b0 :: rest => byteOfBits [b7, b6, b5, b4, b3, b2, b1, b0] :: bytesOfBits rest
  | _ => []

/-- Big-endian bytes of a number (0.4.2). -/
def be24 (n : Nat) : List Byte := [BitVec.ofNat 8 (n / 65536), BitVec.ofNat 8 (n / 256), BitVec.ofNat 8 n]
def be16 (n : Nat) : List Byte := [BitVec.ofNat 8 (n / 256), BitVec.ofNat 8 n]
def be32 (n : Nat) : List Byte :=
  [BitVec.ofNat 8 (n / 16777216), BitVec.ofNat 8 (n / 65536), BitVec.ofNat 8 (n / 256), BitVec.ofNat 8 n]

/-- A 24-bit field from its three bytes, big-endian. -/
def word24 (hi mid lo : Byte) : Word24 := BitVec.ofNat 24 (hi.toNat * 65536 + mid.toNat * 256 + lo.toNat)

/-- Block i of a WRITE payload (R4: payload blocks follow the request's order). -/
def payloadBlock (payload : List Byte) (i : Nat) : Block := (payload.drop (Config.blockSize * i)).take Config.blockSize

/-! ### The request header (R186) -/

/-- Request codes (R68). -/
def requestCode : Request → Byte
  | .attach => 0x01
  | .detach => 0x02
  | .read .. => 0x10
  | .write .. => 0x11
  | .flush .. => 0x12
  | .claim .. => 0x20
  | .renew .. => 0x21
  | .release .. => 0x22
  | .fix .. => 0x23
  | .queryRegion .. => 0x24
  | .propose .. => 0x30
  | .answer .. => 0x31
  | .withdraw .. => 0x32
  | .inquire => 0x40
  | .quiesce => 0x41
  | .resume => 0x42
  | .mediaRestart => 0x43
  | .unknown c => c

/-- The request that a 16-byte header and its payload state. The payload of a WRITE whose count is out of range is not kept
(R58, R177). -/
def requestOfHeader (h payload : List Byte) : Request :=
  let b (i : Nat) : Byte := h.getD i 0
  let offset := word24 (b 4) (b 5) (b 6)
  let code := b 0
  if code = 0x01 then .attach
  else if code = 0x02 then .detach
  else if code = 0x10 then .read (b 2) (b 3) offset
  else if code = 0x11 then .write (b 2) (b 3) offset (if (b 3).toNat ≤ Config.maxCount then payload else [])
  else if code = 0x12 then .flush (b 2)
  else if code = 0x20 then .claim (b 2)
  else if code = 0x21 then .renew (b 2)
  else if code = 0x22 then .release (b 2)
  else if code = 0x23 then .fix (b 2)
  else if code = 0x24 then .queryRegion (b 2)
  else if code = 0x30 then
    .propose { region := b 2, base := offset, length := word24 (b 7) (b 8) (b 9), attrs := b 10, leasePeriod := b 11,
               kind := b 12, window := b 13 }
  else if code = 0x31 then .answer (b 14) (b 15)
  else if code = 0x32 then .withdraw (b 14)
  else if code = 0x40 then .inquire
  else if code = 0x41 then .quiesce
  else if code = 0x42 then .resume
  else if code = 0x43 then .mediaRestart
  else .unknown code

/-- Payload bytes that a frame with this code and count carries (R177). -/
def payloadLength (code count : Byte) : Nat := if code = 0x11 then Config.blockSize * count.toNat else 0

/-- Bytes of a request's frame: header, payload of a WRITE, CRC (R177). -/
def frameLength : Request → Nat
  | .write _ count _ _ => 18 + Config.blockSize * count.toNat
  | .attach | .detach | .read .. | .flush _ | .claim _ | .renew _ | .release _ | .fix _ | .queryRegion _ => 18
  | .propose _ | .answer .. | .withdraw _ | .inquire | .quiesce | .resume | .mediaRestart | .unknown _ => 18

/-- The header bytes of a request as a master sends it, with zero in the fields its code does not use (R186). -/
def headerOfRequest (tag : Byte) (q : Request) : List Byte :=
  let frame (region count : Byte) (offset : Word24) : List Byte :=
    [requestCode q, tag, region, count] ++ be24 offset.toNat ++ [0, 0, 0, 0, 0, 0, 0, 0, 0]
  match q with
  | .read r c o => frame r c o
  | .write r c o _ => frame r c o
  | .flush r => frame r 0 0
  | .claim r => frame r 0 0
  | .renew r => frame r 0 0
  | .release r => frame r 0 0
  | .fix r => frame r 0 0
  | .queryRegion r => frame r 0 0
  | .propose f => [0x30, tag, f.region, 0] ++ be24 f.base.toNat ++ be24 f.length.toNat ++
      [f.attrs, f.leasePeriod, f.kind, f.window, 0, 0]
  | .answer i a => [0x31, tag, 0, 0, 0, 0, 0, 0, 0, 0, 0, 0, 0, 0, i, a]
  | .withdraw i => [0x32, tag, 0, 0, 0, 0, 0, 0, 0, 0, 0, 0, 0, 0, i, 0]
  | .attach | .detach | .inquire | .quiesce | .resume | .mediaRestart | .unknown _ => frame 0 0 0

/-- The payload that follows the header. -/
def payloadOfRequest : Request → List Byte
  | .write _ _ _ d => d
  | _ => []

/-! ### Fields and their checks -/

/-- A region id 0..15, or none for a byte above 15 (R58). -/
def regionOf (b : Byte) : Option (Fin 16) := if h : b.toNat < 16 then some ⟨b.toNat, h⟩ else none

/-- The region field of FLUSH: all regions for FFh (R93). -/
inductive FlushScope where
  | all
  | one (region : Fin 16)
  deriving DecidableEq, Repr

def flushScopeOf (b : Byte) : Option FlushScope :=
  if b = 0xFF then some .all else (regionOf b).map .one

/-- The attributes byte (R186 byte 10); bits 4 to 7 are ignored. -/
def attrsOf (b : Byte) : Attrs :=
  { exclusive := b.getLsbD 0, peerRead := b.getLsbD 1, through := b.getLsbD 2, kept := b.getLsbD 3 }

/-- The attributes in bits 0 to 3 (R186, R188, R190). -/
def attrsCode (a : Attrs) : Nat :=
  (if a.exclusive then 1 else 0) + (if a.peerRead then 2 else 0) + (if a.through then 4 else 0) + (if a.kept then 8 else 0)

/-- The change a PROPOSE asks for, or none where the field check refuses it BAD_REQUEST (R27). -/
def changeOf (f : ProposeFields) : Option Change :=
  if f.window = 0 then none
  else if f.kind = 1 then
    if f.leasePeriod = 0 then none
    else (regionOf f.region).map fun r => .define r f.base.toNat f.length.toNat (attrsOf f.attrs) f.leasePeriod.toNat
  else if f.kind = 2 then (regionOf f.region).map .delete
  else if f.kind = 3 then (regionOf f.region).map fun r => .resize r f.length.toNat
  else if f.kind = 4 then
    if f.leasePeriod = 0 then none
    else (regionOf f.region).map fun r => .reconfigure r (attrsOf f.attrs) f.leasePeriod.toNat
  else if f.kind = 5 then some .resetTable
  else if f.kind = 6 then some .close
  else if f.kind = 7 then some (.setSpares f.length.toNat)
  else none

/-- A block count of a READ or WRITE in 1..8 (R58). -/
def countOk (count : Byte) : Bool := decide (1 ≤ count.toNat) && decide (count.toNat ≤ Config.maxCount)

/-- The field check: true when the request is refused BAD_REQUEST (R58). -/
def badFields : Request → Bool
  | .read r c _ => (regionOf r).isNone || !countOk c
  | .write r c _ _ => (regionOf r).isNone || !countOk c
  | .flush r => (flushScopeOf r).isNone
  | .claim r => (regionOf r).isNone
  | .renew r => (regionOf r).isNone
  | .release r => (regionOf r).isNone
  | .fix r => (regionOf r).isNone
  | .queryRegion r => (regionOf r).isNone
  | .propose f => (changeOf f).isNone
  | .answer _ a => a != 1 && a != 2
  | .unknown _ => true
  | .attach | .detach | .withdraw _ | .inquire | .quiesce | .resume | .mediaRestart => false

/-- A request without its WRITE payload, which is dropped when the request is placed or ended (R58, R79). -/
def withoutPayload : Request → Request
  | .write r c o _ => .write r c o []
  | q => q

/-! ### Codes (R68, R69, R189) -/

def statusCode : Status → Byte
  | .ok => 0x00
  | .partialOk => 0x01
  | .notReady => 0x02
  | .notOnline => 0x03
  | .badRequest => 0x04
  | .noRegion => 0x05
  | .outOfBounds => 0x06
  | .noRight => 0x07
  | .notHolder => 0x08
  | .held => 0x09
  | .regionChanging => 0x0A
  | .leaseLost => 0x0B
  | .proposalPending => 0x0C
  | .noSuchProposal => 0x0D
  | .invalidChange => 0x0E
  | .targetFixed => 0x0F
  | .peerAbsent => 0x10
  | .wrongPhase => 0x11
  | .quiesced => 0x12
  | .mediaFault => 0x13
  | .readError => 0x14
  | .writeError => 0x15
  | .portBusy => 0x16

def serviceCode : ServiceState → Nat
  | .starting => 0
  | .ready => 1
  | .quiescing => 2
  | .quiesced => 3

def mediaCode : MediaState → Nat
  | .unknown => 0
  | .online => 1
  | .fault => 2

def phaseCode : Phase → Nat
  | .provisioning => 0
  | .agreed => 1

def regionStateCode : RegionState → Nat
  | .undefined => 0
  | .defined => 1
  | .fixed => 2

def holderCode : Option Hold → Nat
  | none => 0
  | some h => match h.holder with
    | .A => 1
    | .B => 2

def proposalReportCode : ProposalReport → Nat
  | .none => 0
  | .opened => 1
  | .applying => 2

def resultCode : CheckpointResult → Nat
  | .none => 0
  | .good => 1
  | .failed => 2

def flagCode (b : Bool) : Nat := if b then 1 else 0

/-- Proposal kinds (R186 byte 12). -/
def changeKindCode : Change → Nat
  | .define .. => 1
  | .delete _ => 2
  | .resize .. => 3
  | .reconfigure .. => 4
  | .resetTable => 5
  | .close => 6
  | .setSpares _ => 7

/-- The region a change names (R24). -/
def changeRegion : Change → Option (Fin 16)
  | .define r .. => some r
  | .delete r => some r
  | .resize r _ => some r
  | .reconfigure r .. => some r
  | .resetTable | .close | .setSpares _ => none

def outcomeCode : OutcomeReason → Byte
  | .applied => 1
  | .declined => 2
  | .lapsedDeadline => 3
  | .lapsedPeerAbsent => 4
  | .lapsedTargetFixed => 5
  | .withdrawnProposer => 6
  | .withdrawnProposerOffline => 7

def holdLostCode : HoldLostReason → Byte
  | .expired => 1
  | .reconfigured => 2
  | .deleted => 3

end Sys2Proof.Machine
end

