-- ==== Sys2Proof/Machine/Frames.lean ====
section
/-! DEFINITION. The bytes that leave the part: the CRCs (R155, R179), response frames (R187, R188, R190), the INQUIRE
payload (R191), the messages of the media link (R141), and the metadata copies (R155), with the reading of them. -/

namespace Sys2Proof.Machine

/-! ### Cyclic redundancy checks -/

/-- One bit into the CRC-16 register: polynomial 1021h, not reflected (R179). -/
def crc16Bit (crc : BitVec 16) (b : Bool) : BitVec 16 :=
  if (crc.getLsbD 15).xor b then (crc <<< 1) ^^^ 0x1021 else crc <<< 1

/-- CRC-16 of bytes, initial value FFFFh, not inverted (R179). -/
def crc16 (bytes : List Byte) : BitVec 16 := (bitsOfBytes bytes).foldl crc16Bit 0xFFFF

/-- The two CRC bytes, high byte first (R177, R179). -/
def crc16Bytes (bytes : List Byte) : List Byte := be16 (crc16 bytes).toNat

/-- One bit into the CRC-32 register: polynomial 04C11DB7h (R155). -/
def crc32Bit (crc : BitVec 32) (b : Bool) : BitVec 32 :=
  if (crc.getLsbD 31).xor b then (crc <<< 1) ^^^ 0x04C11DB7 else crc <<< 1

/-- CRC-32 of bytes, initial value FFFFFFFFh, most significant bit first, no final inversion (R155). -/
def crc32 (bytes : List Byte) : BitVec 32 := (bitsOfBytes bytes).foldl crc32Bit 0xFFFFFFFF

/-! ### Response frames -/

/-- A 16-byte response header (R187). -/
def responseHeader (b0 b1 b2 : Byte) (b3 : Nat) (a b : List Byte) (b10 c d id : Nat) (b14 : Nat) (b15 : Byte) : List Byte :=
  [b0, b1, b2, BitVec.ofNat 8 b3] ++ a ++ b ++
    [BitVec.ofNat 8 b10, BitVec.ofNat 8 c, BitVec.ofNat 8 d, BitVec.ofNat 8 id, BitVec.ofNat 8 b14, b15]

/-- The INQUIRE payload, 32 bytes (R191). -/
def inquiryPayload (q : Inquiry) : List Byte :=
  [BitVec.ofNat 8 (serviceCode q.service), BitVec.ofNat 8 (mediaCode q.media), BitVec.ofNat 8 (flagCode q.loaded),
    BitVec.ofNat 8 (phaseCode q.phase)] ++
  be24 q.p ++ be24 q.l ++ be16 q.s ++ be16 q.freeSpares ++ be16 q.inUseSpares ++ be16 q.retiredSpares ++
  [BitVec.ofNat 8 q.candidates, BitVec.ofNat 8 q.dirty, BitVec.ofNat 8 (flagCode q.forced),
    BitVec.ofNat 8 (flagCode q.checkpointPending), BitVec.ofNat 8 (resultCode q.lastResult)] ++
  be32 q.generation ++ [0, 0, 0, 0, 0]

/-- Header and payload of a completion (R187, R188); `more` is the more-queued flag. -/
def completionBytes (c : Completion) (more : Bool) : List Byte :=
  let head (b3 a b b10 vc vd id : Nat) : List Byte :=
    responseHeader 1 c.tag (statusCode c.status) b3 (be24 a) (be24 b) b10 vc vd id (2 * flagCode more) c.code
  match c.result with
  | .blank => head 0 0 0 0 0 0 0
  | .attach identity service media loaded phase peer =>
      head 0 0 0 (serviceCode service + 4 * mediaCode media + 16 * flagCode loaded + 32 * phaseCode phase + 64 * flagCode peer)
        (match identity with | .A => 0 | .B => 1) 0 0
  | .read good failing data => head data.length good failing 0 0 0 0 ++ data.flatten
  | .lost n => head 0 n 0 0 0 0 0
  | .lease n => head 0 0 0 0 n 0 0
  | .region r => head (regionStateCode r.state + 4 * holderCode r.hold + 16 * flagCode r.changing) r.base r.length
      (attrsCode r.attrs) r.leasePeriod (match r.hold with | some h => h.remaining | none => 0) 0
  | .proposal id st => head 0 0 0 (proposalReportCode st) 0 0 id
  | .inquire q => head 0 0 0 0 0 0 0 ++ inquiryPayload q

/-- Header of a notice (R187, R190). -/
def noticeBytes (n : Notice) (gap more : Bool) : List Byte :=
  let b14 := flagCode gap + 2 * flagCode more
  let head (kind reason : Byte) (region : Nat) (a b : List Byte) (b10 c d id : Nat) : List Byte :=
    responseHeader 2 kind reason region a b b10 c d id b14 0
  let regionByte (c : Change) : Nat := match changeRegion c with
    | some r => r.val
    | none => 0
  match n with
  | .proposal id c window =>
      let (base, length, attrs, lease) := match c with
        | .define _ b l a p => (b, l, attrsCode a, p)
        | .resize _ l => (0, l, 0, 0)
        | .reconfigure _ a p => (0, 0, attrsCode a, p)
        | .setSpares k => (0, k, 0, 0)
        | .delete _ | .resetTable | .close => (0, 0, 0, 0)
      head 1 0 (regionByte c) (be24 base) (be24 length) (attrs + 16 * changeKindCode c) lease window id
  | .outcome reason id c => head 2 (outcomeCode reason) (regionByte c) (be24 0) (be24 0) (16 * changeKindCode c) 0 0 id
  | .holdLost reason r => head 3 (holdLostCode reason) r.val (be24 0) (be24 0) 0 0 0 0
  | .writeLost r offset => head 4 0 r.val (be24 offset) (be24 0) 0 0 0 0
  | .checkpointFailed g => head 5 1 0 (be24 (g / 256)) [BitVec.ofNat 8 g, 0, 0] 0 0 0 0
  | .mediaFault => head 6 1 0 (be24 0) (be24 0) 0 0 0 0
  | .mediaRestored => head 6 2 0 (be24 0) (be24 0) 0 0 0 0
  | .serviceQuiesced => head 7 1 0 (be24 0) (be24 0) 0 0 0 0
  | .serviceResumed => head 7 2 0 (be24 0) (be24 0) 0 0 0 0
  | .peerOnline => head 8 1 0 (be24 0) (be24 0) 0 0 0 0
  | .peerOffline => head 8 2 0 (be24 0) (be24 0) 0 0 0 0

/-- A response frame as it is shifted out: header, payload and CRC-16 (R180). -/
def frameBytes (f : Frame) (more : Bool) : List Byte :=
  let body := match f with
    | .completion c => completionBytes c more
    | .notice n gap => noticeBytes n gap more
  body ++ crc16Bytes body

/-- The EMPTY frame (R180). -/
def emptyFrame : List Byte := List.replicate 16 0 ++ crc16Bytes (List.replicate 16 0)

/-- A whole request frame, as a master sends it after the type byte B1h (R177). -/
def requestFrame (tag : Byte) (q : Request) : List Byte :=
  let body := headerOfRequest tag q ++ payloadOfRequest q
  body ++ crc16Bytes body

/-- The request of a SUBMIT frame, or none where the frame is truncated, over-long or fails its CRC (R177, R178). -/
def submitVerdict (bits : List Bool) : Option (Byte × Request) :=
  let bytes := bytesOfBits bits
  let body := 16 + payloadLength (bytes.getD 0 0) (bytes.getD 3 0)
  if bytes.length < 16 then none
  else if bits.length ≠ 8 * (body + 2) then none
  else if bytes.drop body ≠ crc16Bytes (bytes.take body) then none
  else some (bytes.getD 1 0, requestOfHeader (bytes.take 16) ((bytes.take body).drop 16))

/-! ### Messages of the media link (R141) -/

/-- Issue message of an operation with its issue number. -/
def issueMessage (op : Op) (issueNo : Nat) : List Byte :=
  let body := match op with
    | .identify => [1, BitVec.ofNat 8 issueNo] ++ be24 0
    | .read pbn => [2, BitVec.ofNat 8 issueNo] ++ be24 pbn
    | .write pbn data => [3, BitVec.ofNat 8 issueNo] ++ be24 pbn ++ data
  0xA1 :: body ++ crc16Bytes body

/-- Poll message that asks about an issue number. -/
def pollMessage (issueNo : Nat) : List Byte :=
  0xA2 :: BitVec.ofNat 8 issueNo :: crc16Bytes [BitVec.ofNat 8 issueNo]

/-- An answer of the medium to the operation in flight (R140). -/
inductive Answer where
  | identify (blockCount blockSize : Nat)
  | read (answer : ReadAnswer)
  | write (answer : WriteAnswer)
  deriving DecidableEq, Repr

/-- A number from big-endian bytes. -/
def natOfBytes (bs : List Byte) : Nat := bs.foldl (fun n b => 256 * n + b.toNat) 0

/-- The check value at the end of a reply covers every byte of the message after the first (R141). -/
def replyChecked (reply : List Byte) (bodyLength : Nat) : Bool :=
  let body := (reply.drop 1).take bodyLength
  decide (body.length = bodyLength) && ((reply.drop (1 + bodyLength)).take 2 == crc16Bytes body)

/-- The answer a reply carries for the operation in flight and the current issue number; none where it is BUSY or malformed
(R140, R141). The controller knows the length from the outcome and the operation and reads no further. -/
def answerOfReply (op : Op) (issueNo : Nat) (reply : List Byte) : Option Answer :=
  let outcome := reply.getD 2 0
  let data := (reply.drop 3).take Config.blockSize
  if reply.head? ≠ some 1 then none
  else if (reply.getD 1 0).toNat ≠ issueNo then none
  else match op with
    | .identify =>
        if outcome = 1 && replyChecked reply 8 then
          some (.identify (natOfBytes ((reply.drop 3).take 4)) (natOfBytes ((reply.drop 7).take 2)))
        else none
    | .read _ =>
        if outcome = 1 && replyChecked reply (2 + Config.blockSize) then some (.read (.good data))
        else if outcome = 2 && replyChecked reply (2 + Config.blockSize) then some (.read (.corrected data))
        else if outcome = 3 && replyChecked reply 2 then some (.read .unrecoverable)
        else none
    | .write .. =>
        if outcome = 1 && replyChecked reply 2 then some (.write .good)
        else if outcome = 4 && replyChecked reply 2 then some (.write .failed)
        else none

/-! ### Metadata copies (R155) -/

/-- Bytes under a free code, padded with 00h or cut to its length. -/
def coded {n : Nat} (code : Equiv.Perm (Vector Byte n)) (fields : List Byte) : List Byte :=
  (code (Vector.ofFn fun i => fields.getD i 0)).toList

/-- What coded bytes stand for. -/
def decoded {n : Nat} (code : Equiv.Perm (Vector Byte n)) (bytes : List Byte) : List Byte := coded code.symm bytes

/-- What a saved region definition states: id, base, length, mode with peer_read and write_policy, lease_period (R155, log 7). -/
def definitionFields (d : Config.SavedRegion) : List Byte :=
  BitVec.ofNat 8 d.id :: be24 d.base ++ be24 d.length ++
    [BitVec.ofNat 8 (flagCode d.exclusive + 2 * flagCode d.peerRead + 4 * flagCode d.through), BitVec.ofNat 8 (d.leasePeriod - 1)]

/-- The definition that fields state; a lease_period is 1..255 (R1, log 7). -/
def definitionOf (b : List Byte) : Config.SavedRegion :=
  { id := (b.getD 0 0).toNat, base := natOfBytes ((b.drop 1).take 3), length := natOfBytes ((b.drop 4).take 3)
    exclusive := (b.getD 7 0).getLsbD 0, peerRead := (b.getD 7 0).getLsbD 1, through := (b.getD 7 0).getLsbD 2
    leasePeriod := (b.getD 8 0).toNat % 255 + 1 }

/-- What a spare entry states (R155, log 7). -/
def spareNumber : Spare → Nat
  | .free => 0
  | .retired => 1
  | .inUse lbn => lbn + 2

def spareOfNumber : Nat → Spare
  | 0 => .free
  | 1 => .retired
  | lbn + 2 => .inUse lbn

/-- What the header states after the generation: P, the table phase, S, and how many definitions follow (R155, log 7). -/
def headerFields (x : Config.Snapshot) : List Byte :=
  be32 x.p ++ [BitVec.ofNat 8 (phaseCode x.phase)] ++ be16 x.s ++ [BitVec.ofNat 8 x.regions.length]

def phaseOf (b : Byte) : Option Phase := if b = 0 then some .provisioning else if b = 1 then some .agreed else none

/-- A region definition, and a spare entry, as they stand in a copy. -/
def definitionBytes (d : Config.SavedRegion) : List Byte := coded Config.definitionCode (definitionFields d)
def spareBytes (e : Spare) : List Byte := coded Config.spareCode (be24 (spareNumber e))

/-- The four bytes of a generation. -/
def generationBytes (g : Nat) : List Byte := be32 (Config.generationCode (BitVec.ofNat 32 g)).toNat
def generationOf (b : List Byte) : Nat := (Config.generationCode.symm (BitVec.ofNat 32 (natOfBytes b))).toNat

/-- Four bytes in another order: at each place the byte that the order names. -/
def reordered (order : Equiv.Perm (Fin 4)) (bytes : List Byte) : List Byte :=
  (List.finRange 4).map fun i => bytes.getD (order i) 0

/-- The four bytes of the CRC-32, in an order that R155 leaves open (log 7). -/
def crc32Bytes (c : BitVec 32) : List Byte := reordered Config.crcOrder (be32 c.toNat)
def crc32Of (b : List Byte) : BitVec 32 := BitVec.ofNat 32 (natOfBytes (reordered Config.crcOrder.symm b))

/-- The header in the first block, the region definitions following it in id order, the spare table following them (R155). -/
def copyFields (x : Config.Snapshot) (generation : Nat) : List Byte :=
  be32 Config.formatMark.toNat ++ generationBytes generation ++ coded Config.headerCode (headerFields x) ++
    x.regions.flatMap definitionBytes ++ x.spares.flatMap spareBytes

/-- Bytes of a copy before its closing generation. -/
def copyRoom : Nat := 6136

/-- The 6,144 bytes of a copy: its fields, 00h in the unused bytes, the closing generation, and the CRC-32 over all of these
(R155). -/
def copyBytes (x : Config.Snapshot) (generation : Nat) : List Byte :=
  let body := (copyFields x generation ++ List.replicate copyRoom 0).take copyRoom ++ generationBytes generation
  body ++ crc32Bytes (crc32 body)

/-- Block k of a copy. -/
def copyBlock (x : Config.Snapshot) (generation k : Nat) : Block :=
  ((copyBytes x generation).drop (Config.blockSize * k)).take Config.blockSize

/-- A field of a copy: so many bytes from this place. -/
def fieldAt (bytes : List Byte) (first count : Nat) : List Byte := (bytes.drop first).take count

/-- The fields that the bytes of a copy hold (R155). -/
def readCopy (bytes : List Byte) : Config.RawCopy :=
  let header := decoded Config.headerCode (fieldAt bytes 8 8)
  let count := (header.getD 7 0).toNat
  let s := natOfBytes (fieldAt header 5 2)
  { mark := BitVec.ofNat 32 (natOfBytes (fieldAt bytes 0 4)), generation := generationOf (fieldAt bytes 4 4)
    p := natOfBytes (fieldAt header 0 4), phase := phaseOf (header.getD 4 0), s := s
    regions := (List.range count).map fun k => definitionOf (decoded Config.definitionCode (fieldAt bytes (16 + 9 * k) 9))
    spares := (List.range s).map fun k =>
      spareOfNumber (natOfBytes (decoded Config.spareCode (fieldAt bytes (16 + 9 * count + 3 * k) 3)))
    closing := generationOf (fieldAt bytes 6136 4), crc := crc32Of (fieldAt bytes 6140 4) }

end Sys2Proof.Machine
end

