-- ==== Sys2Proof/Machine/Flags.lean ====
section
/-! DEFINITION. Every flag computation: the sticky flags and gap pending (R48, R65, R182), attention (R185), the PEEK bytes
(R182), pressure mode (R85) and the spare reserve (R114). -/

namespace Sys2Proof.Machine

/-! ### Sticky flags, notice room and attention -/

def Frame.isNotice : Frame → Bool
  | .notice .. => true
  | .completion _ => false

/-- Notices queued (R65). -/
def PortUnit.noticeCount (u : PortUnit) : Nat := u.queue.countP Frame.isNotice

/-- A notice dropped while byte 4 of a PEEK is being shifted out stays flagged for the next PEEK (R182). -/
def Receiver.keepNoticesLost : Receiver → Receiver
  | .peeking bytes position toClear => .peeking bytes position { toClear with noticesLost := false }
  | r => r

/-- A notice offered to a port: placed with the gap flag if it is pending, dropped when four are queued, not looked at while
the port is OFFLINE (R65, R66). -/
def PortUnit.acceptNotice (u : PortUnit) (n : Notice) : PortUnit :=
  if !u.online then u
  else if u.noticeCount < Config.noticeRoom then
    { u with queue := u.queue ++ [.notice n u.gapPending], gapPending := false }
  else { u with flags := { u.flags with noticesLost := true }, gapPending := true, receiver := u.receiver.keepNoticesLost }

def PortUnit.setFrameError (u : PortUnit) : PortUnit := { u with flags := { u.flags with frameError := true } }
def PortUnit.setOverrun (u : PortUnit) : PortUnit := { u with flags := { u.flags with overrun := true } }
def PortUnit.setTagClash (u : PortUnit) : PortUnit := { u with flags := { u.flags with tagClash := true } }

/-- Flags after those shown set by PEEK are cleared (R182). -/
def Sticky.clearing (f shown : Sticky) : Sticky :=
  { frameError := f.frameError && !shown.frameError, overrun := f.overrun && !shown.overrun,
    tagClash := f.tagClash && !shown.tagClash, noticesLost := f.noticesLost && !shown.noticesLost }

/-- ATTN# is held low while the response queue holds a frame (R185): true when low. -/
def PortUnit.attention (u : PortUnit) : Bool := !u.queue.isEmpty

/-- PEEK byte 1, 2, 3 or 4, numbered from 0 (R182). -/
def peekByte (u : PortUnit) (service : ServiceState) (peerOnline : Bool) : Nat → Byte
  | 0 => BitVec.ofNat 8 (flagCode u.online + 2 * serviceCode service)
  | 1 => BitVec.ofNat 8 u.queue.length
  | 2 => BitVec.ofNat 8 u.requests.length
  | 3 => BitVec.ofNat 8 (flagCode u.flags.frameError + 2 * flagCode u.flags.overrun + 4 * flagCode u.flags.tagClash +
      8 * flagCode u.flags.noticesLost + 16 * flagCode peerOnline)
  | _ => 0

/-! ### Pressure mode and spare reserve -/

/-- Pressure mode after an event that changes the dirty count (R85). -/
def pressureAfter (on : Bool) (dirtyCount : Nat) : Bool :=
  if on then decide (Config.pressureOff < dirtyCount) else decide (Config.pressureOn ≤ dirtyCount)

def Staging.judgePressure (b : Staging) : Staging := { b with pressure := pressureAfter b.pressure b.dirtyOrder.length }

/-- Spare counts (R70, R114): an entry under trial stands FREE in the table. -/
def BlockMap.freeSpares (m : BlockMap) : Nat := m.spares.countP (· == .free)
def BlockMap.retiredSpares (m : BlockMap) : Nat := m.spares.countP (· == .retired)
def BlockMap.inUseSpares (m : BlockMap) : Nat := m.spares.countP fun e => e != .free && e != .retired

/-- Forced write-through by the spare reserve (R114). -/
def forcedBy (freeSpares : Nat) : Bool := decide (freeSpares ≤ Config.spareReserve)

end Sys2Proof.Machine
end

