-- ==== Sys2Proof/Machine/Ops.lean ====
section
/-! DEFINITION. The named operations over the ports, the region records, the slots and the block map, which every meaning
goes through. -/

namespace Sys2Proof.Machine

/-! ### Ports -/

def State.port (s : State) : PortId → PortUnit
  | .A => s.portA
  | .B => s.portB

def State.setPort (s : State) (p : PortId) (u : PortUnit) : State :=
  match p with
  | .A => { s with portA := u }
  | .B => { s with portB := u }

def State.updPort (s : State) (p : PortId) (f : PortUnit → PortUnit) : State := s.setPort p (f (s.port p))

/-- Frames of a queue that are older than the event in hand. -/
def State.base (s : State) : PortId → Nat
  | .A => s.event.baseA
  | .B => s.event.baseB

/-- A new event begins: all frames queued are older than it (R64). -/
def State.openEvent (s : State) : State := { s with event := ⟨s.portA.queue.length, s.portB.queue.length⟩ }

/-- A choice the spec leaves open is used up (log 2). -/
def State.bumpChoice (s : State) : State := { s with choices := s.choices + 1 }

/-- The element that a free choice picks; with one element there is no choice. -/
def pick {α : Type} (xs : List α) (n : Nat) : Option α :=
  match xs with
  | [] => none
  | [x] => some x
  | xs => xs[Config.choice n % xs.length]?

/-! ### Completions and notices -/

/-- Place of a tag's request in the port's arrival order (R53). -/
def PortUnit.arrival (u : PortUnit) (tag : Byte) : Nat := u.requests.findIdx (·.tag == tag)

/-- A completion joins the frames of its event: behind the completions of earlier requests, before later ones and before the
notices (R64). -/
def insertCompletion (u : PortUnit) (c : Completion) : List Frame → List Frame
  | [] => [.completion c]
  | .completion d :: rest =>
      if u.arrival d.tag ≤ u.arrival c.tag then .completion d :: insertCompletion u c rest
      else .completion c :: .completion d :: rest
  | .notice n gap :: rest => .completion c :: .notice n gap :: rest

def Record.finished (r : Record) : Record := { r with state := .complete, request := withoutPayload r.request }

/-- The record of an outstanding request with this tag, unless it is COMPLETE (R53). -/
def Record.isOpen (tag : Byte) (r : Record) : Bool := r.tag == tag && r.state != .complete

/-- A request of the port completes (R62, R63): its record is COMPLETE and its frame is queued. A request completes once. -/
def PortUnit.complete (u : PortUnit) (base : Nat) (tag : Byte) (status : Status) (result : Result) : PortUnit :=
  match u.requests.find? (Record.isOpen tag) with
  | none => u
  | some r =>
    { u with
      requests := u.requests.map fun q => if q.isOpen tag then q.finished else q
      queue := u.queue.take base ++ insertCompletion u ⟨tag, requestCode r.request, status, result⟩ (u.queue.drop base) }

def State.complete (s : State) (p : PortId) (tag : Byte) (status : Status) (result : Result) : State :=
  s.updPort p fun u => u.complete (s.base p) tag status result

/-- The completion of work that may be detached: a detached request's completion is discarded (R71). -/
def State.finish (s : State) (p : PortId) (tag : Byte) (detached : Bool) (status : Status) (result : Result) : State :=
  if detached then s else s.complete p tag status result

/-- A notice is offered to a port (R65, R66). -/
def State.offer (s : State) (p : PortId) (n : Notice) : State := s.updPort p (·.acceptNotice n)

/-- A notice is offered to each port; an OFFLINE port takes none (R66, R69). -/
def State.offerBoth (s : State) (n : Notice) : State := (s.offer .A n).offer .B n

/-- The state of an open record changes. -/
def State.setRecord (s : State) (p : PortId) (tag : Byte) (st : RecordState) : State :=
  s.updPort p fun u =>
    { u with requests := u.requests.map fun r => if r.isOpen tag then { r with state := st } else r }

/-! ### Region records -/

def State.region (s : State) (r : Fin 16) : Region := s.regions[r]

def State.setRegion (s : State) (r : Fin 16) (x : Region) : State := { s with regions := s.regions.set r x }

/-- Each record is changed by its own rule. -/
def State.mapRegions (s : State) (f : Fin 16 → Region → Region) : State :=
  { s with regions := Vector.ofFn fun r => f r s.regions[r] }

/-- A record counts as defined in state DEFINED or FIXED (R1). -/
def Region.isDefined (x : Region) : Bool := x.state != .undefined

def Region.heldBy (x : Region) (p : PortId) : Bool :=
  match x.hold with
  | some h => h.holder == p
  | none => false

def allRegions : List (Fin 16) := List.finRange 16

/-- The lease is set back to lease_period when the port is the holder (R13). -/
def State.renewIfHolder (s : State) (p : PortId) (r : Fin 16) : State :=
  let x := s.region r
  if x.heldBy p then s.setRegion r { x with hold := some ⟨p, x.leasePeriod⟩ } else s

/-- The extents share at least one LBN (R28). -/
def extentsOverlap (base1 length1 base2 length2 : Nat) : Bool :=
  decide (max base1 base2 < min (base1 + length1) (base2 + length2))

/-! ### Block map -/

/-- L follows from P and S (R3, R99). -/
def Geometry.l (g : Geometry) : Nat := g.p - Config.metadataBlocks - g.s

/-- P, S and L as they are reported: 0 with no value (R99). -/
def BlockMap.p (m : BlockMap) : Nat := match m.geometry with
  | some g => g.p
  | none => 0
def BlockMap.s (m : BlockMap) : Nat := match m.geometry with
  | some g => g.s
  | none => 0
def BlockMap.l (m : BlockMap) : Nat := match m.geometry with
  | some g => g.l
  | none => 0

/-- PBN of a spare index (R98). -/
def BlockMap.sparePbn (m : BlockMap) (i : Nat) : Nat := m.p - m.s + i

/-- Translation: the spare IN_USE for the LBN, else its home (R100). -/
def BlockMap.translate (m : BlockMap) (lbn : Nat) : Nat :=
  match m.spares.findIdx? (· == .inUse lbn) with
  | some i => m.sparePbn i
  | none => Config.metadataBlocks + lbn

/-- Allocation takes the FREE entry with the lowest index (R102). -/
def BlockMap.allocate (m : BlockMap) : Option Nat := m.spares.findIdx? (· == .free)

/-- An LBN is added to the candidate list (R112). -/
def BlockMap.addCandidate (m : BlockMap) (lbn : Nat) : BlockMap :=
  if m.candidates.contains lbn then m
  else if Config.maxCandidates ≤ m.candidates.length then { m with candidates := m.candidates.tail ++ [lbn] }
  else { m with candidates := m.candidates ++ [lbn] }

/-- An LBN leaves the candidate list, if it is there (R113). -/
def BlockMap.dropCandidate (m : BlockMap) (lbn : Nat) : BlockMap := { m with candidates := m.candidates.erase lbn }

/-- Spare entry i becomes RETIRED (R107). -/
def BlockMap.retire (m : BlockMap) (i : Nat) : BlockMap := { m with spares := m.spares.set i .retired }

/-- The LBN succeeds at spare i: any other entry IN_USE for it is RETIRED (R108). -/
def BlockMap.succeedAt (m : BlockMap) (lbn i : Nat) : BlockMap :=
  { m with spares := (m.spares.map fun e => if e == .inUse lbn then .retired else e).set i (.inUse lbn) }

/-- The Block Map judges the spare reserve (R114). -/
def State.judgeReserve (s : State) : State :=
  { s with staging := { s.staging with forced := forcedBy s.blockMap.freeSpares } }

def State.addCandidate (s : State) (lbn : Nat) : State := { s with blockMap := s.blockMap.addCandidate lbn }

/-- A checkpoint is requested: the pending flag is set (R158). -/
def State.requestCheckpoint (s : State) : State := { s with store := { s.store with checkpointPending := true } }

/-! ### Slots -/

def State.slot (s : State) (i : SlotId) : Slot := s.staging.slots[i]

def Staging.setSlot (b : Staging) (i : SlotId) (x : Slot) : Staging := { b with slots := b.slots.set i x }

def Slot.lbn? : Slot → Option Nat
  | .free => none
  | .clean lbn _ _ => some lbn
  | .dirty d => some d.lbn
  | .flushing d _ => some d.lbn

def Slot.isFree : Slot → Bool
  | .free => true
  | _ => false

/-- The data a slot holds (R83: the newest data, for a FLUSHING slot too). -/
def Slot.data? : Slot → Option Block
  | .free => none
  | .clean _ _ data => some data
  | .dirty d => some d.data
  | .flushing d _ => some d.data

/-- What a DIRTY slot holds. -/
def Slot.dirty? : Slot → Option Dirty
  | .dirty d => some d
  | _ => none

/-- What a DIRTY or FLUSHING slot holds. -/
def Slot.unflushed? : Slot → Option Dirty
  | .dirty d => some d
  | .flushing d _ => some d
  | _ => none

def allSlots : List SlotId := List.finRange 64

/-- The slot that holds an LBN, in any state other than FREE (R77, R83). -/
def Staging.find (b : Staging) (lbn : Nat) : Option SlotId := allSlots.find? fun i => b.slots[i].lbn? == some lbn

/-- The slots that can be had for misses: FREE slots, then CLEAN slots in clean order, leaving out hits (R77). -/
def Staging.available (b : Staging) (hits : List SlotId) : List SlotId :=
  (allSlots.filter fun i => b.slots[i].isFree) ++ b.cleanOrder.filter fun i => !hits.contains i

/-- A FREE or CLEAN slot becomes DIRTY: it leaves the clean order and joins the dirty order (R76). -/
def Staging.makeDirty (b : Staging) (i : SlotId) (d : Dirty) : Staging :=
  { b.setSlot i (.dirty d) with dirtyOrder := b.dirtyOrder ++ [i], cleanOrder := b.cleanOrder.erase i }

/-- A FLUSHING slot becomes CLEAN, at the tail of the clean order (R76, R88). -/
def Staging.makeClean (b : Staging) (i : SlotId) (d : Dirty) : Staging :=
  { b.setSlot i (.clean d.lbn d.region d.data) with
    dirtyOrder := b.dirtyOrder.erase i, cleanOrder := b.cleanOrder ++ [i] }

/-- A slot becomes FREE and leaves its order (R89, R96). -/
def Staging.makeFree (b : Staging) (i : SlotId) : Staging :=
  { b.setSlot i .free with dirtyOrder := b.dirtyOrder.erase i, cleanOrder := b.cleanOrder.erase i }

def DrainScope.contains : DrainScope → Nat → Bool
  | .nothing, _ => false
  | .extent first count, lbn => decide (first ≤ lbn) && decide (lbn < first + count)
  | .everything, _ => true

/-! ### Read wait lists -/

def Scheduler.wait (c : Scheduler) : PortId → List WaitingRead
  | .A => c.waitA
  | .B => c.waitB

def Scheduler.setWait (c : Scheduler) (p : PortId) (xs : List WaitingRead) : Scheduler :=
  match p with
  | .A => { c with waitA := xs }
  | .B => { c with waitB := xs }

/-- Completes each of several requests of one port with one status. -/
def State.completeAll (s : State) (p : PortId) (tags : List Byte) (status : Status) : State :=
  tags.foldl (fun t tag => t.complete p tag status .blank) s

/-! ### Media link -/

/-- The issue number that follows (R141): from 255 to 1. -/
def nextIssueNo (n : Nat) : Nat := if 255 ≤ n then 1 else n + 1

/-- An operation is issued: the next issue number is taken and the deadline starts (R141, R142). -/
def State.issue (s : State) (op : Op) : State :=
  { s with link := { s.link with flight := some op, issueNo := nextIssueNo s.link.issueNo, deadline := some Config.deadlineMs } }

/-- An answer is taken: the deadline stops and the consecutive-timeout count becomes 0 (R142). -/
def State.answered (s : State) : State :=
  { s with link := { s.link with flight := none, deadline := none, timeouts := 0 } }

def State.setJob (s : State) (j : Option Job) : State := { s with sched := { s.sched with job := j } }

end Sys2Proof.Machine
end

