-- ==== Sys2Proof/Machine/Regions.lean ====
section
/-! DEFINITION. The Region Table (spec/01): rights, region checks, holds and leases, the end of a port's not-started
requests. -/

namespace Sys2Proof.Machine

/-! ### Checks -/

/-- The rights table of R5: whether the port may read, or write, the region. -/
def Region.mayRead (x : Region) (p : PortId) : Bool := !x.attrs.exclusive || x.heldBy p || x.attrs.peerRead
def Region.mayWrite (x : Region) (p : PortId) : Bool := !x.attrs.exclusive || x.heldBy p

/-- The four region checks in the order of R6, each made only where the request's row of R6 asks for it. -/
def regionCheck (x : Region) (changing : Bool) (bounds : Option (Nat × Nat)) (right : Option Bool) : Option Status :=
  if !x.isDefined then some .noRegion
  else if changing && x.changing then some .regionChanging
  else if (match bounds with | some (offset, count) => decide (x.length < offset + count) | none => false) then some .outOfBounds
  else if right = some false then some .noRight
  else none

/-- The region checks of a request by a port (R6); a region byte that names no region has failed the field check already. -/
def State.regionRefusal (s : State) (p : PortId) (q : Request) : Option Status :=
  let named (b : Byte) (k : Region → Option Status) : Option Status :=
    match regionOf b with
    | some r => k (s.region r)
    | none => none
  match q with
  | .read r count offset => named r fun x => regionCheck x true (some (offset.toNat, count.toNat)) (some (x.mayRead p))
  | .write r count offset _ => named r fun x => regionCheck x true (some (offset.toNat, count.toNat)) (some (x.mayWrite p))
  | .flush r => named r fun x => regionCheck x true none none
  | .claim r => named r fun x => regionCheck x true none none
  | .renew r => named r fun x => regionCheck x true none none
  | .release r => named r fun x => regionCheck x false none none
  | .fix r => named r fun x => regionCheck x true none none
  | .queryRegion _ | .propose _ | .attach | .detach | .answer .. | .withdraw _ | .inquire => none
  | .quiesce | .resume | .mediaRestart | .unknown _ => none

/-! ### Waiting WRITEs -/

/-- The WRITE of a port that waits for slots (R79). -/
def PortUnit.waitingWrite (u : PortUnit) : Option Record := u.requests.find? (·.state == .awaitingSlots)

/-- The region a WRITE names. -/
def writeRegion : Request → Option (Fin 16)
  | .write r .. => regionOf r
  | _ => none

/-- A waiting WRITE that names one of these regions completes with a status; its payload is discarded (R61, R79). -/
def State.endWaitingWrite (s : State) (p : PortId) (names : Fin 16 → Bool) (status : Status) : State :=
  match (s.port p).waitingWrite with
  | none => s
  | some rec =>
    match writeRegion rec.request with
    | some r => if names r then s.complete p rec.tag status .blank else s
    | none => s

/-! ### The end of a hold -/

/-- The port's requests on the region that are not started complete LEASE_LOST (R16). -/
def State.endNotStarted (s : State) (p : PortId) (r : Fin 16) : State :=
  let gone := (s.sched.wait p).filter fun w => w.region == r
  let kept := (s.sched.wait p).filter fun w => w.region != r
  let removed : State := { s with sched := s.sched.setWait p kept }
  (removed.completeAll p (gone.map WaitingRead.tag) .leaseLost).endWaitingWrite p (· == r) .leaseLost

/-- The hold of a region ends (R9). -/
def State.dropHold (s : State) (r : Fin 16) : State := s.setRegion r { s.region r with hold := none }

/-- Every hold of a port going OFFLINE is dropped, without notice (R20). -/
def State.dropHoldsOf (s : State) (p : PortId) : State :=
  s.mapRegions fun _ x => if x.heldBy p then { x with hold := none } else x

/-- A hold has one tick left: the tick brings it to 0. -/
def Region.lastTick (x : Region) : Bool :=
  match x.hold with
  | some h => decide (h.remaining ≤ 1)
  | none => false

/-- The tick subtracts one from lease_remaining of every held region (R14); a hold it brings to 0 is counted in the event of its
own that the expiry is (log 21). -/
def Region.countDown (x : Region) : Region :=
  if x.lastTick then x else { x with hold := x.hold.map fun h => { h with remaining := h.remaining - 1 } }

end Sys2Proof.Machine
end

