-- ==== Sys2Proof/Machine/Metadata.lean ====
section
/-! DEFINITION. The Metadata Store (spec/08, 8.1 to 8.6): the snapshot, the validity of a copy, the choice of a copy and
the table load. -/

namespace Sys2Proof.Machine

/-! ### The snapshot (R159) -/

/-- The KEPT definitions in id order (R155, R159). -/
def State.savedRegions (s : State) : List Config.SavedRegion :=
  (allRegions.filter fun r => (s.region r).isDefined && (s.region r).attrs.kept).map fun r =>
    let x := s.region r
    { id := r.val, base := x.base, length := x.length, exclusive := x.attrs.exclusive, peerRead := x.attrs.peerRead,
      through := x.attrs.through, leasePeriod := x.leasePeriod }

def State.snapshot (s : State) : Config.Snapshot :=
  { phase := s.agree.phase, p := s.blockMap.p, s := s.blockMap.s, regions := s.savedRegions, spares := s.blockMap.spares }

def CopyId.firstPbn : CopyId → Nat
  | .copy0 => 0
  | .copy1 => Config.copyBlocks

/-- Target copy and generation of a checkpoint job (R157). -/
def MetaStore.target (m : MetaStore) : CopyId × Nat :=
  match m.newest with
  | none => (.copy0, 1)
  | some .copy0 => (.copy1, m.generation + 1)
  | some .copy1 => (.copy0, m.generation + 1)

/-! ### Validity of a copy (R156) -/

/-- Every two elements of a list are apart. -/
def pairwiseApart {α : Type} (apart : α → α → Bool) : List α → Bool
  | [] => true
  | x :: xs => xs.all (apart x) && pairwiseApart apart xs

/-- The contents of a copy are well formed (R156 item 6). -/
def contentsOk (c : Config.RawCopy) : Bool :=
  let l := c.p - Config.metadataBlocks - c.s
  decide (Config.minSpares ≤ c.s) && decide (c.s ≤ Config.maxSpares) &&
  decide (Config.minLogical + Config.metadataBlocks + c.s ≤ c.p) && c.phase.isSome &&
  c.regions.all (fun d => decide (d.id < 16) && decide (d.base + d.length ≤ l)) &&
  pairwiseApart (fun d e => d.id != e.id && !extentsOverlap d.base d.length e.base e.length) c.regions &&
  c.spares.all (fun e => match e with | .inUse lbn => decide (lbn < l) | .free => true | .retired => true) &&
  pairwiseApart (fun d e => match d with | .inUse _ => d != e | .free => true | .retired => true) c.spares

/-- A copy read from its 12 blocks, none of which ended UNRECOVERABLE, is valid for the identified P (R156 items 2 to 6). -/
def copyOk (bytes : List Byte) (identified : Nat) : Bool :=
  let c := readCopy bytes
  c.mark == Config.formatMark && c.crc == crc32 (bytes.take 6140) && c.generation != 0 && c.closing == c.generation &&
    c.p == identified && contentsOk c

/-- The copy that twelve load-read blocks hold, if it is valid (R156). -/
def validCopy (blocks : List (Option Block)) (identified : Nat) : Option Config.RawCopy :=
  if blocks.all Option.isSome then
    let bytes := (blocks.filterMap id).flatten
    if copyOk bytes identified then some (readCopy bytes) else none
  else none

/-- The copy selected, or none for a blank medium (R166). -/
def selectCopy (c0 c1 : Option Config.RawCopy) : Option (CopyId × Config.RawCopy) :=
  match c0, c1 with
  | some a, some b => if a.generation < b.generation then some (.copy1, b) else some (.copy0, a)
  | some a, none => some (.copy0, a)
  | none, some b => some (.copy1, b)
  | none, none => none

/-! ### The table load (R167) -/

/-- The record a saved definition fills: DEFINED, unheld, not changing (R23). -/
def loadedRegion (d : Config.SavedRegion) : Region :=
  { state := .defined, base := d.base, length := d.length, attrs := ⟨d.exclusive, d.peerRead, d.through, true⟩,
    leasePeriod := d.leasePeriod, hold := none, changing := false }

/-- The tables from a valid copy (R167). -/
def State.loadCopy (s : State) (copy : CopyId) (c : Config.RawCopy) (identified : Nat) : State :=
  let regions : Vector Region 16 := Vector.ofFn fun r =>
    match c.regions.find? fun d => d.id == r.val with
    | some d => loadedRegion d
    | none => Region.undefinedRecord
  ({ s with
    regions := regions
    agree := { s.agree with phase := c.phase.getD .provisioning }
    blockMap := { geometry := some ⟨identified, c.s⟩, spares := c.spares, candidates := [] }
    store := { s.store with loaded := true, newest := some copy, generation := c.generation } }).judgeReserve

/-- The tables on a blank medium (R167). -/
def State.loadBlank (s : State) (identified : Nat) : State :=
  ({ s with
    regions := Vector.replicate 16 Region.undefinedRecord
    agree := { s.agree with phase := .provisioning }
    blockMap := { geometry := some ⟨identified, Config.blankSpares⟩, spares := List.replicate Config.blankSpares .free, candidates := [] }
    store := { s.store with loaded := true, newest := none, generation := 0 } }).judgeReserve

/-- The table load from the 24 blocks read (R166, R167); the identified P is then the Block Map's. -/
def State.loadTables (s : State) (blocks : List (Option Block)) : State :=
  let identified := s.link.identified.getD 0
  let selected := selectCopy (validCopy (blocks.take Config.copyBlocks) identified)
    (validCopy (blocks.drop Config.copyBlocks) identified)
  let t := match selected with
    | some (copy, c) => s.loadCopy copy c identified
    | none => s.loadBlank identified
  { t with link := { t.link with identified := none } }

end Sys2Proof.Machine
end

