-- ==== Sys2Proof/Machine/Buffer.lean ====
section
/-! DEFINITION. The Staging Buffer (spec/04): write intake and placement, read lookup, FLUSH waiters, the flush offers, the
outcomes of a flush and relocation. -/

namespace Sys2Proof.Machine

/-! ### Blocks of a request -/

/-- The LBNs of a request's blocks, in block order (R4). -/
def blockLbns (first count : Nat) : List Nat := (List.range count).map (first + ·)

/-- The LBN of a request's first block: the region's base plus the offset (R4). -/
def State.lbnAt (s : State) (r : Fin 16) (offset : Word24) : Nat := (s.region r).base + offset.toNat

/-! ### Write intake and placement (R77, R78) -/

def Staging.hits (b : Staging) (lbns : List Nat) : List SlotId := lbns.filterMap b.find

def Staging.misses (b : Staging) (lbns : List Nat) : List Nat := lbns.filter fun n => (b.find n).isNone

/-- The WRITE can be placed: slots can be had for all its misses (R77). -/
def Staging.canPlace (b : Staging) (lbns : List Nat) : Bool :=
  decide ((b.misses lbns).length ≤ (b.available (b.hits lbns)).length)

/-- The slot of each block: the one that holds it, else the next of those that can be had (R77). -/
def Staging.assign (b : Staging) : List Nat → List SlotId → List (Nat × SlotId)
  | [], _ => []
  | n :: ns, had =>
    match b.find n, had with
    | some i, _ => (n, i) :: b.assign ns had
    | none, i :: rest => (n, i) :: b.assign ns rest
    | none, [] => b.assign ns []

/-- One block goes into its slot (the table of R78). -/
def Staging.putBlock (b : Staging) (i : SlotId) (lbn : Nat) (r : Fin 16) (position : Nat) (data : Block) : Staging :=
  let fresh : Dirty :=
    { lbn := lbn, region := r, firstDirty := position, lastWrite := position, relocate := false, data := data }
  match b.slots[i] with
  | .free => b.makeDirty i fresh
  | .clean .. => b.makeDirty i fresh
  | .dirty d => b.setSlot i (.dirty { d with lbn := lbn, region := r, lastWrite := position, data := data })
  | .flushing d fw => b.setSlot i (.flushing { d with lbn := lbn, region := r, lastWrite := position, data := data } fw)

/-- The blocks of a payload go into their slots in block order, block k first (R78). -/
def Staging.putBlocks (b : Staging) (r : Fin 16) (position : Nat) (payload : List Byte) : Nat → List (Nat × SlotId) → Staging
  | _, [] => b
  | k, (lbn, i) :: rest => (b.putBlock i lbn r position (payloadBlock payload k)).putBlocks r position payload (k + 1) rest

/-- The slots a WRITE is placed in, in block order (R77). -/
def Staging.slotsFor (b : Staging) (lbns : List Nat) : List (Nat × SlotId) := b.assign lbns (b.available (b.hits lbns))

/-- The buffer after a placement: write order advanced, blocks in their slots, pressure judged (R75, R78, R85). -/
def Staging.place (b : Staging) (lbns : List Nat) (r : Fin 16) (payload : List Byte) : Staging :=
  ({ b with writeOrder := b.writeOrder + 1 }.putBlocks r (b.writeOrder + 1) payload 0 (b.slotsFor lbns)).judgePressure

/-- A WRITE is write-through by its region's policy or by the forced flag, at placement (R81). -/
def State.writesThrough (s : State) (r : Fin 16) : Bool := (s.region r).attrs.through || s.staging.forced

/-- The waiter of a write-through WRITE as placement makes it (R82). -/
def wtWaiterFor (b : Staging) (p : PortId) (tag : Byte) (r : Fin 16) (lbns : List Nat) : WtWaiter :=
  { port := p, tag := tag, detached := false, region := r, position := b.writeOrder + 1,
    entries := (b.slotsFor lbns).map fun x => ⟨x.2, .awaiting⟩ }

/-- A record becomes STARTED; a WRITE's payload is now in its slots (R53, log 25). -/
def State.startRecord (s : State) (p : PortId) (tag : Byte) : State :=
  s.updPort p fun u =>
    { u with requests := u.requests.map fun x =>
        if x.isOpen tag then { x with state := .started, request := withoutPayload x.request } else x }

/-- Placement of a WRITE (R78): everything it does but the presentation of the port's next request. -/
def State.placeWrite (s : State) (p : PortId) (tag : Byte) (r : Fin 16) (count : Byte) (offset : Word24)
    (payload : List Byte) : State :=
  let lbns := blockLbns (s.lbnAt r offset) count.toNat
  let placed := { s with staging := s.staging.place lbns r payload }
  let started := (placed.startRecord p tag).renewIfHolder p r
  if s.writesThrough r then
    { started with staging :=
        { started.staging with wtWaiters := started.staging.wtWaiters ++ [wtWaiterFor s.staging p tag r lbns] } }
  else started.complete p tag .ok .blank

/-- The WRITE of a port can be placed now (R77, R79). -/
def State.canPlaceWrite (s : State) (r : Fin 16) (count : Byte) (offset : Word24) : Bool :=
  s.staging.canPlace (blockLbns (s.lbnAt r offset) count.toNat)

/-! ### Read lookup (R83) -/

/-- The data area after lookup: the data of each found slot at its block's place. -/
def Staging.lookup (b : Staging) (lbns : List Nat) : List (Option Block) :=
  lbns.map fun n => (b.find n).bind fun i => b.slots[i].data?

/-- The dispatch of a READ (R13, R83). -/
def State.dispatchRead (s : State) (p : PortId) (tag : Byte) (r : Fin 16) (count : Byte) (offset : Word24) : State :=
  let first := s.lbnAt r offset
  let area := s.staging.lookup (blockLbns first count.toNat)
  let renewed := s.renewIfHolder p r
  if area.all Option.isSome then renewed.complete p tag .ok (.read count.toNat 0 (area.filterMap id))
  else
    let joined := renewed.setRecord p tag .dispatched
    let read : WaitingRead :=
      { tag := tag, region := r, offset := offset.toNat, count := count.toNat, lbn := first, area := area }
    { joined with sched := joined.sched.setWait p (joined.sched.wait p ++ [read]) }

/-! ### FLUSH (R93, R94) -/

/-- The slot is covered by the FLUSH (R93). -/
def FlushWaiter.covers (w : FlushWaiter) (d : Dirty) : Bool :=
  (match w.scope with | none => true | some r => d.region == r) && decide (d.firstDirty ≤ w.mark)

/-- No covered slot is DIRTY or FLUSHING (R94). -/
def Staging.flushDone (b : Staging) (w : FlushWaiter) : Bool :=
  allSlots.all fun i => match b.slots[i].unflushed? with
    | some d => !w.covers d
    | none => true

/-- Status of a FLUSH at its end (R94). -/
def flushStatus (lost : Nat) : Status := if lost = 0 then .ok else .partialOk

/-- The dispatch of a FLUSH (R13, R93, R94). -/
def State.dispatchFlush (s : State) (p : PortId) (tag : Byte) (scope : FlushScope) : State :=
  let named := match scope with
    | .all => none
    | .one r => some r
  let renewed := match named with
    | none => s
    | some r => s.renewIfHolder p r
  let w : FlushWaiter :=
    { port := p, tag := tag, detached := false, scope := named, mark := s.staging.writeOrder, lost := 0 }
  if s.staging.flushDone w then renewed.complete p tag .ok (.lost 0)
  else
    let started := renewed.startRecord p tag
    { started with staging := { started.staging with flushWaiters := started.staging.flushWaiters ++ [w] } }

/-! ### Flush offers (R84) -/

/-- A write-through waiter has an AWAITING entry that names the slot (R82). -/
def WtWaiter.awaits (w : WtWaiter) (i : SlotId) : Bool := w.entries.any fun e => e.slot == i && e.state == .awaiting

/-- The slot is urgent (R84). -/
def State.urgent (s : State) (i : SlotId) (d : Dirty) : Bool :=
  s.staging.wtWaiters.any (·.awaits i) || s.staging.drain.contains d.lbn || s.staging.flushWaiters.any (·.covers d) ||
    s.service.state == .quiescing || s.staging.pressure || s.staging.forced

/-- The DIRTY slots, oldest first (R76, R84). -/
def Staging.dirtySlots (b : Staging) : List (SlotId × Dirty) :=
  b.dirtyOrder.filterMap fun i => b.slots[i].dirty?.map (i, ·)

def State.urgentOffer (s : State) : Option SlotId := (s.staging.dirtySlots.find? fun x => s.urgent x.1 x.2).map Prod.fst

def State.backgroundOffer (s : State) : Option SlotId := s.staging.dirtySlots.head?.map Prod.fst

/-! ### Flush outcomes -/

/-- While QUIESCING, the event in which the last DIRTY or FLUSHING slot goes requests a checkpoint and clears checkpoint
begun (R171). -/
def State.noteRest (s : State) : State :=
  match s.service.quiesce with
  | some q =>
    if s.staging.dirtyOrder.isEmpty then
      { s.requestCheckpoint with service := { s.service with quiesce := some { q with begun := false } } }
    else s
  | none => s

/-- Entries that a flush of the slot with this flushing_write satisfies (R88). -/
def WtWaiter.satisfy (i : SlotId) (flushingWrite : Nat) (w : WtWaiter) : WtWaiter :=
  { w with entries := w.entries.map fun e =>
      if e.slot == i && e.state == .awaiting && decide (w.position ≤ flushingWrite) then { e with state := .satisfied } else e }

/-- Entries that the loss of the slot ends (R89). -/
def WtWaiter.lose (i : SlotId) (w : WtWaiter) : WtWaiter :=
  { w with entries := w.entries.map fun e => if e.slot == i && e.state == .awaiting then { e with state := .lost } else e }

/-- The buffer when a flush job on the slot ends written (R88). -/
def State.flushWritten (s : State) (i : SlotId) : State :=
  match s.slot i with
  | .flushing d fw =>
    let told := { s.staging with wtWaiters := s.staging.wtWaiters.map (WtWaiter.satisfy i fw) }
    if d.lastWrite = fw ∧ d.relocate = false then
      ({ s with staging := (told.makeClean i d).judgePressure } : State).noteRest
    else { s with staging := (told.setSlot i (.dirty d)).judgePressure }
  | .free | .clean .. | .dirty _ => s

/-- A FLUSH counts the loss of a slot it covers; the count stops at FFFFFFh (R89, R94). -/
def FlushWaiter.countLoss (d : Dirty) (w : FlushWaiter) : FlushWaiter :=
  if w.covers d then { w with lost := min (w.lost + 1) Config.maxFlushLost } else w

/-- Service Control counts a loss while QUIESCING; the count stops at 255 (R89, R168, R171). -/
def State.countQuiesceLoss (s : State) : State :=
  match s.service.quiesce with
  | some q => { s with service := { s.service with quiesce := some { q with lost := min (q.lost + 1) Config.maxQuiesceLost } } }
  | none => s

/-- The loss is covered by a live write-through waiter (R90). -/
def State.lossCovered (s : State) (i : SlotId) : Bool := s.staging.wtWaiters.any fun w => !w.detached && w.awaits i

/-- The buffer when a flush job on the slot ends lost (R89, R90). -/
def State.flushLost (s : State) (i : SlotId) : State :=
  match s.slot i with
  | .flushing d _ =>
    let counted : Staging :=
      { s.staging with
        wtWaiters := s.staging.wtWaiters.map (WtWaiter.lose i)
        flushWaiters := s.staging.flushWaiters.map (FlushWaiter.countLoss d) }
    let told : State := ({ s with staging := (counted.makeFree i).judgePressure } : State).countQuiesceLoss
    let reported := if s.lossCovered i then told else told.offerBoth (.writeLost d.region (d.lbn - (s.region d.region).base))
    reported.noteRest
  | .free | .clean .. | .dirty _ => s

/-- The slot of an abandoned flush job returns to DIRTY, with the relocate flag handed over set again (R91). -/
def Staging.takeBack (b : Staging) (i : SlotId) (relocate : Bool) : Staging :=
  match b.slots[i] with
  | .flushing d _ => b.setSlot i (.dirty { d with relocate := relocate || d.relocate })
  | .free | .clean .. | .dirty _ => b

/-! ### Relocation (R95) -/

/-- A block is to be moved to a spare: the buffer's answer to the request of the Block Map (R95, R111). -/
def State.relocate (s : State) (lbn : Nat) (r : Fin 16) (data : Block) : State :=
  let b := s.staging
  let marked (region : Fin 16) (block : Block) : Dirty :=
    { lbn := lbn, region := region, firstDirty := b.writeOrder, lastWrite := b.writeOrder, relocate := true, data := block }
  match b.find lbn with
  | some i =>
    match b.slots[i] with
    | .dirty d => { s with staging := b.setSlot i (.dirty { d with relocate := true }) }
    | .flushing d fw => { s with staging := b.setSlot i (.flushing { d with relocate := true } fw) }
    | .clean _ region block => { s with staging := (b.makeDirty i (marked region block)).judgePressure }
    | .free => s
  | none =>
    match b.available [] with
    | i :: _ => { s with staging := (b.makeDirty i (marked r data)).judgePressure }
    | [] => s.addCandidate lbn

end Sys2Proof.Machine
end

