-- ==== Sys2Proof/Machine/Jobs.lean ====
section
/-! DEFINITION. The Media Scheduler and the Media Link Controller (spec/06, spec/07): arbitration, the beginning of jobs, the
answers to their operations, their ends, and entry to FAULT. -/

namespace Sys2Proof.Machine

/-! ### Arbitration (R122 to R125) -/

/-- The port whose read wait list is served next (R124). -/
def Scheduler.nextReader (c : Scheduler) : Option PortId :=
  if !(c.wait c.lastServed.other).isEmpty then some c.lastServed.other
  else if !(c.wait c.lastServed).isEmpty then some c.lastServed
  else none

/-- The job that the scheduler chooses (R123). -/
inductive JobChoice where
  | read (port : PortId)
  | flush (slot : SlotId)
  | checkpoint
  deriving DecidableEq, Repr

/-- Step 3 to step 5 of R123. -/
def State.lesserWork (s : State) : Option JobChoice :=
  match s.sched.nextReader, s.backgroundOffer with
  | some p, _ => some (.read p)
  | none, some i => some (.flush i)
  | none, none => if s.store.checkpointPending then some .checkpoint else none

/-- The order of R123. -/
def State.chooseJob (s : State) : Option JobChoice :=
  if s.store.checkpointPending && !s.sched.yield then some .checkpoint
  else match s.urgentOffer with
    | some i => some (.flush i)
    | none => s.lesserWork

/-- The job that is to begin: with the link idle, the media ONLINE and the table LOADED (R122, R123). -/
def State.jobDue (s : State) : Option JobChoice :=
  if s.sched.job.isNone && s.link.media == .online && s.store.loaded then s.chooseJob else none

/-! ### The beginning of a job -/

def State.setYield (s : State) (y : Bool) : State := { s with sched := { s.sched with yield := y } }

/-- Numbers of the missed blocks of a READ, in block order. -/
def missedBlocks (area : List (Option Block)) : List Nat := (List.range area.length).filter fun i => area.getD i none == none

/-- The READ of a block of a read job is issued at its translation (R100, R127). -/
def State.issueReadBlock (s : State) (r : WaitingRead) (block : Nat) : State :=
  s.issue (.read (s.blockMap.translate (r.lbn + block)))

/-- A read job begins for the head of a port's wait list (R124, R127). -/
def State.beginRead (s : State) (p : PortId) : State :=
  match s.sched.wait p with
  | [] => s
  | w :: rest =>
    let todo := missedBlocks w.area
    let taken := { s.sched.setWait p rest with
      lastServed := p, yield := false
      job := some (.read { port := p, detached := false, read := w, todo := todo, attempt := 1 }) }
    (({ s with sched := taken } : State).setRecord p w.tag .started).issueReadBlock w (todo.headD 0)

/-- PBN of a flush write's target (R100, R103). -/
def State.targetPbn (s : State) (lbn : Nat) : Target → Nat
  | .current => s.blockMap.translate lbn
  | .spare k => s.blockMap.sparePbn k

/-- First target and spares tried, from the relocate flag handed over (R104). -/
def BlockMap.firstTarget (m : BlockMap) (relocate : Bool) : Target × Nat :=
  if relocate then
    match m.allocate with
    | some k => (.spare k, 1)
    | none => (.current, 0)
  else (.current, 0)

/-- A relocation that finds no FREE spare puts the LBN on the candidate list (R104). -/
def State.watchIfNoSpare (s : State) (d : Dirty) : State :=
  if d.relocate && s.blockMap.allocate.isNone then s.addCandidate d.lbn else s

/-- A flush job begins on a DIRTY slot (R87, R104, R130). -/
def State.beginFlush (s : State) (i : SlotId) : State :=
  match s.slot i with
  | .dirty d =>
    let start := s.blockMap.firstTarget d.relocate
    let job : FlushJob :=
      { slot := i, lbn := d.lbn, data := d.data, relocate := d.relocate, target := start.1, tried := start.2, verify := false }
    let handed : State := { s with staging := s.staging.setSlot i (.flushing { d with relocate := false } d.lastWrite) }
    (((handed.watchIfNoSpare d).setJob (some (.flush job))).setYield false).issue (.write (s.targetPbn d.lbn start.1) d.data)
  | .free | .clean .. | .flushing .. => s

/-- While QUIESCING, a checkpoint job that begins sets checkpoint begun (R171). -/
def State.noteCheckpointBegun (s : State) : State :=
  match s.service.quiesce with
  | some q => { s with service := { s.service with quiesce := some { q with begun := true } } }
  | none => s

/-- A checkpoint job that ends with checkpoint begun set and no slot DIRTY or FLUSHING ends the quiesce (R172). -/
def State.noteCheckpointEnded (s : State) (good : Bool) : State :=
  match s.service.quiesce with
  | some q =>
    if q.begun && s.staging.dirtyOrder.isEmpty then
      { s with service := { s.service with quiesce := some { q with ended := some good } } }
    else s
  | none => s

/-- The outcome failed reaches the Metadata Store: result, pending flag and notice (R161). -/
def State.checkpointFailed (s : State) (again : Bool) (generation : Nat) : State :=
  ({ s with store := { s.store with
      lastResult := .failed, checkpointPending := again || s.store.checkpointPending } } : State).offerBoth
    (.checkpointFailed generation)

/-- Block k of the copy is written (R132). -/
def State.issueCheckpointBlock (s : State) (c : CheckpointJob) (k : Nat) : State :=
  s.issue (.write (c.copy.firstPbn + k) (copyBlock c.snapshot c.generation k))

/-- A checkpoint job begins (R125, R132, R157, R159). At an exhausted generation it ends failed at once, with generation 0
in its notice. -/
def State.beginCheckpoint (s : State) : State :=
  let taken := ({ s with store := { s.store with checkpointPending := false } } : State).setYield false
  let begun := taken.noteCheckpointBegun
  if s.store.generation = Config.maxGeneration then
    ((begun.checkpointFailed false 0).setYield true).noteCheckpointEnded false
  else
    let job : CheckpointJob :=
      { snapshot := s.snapshot, copy := s.store.target.1, generation := s.store.target.2, written := 0 }
    (begun.setJob (some (.checkpoint job))).issueCheckpointBlock job 0

/-- An identify job begins (R133, R143, R148, R165). -/
def State.beginIdentify (s : State) : State :=
  (({ s with link := { s.link with timeouts := 0 } } : State).setJob (some (.identify .identifying))).issue .identify

def State.beginJob (s : State) : JobChoice → State
  | .read p => s.beginRead p
  | .flush i => s.beginFlush i
  | .checkpoint => s.beginCheckpoint

/-! ### The read job (R127 to R129) -/

/-- A read job ends with every missed block GOOD or CORRECTED (R129). -/
def State.endReadGood (s : State) (j : ReadJob) (area : List (Option Block)) : State :=
  (s.setJob none).finish j.port j.read.tag j.detached .ok (.read j.read.count 0 (area.filterMap id))

/-- A read job ends at block n, which is UNRECOVERABLE (R111, R129). -/
def State.endReadBad (s : State) (j : ReadJob) (n : Nat) : State :=
  ((s.addCandidate (j.read.lbn + n)).setJob none).finish j.port j.read.tag j.detached .readError
    (.read n (j.read.offset + n) ((j.read.area.take n).filterMap id))

/-- Block n of a read job has its data: it goes into the data area, and the job goes on (R127, R128). -/
def State.readBlockEnded (s : State) (j : ReadJob) (n : Nat) (rest : List Nat) (data : Block) (corrected : Bool) : State :=
  let area := j.read.area.set n (some data)
  let told := if corrected then s.relocate (j.read.lbn + n) j.read.region data else s
  match rest with
  | [] => told.endReadGood j area
  | m :: _ =>
    let next : ReadJob := { j with read := { j.read with area := area }, todo := rest, attempt := 1 }
    (told.setJob (some (.read next))).issueReadBlock next.read m

/-- The answer to a READ of a read job (the table of R127). -/
def State.readAnswered (s : State) (j : ReadJob) (answer : ReadAnswer) : State :=
  match j.todo with
  | [] => s
  | n :: rest =>
    match answer with
    | .good data => s.readBlockEnded j n rest data (decide (2 ≤ j.attempt))
    | .corrected data => s.readBlockEnded j n rest data true
    | .unrecoverable =>
      if j.attempt < Config.maxAttempts then
        (s.setJob (some (.read { j with attempt := j.attempt + 1 }))).issueReadBlock j.read n
      else s.endReadBad j n

/-! ### The flush job (R105 to R109, R130, R131) -/

def State.endFlushWritten (s : State) (j : FlushJob) : State := (s.setJob none).flushWritten j.slot

def State.endFlushLost (s : State) (j : FlushJob) : State := (s.setJob none).flushLost j.slot

/-- Spare entries have changed state: a checkpoint is requested and the reserve is judged (R114, R115). -/
def State.sparesChanged (s : State) (m : BlockMap) : State := ({ s with blockMap := m } : State).requestCheckpoint.judgeReserve

/-- Steps 2 to 4 of R107. -/
def State.tryNextSpare (s : State) (j : FlushJob) : State :=
  if Config.maxSparesTried ≤ j.tried then s.endFlushLost j
  else
    match s.blockMap.allocate with
    | none => s.endFlushLost j
    | some k =>
      let next : FlushJob := { j with target := .spare k, tried := j.tried + 1, verify := false }
      (s.setJob (some (.flush next))).issue (.write (s.blockMap.sparePbn k) j.data)

/-- Reassignment after a failed write or verify (R107). -/
def State.reassign (s : State) (j : FlushJob) : State :=
  match j.target with
  | .current => s.tryNextSpare j
  | .spare k => (s.sparesChanged (s.blockMap.retire k)).tryNextSpare j

/-- The answer to a write to the current mapping (R105). -/
def State.currentWriteAnswered (s : State) (j : FlushJob) : WriteAnswer → State
  | .good =>
    if s.blockMap.candidates.contains j.lbn then
      (s.setJob (some (.flush { j with verify := true }))).issue (.read (s.blockMap.translate j.lbn))
    else s.endFlushWritten j
  | .failed => s.reassign j

/-- The answer to a verify read (R106). -/
def State.verifyAnswered (s : State) (j : FlushJob) : ReadAnswer → State
  | .good _ => ({ s with blockMap := s.blockMap.dropCandidate j.lbn } : State).endFlushWritten j
  | .corrected _ => s.reassign j
  | .unrecoverable => s.reassign j

/-- The answer to a write to spare k under trial (R107, R108). -/
def State.spareWriteAnswered (s : State) (j : FlushJob) (k : Nat) : WriteAnswer → State
  | .good => (s.sparesChanged ((s.blockMap.succeedAt j.lbn k).dropCandidate j.lbn)).endFlushWritten j
  | .failed => s.reassign j

/-! ### The checkpoint job (R132, R160, R161) -/

/-- A checkpoint job ends good (R160). -/
def State.endCheckpointGood (s : State) (c : CheckpointJob) : State :=
  (({ s with store := { s.store with newest := some c.copy, generation := c.generation, lastResult := .good } } : State).setJob
    none).noteCheckpointEnded true

/-- A checkpoint job ends failed by a FAILED write (R125, R161). -/
def State.endCheckpointFailed (s : State) (c : CheckpointJob) : State :=
  (((s.setJob none).checkpointFailed true c.generation).setYield true).noteCheckpointEnded false

/-- The answer to a write of a checkpoint job (R132). -/
def State.checkpointWriteAnswered (s : State) (c : CheckpointJob) : WriteAnswer → State
  | .good =>
    if c.written + 1 < Config.copyBlocks then
      (s.setJob (some (.checkpoint { c with written := c.written + 1 }))).issueCheckpointBlock c (c.written + 1)
    else s.endCheckpointGood c
  | .failed => s.endCheckpointFailed c

/-! ### The identify job (R133, R144, R149 to R153, R165) -/

/-- Every waiter completes with one status; the completions of detached waiters are discarded. -/
def State.finishWaiters (s : State) (ws : List Waiter) (status : Status) : State :=
  ws.foldl (fun t w => t.finish w.port w.tag w.detached status .blank) s

/-- A restart ends (R151). -/
def State.endRestart (s : State) (success : Bool) : State :=
  let cleared : State := { s with link := { s.link with restart := false, restartWaiters := [] } }
  let told := cleared.finishWaiters s.link.restartWaiters (if success then .ok else .mediaFault)
  if success then told.offerBoth .mediaRestored else told

/-- An identify job ends: of a restart, or of the start-up, after which the service is READY (R151, R153, R165). -/
def State.endIdentify (s : State) (success : Bool) : State :=
  let closed : State := { s.setJob none with link := { s.link with identified := none } }
  if s.link.restart then closed.endRestart success else { closed with service := { closed.service with state := .ready } }

def State.setMedia (s : State) (m : MediaState) : State := { s with link := { s.link with media := m } }

/-- The geometry is accepted (R144). -/
def State.geometryOk (s : State) (count size : Nat) : Bool :=
  decide (size = Config.blockSize) && decide (Config.minBlocks ≤ count) && decide (count ≤ Config.maxBlocks) &&
    (!s.store.loaded || decide (count = s.blockMap.p))

/-- The IDENTIFY is answered (R133, R144). -/
def State.identifyAnswered (s : State) (count size : Nat) : State :=
  if s.geometryOk count size then
    if s.store.loaded then (s.setMedia .online).endIdentify true
    else
      let judged : State := { s.setMedia .online with link := { s.link with media := .online, identified := some count } }
      (judged.setJob (some (.identify (.loading [] 1)))).issue (.read 0)
  else (s.setMedia .fault).endIdentify false

/-- A block of the load reads has ended; after the 24th the tables are loaded (R133, R166, R167). -/
def State.loadBlockEnded (s : State) (blocks : List (Option Block)) : State :=
  if blocks.length < Config.metadataBlocks then
    (s.setJob (some (.identify (.loading blocks 1)))).issue (.read blocks.length)
  else (s.loadTables blocks).endIdentify true

/-- The answer to a load read (R133). -/
def State.loadReadAnswered (s : State) (blocks : List (Option Block)) (attempt : Nat) : ReadAnswer → State
  | .good data => s.loadBlockEnded (blocks ++ [some data])
  | .corrected data => s.loadBlockEnded (blocks ++ [some data])
  | .unrecoverable =>
    if attempt < Config.maxAttempts then
      (s.setJob (some (.identify (.loading blocks (attempt + 1))))).issue (.read blocks.length)
    else s.loadBlockEnded (blocks ++ [none])

/-! ### Timeouts and entry to FAULT (R142, R143, R145) -/

/-- Every READ of a wait list completes MEDIA_FAULT and leaves it (R135). -/
def State.faultWaitList (s : State) (p : PortId) : State :=
  (({ s with sched := s.sched.setWait p [] } : State)).completeAll p ((s.sched.wait p).map WaitingRead.tag) .mediaFault

/-- The job in progress is abandoned (R91, R110, R135). -/
def State.abandonJob (s : State) : State :=
  let idle := s.setJob none
  match s.sched.job with
  | some (.read j) => idle.finish j.port j.read.tag j.detached .mediaFault .blank
  | some (.flush j) => { idle with staging := idle.staging.takeBack j.slot j.relocate }
  | some (.checkpoint _) | some (.identify _) | none => idle

/-- Write-through waiters and FLUSH waiters end MEDIA_FAULT (R91, R94). -/
def State.faultBuffer (s : State) : State :=
  let emptied : State := { s with staging := { s.staging with wtWaiters := [], flushWaiters := [] } }
  let through := s.staging.wtWaiters.foldl (fun t w => t.finish w.port w.tag w.detached .mediaFault .blank) emptied
  s.staging.flushWaiters.foldl (fun t w => t.finish w.port w.tag w.detached .mediaFault (.lost w.lost)) through

/-- A quiesce ends at entry to FAULT (R173). -/
def State.faultQuiesce (s : State) : State :=
  match s.service.quiesce with
  | some q => ({ s with service := { s.service with state := .ready, quiesce := none } } : State).finishWaiters q.waiters .mediaFault
  | none => s

/-- The operation is dropped: none in flight, no deadline runs (R142). -/
def State.dropOperation (s : State) : State := { s with link := { s.link with flight := none, deadline := none } }

/-- Entry to FAULT, one event (R145), its frames in the order of R146. Where it ends the drain, the apply is a step after this one,
so that OUTCOME (APPLIED) and HOLD_LOST, which R146 does not list, come behind MEDIA (FAULT) and CHECKPOINT (FAILED) (DESIGN
CHOICE, log 32). -/
def State.enterFault (s : State) : State :=
  let faulted := (s.setMedia .fault).dropOperation
  let ended := ((((faulted.abandonJob).faultWaitList .A).faultWaitList .B).faultBuffer).faultQuiesce
  let told := ended.offerBoth .mediaFault
  match s.sched.job with
  | some (.checkpoint c) => told.checkpointFailed true c.generation
  | some (.read _) | some (.flush _) | some (.identify _) | none => told

/-- The deadline of the operation in flight runs out (R142, R143). -/
def State.timedOut (s : State) (op : Op) : State :=
  let counted : State := { s with link := { s.link with timeouts := s.link.timeouts + 1 } }
  if counted.link.timeouts < Config.maxTimeouts then counted.issue op
  else
    match s.sched.job with
    | some (.identify _) => ((counted.dropOperation).setMedia .fault).endIdentify false
    | some (.read _) | some (.flush _) | some (.checkpoint _) | none => counted.enterFault

end Sys2Proof.Machine
end

