-- ==== Sys2Proof/Machine/Agree.lean ====
section
/-! DEFINITION. The Agreement Unit (spec/02): validation of a PROPOSE, the drain, entry to APPLYING, the apply, the ends of a
proposal, and what becomes of it and of the holds when a port goes OFFLINE. -/

namespace Sys2Proof.Machine

/-! ### Order left open -/

/-- The elements in an order that free choices make (log 2); `fuel` is the number of elements. -/
def inAnyOrder {α : Type} : Nat → List α → Nat → List α
  | _, [], _ => []
  | _, [x], _ => [x]
  | 0, xs, _ => xs
  | fuel + 1, xs, n =>
    match pick xs n with
    | some x => x :: inAnyOrder fuel (xs.eraseIdx (Config.choice n % xs.length)) (n + 1)
    | none => xs

/-- Notices of one event whose order the spec leaves open, each for its own port. -/
def State.offerInAnyOrder (s : State) (offers : List (PortId × Notice)) : State :=
  let told := (inAnyOrder offers.length offers s.choices).foldl (fun t x => t.offer x.1 x.2) s
  { told with choices := told.choices + offers.length }

/-! ### Validation (R28) -/

/-- The extent overlaps a defined region other than `except` (R28). -/
def State.overlapsDefined (s : State) (base length : Nat) (except : Option (Fin 16)) : Bool :=
  allRegions.any fun r => (s.region r).isDefined && (except != some r) &&
    extentsOverlap base length (s.region r).base (s.region r).length

/-- A spare is under trial in the flush job in progress (R102). -/
def State.spareUnderTrial (s : State) : Bool :=
  match s.sched.job with
  | some (.flush j) => j.target != .current
  | some (.read _) | some (.checkpoint _) | some (.identify _) | none => false

/-- Checks of a kind that targets one region, before INVALID_CHANGE (R28). -/
def Region.targetRefusal (x : Region) : Option Status :=
  match x.state with
  | .undefined => some .noRegion
  | .fixed => some .targetFixed
  | .defined => none

/-- INVALID_CHANGE of a SET_SPARES (R28, R102). -/
def State.badSpareCount (s : State) (count : Nat) : Bool :=
  decide (count < Config.minSpares) || decide (Config.maxSpares < count) ||
  s.blockMap.spares.any (· != .free) || s.spareUnderTrial ||
  decide (s.blockMap.p < Config.metadataBlocks + count + Config.minLogical) ||
  allRegions.any fun r => (s.region r).isDefined &&
    decide (s.blockMap.p - Config.metadataBlocks - count < (s.region r).base + (s.region r).length)

/-- Validation of a change (the table of R28): the status it is refused with, or none. -/
def State.validate (s : State) : Change → Option Status
  | .define r base length _ _ =>
    if (s.region r).isDefined || length == 0 || decide (s.blockMap.l < base + length) || s.overlapsDefined base length none
    then some .invalidChange else none
  | .delete r => (s.region r).targetRefusal
  | .resize r length =>
    match (s.region r).targetRefusal with
    | some st => some st
    | none =>
      if length == 0 || decide (s.blockMap.l < (s.region r).base + length) ||
          s.overlapsDefined (s.region r).base length (some r)
      then some .invalidChange else none
  | .reconfigure r _ _ => (s.region r).targetRefusal
  | .resetTable =>
    if s.agree.phase == .provisioning then some .wrongPhase
    else if allRegions.any fun r => (s.region r).state == .fixed then some .targetFixed
    else none
  | .close => if s.agree.phase == .agreed then some .wrongPhase else none
  | .setSpares count =>
    if s.agree.phase == .agreed then some .wrongPhase
    else if s.badSpareCount count then some .invalidChange
    else none

/-! ### Target and drain (R24, R41) -/

/-- The region is a target of the change (R24). -/
def Change.targets : Change → Fin 16 → Bool
  | .delete r, x => r == x
  | .resize r _, x => r == x
  | .reconfigure r _ _, x => r == x
  | .resetTable, _ => true
  | .define .., _ => false
  | .close, _ => false
  | .setSpares _, _ => false

/-- The extents leaving the table (R41). -/
def State.leaving (s : State) : Change → DrainScope
  | .delete r => .extent (s.region r).base (s.region r).length
  | .resize r length =>
    if length < (s.region r).length then .extent ((s.region r).base + length) ((s.region r).length - length) else .nothing
  | .resetTable => .everything
  | .define .. | .reconfigure .. | .close | .setSpares _ => .nothing

/-- A READ of the target waits, or its job is in progress (R41 condition 1). -/
def State.readsTarget (s : State) (c : Change) : Bool :=
  s.sched.waitA.any (fun w => c.targets w.region) || s.sched.waitB.any (fun w => c.targets w.region) ||
    match s.sched.job with
    | some (.read j) => c.targets j.read.region
    | some (.flush _) | some (.checkpoint _) | some (.identify _) | none => false

/-- A slot in the drain scope is DIRTY or FLUSHING (R41 condition 3). -/
def Staging.dirtyInScope (b : Staging) : Bool :=
  allSlots.any fun i => match b.slots[i].unflushed? with
    | some d => b.drain.contains d.lbn
    | none => false

/-- The three conditions of R41 hold at once. -/
def State.drained (s : State) (c : Change) : Bool :=
  !s.readsTarget c && !(s.staging.wtWaiters.any fun w => c.targets w.region) && !s.staging.dirtyInScope

/-! ### The apply (R43 to R45) -/

/-- A region's record after the change, its hold still in place (R43 step 1, R44). -/
def Change.newRecord (c : Change) (r : Fin 16) (x : Region) : Region :=
  match c with
  | .define q base length attrs lease =>
    if q = r then
      { state := .defined, base := base, length := length, attrs := attrs, leasePeriod := lease, hold := none, changing := false }
    else x
  | .delete q => if q = r then { Region.undefinedRecord with hold := x.hold } else x
  | .resize q length => if q = r then { x with length := length } else x
  | .reconfigure q attrs lease => if q = r then { x with attrs := attrs, leasePeriod := lease } else x
  | .resetTable => { Region.undefinedRecord with hold := x.hold }
  | .close => x
  | .setSpares _ => x

/-- The reason with which the kind drops the hold of a region it has changed, or none (R44). -/
def Change.holdLoss (c : Change) (r : Fin 16) : Option HoldLostReason :=
  match c with
  | .delete q => if q = r then some .deleted else none
  | .reconfigure q attrs _ => if q = r ∧ attrs.exclusive = false then some .reconfigured else none
  | .resetTable => some .deleted
  | .define .. | .resize .. | .close | .setSpares _ => none

/-- Step 1 for the phase, S and L (R44, R116). -/
def State.applyTables (s : State) : Change → State
  | .resetTable => { s with agree := { s.agree with phase := .provisioning } }
  | .close => { s with agree := { s.agree with phase := .agreed } }
  | .setSpares count =>
    let g : Geometry := ⟨s.blockMap.p, count⟩
    ({ s with blockMap :=
        { geometry := some g, spares := List.replicate count .free
          candidates := s.blockMap.candidates.filter fun lbn => decide (lbn < g.l) } } : State).judgeReserve
  | .define .. | .delete _ | .resize .. | .reconfigure .. => s

/-- Step 2: every CLEAN slot in the drain scope is freed, and the scope is dropped (R43, R96). -/
def Staging.freeLeaving (b : Staging) : Staging :=
  let gone := b.cleanOrder.filter fun i => match b.slots[i].lbn? with
    | some lbn => b.drain.contains lbn
    | none => false
  { gone.foldl Staging.makeFree b with drain := .nothing }

/-- Step 3: the holds that the kind drops, with the notices to their holders (R43, R44; their order at RESET_TABLE, log 15). -/
def State.lostHolds (s : State) (c : Change) : List (PortId × Notice) :=
  allRegions.filterMap fun r =>
    match c.holdLoss r, (s.region r).hold with
    | some reason, some h => some (h.holder, .holdLost reason r)
    | _, _ => none

/-- Steps 3 and 4 on a record: the hold dropped, the flag cleared. -/
def Change.settledRecord (c : Change) (r : Fin 16) (x : Region) : Region :=
  let y := if (c.holdLoss r).isSome then { x with hold := none } else x
  if c.targets r then { y with changing := false } else y

/-- The change has to reach the metadata (R45). -/
def State.savesChange (s : State) : Change → Bool
  | .define _ _ _ attrs _ => attrs.kept
  | .delete r => (s.region r).attrs.kept
  | .resize r _ => (s.region r).attrs.kept
  | .reconfigure r attrs _ => (s.region r).attrs.kept || attrs.kept
  | .resetTable => true
  | .close => true
  | .setSpares count => s.blockMap.s != count

/-- The proposal record is removed, with its OUTCOME offered to each ONLINE port (R46). -/
def State.endProposal (s : State) (pr : Proposal) (reason : OutcomeReason) : State :=
  ({ s with agree := { s.agree with proposal := none } } : State).offerBoth (.outcome reason pr.id pr.change)

/-- The apply, one event (R43). -/
def State.applyProposal (s : State) (pr : Proposal) : State :=
  let c := pr.change
  let changed := (s.applyTables c).mapRegions c.newRecord
  let freed : State := { changed with staging := changed.staging.freeLeaving }
  let dropped := (freed.offerInAnyOrder (s.lostHolds c)).mapRegions c.settledRecord
  let told := dropped.endProposal pr .applied
  if s.savesChange c then told.requestCheckpoint else told

/-- The drain of the APPLYING proposal has ended, and no request is still at its entry (R40, R41). -/
def State.applyDue (s : State) : Option Proposal :=
  match s.agree.proposal with
  | some pr =>
    if pr.state == .applying && s.agree.entering.isNone && s.drained pr.change then some pr else none
  | none => none

/-! ### Entry to APPLYING (R40) -/

def Change.flagChanging (c : Change) (r : Fin 16) (x : Region) : Region :=
  if c.targets r then { x with changing := true } else x

/-- Steps 1 to 4 of R40 but for the presentations of step 3; those of the other port come before the apply (log 17). -/
def State.enterApplying (s : State) (p : PortId) (pr : Proposal) : State :=
  let flagged := ({ s with agree :=
      { s.agree with proposal := some { pr with state := .applying }, entering := some p } } : State).mapRegions pr.change.flagChanging
  let refused := (flagged.endWaitingWrite .A pr.change.targets .regionChanging).endWaitingWrite .B pr.change.targets .regionChanging
  { refused with staging := { refused.staging with drain := s.leaving pr.change } }

/-- The entry is over; where the drain conditions hold already, the proposal is applied in this event (R40 step 5). -/
def State.endEntering (s : State) : State :=
  let closed : State := { s with agree := { s.agree with entering := none } }
  match closed.applyDue with
  | some pr => closed.applyProposal pr
  | none => closed

/-! ### The window (R34) -/

/-- The window of an OPEN proposal has one tick left: the tick brings it to 0. -/
def Proposal.lastTick (pr : Proposal) : Bool :=
  match pr.state with
  | .opened window => decide (window ≤ 1)
  | .applying => false

/-- The window of an OPEN proposal counts down (R34); one that the tick brings to 0 is counted in the event of its own that the
lapse is (log 21). -/
def Proposal.countDown (pr : Proposal) : Proposal :=
  match pr.state with
  | .opened window => if pr.lastTick then pr else { pr with state := .opened (window - 1) }
  | .applying => pr

/-! ### A port goes OFFLINE (R20, R36, R52) -/

/-- What R36 tells the other port of an OPEN proposal when this port departs. -/
def Proposal.departureNotice (pr : Proposal) (p : PortId) : Notice :=
  .outcome (if pr.proposer == p then .withdrawnProposerOffline else .lapsedPeerAbsent) pr.id pr.change

/-- The OPEN proposal, if there is one. -/
def Agreement.openProposal (a : Agreement) : Option Proposal :=
  match a.proposal with
  | some pr => match pr.state with
    | .opened _ => some pr
    | .applying => none
  | none => none

/-- An ONLINE port becomes OFFLINE: its holds are dropped, an OPEN proposal ends, the other port is told; the OUTCOME and the
PEER notice in either order (R20, R36, R52). -/
def State.goOffline (s : State) (p : PortId) : State :=
  let gone := (s.updPort p fun u => { u with online := false }).dropHoldsOf p
  match s.agree.openProposal with
  | some pr =>
    ({ gone with agree := { gone.agree with proposal := none } } : State).offerInAnyOrder
      [(p.other, pr.departureNotice p), (p.other, .peerOffline)]
  | none => gone.offer p.other .peerOffline

end Sys2Proof.Machine
end

