-- ==== Sys2Proof/Machine/Present.lean ====
section
/-! DEFINITION. Presentation (spec/03, 3.2 and 3.3): the generic checks, the dispatch of each request to its owning block, the
order in which requests are presented, and the taking of a SUBMIT. -/

namespace Sys2Proof.Machine

/-! ### Generic checks (R57, R59) -/

/-- Requests refused MEDIA_FAULT while the media is in FAULT or the table is UNLOADED (R59). -/
def needsMedia : Request → Bool
  | .read .. => true
  | .write .. => true
  | .flush _ => true
  | .claim _ => true
  | .propose _ => true
  | .answer _ a => a == 1
  | .attach | .detach | .renew _ | .release _ | .fix _ | .queryRegion _ | .withdraw _ => false
  | .inquire | .quiesce | .resume | .mediaRestart | .unknown _ => false

/-- Requests refused QUIESCED while the service is QUIESCING or QUIESCED (R59). -/
def needsService : Request → Bool
  | .write .. => true
  | .propose _ => true
  | .read .. | .flush _ | .claim _ | .answer .. | .attach | .detach | .renew _ | .release _ | .fix _ => false
  | .queryRegion _ | .withdraw _ | .inquire | .quiesce | .resume | .mediaRestart | .unknown _ => false

def State.mediaDown (s : State) : Bool := s.link.media == .fault || !s.store.loaded

def State.atRest (s : State) : Bool := s.service.state == .quiescing || s.service.state == .quiesced

/-- The checks of R57, steps 1 to 6: the status a request is refused with, or none. -/
def State.refusal (s : State) (p : PortId) (q : Request) : Option Status :=
  if s.service.state = .starting then some .notReady
  else if (s.port p).online = false ∧ q ≠ .attach then some .notOnline
  else if badFields q then some .badRequest
  else if s.mediaDown && needsMedia q then some .mediaFault
  else if s.atRest && needsService q then some .quiesced
  else s.regionRefusal p q

/-! ### Port unit: ATTACH, DETACH, INQUIRE -/

/-- ATTACH (R50). -/
def State.attach (s : State) (p : PortId) (tag : Byte) : State :=
  let result : Result :=
    .attach p s.service.state s.link.media s.store.loaded s.agree.phase (s.port p.other).online
  let done := (s.updPort p fun u => { u with online := true }).complete p tag .ok result
  if (s.port p).online then done else done.offer p.other .peerOnline

/-- A record other than the DETACH itself is not COMPLETE (R51). -/
def PortUnit.busyBeside (u : PortUnit) (tag : Byte) : Bool := u.requests.any fun r => r.tag != tag && r.state != .complete

/-- DETACH (R51). -/
def State.detach (s : State) (p : PortId) (tag : Byte) : State :=
  if (s.port p).busyBeside tag then s.complete p tag .portBusy .blank
  else (s.complete p tag .ok .blank).goOffline p

/-- The values of R70. -/
def State.inquiry (s : State) : Inquiry :=
  { service := s.service.state, media := s.link.media, loaded := s.store.loaded, phase := s.agree.phase,
    p := s.blockMap.p, s := s.blockMap.s, l := s.blockMap.l, freeSpares := s.blockMap.freeSpares,
    inUseSpares := s.blockMap.inUseSpares, retiredSpares := s.blockMap.retiredSpares,
    candidates := s.blockMap.candidates.length, dirty := s.staging.dirtyOrder.length, forced := s.staging.forced,
    checkpointPending := s.store.checkpointPending, lastResult := s.store.lastResult, generation := s.store.generation }

/-! ### Region Table: CLAIM, RENEW, RELEASE, FIX, QUERY_REGION -/

/-- The hold of a region is set, or set back, to its lease period (R10, R11, R13). -/
def State.hold (s : State) (p : PortId) (r : Fin 16) : State :=
  s.setRegion r { s.region r with hold := some ⟨p, (s.region r).leasePeriod⟩ }

/-- CLAIM (R10). -/
def State.claim (s : State) (p : PortId) (tag : Byte) (r : Fin 16) : State :=
  let x := s.region r
  let take := (s.hold p r).complete p tag .ok (.lease x.leasePeriod)
  if x.attrs.exclusive = false then s.complete p tag .noRight (.lease 0)
  else match x.hold with
    | none => take
    | some h => if h.holder = p then take else s.complete p tag .held (.lease h.remaining)

/-- RENEW (R11). -/
def State.renew (s : State) (p : PortId) (tag : Byte) (r : Fin 16) : State :=
  if (s.region r).heldBy p then (s.hold p r).complete p tag .ok (.lease (s.region r).leasePeriod)
  else s.complete p tag .notHolder (.lease 0)

/-- RELEASE (R12). -/
def State.release (s : State) (p : PortId) (tag : Byte) (r : Fin 16) : State :=
  if (s.region r).heldBy p then ((s.dropHold r).endNotStarted p r).complete p tag .ok .blank
  else s.complete p tag .notHolder .blank

/-- The region is held by the other port. -/
def Region.heldByOther (x : Region) (p : PortId) : Bool := x.heldBy p.other

/-- An OPEN proposal whose target has been fixed lapses (R37). -/
def State.lapseIfFixed (s : State) (r : Fin 16) : State :=
  match s.agree.openProposal with
  | some pr => if pr.change.targets r then s.endProposal pr .lapsedTargetFixed else s
  | none => s

/-- FIX (R18, R37). -/
def State.fix (s : State) (p : PortId) (tag : Byte) (r : Fin 16) : State :=
  if (s.region r).heldByOther p then s.complete p tag .noRight .blank
  else ((s.setRegion r { s.region r with state := .fixed }).complete p tag .ok .blank).lapseIfFixed r

/-- What QUERY_REGION reports (R19): an UNDEFINED record is reported as zero, with its flag. -/
def Region.reported (x : Region) : Region :=
  if x.isDefined then x else { Region.undefinedRecord with changing := x.changing }

/-- QUERY_REGION (R19). -/
def State.queryRegion (s : State) (p : PortId) (tag : Byte) (r : Fin 16) : State :=
  s.complete p tag .ok (.region (s.region r).reported)

/-! ### Agreement Unit: PROPOSE, ANSWER, WITHDRAW -/

def Proposal.report (pr : Proposal) : ProposalReport :=
  match pr.state with
  | .opened _ => .opened
  | .applying => .applying

/-- The id after this one (R26). -/
def nextProposalId (n : Nat) : Nat := if 255 ≤ n then 1 else n + 1

/-- The record that a PROPOSE makes (R26, R30, R31). -/
def State.newProposal (s : State) (p : PortId) (c : Change) (window : Nat) : Proposal :=
  { id := s.agree.nextId, proposer := p, change := c,
    state := match s.agree.phase with
      | .provisioning => .applying
      | .agreed => .opened window }

/-- The record is taken and the counter advances (R26). -/
def State.takeProposal (s : State) (pr : Proposal) : State :=
  { s with agree := { s.agree with proposal := some pr, nextId := nextProposalId s.agree.nextId } }

/-- PROPOSE (R29 to R31); in PROVISIONING it enters APPLYING (R40). -/
def State.propose (s : State) (p : PortId) (tag : Byte) (c : Change) (window : Nat) : State :=
  match s.agree.proposal with
  | some pr => s.complete p tag .proposalPending (.proposal pr.id pr.report)
  | none =>
    match s.validate c with
    | some st => s.complete p tag st (.proposal 0 .none)
    | none =>
      let pr := s.newProposal p c window
      let taken := (s.takeProposal pr).complete p tag .ok (.proposal pr.id pr.report)
      match s.agree.phase with
      | .provisioning => taken.enterApplying p pr
      | .agreed =>
        if (s.port p.other).online then taken.offer p.other (.proposal pr.id c window)
        else s.complete p tag .peerAbsent (.proposal 0 .none)

/-- ANSWER (R32). -/
def State.answer (s : State) (p : PortId) (tag id answer : Byte) : State :=
  match s.agree.openProposal with
  | some pr =>
    if pr.id = id.toNat ∧ pr.proposer ≠ p then
      let done := s.complete p tag .ok .blank
      if answer = 1 then done.enterApplying p pr else done.endProposal pr .declined
    else s.complete p tag .noSuchProposal .blank
  | none => s.complete p tag .noSuchProposal .blank

/-- WITHDRAW (R33). -/
def State.withdraw (s : State) (p : PortId) (tag id : Byte) : State :=
  match s.agree.proposal with
  | some pr =>
    if pr.id = id.toNat ∧ pr.proposer = p then
      match pr.state with
      | .applying => s.complete p tag .proposalPending .blank
      | .opened _ => (s.complete p tag .ok .blank).endProposal pr .withdrawnProposer
    else s.complete p tag .noSuchProposal .blank
  | none => s.complete p tag .noSuchProposal .blank

/-! ### Service Control: QUIESCE, RESUME -/

/-- A QUIESCE is taken in READY (R170). -/
def State.beginQuiesce (s : State) (p : PortId) (tag : Byte) : State :=
  let record : Quiesce := { waiters := [⟨p, tag, false⟩], lost := 0, begun := false, ended := none }
  let entered : State :=
    { s.startRecord p tag with service := { s.service with state := .quiescing, quiesce := some record } }
  let refused := (entered.endWaitingWrite .A (fun _ => true) .quiesced).endWaitingWrite .B (fun _ => true) .quiesced
  if s.staging.dirtyOrder.isEmpty then refused.requestCheckpoint else refused

/-- A QUIESCE joins the waiters (R169). R168 bounds them by the outstanding requests of two ports, and a waiter that a PORT RESET
detached stays: what happens past 16 is not said, and the list grows (DESIGN CHOICE, log 31). -/
def State.joinQuiesce (s : State) (p : PortId) (tag : Byte) : State :=
  match s.service.quiesce with
  | some q =>
    { s.startRecord p tag with service :=
        { s.service with quiesce := some { q with waiters := q.waiters ++ [⟨p, tag, false⟩] } } }
  | none => s.startRecord p tag

/-- QUIESCE (R169). -/
def State.quiesce (s : State) (p : PortId) (tag : Byte) : State :=
  match s.service.state with
  | .quiescing => s.joinQuiesce p tag
  | .quiesced => s.complete p tag .ok .blank
  | .starting | .ready =>
    if s.agree.proposal.isSome then s.complete p tag .proposalPending .blank
    else if s.mediaDown then s.complete p tag .mediaFault .blank
    else s.beginQuiesce p tag

/-- RESUME (R174). -/
def State.resume (s : State) (p : PortId) (tag : Byte) : State :=
  match s.service.state with
  | .quiescing => s.complete p tag .quiesced .blank
  | .quiesced =>
    (({ s with service := { s.service with state := .ready } } : State).complete p tag .ok .blank).offer p.other .serviceResumed
  | .starting | .ready => s.complete p tag .ok .blank

/-! ### Media Link Controller: MEDIA_RESTART -/

/-- MEDIA_RESTART (R148). R138 bounds the restart waiters by the outstanding requests of two ports, and a waiter that a PORT RESET
detached is no outstanding request any more: what happens past 16 is not said, and the list grows (DESIGN CHOICE, log 31). -/
def State.mediaRestart (s : State) (p : PortId) (tag : Byte) : State :=
  let started := s.startRecord p tag
  let waiting : State :=
    { started with link := { s.link with restart := true, restartWaiters := s.link.restartWaiters ++ [⟨p, tag, false⟩] } }
  if s.link.restart then waiting
  else if s.link.media = .online then s.complete p tag .ok .blank
  else waiting.beginIdentify

/-! ### Dispatch (R60) -/

/-- A region request goes to its rule; a byte that names no region has failed the field check already. -/
def State.onRegion (s : State) (b : Byte) (f : Fin 16 → State) : State :=
  match regionOf b with
  | some r => f r
  | none => s

/-- Write intake (R77, R79): the WRITE is placed, or waits for slots. -/
def State.writeIntake (s : State) (p : PortId) (tag : Byte) (r : Fin 16) (count : Byte) (offset : Word24)
    (payload : List Byte) : State :=
  if s.canPlaceWrite r count offset then s.placeWrite p tag r count offset payload
  else s.setRecord p tag .awaitingSlots

/-- A request that has passed its checks is dispatched to its owning block (R60). -/
def State.dispatch (s : State) (p : PortId) (tag : Byte) : Request → State
  | .attach => s.attach p tag
  | .detach => s.detach p tag
  | .read r count offset => s.onRegion r fun x => s.dispatchRead p tag x count offset
  | .write r count offset payload => s.onRegion r fun x => s.writeIntake p tag x count offset payload
  | .flush r =>
    match flushScopeOf r with
    | some scope => s.dispatchFlush p tag scope
    | none => s
  | .claim r => s.onRegion r (s.claim p tag)
  | .renew r => s.onRegion r (s.renew p tag)
  | .release r => s.onRegion r (s.release p tag)
  | .fix r => s.onRegion r (s.fix p tag)
  | .queryRegion r => s.onRegion r (s.queryRegion p tag)
  | .propose f =>
    match changeOf f with
    | some c => s.propose p tag c f.window.toNat
    | none => s
  | .answer id a => s.answer p tag id a
  | .withdraw id => s.withdraw p tag id
  | .inquire => s.complete p tag .ok (.inquire s.inquiry)
  | .quiesce => s.quiesce p tag
  | .resume => s.resume p tag
  | .mediaRestart => s.mediaRestart p tag
  | .unknown _ => s.complete p tag .badRequest .blank

/-- Presentation of a request: its checks, then its refusal or its dispatch (R56, R57, R62). -/
def State.present (s : State) (p : PortId) (tag : Byte) (q : Request) : State :=
  match s.refusal p q with
  | some st => s.complete p tag st .blank
  | none => s.dispatch p tag q

/-! ### The order of presentation (R56) -/

/-- The request a port presents next: the first that awaits its turn, unless a WRITE waits for slots (R56). -/
def PortUnit.nextToPresent (u : PortUnit) : Option Record :=
  if u.requests.any fun r => r.state == .awaitingSlots then none else u.requests.find? fun r => r.state == .awaitingTurn

/-- Ports that have a request to present. -/
def State.readyPorts (s : State) : List PortId :=
  [PortId.A, PortId.B].filter fun p => (s.port p).nextToPresent.isSome

/-- A choice is used up where there was one (log 2). -/
def State.chose {α : Type} (s : State) (xs : List α) : State :=
  match xs with
  | [] => s
  | [_] => s
  | _ :: _ :: _ => s.bumpChoice

/-- The next request of a port is presented; no effect where it has none. -/
def State.presentNext (s : State) (p : PortId) : State :=
  match (s.port p).nextToPresent with
  | some r => s.present p r.tag r.request
  | none => s

/-- Presentation moves on at each port until it is held back or has nothing left; `fuel` bounds the requests. While a
proposal is entering APPLYING, the other port goes first and then the entry ends (R40, log 17). Where both ports can present,
either goes first (R56, log 2). Where one event both makes the apply due and lets a port present further requests, R41 gives no
order: the requests are presented first, against the changing flag, and the apply is a step after them (DESIGN CHOICE, log 30). They
are presented before a WRITE that waits for slots is judged again, too (DESIGN CHOICE, log 34). -/
def State.advance : Nat → State → State
  | 0, s => s
  | fuel + 1, s =>
    match s.agree.entering with
    | some p =>
      if (s.port p.other).nextToPresent.isSome then (s.presentNext p.other).advance fuel else s.endEntering.advance fuel
    | none =>
      match pick s.readyPorts s.choices with
      | some p => ((s.chose s.readyPorts).presentNext p).advance fuel
      | none => s

/-- Enough for every request of both ports, and for one entry to APPLYING with each. -/
def State.presentFuel (s : State) : Nat := 2 * (s.portA.requests.length + s.portB.requests.length) + 2

/-- Presentation moves on (R56). -/
def State.moveOn (s : State) : State := s.advance s.presentFuel

/-! ### The taking of a SUBMIT (R54) -/

/-- A frame that has passed its checks meets the request list; if it is taken, presentation moves on. -/
def State.takeSubmit (s : State) (p : PortId) (tag : Byte) (q : Request) : State :=
  if Config.maxOutstanding ≤ (s.port p).requests.length then s.updPort p PortUnit.setOverrun
  else if (s.port p).requests.any fun r => r.tag == tag then s.updPort p PortUnit.setTagClash
  else (s.updPort p fun u => { u with requests := u.requests ++ [⟨tag, q, .awaitingTurn⟩] }).moveOn

end Sys2Proof.Machine
end

