-- ==== Sys2Proof/Machine/Events.lean ====
section
/-! DEFINITION. The steps that an event still owes (log 1): which steps are due, in what order they are taken, and how a
command from outside first finishes the event in hand. Every step is a row of spec/opcode_table.json. -/

namespace Sys2Proof.Machine

/-- A step of the part that is due, that is, whose condition holds. -/
inductive Owed where
  | writeThrough (waiter : Nat)
  | quiesceEnd
  | flush (waiter : Nat)
  | apply
  | place (port : PortId)
  | job (choice : JobChoice)
  | leaseExpiry (region : Fin 16)
  | lapse
  deriving DecidableEq, Repr

/-! ### Which steps are due -/

/-- A waiter with no AWAITING entry (R82). -/
def WtWaiter.done (w : WtWaiter) : Bool := !w.entries.any fun e => e.state == .awaiting

/-- Numbers of the elements that satisfy a test. -/
def indicesOf {α : Type} (test : α → Bool) (xs : List α) : List Nat :=
  (List.range xs.length).filter fun i => match xs[i]? with
    | some x => test x
    | none => false

/-- The outcome of the checkpoint job that ends the quiesce (R172). -/
def State.quiesceEnded (s : State) : Option Bool :=
  match s.service.quiesce with
  | some q => q.ended
  | none => none

/-- The waiting WRITE of a port can be placed (R79). -/
def State.placeDue (s : State) (p : PortId) : Bool :=
  match (s.port p).waitingWrite with
  | some rec =>
    match rec.request with
    | .write b count offset _ =>
      match regionOf b with
      | some r => s.canPlaceWrite r count offset
      | none => false
    | _ => false
  | none => false

/-- The due steps of one rank (log 23): what the buffer and Service Control complete, the drain, waiting WRITEs, then the
arbitration; what a tick has still to count, each in an event of its own, comes last. An apply that a PORT RESET or a lease expiry
makes due comes after it (DESIGN CHOICE, log 33), and a waiting WRITE is judged after the presentations of the event (DESIGN CHOICE,
log 34). -/
def State.owedAt (s : State) : Nat → List Owed
  | 0 => (indicesOf WtWaiter.done s.staging.wtWaiters).map .writeThrough
  | 1 => if s.quiesceEnded.isSome then [.quiesceEnd] else []
  | 2 => (indicesOf s.staging.flushDone s.staging.flushWaiters).map .flush
  | 3 => if s.applyDue.isSome then [.apply] else []
  | 4 => ([PortId.A, PortId.B].filter s.placeDue).map .place
  | 5 => match s.jobDue with
    | some j => [.job j]
    | none => []
  | 6 => s.ticking.leases.map .leaseExpiry ++ if s.ticking.window then [.lapse] else []
  | _ => []

/-- The due steps of the first rank below `bound` that has one. -/
def State.firstOwed (s : State) (bound : Nat) : List Owed :=
  ((List.range bound).map s.owedAt).find? (fun xs => !xs.isEmpty) |>.getD []

/-! ### The steps -/

/-- A write-through waiter is removed and its WRITE completes (R82). -/
def State.completeWrite (s : State) (i : Nat) : State :=
  match s.staging.wtWaiters[i]? with
  | some w =>
    let removed : State := { s with staging := { s.staging with wtWaiters := s.staging.wtWaiters.eraseIdx i } }
    removed.finish w.port w.tag w.detached (if w.entries.any fun e => e.state == .lost then .writeError else .ok) .blank
  | none => s

/-- A FLUSH waiter is removed and its FLUSH completes (R94). -/
def State.completeFlush (s : State) (i : Nat) : State :=
  match s.staging.flushWaiters[i]? with
  | some w =>
    let removed : State := { s with staging := { s.staging with flushWaiters := s.staging.flushWaiters.eraseIdx i } }
    removed.finish w.port w.tag w.detached (flushStatus w.lost) (.lost w.lost)
  | none => s

/-- A port has a waiter that is not detached. -/
def liveWaiter (ws : List Waiter) (p : PortId) : Bool := ws.any fun w => w.port == p && !w.detached

/-- A SERVICE (QUIESCED) notice for a port with no live waiter of the quiesce (R172). -/
def State.offerQuiesced (s : State) (ws : List Waiter) (p : PortId) : State :=
  if liveWaiter ws p then s else s.offer p .serviceQuiesced

/-- The status of every waiter of the quiesce (R172). -/
def quiesceStatus (good : Bool) (lost : Nat) : Status := if good && lost == 0 then .ok else .partialOk

/-- The quiesce ends with its checkpoint (R172). -/
def State.endQuiesce (s : State) : State :=
  match s.service.quiesce with
  | some q =>
    match q.ended with
    | some good =>
      let completed := s.finishWaiters q.waiters (quiesceStatus good q.lost)
      let closed : State := { completed with service := { completed.service with state := .quiesced, quiesce := none } }
      (closed.offerQuiesced q.waiters .A).offerQuiesced q.waiters .B
    | none => s
  | none => s

def State.applyNow (s : State) : State :=
  match s.applyDue with
  | some pr => s.applyProposal pr
  | none => s

/-- The waiting WRITE of a port is placed, and its port's presentation moves on (R78, R79): the requests behind it, WRITEs that take
slots among them, are presented before the other port's waiting WRITE is judged again, which the spec does not order (DESIGN CHOICE,
log 34). -/
def State.placeWaiting (s : State) (p : PortId) : State :=
  match (s.port p).waitingWrite with
  | some rec =>
    match rec.request with
    | .write b count offset payload => (s.onRegion b fun r => s.placeWrite p rec.tag r count offset payload).moveOn
    | _ => s
  | none => s

/-- The tick has counted the lease of a region. -/
def State.leaseCounted (s : State) (r : Fin 16) : State :=
  { s with ticking := { s.ticking with leases := s.ticking.leases.erase r } }

/-- The tick has counted the window. -/
def State.windowCounted (s : State) : State := { s with ticking := { s.ticking with window := false } }

/-- The tick counts a lease that stood at 1 and it runs out (R14, R15, R16): an event of its own. A hold renewed or begun since is
counted down (log 21). Where the expiry ends the last drained READ, HOLD_LOST (EXPIRED) stands before the notices of the apply (DESIGN
CHOICE, log 33). -/
def State.expireLease (s : State) (r : Fin 16) : State :=
  let t := s.openEvent.leaseCounted r
  match (s.region r).hold with
  | some h =>
    if (s.region r).lastTick then
      (((t.dropHold r).endNotStarted h.holder r).offer h.holder (.holdLost .expired r)).moveOn
    else t.setRegion r (s.region r).countDown
  | none => t

/-- The tick counts a window that stood at 1 and it runs out (R34): an event of its own. A window that has begun since is counted
down (log 21). -/
def State.lapse (s : State) : State :=
  let t := s.openEvent.windowCounted
  match s.agree.proposal with
  | some pr =>
    if pr.lastTick then t.endProposal pr .lapsedDeadline
    else { t with agree := { t.agree with proposal := some pr.countDown } }
  | none => t

def State.perform (s : State) : Owed → State
  | .writeThrough i => s.completeWrite i
  | .quiesceEnd => s.endQuiesce
  | .flush i => s.completeFlush i
  | .apply => s.applyNow
  | .place p => s.placeWaiting p
  | .job j => s.beginJob j
  | .leaseExpiry r => s.expireLease r
  | .lapse => s.lapse

/-! ### Finishing an event -/

/-- The due steps below a rank are taken until none is due; `fuel` bounds their number. -/
def State.settleBelow (bound : Nat) : Nat → State → State
  | 0, s => s
  | fuel + 1, s =>
    match pick (s.firstOwed bound) s.choices with
    | some o => State.settleBelow bound fuel ((s.chose (s.firstOwed bound)).perform o)
    | none => s

/-- Enough for the waiters, two lists of eight requests, sixteen leases, and what follows from them. -/
def State.settleFuel (s : State) : Nat := 256 + s.staging.wtWaiters.length + s.staging.flushWaiters.length

/-- The event in hand is finished (log 1). -/
def State.settle (s : State) : State := State.settleBelow 7 s.settleFuel s

/-- A command from outside: with RESET# low it is not sampled (log 5); else the event in hand is finished and the command's
own event begins. -/
def State.fromOutside (s : State) (f : State → State) : State := if s.resetLow then s else f s.settle.openEvent

/-- A step of the part given as a command: the due steps of earlier ranks are taken, then the first due step of its rank that
passes the test; where none does, nothing more happens (log 13). -/
def State.ownStep (s : State) (rank : Nat) (test : Owed → Bool) : State :=
  let ready := State.settleBelow rank s.settleFuel s
  match (ready.owedAt rank).find? test with
  | some o => ready.perform o
  | none => ready

end Sys2Proof.Machine
end

