-- ==== Sys2Proof/Machine/Wire.lean ====
section
/-! DEFINITION. The port link (spec/09): transactions on a port's wires, the frame receiver, FETCH, PEEK and PORT RESET. -/

namespace Sys2Proof.Machine

/-! ### PORT RESET (R71, R72, R184) -/

def detachWaiter (p : PortId) (w : Waiter) : Waiter := if w.port == p then { w with detached := true } else w

/-- The READ of a port's read job goes on as detached work (R71, R134). -/
def detachJob (p : PortId) : Job → Job
  | .read j => .read (if j.port == p then { j with detached := true } else j)
  | .flush j => .flush j
  | .checkpoint j => .checkpoint j
  | .identify j => .identify j

/-- The work a port leaves behind: its waiting READs are dropped, its started requests are detached (R71). -/
def State.detachWork (s : State) (p : PortId) : State :=
  { s with
    sched := { s.sched.setWait p [] with job := s.sched.job.map (detachJob p) }
    staging := { s.staging with
      wtWaiters := s.staging.wtWaiters.map fun w => if w.port == p then { w with detached := true } else w
      flushWaiters := s.staging.flushWaiters.map fun w => if w.port == p then { w with detached := true } else w }
    link := { s.link with restartWaiters := s.link.restartWaiters.map (detachWaiter p) }
    service := { s.service with quiesce := s.service.quiesce.map fun q => { q with waiters := q.waiters.map (detachWaiter p) } } }

/-- The port unit after steps 1 and 2 of R72; the record of SDO is the model's own and stays. -/
def PortUnit.emptied (u : PortUnit) : PortUnit := { PortUnit.coldReset with online := u.online, sdo := u.sdo }

/-- No frame of a port's queue is older than the event in hand. -/
def State.clearBase (s : State) : PortId → State
  | .A => { s with event := { s.event with baseA := 0 } }
  | .B => { s with event := { s.event with baseB := 0 } }

/-- A PORT RESET takes effect (R71, R72). Where it discards the last drained READ, the apply of R41 is a step after it in its event,
so that at the other port PEER (OFFLINE) stands before the HOLD_LOST and OUTCOME (APPLIED) of the apply, which the spec does not
order (DESIGN CHOICE, log 33). -/
def State.portReset (s : State) (p : PortId) : State :=
  let emptied := ((s.detachWork p).updPort p PortUnit.emptied).clearBase p
  if (s.port p).online then emptied.goOffline p else emptied

/-! ### FETCH (R55, R180, R181) -/

/-- The head frame has been clocked out whole: it leaves the queue, and the record of a completion leaves the list. -/
def PortUnit.removeHead (u : PortUnit) : PortUnit :=
  match u.queue with
  | [] => u
  | .completion c :: rest => { u with queue := rest, requests := u.requests.filter fun r => r.tag != c.tag }
  | .notice .. :: rest => { u with queue := rest }

/-- The frames older than the event in hand are one fewer. -/
def State.lowerBase (s : State) : PortId → State
  | .A => { s with event := { s.event with baseA := s.event.baseA - 1 } }
  | .B => { s with event := { s.event with baseB := s.event.baseB - 1 } }

/-- The frame that a FETCH chooses: the head frame with its more-queued flag, or an EMPTY frame (R180). -/
def PortUnit.chosenFrame (u : PortUnit) : List Byte :=
  match u.queue with
  | [] => emptyFrame
  | f :: rest => frameBytes f (!rest.isEmpty)

/-- Bits shifted out in a run of clocks: `count` bits of the frame from a position, 0 after its end (R180, R182). -/
def shiftOut (bytes : List Byte) (position count : Nat) : List Bool :=
  ((bitsOfBytes bytes).drop position).take count ++
    List.replicate (count - ((bitsOfBytes bytes).length - position)) false

/-! ### PEEK (R182) -/

/-- The status bytes taken when the shift position is reached: each as its first bit is shifted out. -/
def State.peekTaken (s : State) (p : PortId) (taken : List Byte) (position : Nat) : List Byte :=
  let due := min 4 (position / 8 + 1)
  taken ++ ((List.range due).drop taken.length).map (peekByte (s.port p) s.service.state (s.port p.other).online)

/-- The flags that byte 4 shows set, to be cleared at its last bit. -/
def PortUnit.shown (u : PortUnit) (before : List Byte) (after : List Byte) (toClear : Sticky) : Sticky :=
  if before.length < 4 ∧ 4 ≤ after.length then u.flags else toClear

/-! ### The frame receiver (R176) -/

def State.setReceiver (s : State) (p : PortId) (r : Receiver) : State := s.updPort p fun u => { u with receiver := r }

/-- SDO carries these further bits (log 11). -/
def State.addSdo (s : State) (p : PortId) (bits : List Bool) : State := s.updPort p fun u => { u with sdo := u.sdo ++ bits }

/-- SEL# has fallen and this many bits have been clocked, all of them with SDO at 0 (R175, log 11). -/
def State.silent (s : State) (p : PortId) (count : Nat) : State :=
  s.updPort p fun u => { u with sdo := List.replicate count false }

/-- A run of clocks for which R175 gives SDO no value: each bit is a free value (log 11). -/
def State.stray (s : State) (p : PortId) (count : Nat) : State :=
  { s.addSdo p ((List.range count).map fun k => Config.strayBit (s.choices + k)) with choices := s.choices + count }

/-- The eighth bit of the type byte is sampled (R175, R176, R180, R182); SDO was 0 at all eight. -/
def State.typeByteSampled (s : State) (p : PortId) (b : Byte) : State :=
  let t := s.silent p 8
  if b = 0xB1 then t.setReceiver p (.receiving [])
  else if b = 0xB2 then t.setReceiver p (.sending (s.port p).chosenFrame (!(s.port p).queue.isEmpty) 0)
  else if b = 0xB3 then t.setReceiver p (.peeking (s.peekTaken p [] 0) 0 Sticky.clear)
  else if b = 0xB4 then t.setReceiver p .resetArmed
  else (t.updPort p PortUnit.setFrameError).setReceiver p (.ignoring .unknownType)

/-- Clocks of a FETCH (R180, R181). -/
def State.clockFetch (s : State) (p : PortId) (frame : List Byte) (queued : Bool) (position count : Nat) : State :=
  let moved := (s.addSdo p (shiftOut frame position count)).setReceiver p (.sending frame queued (position + count))
  if queued && decide (position < 8 * frame.length) && decide (8 * frame.length ≤ position + count) then
    (moved.updPort p PortUnit.removeHead).lowerBase p
  else moved

/-- Clocks of a PEEK (R182). -/
def State.clockPeek (s : State) (p : PortId) (bytes : List Byte) (position : Nat) (toClear : Sticky) (count : Nat) : State :=
  let taken := s.peekTaken p bytes (position + count)
  let clear := (s.port p).shown bytes taken toClear
  let moved := (s.addSdo p (shiftOut taken position count)).setReceiver p (.peeking taken (position + count) clear)
  if position < 32 ∧ 32 ≤ position + count then moved.updPort p fun u => { u with flags := u.flags.clearing clear } else moved

/-- Clocks in IGNORING (R175): 0 after an unknown type byte. -/
def State.clockIgnored (s : State) (p : PortId) (count : Nat) : Ignored → State
  | .unknownType => s.addSdo p (List.replicate count false)
  | .clockedReset => s.stray p count
  | .sinceColdReset => s.stray p count

/-- A run of clocks after the type byte, with the levels of SDI (R175, R176). -/
def State.clockData (s : State) (p : PortId) (sdi : List Bool) : State :=
  match (s.port p).receiver with
  | .receiving bits => (s.addSdo p (List.replicate sdi.length false)).setReceiver p (.receiving (bits ++ sdi))
  | .sending frame queued position => s.clockFetch p frame queued position sdi.length
  | .peeking bytes position toClear => s.clockPeek p bytes position toClear sdi.length
  | .resetArmed => if sdi.isEmpty then s else (s.stray p sdi.length).setReceiver p (.ignoring .clockedReset)
  | .ignoring why => s.clockIgnored p sdi.length why
  | .idle | .typing _ => s

/-- SEL# falls and bits are clocked in; the first eight are the type byte (R175, R176). -/
def State.openWith (s : State) (p : PortId) (bits : List Bool) : State :=
  if bits.length < 8 then (s.silent p bits.length).setReceiver p (.typing bits)
  else (s.typeByteSampled p (byteOfBits (bits.take 8))).clockData p (bits.drop 8)

/-- SEL# rises in RECEIVING: the frame is judged (R178), and a good one meets the request list (R54). -/
def State.judgeFrame (s : State) (p : PortId) (bits : List Bool) : State :=
  match submitVerdict bits with
  | some (tag, q) => s.takeSubmit p tag q
  | none => s.updPort p PortUnit.setFrameError

/-- SEL# rises (R176, R178, R184). -/
def State.selectRises (s : State) (p : PortId) : State :=
  let idle := s.setReceiver p .idle
  match (s.port p).receiver with
  | .idle => s
  | .typing bits => if bits.isEmpty then idle else idle.updPort p PortUnit.setFrameError
  | .receiving bits => idle.judgeFrame p bits
  | .sending .. => idle
  | .peeking .. => idle
  | .resetArmed => idle.portReset p
  | .ignoring .clockedReset => idle.updPort p PortUnit.setFrameError
  | .ignoring .unknownType => idle
  | .ignoring .sinceColdReset => idle

/-- Before SEL# can fall it has risen: a transaction left open ends first, in an event of its own (log 10). -/
def State.closeOpen (s : State) (p : PortId) : State :=
  if (s.port p).receiver = .idle then s else (s.selectRises p).settle.openEvent

/-- A portion of a transaction whose type byte is `b` (R175, log 10). -/
def State.transact (s : State) (p : PortId) (b : Byte) (io : Portion) : State :=
  let begun := if io.opens then (s.closeOpen p).typeByteSampled p b else s
  let clocked := begun.clockData p io.sdi
  if io.closes then clocked.selectRises p else clocked

/-- A whole transaction whose first bits are these, shorter than a type byte or not. -/
def State.transactBits (s : State) (p : PortId) (bits : List Bool) : State :=
  (((s.closeOpen p).openWith p bits)).selectRises p

/-- A whole SUBMIT transaction with a good frame, SDO at 0 throughout; it is taken when SEL# rises (R175, R178). -/
def State.submit (s : State) (p : PortId) (tag : Byte) (q : Request) : State :=
  ((s.closeOpen p).silent p (8 * (1 + frameLength q))).takeSubmit p tag q

end Sys2Proof.Machine
end

