-- ==== Sys2Proof/Machine/Media.lean ====
section
/-! DEFINITION. The rows of the media link: the answers of the medium, the running out of the deadline, and malformed answers
(spec/07). An answer counts where it carries the number of the current issue and fits the step of the job in progress; any
other is malformed and discarded (R140, log 14). -/

namespace Sys2Proof.Machine

/-- The answer carries the issue number of the operation in flight (R140, R141). -/
def State.expects (s : State) (issue : Byte) : Bool := s.link.flight.isSome && issue.toNat == s.link.issueNo

/-- The answer to a READ of a read job is taken (R127, R142). -/
def State.takeReadJobAnswer (s : State) (answer : ReadAnswer) : State :=
  match s.sched.job with
  | some (.read j) => s.answered.readAnswered j answer
  | some (.flush _) | some (.checkpoint _) | some (.identify _) | none => s

/-- The answer to a write to the current mapping is taken (R105, R142). -/
def State.takeFlushWriteAnswer (s : State) (answer : WriteAnswer) : State :=
  match s.sched.job with
  | some (.flush j) =>
    match j.target with
    | .current => if j.verify then s else s.answered.currentWriteAnswered j answer
    | .spare _ => s
  | some (.read _) | some (.checkpoint _) | some (.identify _) | none => s

/-- The answer to a verify read is taken (R106, R142). -/
def State.takeVerifyAnswer (s : State) (answer : ReadAnswer) : State :=
  match s.sched.job with
  | some (.flush j) => if j.verify then s.answered.verifyAnswered j answer else s
  | some (.read _) | some (.checkpoint _) | some (.identify _) | none => s

/-- The answer to a write to a spare under trial is taken (R108, R142). -/
def State.takeSpareWriteAnswer (s : State) (answer : WriteAnswer) : State :=
  match s.sched.job with
  | some (.flush j) =>
    match j.target with
    | .spare k => s.answered.spareWriteAnswered j k answer
    | .current => s
  | some (.read _) | some (.checkpoint _) | some (.identify _) | none => s

/-- The answer to a write of a checkpoint job is taken (R132, R142). -/
def State.takeCheckpointAnswer (s : State) (answer : WriteAnswer) : State :=
  match s.sched.job with
  | some (.checkpoint c) => s.answered.checkpointWriteAnswered c answer
  | some (.read _) | some (.flush _) | some (.identify _) | none => s

/-- The answer to the IDENTIFY is taken (R142, R144). -/
def State.takeIdentifyAnswer (s : State) (count size : Nat) : State :=
  match s.sched.job with
  | some (.identify .identifying) => s.answered.identifyAnswered count size
  | some (.identify (.loading ..)) | some (.read _) | some (.flush _) | some (.checkpoint _) | none => s

/-- The answer to a load read is taken (R133, R142). -/
def State.takeLoadReadAnswer (s : State) (answer : ReadAnswer) : State :=
  match s.sched.job with
  | some (.identify (.loading blocks attempt)) => s.answered.loadReadAnswered blocks attempt answer
  | some (.identify .identifying) | some (.read _) | some (.flush _) | some (.checkpoint _) | none => s

/-- A READ answer with data carries one block (R140, R141). -/
def dataFits : ReadAnswer → Bool
  | .good data => data.length == Config.blockSize
  | .corrected data => data.length == Config.blockSize
  | .unrecoverable => true

/-- An answer from the medium is taken where it fits and carries the current issue number; any other is discarded (R140). -/
def State.mediaAnswer (s : State) (issue : Byte) (fits : Bool) (f : State → State) : State :=
  s.fromOutside fun t => if fits && t.expects issue then f t else t

/-- READ_JOB_ANSWER (R127). -/
def execReadJobAnswer (issue : Byte) (answer : ReadAnswer) (s : State) : Host.Outcome State Fault Refusal :=
  .next (s.mediaAnswer issue (dataFits answer) fun t => t.takeReadJobAnswer answer)

/-- FLUSH_WRITE_ANSWER (R105). -/
def execFlushWriteAnswer (issue : Byte) (answer : WriteAnswer) (s : State) : Host.Outcome State Fault Refusal :=
  .next (s.mediaAnswer issue true fun t => t.takeFlushWriteAnswer answer)

/-- VERIFY_ANSWER (R106). -/
def execVerifyAnswer (issue : Byte) (answer : ReadAnswer) (s : State) : Host.Outcome State Fault Refusal :=
  .next (s.mediaAnswer issue (dataFits answer) fun t => t.takeVerifyAnswer answer)

/-- SPARE_WRITE_ANSWER (R108). -/
def execSpareWriteAnswer (issue : Byte) (answer : WriteAnswer) (s : State) : Host.Outcome State Fault Refusal :=
  .next (s.mediaAnswer issue true fun t => t.takeSpareWriteAnswer answer)

/-- CHECKPOINT_WRITE_ANSWER (R132). -/
def execCheckpointWriteAnswer (issue : Byte) (answer : WriteAnswer) (s : State) : Host.Outcome State Fault Refusal :=
  .next (s.mediaAnswer issue true fun t => t.takeCheckpointAnswer answer)

/-- IDENTIFY_ANSWER (R144). -/
def execIdentifyAnswer (issue : Byte) (blockCount : BitVec 32) (blockSize : BitVec 16) (s : State) :
    Host.Outcome State Fault Refusal :=
  .next (s.mediaAnswer issue true fun t => t.takeIdentifyAnswer blockCount.toNat blockSize.toNat)

/-- LOAD_READ_ANSWER (R133). -/
def execLoadReadAnswer (issue : Byte) (answer : ReadAnswer) (s : State) : Host.Outcome State Fault Refusal :=
  .next (s.mediaAnswer issue (dataFits answer) fun t => t.takeLoadReadAnswer answer)

/-- OPERATION_TIMEOUT (R142): with no operation in flight no deadline runs, and nothing happens. -/
def execOperationTimeout (s : State) : Host.Outcome State Fault Refusal :=
  .next (s.fromOutside fun t => match t.link.flight with
    | some op => t.timedOut op
    | none => t)

/-- An answer, decoded from a reply, goes to the job in progress (R140). -/
def State.takeReply (s : State) (reply : List Byte) : State :=
  match s.link.flight with
  | none => s
  | some op =>
    match answerOfReply op s.link.issueNo reply with
    | some (.identify count size) => s.takeIdentifyAnswer count size
    | some (.read answer) =>
      match s.sched.job with
      | some (.read _) => s.takeReadJobAnswer answer
      | some (.flush _) => s.takeVerifyAnswer answer
      | some (.identify _) => s.takeLoadReadAnswer answer
      | some (.checkpoint _) | none => s
    | some (.write answer) =>
      match s.sched.job with
      | some (.flush j) =>
        match j.target with
        | .current => s.takeFlushWriteAnswer answer
        | .spare _ => s.takeSpareWriteAnswer answer
      | some (.checkpoint _) => s.takeCheckpointAnswer answer
      | some (.read _) | some (.identify _) | none => s
    | none => s

/-- MALFORMED_ANSWER (R140): a reply to a poll, as its bytes; a malformed or BUSY one is discarded, and one that is well
formed after all is taken (log 12). -/
def execMalformedAnswer (reply : List Byte) (s : State) : Host.Outcome State Fault Refusal :=
  .next (s.fromOutside fun t => t.takeReply reply)

end Sys2Proof.Machine
end

