-- ==== Sys2Proof/Machine/Requests.lean ====
section
/-! DEFINITION. The eighteen request rows: each is a whole SUBMIT transaction with a good frame (R175, R177, R178). -/

namespace Sys2Proof.Machine

/-- ATTACH (R50). -/
def execAttach (port : PortId) (tag : Byte) (s : State) : Host.Outcome State Fault Refusal :=
  .next (s.fromOutside fun t => t.submit port tag .attach)

/-- DETACH (R51). -/
def execDetach (port : PortId) (tag : Byte) (s : State) : Host.Outcome State Fault Refusal :=
  .next (s.fromOutside fun t => t.submit port tag .detach)

/-- READ (R83). -/
def execRead (port : PortId) (tag : Byte) (region count : Byte) (offset : Word24) (s : State) :
    Host.Outcome State Fault Refusal :=
  .next (s.fromOutside fun t => t.submit port tag (.read region count offset))

/-- WRITE (R77). A payload that is not count blocks long makes the frame truncated or over-long (R178, log 12); the payload of
a count above 8 is not kept (R177). -/
def execWrite (port : PortId) (tag : Byte) (region count : Byte) (offset : Word24) (payload : List Byte) (s : State) :
    Host.Outcome State Fault Refusal :=
  .next (s.fromOutside fun t =>
    if payload.length = Config.blockSize * count.toNat then
      t.submit port tag (.write region count offset (if count.toNat ≤ Config.maxCount then payload else []))
    else ((t.closeOpen port).silent port (8 * (1 + 18 + payload.length))).updPort port PortUnit.setFrameError)

/-- FLUSH (R93). -/
def execFlush (port : PortId) (tag : Byte) (region : Byte) (s : State) : Host.Outcome State Fault Refusal :=
  .next (s.fromOutside fun t => t.submit port tag (.flush region))

/-- CLAIM (R10). -/
def execClaim (port : PortId) (tag : Byte) (region : Byte) (s : State) : Host.Outcome State Fault Refusal :=
  .next (s.fromOutside fun t => t.submit port tag (.claim region))

/-- RENEW (R11). -/
def execRenew (port : PortId) (tag : Byte) (region : Byte) (s : State) : Host.Outcome State Fault Refusal :=
  .next (s.fromOutside fun t => t.submit port tag (.renew region))

/-- RELEASE (R12). -/
def execRelease (port : PortId) (tag : Byte) (region : Byte) (s : State) : Host.Outcome State Fault Refusal :=
  .next (s.fromOutside fun t => t.submit port tag (.release region))

/-- FIX (R18). -/
def execFix (port : PortId) (tag : Byte) (region : Byte) (s : State) : Host.Outcome State Fault Refusal :=
  .next (s.fromOutside fun t => t.submit port tag (.fix region))

/-- QUERY_REGION (R19). -/
def execQueryRegion (port : PortId) (tag : Byte) (region : Byte) (s : State) : Host.Outcome State Fault Refusal :=
  .next (s.fromOutside fun t => t.submit port tag (.queryRegion region))

/-- PROPOSE (R29). -/
def execPropose (port : PortId) (tag : Byte) (fields : ProposeFields) (s : State) : Host.Outcome State Fault Refusal :=
  .next (s.fromOutside fun t => t.submit port tag (.propose fields))

/-- ANSWER (R32). -/
def execAnswer (port : PortId) (tag : Byte) (id answer : Byte) (s : State) : Host.Outcome State Fault Refusal :=
  .next (s.fromOutside fun t => t.submit port tag (.answer id answer))

/-- WITHDRAW (R33). -/
def execWithdraw (port : PortId) (tag : Byte) (id : Byte) (s : State) : Host.Outcome State Fault Refusal :=
  .next (s.fromOutside fun t => t.submit port tag (.withdraw id))

/-- INQUIRE (R70). -/
def execInquire (port : PortId) (tag : Byte) (s : State) : Host.Outcome State Fault Refusal :=
  .next (s.fromOutside fun t => t.submit port tag .inquire)

/-- QUIESCE (R169). -/
def execQuiesce (port : PortId) (tag : Byte) (s : State) : Host.Outcome State Fault Refusal :=
  .next (s.fromOutside fun t => t.submit port tag .quiesce)

/-- RESUME (R174). -/
def execResume (port : PortId) (tag : Byte) (s : State) : Host.Outcome State Fault Refusal :=
  .next (s.fromOutside fun t => t.submit port tag .resume)

/-- MEDIA_RESTART (R148). -/
def execMediaRestart (port : PortId) (tag : Byte) (s : State) : Host.Outcome State Fault Refusal :=
  .next (s.fromOutside fun t => t.submit port tag .mediaRestart)

/-- UNKNOWN_REQUEST_CODE (R58): a frame whose other header bytes are zero (log 12). -/
def execUnknownRequestCode (port : PortId) (tag code : Byte) (s : State) : Host.Outcome State Fault Refusal :=
  .next (s.fromOutside fun t => t.submit port tag (requestOfHeader [code, tag, 0, 0, 0, 0, 0, 0, 0, 0, 0, 0, 0, 0, 0, 0] []))

end Sys2Proof.Machine
end

