-- ==== Sys2Proof/Machine/Resets.lean ====
section
/-! DEFINITION. RESET# and the tick: COLD_RESET, START_UP, TICK and the two expiries of a tick. -/

namespace Sys2Proof.Machine

/-- COLD_RESET (R22, R47, R48, R97, R117, R120, R138, R154, R164, R192): every block takes its cold reset state. The queue of
commands and the counter of choices are the model's own and stay. -/
def execColdReset (s : State) : Host.Outcome State Fault Refusal :=
  .next { State.reset with pending := s.pending, choices := s.choices }

/-- A receiver when cold reset ends (R176). -/
def receiverAfterReset (selectLow : Bool) : Receiver := if selectLow then .ignoring .sinceColdReset else .idle

/-- START_UP (R165): RESET# rises, the timebase restarts and the identify job begins; no effect with RESET# high (log 5). -/
def execStartUp (selectLowA selectLowB : Bool) (s : State) : Host.Outcome State Fault Refusal :=
  .next (if s.resetLow then
    ((({ s with resetLow := false, service := { s.service with ticks := 0 } } : State).setReceiver .A
      (receiverAfterReset selectLowA)).setReceiver .B (receiverAfterReset selectLowB)).openEvent.beginIdentify
  else s)

/-- One tick (R14, R34, R164): the expiries it brings about are steps of their own. -/
def State.tick (s : State) : State :=
  { s.mapRegions fun _ x => x.countDown with
    agree := { s.agree with proposal := s.agree.proposal.map Proposal.countDown }
    service := { s.service with ticks := s.service.ticks + 1 }
    ticking := ⟨allRegions.filter fun r => (s.region r).lastTick, s.agree.proposal.any Proposal.lastTick⟩ }

/-- TICK (R14). -/
def execTick (s : State) : Host.Outcome State Fault Refusal := .next (s.fromOutside State.tick)

/-- LEASE_EXPIRY (R15). -/
def execLeaseExpiry (region : Fin 16) (s : State) : Host.Outcome State Fault Refusal :=
  .next (s.ownStep 6 fun o => o == .leaseExpiry region)

/-- LAPSED_DEADLINE (R34). -/
def execLapsedDeadline (s : State) : Host.Outcome State Fault Refusal := .next (s.ownStep 6 fun o => o == .lapse)

end Sys2Proof.Machine
end

