-- ==== Sys2Proof/Machine/Steps.lean ====
section
/-! DEFINITION. The rows that are steps of the part's own; each is taken where it is due (log 1, log 13). -/

namespace Sys2Proof.Machine

/-- WRITE_PLACEMENT (R78): the waiting WRITE of a port. -/
def execWritePlacement (port : PortId) (s : State) : Host.Outcome State Fault Refusal :=
  .next (s.ownStep 4 fun o => o == .place port)

/-- WRITE_THROUGH_COMPLETION (R82): the write-through waiter of this number. -/
def execWriteThroughCompletion (waiter : Nat) (s : State) : Host.Outcome State Fault Refusal :=
  .next (s.ownStep 0 fun o => o == .writeThrough waiter)

/-- FLUSH_COMPLETION (R94): the FLUSH waiter of this number. -/
def execFlushCompletion (waiter : Nat) (s : State) : Host.Outcome State Fault Refusal :=
  .next (s.ownStep 2 fun o => o == .flush waiter)

/-- APPLY (R43). -/
def execApply (s : State) : Host.Outcome State Fault Refusal := .next (s.ownStep 3 fun o => o == .apply)

/-- READ_JOB_BEGIN (R127): for the list that R124 chooses. -/
def execReadJobBegin (s : State) : Host.Outcome State Fault Refusal :=
  .next (s.ownStep 5 fun o => o == .job (.read .A) || o == .job (.read .B))

def Owed.isFlushJob : Owed → Bool
  | .job (.flush _) => true
  | _ => false

/-- FLUSH_JOB_BEGIN (R130): on the slot that R84 and R123 choose. -/
def execFlushJobBegin (s : State) : Host.Outcome State Fault Refusal := .next (s.ownStep 5 Owed.isFlushJob)

/-- CHECKPOINT_JOB_BEGIN (R159). -/
def execCheckpointJobBegin (s : State) : Host.Outcome State Fault Refusal :=
  .next (s.ownStep 5 fun o => o == .job .checkpoint)

/-- QUIESCE_END (R172). -/
def execQuiesceEnd (s : State) : Host.Outcome State Fault Refusal := .next (s.ownStep 1 fun o => o == .quiesceEnd)

end Sys2Proof.Machine
end

