-- ==== Sys2Proof/Machine/Transactions.lean ====
section
/-! DEFINITION. The rows that are transactions on a port's wires, other than a good SUBMIT (spec/09). -/

namespace Sys2Proof.Machine

/-- FETCH (R180): type byte B2h. -/
def execFetch (port : PortId) (io : Portion) (s : State) : Host.Outcome State Fault Refusal :=
  .next (s.fromOutside fun t => t.transact port 0xB2 io)

/-- PEEK (R182): type byte B3h. -/
def execPeek (port : PortId) (io : Portion) (s : State) : Host.Outcome State Fault Refusal :=
  .next (s.fromOutside fun t => t.transact port 0xB3 io)

/-- PORT_RESET (R184): type byte B4h, then SEL# rises. -/
def execPortReset (port : PortId) (s : State) : Host.Outcome State Fault Refusal :=
  .next (s.fromOutside fun t => t.transact port 0xB4 { opens := true, sdi := [], closes := true })

/-- UNKNOWN_TYPE_BYTE (R175). -/
def execUnknownTypeByte (port : PortId) (typeByte : Byte) (io : Portion) (s : State) : Host.Outcome State Fault Refusal :=
  .next (s.fromOutside fun t => t.transact port typeByte io)

/-- TRUNCATED_TYPE_BYTE (R176): SEL# falls, these bits are clocked, SEL# rises. -/
def execTruncatedTypeByte (port : PortId) (bits : List Bool) (s : State) : Host.Outcome State Fault Refusal :=
  .next (s.fromOutside fun t => t.transactBits port bits)

/-- CLOCKED_PORT_RESET (R176): type byte B4h and further clocks. -/
def execClockedPortReset (port : PortId) (io : Portion) (s : State) : Host.Outcome State Fault Refusal :=
  .next (s.fromOutside fun t => t.transact port 0xB4 io)

/-- SUBMIT_FRAME_DISCARDED (R178): type byte B1h and the bits of a frame; one that passes the checks is taken (log 12). -/
def execSubmitFrameDiscarded (port : PortId) (io : Portion) (s : State) : Host.Outcome State Fault Refusal :=
  .next (s.fromOutside fun t => t.transact port 0xB1 io)

end Sys2Proof.Machine
end

