-- ==== Sys2Proof/Machine/Dispatch.lean ====
section
/-! DEFINITION. The meaning of every command: one arm for each row of spec/opcode_table.json. -/

namespace Sys2Proof.Machine

def exec (i : Instr) (s : State) : Host.Outcome State Fault Refusal :=
  match i with
  | .coldReset => Sys2Proof.Machine.execColdReset s
  | .startUp selLowA selLowB => Sys2Proof.Machine.execStartUp selLowA selLowB s
  | .tick => Sys2Proof.Machine.execTick s
  | .leaseExpiry region => Sys2Proof.Machine.execLeaseExpiry region s
  | .lapsedDeadline => Sys2Proof.Machine.execLapsedDeadline s
  | .attach port tag => Sys2Proof.Machine.execAttach port tag s
  | .detach port tag => Sys2Proof.Machine.execDetach port tag s
  | .read port tag region count offset => Sys2Proof.Machine.execRead port tag region count offset s
  | .write port tag region count offset payload => Sys2Proof.Machine.execWrite port tag region count offset payload s
  | .flush port tag region => Sys2Proof.Machine.execFlush port tag region s
  | .claim port tag region => Sys2Proof.Machine.execClaim port tag region s
  | .renew port tag region => Sys2Proof.Machine.execRenew port tag region s
  | .release port tag region => Sys2Proof.Machine.execRelease port tag region s
  | .fix port tag region => Sys2Proof.Machine.execFix port tag region s
  | .queryRegion port tag region => Sys2Proof.Machine.execQueryRegion port tag region s
  | .propose port tag fields => Sys2Proof.Machine.execPropose port tag fields s
  | .answer port tag id answer => Sys2Proof.Machine.execAnswer port tag id answer s
  | .withdraw port tag id => Sys2Proof.Machine.execWithdraw port tag id s
  | .inquire port tag => Sys2Proof.Machine.execInquire port tag s
  | .quiesce port tag => Sys2Proof.Machine.execQuiesce port tag s
  | .resume port tag => Sys2Proof.Machine.execResume port tag s
  | .mediaRestart port tag => Sys2Proof.Machine.execMediaRestart port tag s
  | .unknownRequestCode port tag code => Sys2Proof.Machine.execUnknownRequestCode port tag code s
  | .fetch port io => Sys2Proof.Machine.execFetch port io s
  | .peek port io => Sys2Proof.Machine.execPeek port io s
  | .portReset port => Sys2Proof.Machine.execPortReset port s
  | .unknownTypeByte port typeByte io => Sys2Proof.Machine.execUnknownTypeByte port typeByte io s
  | .truncatedTypeByte port bits => Sys2Proof.Machine.execTruncatedTypeByte port bits s
  | .clockedPortReset port io => Sys2Proof.Machine.execClockedPortReset port io s
  | .writePlacement port => Sys2Proof.Machine.execWritePlacement port s
  | .writeThroughCompletion waiter => Sys2Proof.Machine.execWriteThroughCompletion waiter s
  | .flushCompletion waiter => Sys2Proof.Machine.execFlushCompletion waiter s
  | .apply => Sys2Proof.Machine.execApply s
  | .readJobBegin => Sys2Proof.Machine.execReadJobBegin s
  | .flushJobBegin => Sys2Proof.Machine.execFlushJobBegin s
  | .checkpointJobBegin => Sys2Proof.Machine.execCheckpointJobBegin s
  | .readJobAnswer issue answer => Sys2Proof.Machine.execReadJobAnswer issue answer s
  | .flushWriteAnswer issue answer => Sys2Proof.Machine.execFlushWriteAnswer issue answer s
  | .verifyAnswer issue answer => Sys2Proof.Machine.execVerifyAnswer issue answer s
  | .spareWriteAnswer issue answer => Sys2Proof.Machine.execSpareWriteAnswer issue answer s
  | .checkpointWriteAnswer issue answer => Sys2Proof.Machine.execCheckpointWriteAnswer issue answer s
  | .quiesceEnd => Sys2Proof.Machine.execQuiesceEnd s
  | .identifyAnswer issue blockCount blockSize => Sys2Proof.Machine.execIdentifyAnswer issue blockCount blockSize s
  | .loadReadAnswer issue answer => Sys2Proof.Machine.execLoadReadAnswer issue answer s
  | .operationTimeout => Sys2Proof.Machine.execOperationTimeout s
  | .malformedAnswer reply => Sys2Proof.Machine.execMalformedAnswer reply s
  | .submitFrameDiscarded port io => Sys2Proof.Machine.execSubmitFrameDiscarded port io s

end Sys2Proof.Machine
end

