-- ==== Sys2Proof/Machine/Pins.lean ====
section
/-! DEFINITION. The output pins of the part (R141, R175, R185, R192): functions of State. -/

namespace Sys2Proof.Machine

/-- Levels of the outputs: SDO of a port is none at high impedance; ATTN# is true when held low. -/
structure Pins where
  sdoA : Option Bool
  sdoB : Option Bool
  attnA : Bool
  attnB : Bool
  mselHigh : Bool
  msckHigh : Bool
  deriving DecidableEq, Repr

/-- SDO of a port with RESET# high (R175): high impedance while SEL# is high, else the bit for the next clock. Where R175 gives it
no value, it is the free value that the next clock reads (log 11). -/
def State.sdoLevel (s : State) (p : PortId) : Option Bool :=
  match (s.port p).receiver with
  | .idle => none
  | .typing _ => some false
  | .receiving _ => some false
  | .sending frame _ position => (shiftOut frame position 1).head?
  | .peeking bytes position _ => (shiftOut bytes position 1).head?
  | .ignoring .unknownType => some false
  | .resetArmed => some (Config.strayBit s.choices)
  | .ignoring .clockedReset => some (Config.strayBit s.choices)
  | .ignoring .sinceColdReset => some (Config.strayBit s.choices)

/-- The outputs. Between two commands no media exchange is under way, so MSEL# is high (R141, log 18). -/
def State.pins (s : State) : Pins :=
  if s.resetLow then
    { sdoA := none, sdoB := none, attnA := false, attnB := false, mselHigh := true, msckHigh := false }
  else
    { sdoA := s.sdoLevel .A, sdoB := s.sdoLevel .B, attnA := s.portA.attention, attnB := s.portB.attention,
      mselHigh := true, msckHigh := Config.idleClock }

end Sys2Proof.Machine
end

