-- ==== Sys2Proof/WellFormed.lean ====
section
/-! DEFINITION. Which commands are well formed: the conditions under which a term of `Instr` names an event of the part.
A command that is not well formed still has a meaning (log 12): it is what its bits or its answer amount to. -/

namespace Sys2Proof

/-- The seventeen request codes of R68. -/
def requestCodes : List Byte :=
  [0x01, 0x02, 0x10, 0x11, 0x12, 0x20, 0x21, 0x22, 0x23, 0x24, 0x30, 0x31, 0x32, 0x40, 0x41, 0x42, 0x43]

/-- The four type bytes of R175. -/
def typeBytes : List Byte := [0xB1, 0xB2, 0xB3, 0xB4]

/-- A READ answer with data carries 512 bytes (R140). -/
def ReadAnswer.wellFormed : ReadAnswer → Bool
  | .good d => d.length == 512
  | .corrected d => d.length == 512
  | .unrecoverable => true

/-- Issue numbers are 1..255 (R138). -/
def issueWellFormed (issue : Byte) : Bool := issue != 0

def Instr.wellFormed : Instr → Bool
  | .write _ _ _ count _ payload => payload.length == 512 * count.toNat
  | .unknownRequestCode _ _ code => !requestCodes.contains code
  | .unknownTypeByte _ b _ => !typeBytes.contains b
  | .truncatedTypeByte _ bits => decide (1 ≤ bits.length) && decide (bits.length ≤ 7)
  | .clockedPortReset _ io => !io.opens || !io.sdi.isEmpty
  | .readJobAnswer n a => issueWellFormed n && a.wellFormed
  | .flushWriteAnswer n _ => issueWellFormed n
  | .verifyAnswer n a => issueWellFormed n && a.wellFormed
  | .spareWriteAnswer n _ => issueWellFormed n
  | .checkpointWriteAnswer n _ => issueWellFormed n
  | .identifyAnswer n _ _ => issueWellFormed n
  | .loadReadAnswer n a => issueWellFormed n && a.wellFormed
  | .coldReset | .startUp .. | .tick | .leaseExpiry .. | .lapsedDeadline => true
  | .attach .. | .detach .. | .read .. | .flush .. | .claim .. | .renew .. | .release .. | .fix .. => true
  | .queryRegion .. | .propose .. | .answer .. | .withdraw .. | .inquire .. | .quiesce .. | .resume .. => true
  | .mediaRestart .. | .fetch .. | .peek .. | .portReset .. | .submitFrameDiscarded .. => true
  | .writePlacement .. | .writeThroughCompletion .. | .flushCompletion .. | .apply => true
  | .readJobBegin | .flushJobBegin | .checkpointJobBegin | .quiesceEnd => true
  | .operationTimeout | .malformedAnswer .. => true

end Sys2Proof
end

