-- ==== Sys2Proof/Safety.lean ====
section
/-! DEFINITION. The laws of the device as predicates over State, and the words the statements are made of: when the part is at
rest between two events, when a SUBMIT is taken, and what a port unit looks like with one more request answered. -/

namespace Sys2Proof.Machine

/-! ### The laws of the device -/

/-- Two extents share a block. -/
def Shares (base length base' length' : Nat) : Prop :=
  ∃ n, (base ≤ n ∧ n < base + length) ∧ (base' ≤ n ∧ n < base' + length')

/-- First law (R1): defined regions never overlap, and each lies wholly within logical blocks 0 to L−1. -/
def RegionsLawful (s : State) : Prop :=
  (∀ r, (s.region r).state ≠ .undefined → (s.region r).base + (s.region r).length ≤ s.blockMap.l) ∧
  ∀ q r, q ≠ r → (s.region q).state ≠ .undefined → (s.region r).state ≠ .undefined →
    ¬Shares (s.region q).base (s.region q).length (s.region r).base (s.region r).length

/-- Second law (R9): a hold is one of an EXCLUSIVE region, and its holder is ONLINE. That a region has at most one holder is
the form of `Region.hold`. While a hold lasts lease_remaining is 1..255, and so is the lease_period it is renewed with (R1). -/
def HoldsLawful (s : State) : Prop :=
  (∀ r h, (s.region r).hold = some h →
    (s.region r).attrs.exclusive = true ∧ (s.port h.holder).online = true ∧ 1 ≤ h.remaining ∧ h.remaining ≤ 255) ∧
  ∀ r, (s.region r).attrs.exclusive = true → 1 ≤ (s.region r).leasePeriod ∧ (s.region r).leasePeriod ≤ 255

/-- Fourth law (R54): a port's outstanding requests never exceed 8. The third (R24) and the seventh (R119) are the forms of
`Agreement.proposal` and `Scheduler.job`. -/
def RequestsBounded (s : State) : Prop := ∀ p, (s.port p).requests.length ≤ Config.maxOutstanding

/-- Sixth law (R101): the spare table has S entries, and no two are IN_USE for the same logical block. -/
def SparesLawful (m : BlockMap) : Prop :=
  m.spares.length = m.s ∧
  ∀ (i j lbn : Nat), m.spares[i]? = some (Spare.inUse lbn) → m.spares[j]? = some (Spare.inUse lbn) → i = j

/-- Ninth law (R112): the candidate list holds at most 32 logical blocks and never holds one twice. -/
def CandidatesLawful (m : BlockMap) : Prop := m.candidates.length ≤ Config.maxCandidates ∧ m.candidates.Nodup

/-- Tenth law (R63): never more than 4 notices in a response queue, and never more completions than COMPLETE records of the
request list, which with the fourth law are at most 8; the tags of the list are all different (R54). -/
def QueuesLawful (s : State) : Prop :=
  ∀ p, ((s.port p).requests.map Record.tag).Nodup ∧
    (s.port p).queue.countP (fun f => !f.isNotice) ≤ (s.port p).requests.countP (fun r => r.state == .complete) ∧
    (s.port p).noticeCount ≤ Config.noticeRoom

/-- Fifth law (R73): no two slots hold the same logical block. The orders of R76: the dirty order holds every DIRTY and FLUSHING
slot once, the clean order every CLEAN slot. -/
structure BufferLawful (b : Staging) : Prop where
  once : ∀ (i j : SlotId) (lbn : Nat), b.slots[i].lbn? = some lbn → b.slots[j].lbn? = some lbn → i = j
  dirty : b.dirtyOrder.Nodup ∧ ∀ i : SlotId, i ∈ b.dirtyOrder ↔ b.slots[i].unflushed? ≠ none
  clean : b.cleanOrder.Nodup ∧ ∀ i : SlotId, i ∈ b.cleanOrder ↔ ∃ lbn r data, b.slots[i] = .clean lbn r data

/-- The change of a proposal cannot break the first law when it is applied, and a lease_period it sets is 1..255 (R27, R28). -/
def ChangeFits (s : State) (c : Change) : Prop :=
  match c with
  | .define r base length _ lease => base + length ≤ s.blockMap.l ∧ (1 ≤ lease ∧ lease ≤ 255) ∧
      ∀ q, q ≠ r → (s.region q).state ≠ .undefined → ¬Shares base length (s.region q).base (s.region q).length
  | .resize r length => (s.region r).base + length ≤ s.blockMap.l ∧
      ∀ q, q ≠ r → (s.region q).state ≠ .undefined →
        ¬Shares (s.region r).base length (s.region q).base (s.region q).length
  | .reconfigure _ _ lease => 1 ≤ lease ∧ lease ≤ 255
  | .setSpares count => ∀ r, (s.region r).state ≠ .undefined →
      (s.region r).base + (s.region r).length ≤ s.blockMap.p - Config.metadataBlocks - count
  | .delete _ => True
  | .resetTable => True
  | .close => True

/-- The proposal record keeps its ranges (R24, R26), and no second validation is needed at its apply (R28). -/
def ProposalLawful (s : State) : Prop :=
  ∀ pr, s.agree.proposal = some pr →
    (1 ≤ pr.id ∧ pr.id ≤ 255) ∧ (∀ w, pr.state = .opened w → 1 ≤ w ∧ w ≤ 255) ∧ ChangeFits s pr.change

/-- Before the table load there is no proposal and the phase is that of cold reset (R25, R59); the load reads of the metadata
copies happen only then (R133). -/
def UnloadedLawful (s : State) : Prop :=
  (s.store.loaded = false → s.agree.proposal = none ∧ s.agree.phase = .provisioning) ∧
  ∀ blocks attempt, s.sched.job = some (.identify (.loading blocks attempt)) → s.store.loaded = false

/-- The values of R26, R138 and R143 stay in their ranges: the count of timeouts is below 3 while an operation is in flight or
the media is ONLINE, since at 3 the operation is dropped and the media is FAULT. -/
def CountersBounded (s : State) : Prop :=
  (1 ≤ s.agree.nextId ∧ s.agree.nextId ≤ 255) ∧ s.link.issueNo ≤ 255 ∧ s.link.timeouts ≤ Config.maxTimeouts ∧
  (s.link.flight.isSome = true ∨ s.link.media = .online → s.link.timeouts < Config.maxTimeouts)

/-- Twelfth law (R157): a checkpoint in progress writes the copy that is not the newest, with the newest generation plus one, or
1 when there is no newest copy. -/
def CheckpointLawful (s : State) : Prop :=
  ∀ c, s.sched.job = some (.checkpoint c) →
    s.store.newest ≠ some c.copy ∧ c.generation = if s.store.newest = none then 1 else s.store.generation + 1

/-- A flush job in progress is that of a FLUSHING slot with its block, and the data it writes is the slot's newest unless a WRITE
has rewritten the slot since the job began (R74, R87, R88); positions are not ahead of the write order (R75). -/
structure FlushLawful (b : Staging) (job : Option Job) : Prop where
  dated : ∀ (i : SlotId) d, b.slots[i].unflushed? = some d → d.lastWrite ≤ b.writeOrder
  carried : ∀ j, job = some (.flush j) →
    ∃ d fw, b.slots[j.slot] = .flushing d fw ∧ fw ≤ b.writeOrder ∧ d.lbn = j.lbn ∧ (d.lastWrite = fw → d.data = j.data)

/-- The laws of the device that speak of one state: the first, second, fourth, fifth, sixth, ninth, tenth and twelfth, and with
them the orders of the buffer, what a flush job carries, the ranges of the proposal and of the counters, and what holds before the
table load. The third and the seventh are the forms of their fields; the eighth and the eleventh speak of steps. -/
structure Lawful (s : State) : Prop where
  regions : RegionsLawful s
  holds : HoldsLawful s
  requests : RequestsBounded s
  queues : QueuesLawful s
  buffer : BufferLawful s.staging
  spares : SparesLawful s.blockMap
  candidates : CandidatesLawful s.blockMap
  checkpoint : CheckpointLawful s
  counters : CountersBounded s
  proposal : ProposalLawful s
  unloaded : UnloadedLawful s
  flushing : FlushLawful s.staging s.sched.job

/-- The request asks for a RESET_TABLE (R186). -/
def asksReset : Request → Bool
  | .propose f => f.kind == 5
  | .attach | .detach | .read .. | .write .. | .flush _ | .claim _ | .renew _ | .release _ | .fix _ | .queryRegion _ => false
  | .answer .. | .withdraw _ | .inquire | .quiesce | .resume | .mediaRestart | .unknown _ => false

/-- No RESET_TABLE is proposed, none waits in a request list, and no port is in the middle of a SUBMIT frame. -/
def NoReset (s : State) : Prop :=
  (∀ pr, s.agree.proposal = some pr → pr.change ≠ .resetTable) ∧
  ∀ p, (∀ r ∈ (s.port p).requests, asksReset r.request = false) ∧ ∀ bits, (s.port p).receiver ≠ .receiving bits

/-! ### Between two events -/

/-- RESET# is high and the event in hand is finished (log 1). -/
abbrev Settled (s : State) : Prop := s.resetLow = false ∧ s.firstOwed 7 = []

/-- The command comes from outside the part and RESET# is not what it is about: a transaction on the wires, an answer of the medium,
its deadline, the tick. -/
def fromOutside : Instr → Bool
  | .coldReset | .startUp .. | .leaseExpiry _ | .lapsedDeadline => false
  | .writePlacement _ | .writeThroughCompletion _ | .flushCompletion _ | .apply => false
  | .readJobBegin | .flushJobBegin | .checkpointJobBegin | .quiesceEnd => false
  | .tick | .attach .. | .detach .. | .read .. | .write .. | .flush .. | .claim .. | .renew .. | .release .. => true
  | .fix .. | .queryRegion .. | .propose .. | .answer .. | .withdraw .. | .inquire .. | .quiesce .. | .resume .. => true
  | .mediaRestart .. | .unknownRequestCode .. | .fetch .. | .peek .. | .portReset _ | .unknownTypeByte .. => true
  | .truncatedTypeByte .. | .clockedPortReset .. | .readJobAnswer .. | .flushWriteAnswer .. | .verifyAnswer .. => true
  | .spareWriteAnswer .. | .checkpointWriteAnswer .. | .identifyAnswer .. | .loadReadAnswer .. => true
  | .operationTimeout | .malformedAnswer _ | .submitFrameDiscarded .. => true

/-- The event in hand is finished after `n` owed steps: each is one of the first rank that has any (log 1, log 23). -/
def SettlesIn : Nat → State → State → Prop
  | 0, s, t => s.firstOwed 7 = [] ∧ t = s
  | n + 1, s, t => ∃ o, pick (s.firstOwed 7) s.choices = some o ∧ SettlesIn n ((s.chose (s.firstOwed 7)).perform o) t

/-- The request that the port presents next (R56): no WRITE of it waits for slots, and this is the first that awaits its turn. -/
def PortUnit.PresentsNext (u : PortUnit) (r : Record) : Prop :=
  (∀ x ∈ u.requests, x.state ≠ .awaitingSlots) ∧
  ∃ before after, u.requests = before ++ r :: after ∧ r.state = .awaitingTurn ∧ ∀ x ∈ before, x.state ≠ .awaitingTurn

/-- The port has no request to present. -/
def PortUnit.PresentsNone (u : PortUnit) : Prop :=
  (∃ x ∈ u.requests, x.state = .awaitingSlots) ∨ ∀ x ∈ u.requests, x.state ≠ .awaitingTurn

/-- The outcome of an answer of the medium that a flush job can take: GOOD or not (R87, R105 to R108, R141); a raw reply has it in
its third byte. -/
def flushOutcome : Instr → Option Bool
  | .flushWriteAnswer _ a | .spareWriteAnswer _ a => some (a == .good)
  | .verifyAnswer _ (.good _) => some true
  | .verifyAnswer _ (.corrected _) | .verifyAnswer _ .unrecoverable => some false
  | .malformedAnswer reply => some (reply.getD 2 0 == 1)
  | _ => none

/-- The flush of a slot with this block ends in an answer of the medium (R74, R87 to R89): after GOOD the slot is CLEAN with its
newest data, which the job wrote; or it is FREE, its data lost, after three spares or with none FREE (R107). -/
def FlushEnds (c : Instr) (s t : State) (i : SlotId) (lbn : Nat) : Prop :=
  ∃ j d fw, s.settle.sched.job = some (.flush j) ∧ j.slot = i ∧ j.lbn = lbn ∧ s.settle.slot i = .flushing d fw ∧ d.lbn = lbn ∧
    ((flushOutcome c = some true ∧ d.lastWrite = fw ∧ j.data = d.data ∧ t.slot i = .clean lbn d.region d.data) ∨
      (flushOutcome c = some false ∧ t.slot i = .free ∧ (3 ≤ j.tried ∨ ∀ x ∈ t.blockMap.spares, x ≠ .free)))

/-- Settled, and no port has a request to present. -/
abbrev Quiet (s : State) : Prop :=
  s.resetLow = false ∧ s.firstOwed 7 = [] ∧ s.agree.entering = none ∧ s.readyPorts = []

/-- SEL# of the port is high, fewer than 8 requests are outstanding, the tag is free (R54), and no WRITE holds the port back
(R56). -/
abbrev CanTake (s : State) (p : PortId) (tag : Byte) : Prop :=
  (s.port p).receiver = .idle ∧ (s.port p).requests.length < Config.maxOutstanding ∧
  (∀ r ∈ (s.port p).requests, r.tag ≠ tag) ∧ ∀ r ∈ (s.port p).requests, r.state ≠ .awaitingSlots

/-- A request of this port is taken between two events, is presented at once, and passes the checks of R57. -/
abbrev Passes (s : State) (p : PortId) (tag : Byte) (q : Request) : Prop :=
  Quiet s ∧ CanTake s p tag ∧ s.refusal p q = none

/-- Neither port has a WRITE that waits for slots. -/
abbrev NoWriteWaits (s : State) : Prop := ∀ p, (s.port p).waitingWrite = none

/-! ### A request taken and answered -/

/-- The row of spec/opcode_table.json that a request is (R68). -/
def rowOf (p : PortId) (tag : Byte) : Request → Instr
  | .attach => .attach p tag
  | .detach => .detach p tag
  | .read r c o => .read p tag r c o
  | .write r c o d => .write p tag r c o d
  | .flush r => .flush p tag r
  | .claim r => .claim p tag r
  | .renew r => .renew p tag r
  | .release r => .release p tag r
  | .fix r => .fix p tag r
  | .queryRegion r => .queryRegion p tag r
  | .propose f => .propose p tag f
  | .answer i a => .answer p tag i a
  | .withdraw i => .withdraw p tag i
  | .inquire => .inquire p tag
  | .quiesce => .quiesce p tag
  | .resume => .resume p tag
  | .mediaRestart => .mediaRestart p tag
  | .unknown c => .unknownRequestCode p tag c

/-- A request that a frame can carry and the port unit keeps whole: a WRITE payload of count blocks, kept for a count up to 8
(R177), and a code outside the seventeen for an unknown one (R68). -/
def keptWhole : Request → Bool
  | .write _ count _ payload =>
    decide (count.toNat ≤ Config.maxCount) && decide (payload.length = Config.blockSize * count.toNat)
  | .unknown code => !requestCodes.contains code
  | .attach | .detach | .read .. | .flush _ | .claim _ | .renew _ | .release _ | .fix _ | .queryRegion _ => true
  | .propose _ | .answer .. | .withdraw _ | .inquire | .quiesce | .resume | .mediaRestart => true

/-- A port unit with one more request, in some state, after the SUBMIT that brought it: SDO was 0 for the type byte and the frame
(R175). -/
def PortUnit.withRequest (u : PortUnit) (tag : Byte) (q : Request) (st : RecordState) : PortUnit :=
  { u with requests := u.requests ++ [⟨tag, q, st⟩], sdo := List.replicate (8 * (1 + frameLength q)) false }

/-- A port unit with one more request, COMPLETE, and its completion at the tail of the response queue (R53, R62, R63). -/
def PortUnit.answered (u : PortUnit) (tag : Byte) (q : Request) (st : Status) (res : Result) : PortUnit :=
  { u with
    requests := u.requests ++ [⟨tag, withoutPayload q, .complete⟩]
    queue := u.queue ++ [.completion ⟨tag, requestCode q, st, res⟩]
    sdo := List.replicate (8 * (1 + frameLength q)) false }

/-- The state in which a request of a port has been answered in an event of its own, and nothing else has changed. -/
def State.answering (s : State) (p : PortId) (tag : Byte) (q : Request) (st : Status) (res : Result) : State :=
  s.openEvent.setPort p ((s.port p).answered tag q st res)

/-- The state in which a request of a port is under way in an event of its own, and nothing else has changed. -/
def State.taking (s : State) (p : PortId) (tag : Byte) (q : Request) (st : RecordState) : State :=
  s.openEvent.setPort p ((s.port p).withRequest tag q st)

/-! ### What the rules change -/

/-- A region record after activity of a port on it: the lease of a holder is set back to lease_period (R13). -/
def Region.renewedFor (x : Region) (p : PortId) : Region :=
  if x.heldBy p then { x with hold := some ⟨p, x.leasePeriod⟩ } else x

/-- A region record without a hold of the port (R20). -/
def Region.leftBy (x : Region) (p : PortId) : Region := if x.heldBy p then { x with hold := none } else x

/-- A port is OFFLINE and holds nothing (R20). -/
def State.without (s : State) (p : PortId) : State :=
  (s.updPort p fun u => { u with online := false }).mapRegions fun _ x => x.leftBy p

/-- `t` is what the departure of an ONLINE port makes of `s` (R20, R36, R52). The OUTCOME and the PEER notice enter the other
port's queue in either order; the free choice that settles it is the model's own (log 2). -/
def Departed (s t : State) (p : PortId) : Prop :=
  let gone := s.without p
  match s.agree.openProposal with
  | none => t = gone.offer p.other .peerOffline
  | some pr =>
    let ended : State := { gone with agree := { gone.agree with proposal := none } }
    let outcome : Notice :=
      .outcome (if pr.proposer = p then .withdrawnProposerOffline else .lapsedPeerAbsent) pr.id pr.change
    ∃ n, t = { (ended.offer p.other outcome).offer p.other .peerOffline with choices := n } ∨
      t = { (ended.offer p.other .peerOffline).offer p.other outcome with choices := n }

/-! ### A proposal that is applied -/

/-- A region record after the apply of a change (R43 steps 1, 3 and 4, R44). -/
def recordAfter (c : Change) (r : Fin 16) (x : Region) : Region :=
  match c with
  | .define q base length attrs lease =>
    if q = r then
      { state := .defined, base := base, length := length, attrs := attrs, leasePeriod := lease, hold := none, changing := false }
    else x
  | .delete q => if q = r then Region.undefinedRecord else x
  | .resize q length => if q = r then { x with length := length, changing := false } else x
  | .reconfigure q attrs lease =>
    if q = r then
      { x with attrs := attrs, leasePeriod := lease, hold := if attrs.exclusive then x.hold else none, changing := false }
    else x
  | .resetTable => Region.undefinedRecord
  | .close => x
  | .setSpares _ => x

/-- A proposal has entered APPLYING (R40 steps 1, 2 and 4, with no WRITE waiting for slots): its state, the changing flags of
its target, the drain scope. -/
def State.entered (s : State) (pr : Proposal) : State :=
  { s.mapRegions fun r x => if pr.change.targets r then { x with changing := true } else x with
    agree := { s.agree with proposal := some { pr with state := .applying } }
    staging := { s.staging with drain := s.leaving pr.change } }

/-- The three conditions of R41: no READ of the target is unfinished, no write-through WRITE of it awaits flushes, and no slot of
the extents leaving the table is DIRTY or FLUSHING. -/
def DrainOver (s : State) (c : Change) : Prop :=
  (∀ p, ∀ w ∈ s.sched.wait p, c.targets w.region = false) ∧
  (∀ j, s.sched.job = some (.read j) → c.targets j.read.region = false) ∧
  (∀ w ∈ s.staging.wtWaiters, c.targets w.region = false) ∧
  ∀ i d, (s.slot i).unflushed? = some d → s.staging.drain.contains d.lbn = false

/-- The phase after the apply of a change (R25, R44). -/
def phaseAfter (c : Change) (phase : Phase) : Phase :=
  match c with
  | .resetTable => .provisioning
  | .close => .agreed
  | .define .. => phase
  | .delete _ => phase
  | .resize .. => phase
  | .reconfigure .. => phase
  | .setSpares _ => phase

/-- The Block Map after the apply of a change: SET_SPARES rebuilds the spare table, all FREE, and the candidates that no longer
are logical blocks go (R44, R116). -/
def mapAfter (c : Change) (m : BlockMap) : BlockMap :=
  match c with
  | .setSpares count =>
    { geometry := some ⟨m.p, count⟩, spares := List.replicate count .free
      candidates := m.candidates.filter fun lbn => decide (lbn < m.p - 24 - count) }
  | .define .. => m
  | .delete _ => m
  | .resize .. => m
  | .reconfigure .. => m
  | .resetTable => m
  | .close => m

/-- The buffer after the apply: CLEAN slots of the drain scope freed, the scope dropped (R43 step 2), and after SET_SPARES the
forced flag judged again (R44, R114). -/
def bufferAfter (c : Change) (b : Staging) : Staging :=
  match c with
  | .setSpares count => { b.freeLeaving with forced := decide (count ≤ 8) }
  | .define .. => b.freeLeaving
  | .delete _ => b.freeLeaving
  | .resize .. => b.freeLeaving
  | .reconfigure .. => b.freeLeaving
  | .resetTable => b.freeLeaving
  | .close => b.freeLeaving

/-- Notices offered one after the other, each to its port. -/
def State.offers (s : State) (xs : List (PortId × Notice)) : State := xs.foldl (fun t x => t.offer x.1 x.2) s

/-- `t` is what the apply of `pr` makes of `s` (R43 to R46): the tables, the slots freed, the holds dropped with a HOLD_LOST each,
in some order where RESET_TABLE drops several (log 15), the flags cleared, the record removed, OUTCOME (APPLIED) to each ONLINE
port, a checkpoint requested where R45 asks for one. The free choices of the order are the model's own (log 2). -/
def Applied (s t : State) (pr : Proposal) : Prop :=
  ∃ (order : List (PortId × Notice)) (n : Nat), order.Perm (s.lostHolds pr.change) ∧
    let changed : State :=
      { s.mapRegions (recordAfter pr.change) with
        agree := { s.agree with proposal := none, phase := phaseAfter pr.change s.agree.phase }
        blockMap := mapAfter pr.change s.blockMap
        staging := bufferAfter pr.change s.staging
        choices := n }
    let told := (changed.offers order).offerBoth (.outcome .applied pr.id pr.change)
    t = if s.savesChange pr.change then told.requestCheckpoint else told

/-- `t` is what entry to APPLYING makes of `s` (R40 with no WRITE waiting for slots): where the drain is over the proposal is
applied in the same event. -/
def EntersApplying (s t : State) (pr : Proposal) : Prop :=
  (DrainOver (s.entered pr) pr.change → Applied (s.entered pr) t pr) ∧
  (¬DrainOver (s.entered pr) pr.change → t = s.entered pr)

/-! ### Media work -/

/-- The steps owed before an arbitration are done, the link is idle, the media ONLINE and the table LOADED (R122). -/
abbrev CanBegin (s : State) : Prop :=
  s.firstOwed 5 = [] ∧ s.sched.job = none ∧ s.link.media = .online ∧ s.store.loaded = true

/-- An operation is in flight and this is the number of its current issue (R140). -/
abbrev Expected (s : State) (issue : Byte) : Prop := Settled s ∧ s.link.flight ≠ none ∧ issue.toNat = s.link.issueNo

/-- An answer has been taken in an event of its own: none in flight, no deadline, the timeout count 0 (R142). -/
def State.heard (s : State) : State :=
  { s.openEvent with link := { s.link with flight := none, deadline := none, timeouts := 0 } }

/-- Spare k is FREE and none below it is (R102). -/
abbrev FirstFree (m : BlockMap) (k : Nat) : Prop := m.spares[k]? = some .free ∧ ∀ j < k, m.spares[j]? ≠ some .free

/-- No spare is FREE. -/
abbrev NoneFree (m : BlockMap) : Prop := ∀ e ∈ m.spares, e ≠ .free

/-- Steps 2 to 4 of R107: the job ends lost after three spares or with none FREE, else it writes to the next spare. -/
def NextSpareTried (s t : State) (j : FlushJob) : Prop :=
  (3 ≤ j.tried ∨ NoneFree s.blockMap → t = ({ s with sched := { s.sched with job := none } } : State).flushLost j.slot) ∧
  ∀ k, j.tried < 3 → FirstFree s.blockMap k →
    t = ({ s with sched := { s.sched with job := some (.flush { j with target := .spare k, tried := j.tried + 1, verify := false }) } } :
      State).issue (.write (s.blockMap.p - s.blockMap.s + k) j.data)

/-- Spare entries have changed state to this table: a checkpoint is requested and the reserve judged (R114, R115). -/
def State.withSpares (s : State) (spares : List Spare) : State :=
  { s with
    blockMap := { s.blockMap with spares := spares }
    store := { s.store with checkpointPending := true }
    staging := { s.staging with forced := decide (spares.countP (· == .free) ≤ 8) } }

/-- The completions of several waiters, a detached one's discarded (R71). -/
def State.finishAll (s : State) (ws : List Waiter) (st : Status) : State :=
  ws.foldl (fun t w => if w.detached then t else t.complete w.port w.tag st .blank) s

/-- A snapshot of loaded tables: P, S and the spare table in their ranges, the definitions in id order within the logical space
and apart, no LBN on two spares (R28, R99, R101, R155). -/
structure SnapshotLawful (x : Config.Snapshot) : Prop where
  spares : 16 ≤ x.s ∧ x.s ≤ 1024 ∧ x.spares.length = x.s
  blocks : 256 + 24 + x.s ≤ x.p ∧ x.p ≤ 1048576
  ids : x.regions.Pairwise fun d e => d.id < e.id
  inside : ∀ d ∈ x.regions, d.id < 16 ∧ d.base + d.length ≤ x.p - 24 - x.s ∧ 1 ≤ d.leasePeriod ∧ d.leasePeriod ≤ 255
  apart : x.regions.Pairwise fun d e =>
    ¬∃ n, (d.base ≤ n ∧ n < d.base + d.length) ∧ (e.base ≤ n ∧ n < e.base + e.length)
  inUse : ∀ lbn, Spare.inUse lbn ∈ x.spares → lbn < x.p - 24 - x.s
  once : x.spares.Pairwise fun d e => ∀ lbn, d = .inUse lbn → d ≠ e

/-- The slot is CLEAN and its block is in the drain scope (R96). -/
abbrev Staging.leaves (b : Staging) (i : SlotId) : Prop :=
  i ∈ b.cleanOrder ∧ ∃ lbn, b.slots[i].lbn? = some lbn ∧ b.drain.contains lbn = true

/-- The identify job has ended (R151, R153): a restart completes its waiters and, on success, tells the ports; at start-up the
service becomes READY. -/
def State.identifyEnded (s : State) (media : MediaState) (success : Bool) : State :=
  let closed : State :=
    { s with sched := { s.sched with job := none }, link := { s.link with media := media, identified := none } }
  if s.link.restart then
    let done := ({ closed with link := { closed.link with restart := false, restartWaiters := [] } } : State).finishAll
      s.link.restartWaiters (if success then .ok else .mediaFault)
    if success then done.offerBoth .mediaRestored else done
  else { closed with service := { s.service with state := .ready } }

/-- The requests of a port that entry to FAULT ends, block by block, with their result fields (R145). -/
def State.endedByFault (s : State) (p : PortId) : List (Byte × Result) :=
  (match s.sched.job with
    | some (.read j) => if j.port = p ∧ j.detached = false then [(j.read.tag, Result.blank)] else []
    | _ => []) ++
  (s.sched.wait p).map (fun w => (w.tag, Result.blank)) ++
  (s.staging.wtWaiters.filter fun w => w.port = p ∧ w.detached = false).map (fun w => (w.tag, Result.blank)) ++
  (s.staging.flushWaiters.filter fun w => w.port = p ∧ w.detached = false).map (fun w => (w.tag, Result.lost w.lost)) ++
  match s.service.quiesce with
    | some q => (q.waiters.filter fun w => w.port = p ∧ w.detached = false).map fun w => (w.tag, Result.blank)
    | none => []

end Sys2Proof.Machine
end

