-- ==== Sys2Proof/Certificates/Slice0/Obligations.lean ====
section
/-! DEFINITION. The statements for the provers. Each says what its name says; `exec c s = .next t` gives the whole next state, so
that everything `t` does not mention is as in `s`. -/

open Sys2Proof Sys2Proof.Machine

/-! ### The queue, cold reset, start-up -/

/-- Step takes the command at the front of the queue and executes it on the state with the rest; an empty queue idles (log 4);
and every command answers a next state in every state, none faults and none is refused (log 27). -/
def Obligations.StepTakesTheFrontCommand : Prop :=
  (∀ (c : Instr) (rest : List Instr) (s : State), step { s with pending := c :: rest } = exec c { s with pending := rest }) ∧
  (∀ s : State, s.pending = [] → step s = .next s) ∧
  ∀ (c : Instr) (s : State), ∃ t, exec c s = .next t

/-- A command from outside changes nothing while RESET# is low (R192, log 5); else it first finishes the event in hand, step by owed
step, and then does what it does between two events (log 1). -/
def Obligations.OutsideCommandsFinishTheEvent : Prop :=
  ∀ (c : Instr) (s : State), fromOutside c = true →
    (s.resetLow = true → exec c s = .next s) ∧
    (s.resetLow = false → ∀ n t, n ≤ 256 → SettlesIn n s t → Settled t ∧ exec c s = exec c t)

/-- Cold reset sets every block to its cold reset state, whatever the state before; the queue of commands and the counter of
choices, which are the model's own, stay. -/
def Obligations.ColdResetSetsEveryBlock : Prop :=
  ∀ s : State, ∃ t, exec .coldReset s = .next t ∧
    t.pending = s.pending ∧ t.choices = s.choices ∧ t.resetLow = true ∧
    (∀ p, (t.port p).online = false ∧ (t.port p).requests = [] ∧ (t.port p).queue = [] ∧
      (t.port p).flags = ⟨false, false, false, false⟩ ∧ (t.port p).gapPending = false ∧ (t.port p).receiver = .idle ∧ (t.port p).sdo = []) ∧
    (∀ r, (t.region r).state = .undefined ∧ (t.region r).hold = none ∧ (t.region r).changing = false) ∧
    t.agree.proposal = none ∧ t.agree.nextId = 1 ∧ t.agree.phase = .provisioning ∧ t.agree.entering = none ∧
    (∀ i, t.slot i = .free) ∧ t.staging.dirtyOrder = [] ∧ t.staging.cleanOrder = [] ∧ t.staging.writeOrder = 0 ∧
    t.staging.wtWaiters = [] ∧ t.staging.flushWaiters = [] ∧ t.staging.pressure = false ∧ t.staging.forced = false ∧
    t.staging.drain = .nothing ∧
    t.blockMap.geometry = none ∧ t.blockMap.spares = [] ∧ t.blockMap.candidates = [] ∧
    t.sched.job = none ∧ t.sched.waitA = [] ∧ t.sched.waitB = [] ∧ t.sched.lastServed = .B ∧ t.sched.yield = false ∧
    t.link.media = .unknown ∧ t.link.flight = none ∧ t.link.deadline = none ∧ t.link.timeouts = 0 ∧
    t.link.restart = false ∧ t.link.restartWaiters = [] ∧ t.link.issueNo = 0 ∧ t.link.identified = none ∧
    t.store.loaded = false ∧ t.store.newest = none ∧ t.store.checkpointPending = false ∧ t.store.lastResult = .none ∧
    t.store.generation = 0 ∧ t.service.state = .starting ∧ t.service.quiesce = none ∧ t.service.ticks = 0 ∧
    t.ticking = ⟨[], false⟩

/-! ### Taking and presenting a request (spec/03) -/

/-- A good SUBMIT frame meets the request list: overrun, then tag clash, else it is taken and presentation proceeds (R54). -/
def Obligations.SubmitMeetsTheRequestList : Prop :=
  ∀ (s : State) (p : PortId) (tag : Byte) (q : Request), keptWhole q = true → Settled s → (s.port p).receiver = .idle →
    let sdo := List.replicate (8 * (1 + frameLength q)) false
    (8 ≤ (s.port p).requests.length → exec (rowOf p tag q) s =
      .next (s.openEvent.updPort p fun u => { u with flags := { u.flags with overrun := true }, sdo := sdo })) ∧
    ((s.port p).requests.length < 8 → (∃ r ∈ (s.port p).requests, r.tag = tag) → exec (rowOf p tag q) s =
      .next (s.openEvent.updPort p fun u => { u with flags := { u.flags with tagClash := true }, sdo := sdo })) ∧
    ((s.port p).requests.length < 8 → (∀ r ∈ (s.port p).requests, r.tag ≠ tag) →
      exec (rowOf p tag q) s = .next (s.taking p tag q .awaitingTurn).moveOn)

/-- A request taken while its port presents nothing is presented in the event that takes it; behind a WRITE that waits for slots
it waits for its turn; presentation moves on until no port has a request that it can present, at each port with the first request
that awaits its turn, at two ports with either's (log 2); while an apply is being entered the other port goes first, and then the
entry ends (R40, log 17), with the apply in this event where the drain is over (R56). Where the event also makes an apply due, or lets
the other port's waiting WRITE be placed, the spec gives no order: that all of this comes before them is the model's choice (log 30,
log 34). What a presentation does in any state, so also behind a WRITE that waited, is in the statements of the requests. -/
def Obligations.PresentationGoesInOrder : Prop :=
  (∀ (s : State) (p : PortId) (tag : Byte) (q : Request), keptWhole q = true → Quiet s → CanTake s p tag →
    exec (rowOf p tag q) s = .next ((s.taking p tag q .awaitingTurn).present p tag q).moveOn) ∧
  (∀ (s : State) (p : PortId) (tag : Byte) (q : Request), keptWhole q = true → Quiet s → (s.port p).receiver = .idle →
    (s.port p).requests.length < 8 → (∀ r ∈ (s.port p).requests, r.tag ≠ tag) →
    (∃ r ∈ (s.port p).requests, r.state = .awaitingSlots) →
    exec (rowOf p tag q) s = .next (s.taking p tag q .awaitingTurn)) ∧
  (∀ s : State, s.moveOn.agree.entering = none ∧ ∀ p, (s.moveOn.port p).PresentsNone) ∧
  (∀ s : State, s.agree.entering = none →
    (∀ p r, (s.port p).PresentsNext r → (s.port p.other).PresentsNone → s.moveOn = (s.present p r.tag r.request).moveOn) ∧
    (∀ r q, (s.port .A).PresentsNext r → (s.port .B).PresentsNext q →
      s.moveOn = (s.bumpChoice.present .A r.tag r.request).moveOn ∨ s.moveOn = (s.bumpChoice.present .B q.tag q.request).moveOn) ∧
    ((∀ p, (s.port p).PresentsNone) → s.moveOn = s)) ∧
  ∀ (s : State) (p : PortId), s.agree.entering = some p →
    let closed : State := { s with agree := { s.agree with entering := none } }
    (∀ r, (s.port p.other).PresentsNext r → s.moveOn = (s.present p.other r.tag r.request).moveOn) ∧
    ((s.port p.other).PresentsNone →
      (∀ pr, s.agree.proposal = some pr → pr.state = .applying → DrainOver s pr.change →
        ∃ t, Applied closed t pr ∧ s.moveOn = t.moveOn) ∧
      ((∀ pr, s.agree.proposal = some pr → pr.state = .applying → ¬DrainOver s pr.change) → s.moveOn = closed.moveOn))

/-- A request refused at presentation is answered with its status and zero result fields, and has no other effect (R57, R62), taken
between two events or presented later, from behind a WRITE that waited. An unknown request code, and a WRITE of a count above 8, are
answered BAD_REQUEST by a port that is ONLINE (R58, R177); a WRITE whose payload is not as long as its count says is a frame of the wrong
length (R178, log 12). -/
def Obligations.RefusedRequestsAreOnlyAnswered : Prop :=
  (∀ (s : State) (p : PortId) (tag : Byte) (q : Request) (st : Status), keptWhole q = true → Quiet s → CanTake s p tag →
    s.refusal p q = some st → exec (rowOf p tag q) s = .next (s.answering p tag q st .blank)) ∧
  (∀ (s : State) (p : PortId) (tag : Byte), Quiet s → CanTake s p tag → s.service.state ≠ .starting → (s.port p).online = true →
    (∀ code : Byte, requestCodes.contains code = false →
      exec (.unknownRequestCode p tag code) s = .next (s.answering p tag (.unknown code) .badRequest .blank)) ∧
    ∀ (b c : Byte) (o : Word24) (d : List Byte), d.length = 512 * c.toNat → 8 < c.toNat →
      exec (.write p tag b c o d) s = .next (s.answering p tag (.write b c o []) .badRequest .blank)) ∧
  (∀ (s : State) (p : PortId) (tag b c : Byte) (o : Word24) (d : List Byte), Settled s → (s.port p).receiver = .idle →
    d.length ≠ 512 * c.toNat → exec (.write p tag b c o d) s = .next (s.openEvent.updPort p fun u =>
      { u with flags := { u.flags with frameError := true }, sdo := List.replicate (8 * (1 + 18 + d.length)) false })) ∧
  ∀ (s : State) (p : PortId) (tag : Byte) (q : Request) (st : Status), s.refusal p q = some st →
    s.present p tag q = s.complete p tag st .blank

/-- The generic checks in the order of R57, with the requests of R59, named by their codes, at steps 4 and 5: in every state the
status of a request presented in it, and its answer where it is taken between two events. -/
def Obligations.GenericChecksGoInOrder : Prop :=
  ∀ (s : State) (p : PortId) (tag : Byte) (q : Request), keptWhole q = true →
    let mediaNeeded := requestCode q ∈ [0x10, 0x11, 0x12, 0x20, 0x30] ∨ ∃ id, q = .answer id 1
    let serviceNeeded := requestCode q ∈ [0x11, 0x30]
    let mediaDown := s.link.media = .fault ∨ s.store.loaded = false
    let resting := s.service.state = .quiescing ∨ s.service.state = .quiesced
    let attached := s.service.state ≠ .starting ∧ ((s.port p).online = true ∨ q = .attach)
    let refused := fun (st : Status) => s.refusal p q = some st ∧
      (Quiet s → CanTake s p tag → exec (rowOf p tag q) s = .next (s.answering p tag q st .blank))
    (s.service.state = .starting → refused .notReady) ∧
    (s.service.state ≠ .starting → (s.port p).online = false → q ≠ .attach → refused .notOnline) ∧
    (attached → badFields q = true → refused .badRequest) ∧
    (attached → badFields q = false → mediaDown → mediaNeeded → refused .mediaFault) ∧
    (attached → badFields q = false → ¬(mediaDown ∧ mediaNeeded) → resting → serviceNeeded → refused .quiesced) ∧
    (attached → badFields q = false → ¬(mediaDown ∧ mediaNeeded) → ¬(resting ∧ serviceNeeded) →
      s.refusal p q = s.regionRefusal p q)

/-- The field check, code by code (R27, R58), and the change that a PROPOSE asks for, kind by kind (R24, R27, R186). -/
def Obligations.FieldChecksByCode : Prop :=
  (∀ (r c : Byte) (o : Word24) (d : List Byte),
    (badFields (.read r c o) = true ↔ 15 < r.toNat ∨ c.toNat = 0 ∨ 8 < c.toNat) ∧
    (badFields (.write r c o d) = true ↔ 15 < r.toNat ∨ c.toNat = 0 ∨ 8 < c.toNat)) ∧
  (∀ r : Byte, (badFields (.flush r) = true ↔ 15 < r.toNat ∧ r ≠ 0xFF) ∧ (badFields (.claim r) = true ↔ 15 < r.toNat) ∧
    (badFields (.renew r) = true ↔ 15 < r.toNat) ∧ (badFields (.release r) = true ↔ 15 < r.toNat) ∧
    (badFields (.fix r) = true ↔ 15 < r.toNat) ∧ (badFields (.queryRegion r) = true ↔ 15 < r.toNat)) ∧
  (∀ f : ProposeFields, badFields (.propose f) = true ↔
    f.kind.toNat = 0 ∨ 7 < f.kind.toNat ∨ f.window.toNat = 0 ∨ (f.kind ∈ [1, 2, 3, 4] ∧ 15 < f.region.toNat) ∨
      (f.kind ∈ [1, 4] ∧ f.leasePeriod.toNat = 0)) ∧
  (∀ id a : Byte, badFields (.answer id a) = true ↔ a ≠ 1 ∧ a ≠ 2) ∧
  (∀ code : Byte, badFields (.unknown code) = true) ∧
  (∀ q : Request, requestCode q ∈ [0x01, 0x02, 0x32, 0x40, 0x41, 0x42, 0x43] → (∀ code, q ≠ .unknown code) → badFields q = false) ∧
  ∀ (f : ProposeFields) (r : Fin 16), f.window ≠ 0 →
    let attrs : Attrs := { exclusive := f.attrs.getLsbD 0, peerRead := f.attrs.getLsbD 1, through := f.attrs.getLsbD 2,
                           kept := f.attrs.getLsbD 3 }
    (f.region.toNat = r.val →
      (f.kind = 1 → f.leasePeriod ≠ 0 →
        changeOf f = some (.define r f.base.toNat f.length.toNat attrs f.leasePeriod.toNat)) ∧
      (f.kind = 2 → changeOf f = some (.delete r)) ∧ (f.kind = 3 → changeOf f = some (.resize r f.length.toNat)) ∧
      (f.kind = 4 → f.leasePeriod ≠ 0 → changeOf f = some (.reconfigure r attrs f.leasePeriod.toNat))) ∧
    (f.kind = 5 → changeOf f = some .resetTable) ∧ (f.kind = 6 → changeOf f = some .close) ∧
    (f.kind = 7 → changeOf f = some (.setSpares f.length.toNat))

/-- The region checks with the rights table: which of them each code takes, and in which order (R5, R6). -/
def Obligations.RegionChecksByCode : Prop :=
  ∀ (s : State) (p : PortId) (b c id a : Byte) (o : Word24) (d : List Byte) (f : ProposeFields) (r : Fin 16), regionOf b = some r →
    let x := s.region r
    let outside := x.length < o.toNat + c.toNat
    let mayRead := x.attrs.exclusive = false ∨ x.heldBy p = true ∨ x.attrs.peerRead = true
    let mayWrite := x.attrs.exclusive = false ∨ x.heldBy p = true
    (x.state = .undefined → ∀ q ∈ [Request.read b c o, .write b c o d, .flush b, .claim b, .renew b, .release b, .fix b],
      s.regionRefusal p q = some .noRegion) ∧
    (x.state ≠ .undefined → x.changing = true →
      (∀ q ∈ [Request.read b c o, .write b c o d, .flush b, .claim b, .renew b, .fix b],
        s.regionRefusal p q = some .regionChanging)) ∧
    (x.state ≠ .undefined → s.regionRefusal p (.release b) = none) ∧
    (x.state ≠ .undefined → x.changing = false →
      (∀ q ∈ [Request.flush b, .claim b, .renew b, .fix b], s.regionRefusal p q = none) ∧
      (outside → ∀ q ∈ [Request.read b c o, .write b c o d], s.regionRefusal p q = some .outOfBounds) ∧
      (¬outside → (mayRead → s.regionRefusal p (.read b c o) = none) ∧
        (¬mayRead → s.regionRefusal p (.read b c o) = some .noRight) ∧
        (mayWrite → s.regionRefusal p (.write b c o d) = none) ∧
        (¬mayWrite → s.regionRefusal p (.write b c o d) = some .noRight))) ∧
    ∀ q ∈ [Request.flush 0xFF, .queryRegion b, .propose f, .answer id a, .withdraw id, .attach, .detach, .inquire, .quiesce,
        .resume, .mediaRestart],
      s.regionRefusal p q = none

/-! ### The request rows (spec/01 to spec/04, spec/07, spec/08) -/

/-- ATTACH (R50): NOT_READY while STARTING; else the port is ONLINE, the other port is told if this one was OFFLINE, and the
completion carries the states of the owners; also where it is presented later. -/
def Obligations.AttachBringsThePortOnline : Prop :=
  (∀ (s : State) (p : PortId) (tag : Byte), Quiet s → CanTake s p tag →
    let result : Result :=
      .attach p s.service.state s.link.media s.store.loaded s.agree.phase (s.port p.other).online
    let done := (s.answering p tag .attach .ok result).updPort p fun u => { u with online := true }
    (s.service.state = .starting → exec (.attach p tag) s = .next (s.answering p tag .attach .notReady .blank)) ∧
    (s.service.state ≠ .starting → (s.port p).online = true → exec (.attach p tag) s = .next done) ∧
    (s.service.state ≠ .starting → (s.port p).online = false → (s.port p.other).online = true →
      exec (.attach p tag) s = .next (done.offer p.other .peerOnline)) ∧
    (s.service.state ≠ .starting → (s.port p).online = false → (s.port p.other).online = false →
      exec (.attach p tag) s = .next done)) ∧
  ∀ (s : State) (p : PortId) (tag : Byte), s.refusal p .attach = none →
    let done := (s.complete p tag .ok
      (.attach p s.service.state s.link.media s.store.loaded s.agree.phase (s.port p.other).online)).updPort p fun u =>
        { u with online := true }
    s.present p tag .attach =
      if (s.port p).online = false ∧ (s.port p.other).online = true then done.offer p.other .peerOnline else done

/-- DETACH (R51): PORT_BUSY with any other record not COMPLETE, else OK and the port departs (R20, R36, R52); also where it is
presented later. -/
def Obligations.DetachTakesThePortOffline : Prop :=
  (∀ (s : State) (p : PortId) (tag : Byte), Quiet s → CanTake s p tag → s.service.state ≠ .starting →
    (s.port p).online = true →
    ((∃ r ∈ (s.port p).requests, r.state ≠ .complete) →
      exec (.detach p tag) s = .next (s.answering p tag .detach .portBusy .blank)) ∧
    ((∀ r ∈ (s.port p).requests, r.state = .complete) →
      ∃ t, exec (.detach p tag) s = .next t ∧ Departed (s.answering p tag .detach .ok .blank) t p)) ∧
  ∀ (s : State) (p : PortId) (tag : Byte), s.refusal p .detach = none →
    ((∃ r ∈ (s.port p).requests, r.tag ≠ tag ∧ r.state ≠ .complete) →
      s.present p tag .detach = s.complete p tag .portBusy .blank) ∧
    ((∀ r ∈ (s.port p).requests, r.tag ≠ tag → r.state = .complete) →
      Departed (s.complete p tag .ok .blank) (s.present p tag .detach) p)

/-- READ (R13, R83): with every block in a slot it completes OK with their data; else it joins its port's read wait list with
the blocks found. In both cases the lease of a holder restarts. So does a READ presented later. -/
def Obligations.ReadLooksUpTheSlots : Prop :=
  (∀ (s : State) (p : PortId) (tag b c : Byte) (o : Word24) (r : Fin 16), Passes s p tag (.read b c o) → regionOf b = some r →
    let first := (s.region r).base + o.toNat
    let area := (List.range c.toNat).map fun k => (s.staging.find (first + k)).bind fun i => (s.slot i).data?
    ((∀ x ∈ area, x ≠ none) →
      exec (.read p tag b c o) s = .next ((s.answering p tag (.read b c o) .ok (.read c.toNat 0 (area.filterMap id))).setRegion
        r ((s.region r).renewedFor p))) ∧
    (none ∈ area →
      let waiting := (s.taking p tag (.read b c o) .dispatched).setRegion r ((s.region r).renewedFor p)
      let read : WaitingRead :=
        { tag := tag, region := r, offset := o.toNat, count := c.toNat, lbn := first, area := area }
      exec (.read p tag b c o) s = .next { waiting with sched := s.sched.setWait p (s.sched.wait p ++ [read]) })) ∧
  ∀ (s : State) (p : PortId) (tag b c : Byte) (o : Word24) (r : Fin 16), s.refusal p (.read b c o) = none → regionOf b = some r →
    let first := (s.region r).base + o.toNat
    let area := (List.range c.toNat).map fun k => (s.staging.find (first + k)).bind fun i => (s.slot i).data?
    let renewed := s.setRegion r ((s.region r).renewedFor p)
    ((∀ x ∈ area, x ≠ none) →
      s.present p tag (.read b c o) = renewed.complete p tag .ok (.read c.toNat 0 (area.filterMap id))) ∧
    (none ∈ area →
      let read : WaitingRead :=
        { tag := tag, region := r, offset := o.toNat, count := c.toNat, lbn := first, area := area }
      s.present p tag (.read b c o) =
        { renewed.setRecord p tag .dispatched with sched := s.sched.setWait p (s.sched.wait p ++ [read]) })

/-- WRITE (R77, R78, R81, R82): placed with an OK completion where it is write-back, placed with a write-through waiter where the
region or the forced flag says so, and waiting for slots where they cannot be had. A payload that does not fit the count is a
frame of the wrong length (R178, log 12). A WRITE presented later has the same effect. -/
def Obligations.WriteIsPlacedOrWaits : Prop :=
  (∀ (s : State) (p : PortId) (tag b c : Byte) (o : Word24) (d : List Byte) (r : Fin 16),
    Passes s p tag (.write b c o d) → d.length = 512 * c.toNat → regionOf b = some r →
    let lbns := (List.range c.toNat).map ((s.region r).base + o.toNat + ·)
    let misses := lbns.filter fun n => (s.staging.find n).isNone
    let had := s.staging.available (lbns.filterMap s.staging.find)
    let through := (s.region r).attrs.through = true ∨ s.staging.forced = true
    let placed : Staging := s.staging.place lbns r d
    let waiter : WtWaiter :=
      { port := p, tag := tag, detached := false, region := r, position := s.staging.writeOrder + 1,
        entries := (s.staging.slotsFor lbns).map fun x => ⟨x.2, .awaiting⟩ }
    (misses.length ≤ had.length → ¬through → exec (.write p tag b c o d) s =
      .next { (s.answering p tag (.write b c o d) .ok .blank).setRegion r ((s.region r).renewedFor p) with staging := placed }) ∧
    (misses.length ≤ had.length → through → exec (.write p tag b c o d) s =
      .next { (s.taking p tag (.write b c o []) .started).setRegion r ((s.region r).renewedFor p) with
        staging := { placed with wtWaiters := s.staging.wtWaiters ++ [waiter] } }) ∧
    (had.length < misses.length → exec (.write p tag b c o d) s = .next (s.taking p tag (.write b c o d) .awaitingSlots))) ∧
  ∀ (s : State) (p : PortId) (tag b c : Byte) (o : Word24) (d : List Byte) (r : Fin 16),
    s.refusal p (.write b c o d) = none → regionOf b = some r →
    let lbns := (List.range c.toNat).map ((s.region r).base + o.toNat + ·)
    let misses := lbns.filter fun n => (s.staging.find n).isNone
    let had := s.staging.available (lbns.filterMap s.staging.find)
    let through := (s.region r).attrs.through = true ∨ s.staging.forced = true
    let placed : Staging := s.staging.place lbns r d
    let started := (s.startRecord p tag).setRegion r ((s.region r).renewedFor p)
    let waiter : WtWaiter :=
      { port := p, tag := tag, detached := false, region := r, position := s.staging.writeOrder + 1,
        entries := (s.staging.slotsFor lbns).map fun x => ⟨x.2, .awaiting⟩ }
    (misses.length ≤ had.length → ¬through →
      s.present p tag (.write b c o d) = ({ started with staging := placed } : State).complete p tag .ok .blank) ∧
    (misses.length ≤ had.length → through → s.present p tag (.write b c o d) =
      { started with staging := { placed with wtWaiters := s.staging.wtWaiters ++ [waiter] } }) ∧
    (had.length < misses.length → s.present p tag (.write b c o d) = s.setRecord p tag .awaitingSlots)

/-- The lookup of a block finds a slot that holds it, and none only where none does (R77, R83). The slots that can be had: FREE ones
(in what order the spec does not say, log 3), then CLEAN ones in clean order, less the WRITE's own hits; each missed block takes the
next of them (R77). One block of a WRITE goes into its slot (the table of R78); a WRITE is placed at one new position of the write
order, its blocks in block order, and the pressure mode is judged (R75, R78, R85). -/
def Obligations.BlocksFindTheirSlots : Prop :=
  (∀ (b : Staging) (lbn : Nat), (∀ i, b.find lbn = some i → b.slots[i].lbn? = some lbn) ∧
    (b.find lbn = none → ∀ i : SlotId, b.slots[i].lbn? ≠ some lbn)) ∧
  (∀ (b : Staging) (hits : List SlotId), ∃ frees : List SlotId, frees.Nodup ∧ (∀ i : SlotId, i ∈ frees ↔ b.slots[i] = .free) ∧
    b.available hits = frees ++ b.cleanOrder.filter fun i => decide (i ∉ hits)) ∧
  (∀ (b : Staging) (lbns : List Nat),
    let misses := lbns.filter fun n => (b.find n).isNone
    let had := b.available (lbns.filterMap b.find)
    misses.length ≤ had.length →
      (b.slotsFor lbns).map Prod.fst = lbns ∧ (∀ x ∈ b.slotsFor lbns, ∀ i, b.find x.1 = some i → x.2 = i) ∧
      ((b.slotsFor lbns).filter fun x => (b.find x.1).isNone).map Prod.snd = had.take misses.length) ∧
  (∀ (b : Staging) (lbns : List Nat) (r : Fin 16) (payload : List Byte),
    let position := b.writeOrder + 1
    b.place lbns r payload = ((b.slotsFor lbns).zipIdx.foldl
      (fun (t : Staging) x => t.putBlock x.1.2 x.1.1 r position ((payload.drop (512 * x.2)).take 512))
      { b with writeOrder := position }).judgePressure) ∧
  ∀ (b : Staging) (i : SlotId) (lbn : Nat) (r : Fin 16) (position : Nat) (data : Block),
    let t := b.putBlock i lbn r position data
    let fresh : Dirty :=
      { lbn := lbn, region := r, firstDirty := position, lastWrite := position, relocate := false, data := data }
    (b.slots[i] = .free → t.slots[i] = .dirty fresh ∧ t.dirtyOrder = b.dirtyOrder ++ [i]) ∧
    (∀ l q x, b.slots[i] = .clean l q x → t.slots[i] = .dirty fresh ∧ t.dirtyOrder = b.dirtyOrder ++ [i] ∧
      t.cleanOrder = b.cleanOrder.erase i) ∧
    (∀ e, b.slots[i] = .dirty e → t.slots[i] = .dirty { fresh with firstDirty := e.firstDirty, relocate := e.relocate } ∧
      t.dirtyOrder = b.dirtyOrder ∧ t.cleanOrder = b.cleanOrder) ∧
    (∀ e w, b.slots[i] = .flushing e w →
      t.slots[i] = .flushing { fresh with firstDirty := e.firstDirty, relocate := e.relocate } w ∧
      t.dirtyOrder = b.dirtyOrder ∧ t.cleanOrder = b.cleanOrder) ∧
    (∀ j, j ≠ i → t.slots[j] = b.slots[j]) ∧ t.writeOrder = b.writeOrder

/-- FLUSH (R13, R93, R94): OK with lost count 0 where no covered slot is DIRTY or FLUSHING, else a waiter with the mark at the
current write order; a named FLUSH restarts the lease of a holder, one of all regions does not. So does a FLUSH presented later. -/
def Obligations.FlushWaitsForItsMark : Prop :=
  (∀ (s : State) (p : PortId) (tag b : Byte) (r : Fin 16), Passes s p tag (.flush b) → regionOf b = some r →
    let renewed := (s.region r).renewedFor p
    let covered := ∃ i d, (s.slot i).unflushed? = some d ∧ d.region = r ∧ d.firstDirty ≤ s.staging.writeOrder
    let waiter : FlushWaiter :=
      { port := p, tag := tag, detached := false, scope := some r, mark := s.staging.writeOrder, lost := 0 }
    (¬covered → exec (.flush p tag b) s = .next ((s.answering p tag (.flush b) .ok (.lost 0)).setRegion r renewed)) ∧
    (covered → exec (.flush p tag b) s = .next { (s.taking p tag (.flush b) .started).setRegion r renewed with
      staging := { s.staging with flushWaiters := s.staging.flushWaiters ++ [waiter] } })) ∧
  (∀ (s : State) (p : PortId) (tag : Byte), Passes s p tag (.flush 0xFF) →
    let covered := ∃ i d, (s.slot i).unflushed? = some d ∧ d.firstDirty ≤ s.staging.writeOrder
    let waiter : FlushWaiter :=
      { port := p, tag := tag, detached := false, scope := none, mark := s.staging.writeOrder, lost := 0 }
    (¬covered → exec (.flush p tag 0xFF) s = .next (s.answering p tag (.flush 0xFF) .ok (.lost 0))) ∧
    (covered → exec (.flush p tag 0xFF) s = .next { s.taking p tag (.flush 0xFF) .started with
      staging := { s.staging with flushWaiters := s.staging.flushWaiters ++ [waiter] } })) ∧
  (∀ (s : State) (p : PortId) (tag b : Byte) (r : Fin 16), s.refusal p (.flush b) = none → regionOf b = some r →
    let renewed := s.setRegion r ((s.region r).renewedFor p)
    let covered := ∃ i d, (s.slot i).unflushed? = some d ∧ d.region = r ∧ d.firstDirty ≤ s.staging.writeOrder
    let waiter : FlushWaiter :=
      { port := p, tag := tag, detached := false, scope := some r, mark := s.staging.writeOrder, lost := 0 }
    (¬covered → s.present p tag (.flush b) = renewed.complete p tag .ok (.lost 0)) ∧
    (covered → s.present p tag (.flush b) = { renewed.startRecord p tag with
      staging := { s.staging with flushWaiters := s.staging.flushWaiters ++ [waiter] } })) ∧
  ∀ (s : State) (p : PortId) (tag : Byte), s.refusal p (.flush 0xFF) = none →
    let covered := ∃ i d, (s.slot i).unflushed? = some d ∧ d.firstDirty ≤ s.staging.writeOrder
    let waiter : FlushWaiter :=
      { port := p, tag := tag, detached := false, scope := none, mark := s.staging.writeOrder, lost := 0 }
    (¬covered → s.present p tag (.flush 0xFF) = s.complete p tag .ok (.lost 0)) ∧
    (covered → s.present p tag (.flush 0xFF) = { s.startRecord p tag with
      staging := { s.staging with flushWaiters := s.staging.flushWaiters ++ [waiter] } })

/-- CLAIM by the mode and the holder (the table of R10). RELEASE (R12): the hold goes, the port's not-started READs of the region
complete LEASE_LOST, and the completion is OK; any other port gets NOT_HOLDER. The second clause of it says it in full where the
port has no such READ. So do both where they are presented later. -/
def Obligations.ClaimAndReleaseByTheHolder : Prop :=
  (∀ (s : State) (p : PortId) (tag b : Byte) (r : Fin 16), Passes s p tag (.claim b) → regionOf b = some r →
    let x := s.region r
    let held := s.answering p tag (.claim b) .ok (.lease x.leasePeriod)
    (x.attrs.exclusive = false → exec (.claim p tag b) s = .next (s.answering p tag (.claim b) .noRight (.lease 0))) ∧
    (x.attrs.exclusive = true → x.hold = none ∨ x.heldBy p = true →
      exec (.claim p tag b) s = .next (held.setRegion r { x with hold := some ⟨p, x.leasePeriod⟩ })) ∧
    ∀ h, x.attrs.exclusive = true → x.hold = some h → h.holder = p.other →
      exec (.claim p tag b) s = .next (s.answering p tag (.claim b) .held (.lease h.remaining))) ∧
  (∀ (s : State) (p : PortId) (tag b : Byte) (r : Fin 16), Passes s p tag (.release b) → regionOf b = some r →
    let x := s.region r
    let gone := (s.sched.wait p).filter (·.region == r)
    let kept := (s.sched.wait p).filter (·.region != r)
    let dropped : State :=
      { (s.taking p tag (.release b) .awaitingTurn).setRegion r { x with hold := none } with sched := s.sched.setWait p kept }
    (x.heldBy p = true → exec (.release p tag b) s =
      .next ((gone.foldl (fun t w => t.complete p w.tag .leaseLost .blank) dropped).complete p tag .ok .blank)) ∧
    (x.heldBy p = true → gone = [] → exec (.release p tag b) s =
      .next ((s.answering p tag (.release b) .ok .blank).setRegion r { x with hold := none })) ∧
    (x.heldBy p = false → exec (.release p tag b) s = .next (s.answering p tag (.release b) .notHolder .blank))) ∧
  (∀ (s : State) (p : PortId) (tag b : Byte) (r : Fin 16), s.refusal p (.claim b) = none → regionOf b = some r →
    let x := s.region r
    (x.attrs.exclusive = false → s.present p tag (.claim b) = s.complete p tag .noRight (.lease 0)) ∧
    (x.attrs.exclusive = true → x.hold = none ∨ x.heldBy p = true → s.present p tag (.claim b) =
      (s.setRegion r { x with hold := some ⟨p, x.leasePeriod⟩ }).complete p tag .ok (.lease x.leasePeriod)) ∧
    ∀ h, x.attrs.exclusive = true → x.hold = some h → h.holder = p.other →
      s.present p tag (.claim b) = s.complete p tag .held (.lease h.remaining)) ∧
  ∀ (s : State) (p : PortId) (tag b : Byte) (r : Fin 16), s.refusal p (.release b) = none → regionOf b = some r →
    (s.port p).waitingWrite = none →
    let x := s.region r
    let gone := (s.sched.wait p).filter (·.region == r)
    let kept := (s.sched.wait p).filter (·.region != r)
    let dropped : State := { s.setRegion r { x with hold := none } with sched := s.sched.setWait p kept }
    (x.heldBy p = true → s.present p tag (.release b) =
      (gone.foldl (fun t w => t.complete p w.tag .leaseLost .blank) dropped).complete p tag .ok .blank) ∧
    (x.heldBy p = false → s.present p tag (.release b) = s.complete p tag .notHolder .blank)

/-- RENEW (R11): the holder's lease restarts; any other port gets NOT_HOLDER; neither a media fault nor a quiesce refuses it; also
where it is presented later. -/
def Obligations.RenewRestartsTheLease : Prop :=
  (∀ (s : State) (p : PortId) (tag b : Byte) (r : Fin 16), Passes s p tag (.renew b) → regionOf b = some r →
    let x := s.region r
    (x.heldBy p = true → exec (.renew p tag b) s =
      .next ((s.answering p tag (.renew b) .ok (.lease x.leasePeriod)).setRegion r { x with hold := some ⟨p, x.leasePeriod⟩ })) ∧
    (x.heldBy p = false → exec (.renew p tag b) s = .next (s.answering p tag (.renew b) .notHolder (.lease 0)))) ∧
  (∀ (s : State) (p : PortId) (tag b : Byte) (r : Fin 16), s.refusal p (.renew b) = none → regionOf b = some r →
    let x := s.region r
    (x.heldBy p = true → s.present p tag (.renew b) =
      (s.setRegion r { x with hold := some ⟨p, x.leasePeriod⟩ }).complete p tag .ok (.lease x.leasePeriod)) ∧
    (x.heldBy p = false → s.present p tag (.renew b) = s.complete p tag .notHolder (.lease 0))) ∧
  ∀ (s : State) (p : PortId) (b : Byte), s.refusal p (.renew b) ≠ some .mediaFault ∧ s.refusal p (.renew b) ≠ some .quiesced

/-- FIX (R18, R37): NO_RIGHT where the other port holds the region; else the region is FIXED, and an OPEN proposal that targets
it lapses with its OUTCOME to each ONLINE port; also where it is presented later. -/
def Obligations.FixFixesTheRegion : Prop :=
  (∀ (s : State) (p : PortId) (tag b : Byte) (r : Fin 16), Passes s p tag (.fix b) → regionOf b = some r →
    let x := s.region r
    let fixed := (s.answering p tag (.fix b) .ok .blank).setRegion r { x with state := .fixed }
    (x.heldBy p.other = true → exec (.fix p tag b) s = .next (s.answering p tag (.fix b) .noRight .blank)) ∧
    (x.heldBy p.other = false → (∀ pr, s.agree.openProposal = some pr → pr.change.targets r = false) →
      exec (.fix p tag b) s = .next fixed) ∧
    ∀ pr, x.heldBy p.other = false → s.agree.openProposal = some pr → pr.change.targets r = true →
      exec (.fix p tag b) s = .next (({ fixed with agree := { s.agree with proposal := none } } : State).offerBoth
        (.outcome .lapsedTargetFixed pr.id pr.change))) ∧
  ∀ (s : State) (p : PortId) (tag b : Byte) (r : Fin 16), s.refusal p (.fix b) = none → regionOf b = some r →
    let x := s.region r
    let fixed := (s.setRegion r { x with state := .fixed }).complete p tag .ok .blank
    (x.heldBy p.other = true → s.present p tag (.fix b) = s.complete p tag .noRight .blank) ∧
    (x.heldBy p.other = false → (∀ pr, s.agree.openProposal = some pr → pr.change.targets r = false) →
      s.present p tag (.fix b) = fixed) ∧
    ∀ pr, x.heldBy p.other = false → s.agree.openProposal = some pr → pr.change.targets r = true →
      s.present p tag (.fix b) = ({ fixed with agree := { s.agree with proposal := none } } : State).offerBoth
        (.outcome .lapsedTargetFixed pr.id pr.change)

/-- QUERY_REGION (R19): the record of a defined region; of an UNDEFINED one the zero record with its flag. INQUIRE (R70): OK with
the values of their owners. Neither changes anything; also where they are presented later. -/
def Obligations.QueriesReportAndChangeNothing : Prop :=
  (∀ (s : State) (p : PortId) (tag b : Byte) (r : Fin 16), Passes s p tag (.queryRegion b) → regionOf b = some r →
    let x := s.region r
    (x.state ≠ .undefined →
      exec (.queryRegion p tag b) s = .next (s.answering p tag (.queryRegion b) .ok (.region x))) ∧
    (x.state = .undefined → exec (.queryRegion p tag b) s = .next (s.answering p tag (.queryRegion b) .ok
      (.region { state := .undefined, base := 0, length := 0, attrs := ⟨false, false, false, false⟩, leasePeriod := 0,
                 hold := none, changing := x.changing })))) ∧
  (∀ (s : State) (p : PortId) (tag : Byte),
    let inquiry : Inquiry :=
      { service := s.service.state, media := s.link.media, loaded := s.store.loaded, phase := s.agree.phase,
        p := s.blockMap.p, s := s.blockMap.s, l := s.blockMap.l,
        freeSpares := s.blockMap.spares.countP (· == .free),
        inUseSpares := s.blockMap.spares.countP (fun e => e != .free && e != .retired),
        retiredSpares := s.blockMap.spares.countP (· == .retired),
        candidates := s.blockMap.candidates.length, dirty := s.staging.dirtyOrder.length, forced := s.staging.forced,
        checkpointPending := s.store.checkpointPending, lastResult := s.store.lastResult,
        generation := s.store.generation }
    (Quiet s → CanTake s p tag → s.service.state ≠ .starting → (s.port p).online = true →
      exec (.inquire p tag) s = .next (s.answering p tag .inquire .ok (.inquire inquiry))) ∧
    (s.refusal p .inquire = none → s.present p tag .inquire = s.complete p tag .ok (.inquire inquiry))) ∧
  ∀ (s : State) (p : PortId) (tag b : Byte) (r : Fin 16), s.refusal p (.queryRegion b) = none → regionOf b = some r →
    let x := s.region r
    (x.state ≠ .undefined → s.present p tag (.queryRegion b) = s.complete p tag .ok (.region x)) ∧
    (x.state = .undefined → s.present p tag (.queryRegion b) = s.complete p tag .ok
      (.region { state := .undefined, base := 0, length := 0, attrs := ⟨false, false, false, false⟩, leasePeriod := 0,
                 hold := none, changing := x.changing }))

/-- Validation of a change, kind by kind (the table of R28). -/
def Obligations.ValidationByKind : Prop :=
  ∀ s : State,
    let defined := fun r => (s.region r).state ≠ .undefined
    let shares := fun (b1 l1 b2 l2 : Nat) => ∃ n, (b1 ≤ n ∧ n < b1 + l1) ∧ (b2 ≤ n ∧ n < b2 + l2)
    let target := fun (c : Change) (r : Fin 16) =>
      ((s.region r).state = .undefined → s.validate c = some .noRegion) ∧ ((s.region r).state = .fixed → s.validate c = some .targetFixed)
    (∀ r base length attrs lease,
      let bad := defined r ∨ length = 0 ∨ s.blockMap.l < base + length ∨
        ∃ q, defined q ∧ shares base length (s.region q).base (s.region q).length
      (bad → s.validate (.define r base length attrs lease) = some .invalidChange) ∧
      (¬bad → s.validate (.define r base length attrs lease) = none)) ∧
    (∀ r, target (.delete r) r ∧ ((s.region r).state = .defined → s.validate (.delete r) = none)) ∧
    (∀ r length,
      let bad := length = 0 ∨ s.blockMap.l < (s.region r).base + length ∨
        ∃ q, q ≠ r ∧ defined q ∧ shares (s.region r).base length (s.region q).base (s.region q).length
      target (.resize r length) r ∧
      ((s.region r).state = .defined → bad → s.validate (.resize r length) = some .invalidChange) ∧
      ((s.region r).state = .defined → ¬bad → s.validate (.resize r length) = none)) ∧
    (∀ r attrs lease, target (.reconfigure r attrs lease) r ∧
      ((s.region r).state = .defined → s.validate (.reconfigure r attrs lease) = none)) ∧
    (s.agree.phase = .provisioning → s.validate .resetTable = some .wrongPhase) ∧
    (s.agree.phase = .agreed → (∃ r, (s.region r).state = .fixed) → s.validate .resetTable = some .targetFixed) ∧
    (s.agree.phase = .agreed → (∀ r, (s.region r).state ≠ .fixed) → s.validate .resetTable = none) ∧
    (s.agree.phase = .agreed → s.validate .close = some .wrongPhase) ∧
    (s.agree.phase = .provisioning → s.validate .close = none) ∧
    ∀ count,
      let underTrial := ∃ j, s.sched.job = some (.flush j) ∧ j.target ≠ .current
      let bad := count < 16 ∨ 1024 < count ∨ (∃ e ∈ s.blockMap.spares, e ≠ .free) ∨ underTrial ∨
        s.blockMap.p < 24 + count + 256 ∨ ∃ q, defined q ∧ s.blockMap.p - 24 - count < (s.region q).base + (s.region q).length
      (s.agree.phase = .agreed → s.validate (.setSpares count) = some .wrongPhase) ∧
      (s.agree.phase = .provisioning → bad → s.validate (.setSpares count) = some .invalidChange) ∧
      (s.agree.phase = .provisioning → ¬bad → s.validate (.setSpares count) = none)

/-- PROPOSE refused (R29): PROPOSAL_PENDING with the id and state of the existing proposal, then validation, then PEER_ABSENT,
these with id 0 and state NONE; nothing changes and no id is used. PROPOSE taken (R26, R30, R31, R40): in AGREED an OPEN proposal
with its window and a PROPOSAL notice to the peer; in PROVISIONING an APPLYING one, applied in the same event where nothing is to be
drained; the zeros of an UNDEFINED record after an apply are the model's choice (log 9). A PROPOSE presented later has the same effect. -/
def Obligations.ProposeIsRefusedOrTaken : Prop :=
  (∀ (s : State) (p : PortId) (tag : Byte) (f : ProposeFields) (c : Change), Passes s p tag (.propose f) → changeOf f = some c →
    (∀ pr, s.agree.proposal = some pr → exec (.propose p tag f) s = .next (s.answering p tag (.propose f) .proposalPending
      (.proposal pr.id (if pr.state = .applying then .applying else .opened)))) ∧
    (∀ st, s.agree.proposal = none → s.validate c = some st →
      exec (.propose p tag f) s = .next (s.answering p tag (.propose f) st (.proposal 0 .none))) ∧
    (s.agree.proposal = none → s.validate c = none → s.agree.phase = .agreed → (s.port p.other).online = false →
      exec (.propose p tag f) s = .next (s.answering p tag (.propose f) .peerAbsent (.proposal 0 .none)))) ∧
  (∀ (s : State) (p : PortId) (tag : Byte) (f : ProposeFields) (c : Change), Passes s p tag (.propose f) → changeOf f = some c →
    s.agree.proposal = none → s.validate c = none →
    let id := s.agree.nextId
    let after := if 255 ≤ id then 1 else id + 1
    (s.agree.phase = .agreed → (s.port p.other).online = true → exec (.propose p tag f) s =
      .next (({ s.answering p tag (.propose f) .ok (.proposal id .opened) with
        agree := { s.agree with nextId := after,
                                proposal := some { id := id, proposer := p, change := c, state := .opened f.window.toNat } } } : State).offer
        p.other (.proposal id c f.window.toNat))) ∧
    (s.agree.phase = .provisioning → NoWriteWaits s → ∃ t, exec (.propose p tag f) s = .next t ∧
      EntersApplying { s.answering p tag (.propose f) .ok (.proposal id .applying) with agree := { s.agree with nextId := after } }
        t { id := id, proposer := p, change := c, state := .applying })) ∧
  ∀ (s : State) (p : PortId) (tag : Byte) (f : ProposeFields) (c : Change), s.refusal p (.propose f) = none → changeOf f = some c →
    let id := s.agree.nextId
    let taken := fun (t : State) (pr : Option Proposal) =>
      ({ t with agree := { s.agree with nextId := if 255 ≤ id then 1 else id + 1, proposal := pr } } : State)
    (∀ pr, s.agree.proposal = some pr → s.present p tag (.propose f) = s.complete p tag .proposalPending
      (.proposal pr.id (if pr.state = .applying then .applying else .opened))) ∧
    (s.agree.proposal = none →
      (∀ st, s.validate c = some st → s.present p tag (.propose f) = s.complete p tag st (.proposal 0 .none)) ∧
      (s.validate c = none → s.agree.phase = .agreed → (s.port p.other).online = false →
        s.present p tag (.propose f) = s.complete p tag .peerAbsent (.proposal 0 .none)) ∧
      (s.validate c = none → s.agree.phase = .agreed → (s.port p.other).online = true → s.present p tag (.propose f) =
        (taken (s.complete p tag .ok (.proposal id .opened))
          (some { id := id, proposer := p, change := c, state := .opened f.window.toNat })).offer
            p.other (.proposal id c f.window.toNat)) ∧
      (s.validate c = none → s.agree.phase = .provisioning → s.present p tag (.propose f) =
        (taken (s.complete p tag .ok (.proposal id .applying)) none).enterApplying p
          { id := id, proposer := p, change := c, state := .applying }))

/-- ANSWER (R32, R40): taken only from the port that did not propose, of an OPEN proposal, with its id; a decline removes the
record with OUTCOME (DECLINED), an accept enters APPLYING; any other ANSWER is NO_SUCH_PROPOSAL and changes nothing. The zeros of an
UNDEFINED record after an apply are the model's choice (log 9). An ANSWER presented later has the same effect. -/
def Obligations.AnswerDecidesAnOpenProposal : Prop :=
  (∀ (s : State) (p : PortId) (tag id a : Byte), Passes s p tag (.answer id a) →
    let done := s.answering p tag (.answer id a) .ok .blank
    ((∀ pr w, s.agree.proposal = some pr → pr.state = .opened w → pr.id = id.toNat → pr.proposer = p) →
      exec (.answer p tag id a) s = .next (s.answering p tag (.answer id a) .noSuchProposal .blank)) ∧
    ∀ pr w, s.agree.proposal = some pr → pr.state = .opened w → pr.id = id.toNat → pr.proposer = p.other →
      (a = 2 → exec (.answer p tag id a) s = .next
        (({ done with agree := { s.agree with proposal := none } } : State).offerBoth (.outcome .declined pr.id pr.change))) ∧
      (a = 1 → NoWriteWaits s → ∃ t, exec (.answer p tag id a) s = .next t ∧ EntersApplying done t pr)) ∧
  ∀ (s : State) (p : PortId) (tag id a : Byte), s.refusal p (.answer id a) = none →
    let done := s.complete p tag .ok .blank
    ((∀ pr w, s.agree.proposal = some pr → pr.state = .opened w → pr.id = id.toNat → pr.proposer = p) →
      s.present p tag (.answer id a) = s.complete p tag .noSuchProposal .blank) ∧
    ∀ pr w, s.agree.proposal = some pr → pr.state = .opened w → pr.id = id.toNat → pr.proposer = p.other →
      (a = 2 → s.present p tag (.answer id a) =
        ({ done with agree := { s.agree with proposal := none } } : State).offerBoth (.outcome .declined pr.id pr.change)) ∧
      (a = 1 → s.present p tag (.answer id a) = done.enterApplying p pr)

/-- WITHDRAW (R33): by the proposer, of an OPEN proposal, with its id; neither a media fault nor a quiesce refuses it; also where it
is presented later. -/
def Obligations.WithdrawEndsAnOpenProposal : Prop :=
  (∀ (s : State) (p : PortId) (tag id : Byte), Passes s p tag (.withdraw id) →
    ((∀ pr, s.agree.proposal = some pr → pr.id = id.toNat → pr.proposer ≠ p) →
      exec (.withdraw p tag id) s = .next (s.answering p tag (.withdraw id) .noSuchProposal .blank)) ∧
    ∀ pr, s.agree.proposal = some pr → pr.id = id.toNat → pr.proposer = p →
      (pr.state = .applying →
        exec (.withdraw p tag id) s = .next (s.answering p tag (.withdraw id) .proposalPending .blank)) ∧
      ∀ w, pr.state = .opened w → exec (.withdraw p tag id) s = .next
        (({ s.answering p tag (.withdraw id) .ok .blank with agree := { s.agree with proposal := none } } : State).offerBoth
          (.outcome .withdrawnProposer pr.id pr.change))) ∧
  (∀ (s : State) (p : PortId) (tag id : Byte), s.refusal p (.withdraw id) = none →
    ((∀ pr, s.agree.proposal = some pr → pr.id = id.toNat → pr.proposer ≠ p) →
      s.present p tag (.withdraw id) = s.complete p tag .noSuchProposal .blank) ∧
    ∀ pr, s.agree.proposal = some pr → pr.id = id.toNat → pr.proposer = p →
      (pr.state = .applying → s.present p tag (.withdraw id) = s.complete p tag .proposalPending .blank) ∧
      ∀ w, pr.state = .opened w → s.present p tag (.withdraw id) =
        ({ s.complete p tag .ok .blank with agree := { s.agree with proposal := none } } : State).offerBoth
          (.outcome .withdrawnProposer pr.id pr.change)) ∧
  ∀ (s : State) (p : PortId) (id : Byte),
    s.refusal p (.withdraw id) ≠ some .mediaFault ∧ s.refusal p (.withdraw id) ≠ some .quiesced

/-- The WRITEs that wait for slots when a proposal enters APPLYING, or a QUIESCE is taken, are ended: REGION_CHANGING where they name a
region that is changing (R7, R40 step 3, R61), QUIESCED all of them (R61, R170); and presentation moves on in the same event (log
17). Here with the PROPOSE and the ANSWER that enter APPLYING, and the QUIESCE, whatever waits at the other port; a QUIESCE presented
later ends the waiting WRITEs of both. -/
def Obligations.WaitingWritesEndAtEntry : Prop :=
  (∀ (s : State) (p : PortId) (names : Fin 16 → Bool) (st : Status),
    ((s.port p).waitingWrite = none → s.endWaitingWrite p names st = s) ∧
    ∀ rec b c o d r, (s.port p).waitingWrite = some rec → rec.request = .write b c o d → regionOf b = some r →
      (names r = true → s.endWaitingWrite p names st = s.complete p rec.tag st .blank) ∧
      (names r = false → s.endWaitingWrite p names st = s)) ∧
  (∀ (s : State) (p : PortId) (pr : Proposal),
    let entered : State := { s.entered pr with agree := { (s.entered pr).agree with entering := some p } }
    s.enterApplying p pr = (entered.endWaitingWrite .A pr.change.targets .regionChanging).endWaitingWrite .B pr.change.targets
      .regionChanging) ∧
  (∀ (s : State) (p : PortId) (tag : Byte) (f : ProposeFields) (c : Change), Passes s p tag (.propose f) → changeOf f = some c →
    s.agree.proposal = none → s.validate c = none → s.agree.phase = .provisioning →
    let id := s.agree.nextId
    let done : State := { s.answering p tag (.propose f) .ok (.proposal id .applying) with
      agree := { s.agree with nextId := if 255 ≤ id then 1 else id + 1 } }
    exec (.propose p tag f) s =
      .next (done.enterApplying p { id := id, proposer := p, change := c, state := .applying }).moveOn) ∧
  (∀ (s : State) (p : PortId) (tag id : Byte) (pr : Proposal) (w : Nat), Passes s p tag (.answer id 1) →
    s.agree.proposal = some pr → pr.state = .opened w → pr.id = id.toNat → pr.proposer = p.other →
    exec (.answer p tag id 1) s = .next ((s.answering p tag (.answer id 1) .ok .blank).enterApplying p pr).moveOn) ∧
  (∀ (s : State) (p : PortId) (tag : Byte), Passes s p tag .quiesce → s.service.state = .ready → s.agree.proposal = none →
    s.link.media ≠ .fault → s.store.loaded = true →
    let entered : State := { s.taking p tag .quiesce .started with
      service := { s.service with state := .quiescing, quiesce := some ⟨[⟨p, tag, false⟩], 0, false, none⟩ }
      store := if s.staging.dirtyOrder = [] then { s.store with checkpointPending := true } else s.store }
    exec (.quiesce p tag) s = .next (entered.endWaitingWrite p.other (fun _ => true) .quiesced).moveOn) ∧
  ∀ (s : State) (p : PortId) (tag : Byte), s.refusal p .quiesce = none → s.service.state = .ready → s.agree.proposal = none →
    s.link.media ≠ .fault → s.store.loaded = true →
    let entered : State := { s.startRecord p tag with
      service := { s.service with state := .quiescing, quiesce := some ⟨[⟨p, tag, false⟩], 0, false, none⟩ }
      store := if s.staging.dirtyOrder = [] then { s.store with checkpointPending := true } else s.store }
    s.present p tag .quiesce =
      (entered.endWaitingWrite .A (fun _ => true) .quiesced).endWaitingWrite .B (fun _ => true) .quiesced

/-- QUIESCE (R169, R170): by the service state, the proposal and the media; one that is taken or joins is STARTED and waits.
RESUME by the service state (the table of R174). So are both where they are presented later, but for a QUIESCE taken in READY, which is
in the statement before. That it joins a list of any length, past the 16 of R168 too, is the model's choice (log 31), and the marker
`ended` of the record is the model's own (log 26). -/
def Obligations.QuiesceAndResumeByTheServiceState : Prop :=
  (∀ (s : State) (p : PortId) (tag : Byte), Passes s p tag .quiesce →
    let started := s.taking p tag .quiesce .started
    let record : Quiesce := { waiters := [⟨p, tag, false⟩], lost := 0, begun := false, ended := none }
    (s.service.state = .ready → s.agree.proposal ≠ none →
      exec (.quiesce p tag) s = .next (s.answering p tag .quiesce .proposalPending .blank)) ∧
    (s.service.state = .ready → s.agree.proposal = none → (s.link.media = .fault ∨ s.store.loaded = false) →
      exec (.quiesce p tag) s = .next (s.answering p tag .quiesce .mediaFault .blank)) ∧
    (s.service.state = .ready → s.agree.proposal = none → s.link.media ≠ .fault → s.store.loaded = true → NoWriteWaits s →
      exec (.quiesce p tag) s = .next { started with
        service := { s.service with state := .quiescing, quiesce := some record }
        store := if s.staging.dirtyOrder = [] then { s.store with checkpointPending := true } else s.store }) ∧
    (∀ q, s.service.state = .quiescing → s.service.quiesce = some q → exec (.quiesce p tag) s = .next { started with
      service := { s.service with quiesce := some { q with waiters := q.waiters ++ [⟨p, tag, false⟩] } } }) ∧
    (s.service.state = .quiesced → exec (.quiesce p tag) s = .next (s.answering p tag .quiesce .ok .blank))) ∧
  (∀ (s : State) (p : PortId) (tag : Byte), Passes s p tag .resume →
    (s.service.state = .ready → exec (.resume p tag) s = .next (s.answering p tag .resume .ok .blank)) ∧
    (s.service.state = .quiescing → exec (.resume p tag) s = .next (s.answering p tag .resume .quiesced .blank)) ∧
    (s.service.state = .quiesced → exec (.resume p tag) s = .next
      (({ s.answering p tag .resume .ok .blank with service := { s.service with state := .ready } } : State).offer
        p.other .serviceResumed))) ∧
  (∀ (s : State) (p : PortId) (tag : Byte), s.refusal p .quiesce = none →
    (s.service.state = .ready → s.agree.proposal ≠ none → s.present p tag .quiesce = s.complete p tag .proposalPending .blank) ∧
    (s.service.state = .ready → s.agree.proposal = none → (s.link.media = .fault ∨ s.store.loaded = false) →
      s.present p tag .quiesce = s.complete p tag .mediaFault .blank) ∧
    (∀ q, s.service.state = .quiescing → s.service.quiesce = some q → s.present p tag .quiesce = { s.startRecord p tag with
      service := { s.service with quiesce := some { q with waiters := q.waiters ++ [⟨p, tag, false⟩] } } }) ∧
    (s.service.state = .quiesced → s.present p tag .quiesce = s.complete p tag .ok .blank)) ∧
  ∀ (s : State) (p : PortId) (tag : Byte), s.refusal p .resume = none →
    (s.service.state = .ready → s.present p tag .resume = s.complete p tag .ok .blank) ∧
    (s.service.state = .quiescing → s.present p tag .resume = s.complete p tag .quiesced .blank) ∧
    (s.service.state = .quiesced → s.present p tag .resume =
      ({ s.complete p tag .ok .blank with service := { s.service with state := .ready } } : State).offer p.other .serviceResumed)

/-- MEDIA_RESTART (R148): OK while the media is ONLINE, joins a restart in progress, and in FAULT begins the restart with its
IDENTIFY; also where it is presented later. That it joins a list of any length, past the 16 of R138 too, is the model's choice (log
31). -/
def Obligations.MediaRestartBeginsOrJoins : Prop :=
  (∀ (s : State) (p : PortId) (tag : Byte), Passes s p tag .mediaRestart →
    let started := s.taking p tag .mediaRestart .started
    let waiters := s.link.restartWaiters ++ [(⟨p, tag, false⟩ : Waiter)]
    (s.link.restart = true →
      exec (.mediaRestart p tag) s = .next { started with link := { s.link with restartWaiters := waiters } }) ∧
    (s.link.restart = false → s.link.media = .online →
      exec (.mediaRestart p tag) s = .next (s.answering p tag .mediaRestart .ok .blank)) ∧
    (s.link.restart = false → s.link.media = .fault → exec (.mediaRestart p tag) s = .next { started with
      sched := { s.sched with job := some (.identify .identifying) }
      link := { s.link with restart := true, restartWaiters := waiters, timeouts := 0, flight := some .identify,
                            issueNo := if 255 ≤ s.link.issueNo then 1 else s.link.issueNo + 1, deadline := some 50 } })) ∧
  ∀ (s : State) (p : PortId) (tag : Byte), s.refusal p .mediaRestart = none →
    let waiters := s.link.restartWaiters ++ [(⟨p, tag, false⟩ : Waiter)]
    (s.link.restart = true → s.present p tag .mediaRestart =
      { s.startRecord p tag with link := { s.link with restartWaiters := waiters } }) ∧
    (s.link.restart = false → s.link.media = .online → s.present p tag .mediaRestart = s.complete p tag .ok .blank) ∧
    (s.link.restart = false → s.link.media = .fault → s.present p tag .mediaRestart = { s.startRecord p tag with
      sched := { s.sched with job := some (.identify .identifying) }
      link := { s.link with restart := true, restartWaiters := waiters, timeouts := 0, flight := some .identify,
                            issueNo := if 255 ≤ s.link.issueNo then 1 else s.link.issueNo + 1, deadline := some 50 } })

/-! ### Transactions on the wires (spec/09) -/

/-- Every well-formed request reads back from the bits of its frame, which is as long as R177 says (R177, R179, R186). -/
def Obligations.RequestFramesReadBack : Prop :=
  ∀ (tag : Byte) (q : Request), keptWhole q = true →
    submitVerdict (bitsOfBytes (requestFrame tag q)) = some (tag, q) ∧ (requestFrame tag q).length = frameLength q

/-- The row of a request is the SUBMIT transaction that carries its frame: type byte B1h and the bits of the frame (R175, R178). In
portions (log 10) the bits collect, SDO at 0, and nothing else happens until SEL# rises; the portion that completes the frame and
closes is the request's row on what has collected. -/
def Obligations.RequestRowIsItsFrameOnTheWires : Prop :=
  (∀ (s : State) (p : PortId) (tag : Byte) (q : Request), keptWhole q = true → Settled s → (s.port p).receiver = .idle →
    exec (.submitFrameDiscarded p { opens := true, sdi := bitsOfBytes (requestFrame tag q), closes := true }) s =
      exec (rowOf p tag q) s) ∧
  (∀ (s : State) (p : PortId) (sdi : List Bool), Settled s → (s.port p).receiver = .idle →
    exec (.submitFrameDiscarded p { opens := true, sdi := sdi, closes := false }) s = .next (s.openEvent.updPort p fun u =>
      { u with receiver := .receiving sdi, sdo := List.replicate (8 + sdi.length) false })) ∧
  ∀ (s : State) (p : PortId) (bits sdi : List Bool), Settled s → (s.port p).receiver = .receiving bits →
    exec (.submitFrameDiscarded p { opens := false, sdi := sdi, closes := false }) s = .next (s.openEvent.updPort p fun u =>
      { u with receiver := .receiving (bits ++ sdi), sdo := u.sdo ++ List.replicate sdi.length false }) ∧
    ∀ (tag : Byte) (q : Request), keptWhole q = true → bits ++ sdi = bitsOfBytes (requestFrame tag q) →
      (s.port p).sdo = List.replicate (8 + bits.length) false →
      exec (.submitFrameDiscarded p { opens := false, sdi := sdi, closes := true }) s =
        exec (rowOf p tag q) (s.updPort p fun u => { u with receiver := .idle })

/-- Damaged transactions set the frame-error flag and do nothing else: an unknown type byte, a type byte cut off after 1 to 7
bits, a clock after B4h, a SUBMIT frame that is truncated, over-long or fails its CRC. SDO is 0 at their clocks but for those after
B4h, where R175 gives it no value (R175, R176, R178, R183, log 11). In portions (log 10) too: after an unknown type byte, whose flag is
set at its eighth bit, the rest is ignored; a clock after B4h disarms the reset and SEL# rising sets the flag; a SUBMIT frame is judged
when SEL# rises; and the rest of a transaction in which cold reset ended is ignored without a flag. -/
def Obligations.DamagedTransactionSetsFrameErrorOnly : Prop :=
  let low := fun (n : Nat) => List.replicate n false
  let damaged := fun (sdi : List Bool) =>
    let bytes := bytesOfBits sdi
    let body := 16 + if bytes.getD 0 0 = 0x11 then 512 * (bytes.getD 3 0).toNat else 0
    sdi.length < 8 * 16 ∨ sdi.length ≠ 8 * (body + 2) ∨ bytes.drop body ≠ crc16Bytes (bytes.take body)
  let ended := fun (s : State) (p : PortId) (receiver : Receiver) (flag : Bool) (sdo : List Bool) =>
    s.openEvent.updPort p fun u =>
      { u with receiver := receiver, flags := { u.flags with frameError := u.flags.frameError || flag }, sdo := sdo }
  (∀ (s : State) (p : PortId), Settled s → (s.port p).receiver = .idle →
    (∀ b sdi closes, b ∉ [0xB1, 0xB2, 0xB3, 0xB4] →
      exec (.unknownTypeByte p b { opens := true, sdi := sdi, closes := closes }) s =
        .next (ended s p (if closes then .idle else .ignoring .unknownType) true (low (8 + sdi.length)))) ∧
    (exec (.truncatedTypeByte p []) s = .next (s.openEvent.updPort p fun u => { u with sdo := [] })) ∧
    (∀ bits, 1 ≤ bits.length → bits.length ≤ 7 →
      exec (.truncatedTypeByte p bits) s = .next (ended s p .idle true (low bits.length))) ∧
    (∀ sdi closes, sdi ≠ [] → ∃ free : List Bool, free.length = sdi.length ∧
      exec (.clockedPortReset p { opens := true, sdi := sdi, closes := closes }) s =
        .next { ended s p (if closes then .idle else .ignoring .clockedReset) closes (low 8 ++ free) with
          choices := s.choices + sdi.length }) ∧
    exec (.clockedPortReset p { opens := true, sdi := [], closes := false }) s = .next (ended s p .resetArmed false (low 8)) ∧
    ∀ sdi, damaged sdi → exec (.submitFrameDiscarded p { opens := true, sdi := sdi, closes := true }) s =
      .next (ended s p .idle true (low (8 + sdi.length)))) ∧
  ∀ (s : State) (p : PortId) (sdi : List Bool) (closes : Bool), Settled s →
    let wire := (s.port p).receiver
    let sdo := (s.port p).sdo
    (∀ b, wire = .ignoring .unknownType → exec (.unknownTypeByte p b { opens := false, sdi := sdi, closes := closes }) s =
      .next (ended s p (if closes then .idle else wire) false (sdo ++ low sdi.length))) ∧
    (wire = .ignoring .clockedReset ∨ wire = .ignoring .sinceColdReset ∨ wire = .resetArmed ∧ sdi ≠ [] →
      ∃ free : List Bool, free.length = sdi.length ∧
        exec (.clockedPortReset p { opens := false, sdi := sdi, closes := closes }) s =
          .next { ended s p (if closes then .idle else if wire = .resetArmed then .ignoring .clockedReset else wire)
            (closes && wire != .ignoring .sinceColdReset) (sdo ++ free) with choices := s.choices + sdi.length }) ∧
    ∀ bits, wire = .receiving bits → damaged (bits ++ sdi) →
      exec (.submitFrameDiscarded p { opens := false, sdi := sdi, closes := true }) s =
        .next (ended s p .idle true (sdo ++ low sdi.length))

/-- FETCH (R55, R180, R181): the head frame with its more-queued flag, then zeros; whole it leaves the queue, and a completion's
record the request list; cut short it stays; from an empty queue the EMPTY frame. SDO is 0 for the type byte (R175). In portions (log
10) it is the same: a FETCH left open goes on with the frame it chose, whatever has joined the queue since, and the head leaves with
the last bit of its CRC; after that, and for an EMPTY frame, further clocks change nothing but the shift position. -/
def Obligations.FetchDeliversTheHeadFrame : Prop :=
  (∀ (s : State) (p : PortId) (sdi : List Bool) (closes : Bool), Settled s → (s.port p).receiver = .idle →
    let u := s.port p
    let row := Instr.fetch p { opens := true, sdi := sdi, closes := closes }
    let low := List.replicate 8 false
    (∀ f rest, u.queue = f :: rest →
      let frame := frameBytes f (!rest.isEmpty)
      let bits := bitsOfBytes frame
      let receiver := if closes then Receiver.idle else .sending frame true sdi.length
      (sdi.length < bits.length →
        exec row s = .next (s.openEvent.setPort p { u with receiver := receiver, sdo := low ++ bits.take sdi.length })) ∧
      (bits.length ≤ sdi.length →
        let sdo := low ++ bits ++ List.replicate (sdi.length - bits.length) false
        (∀ n gap, f = .notice n gap →
          exec row s = .next (s.setPort p { u with queue := rest, receiver := receiver, sdo := sdo }).openEvent) ∧
        ∀ c, f = .completion c → exec row s = .next (s.setPort p
          { u with queue := rest, requests := u.requests.filter (·.tag != c.tag), receiver := receiver, sdo := sdo }).openEvent)) ∧
    (u.queue = [] →
      let frame := List.replicate 16 0 ++ crc16Bytes (List.replicate 16 0)
      let bits := bitsOfBytes frame
      let receiver := if closes then Receiver.idle else .sending frame false sdi.length
      exec row s = .next (s.openEvent.setPort p { u with
        receiver := receiver, sdo := low ++ bits.take sdi.length ++ List.replicate (sdi.length - bits.length) false }))) ∧
  ∀ (s : State) (p : PortId) (sdi : List Bool) (closes : Bool) (frame : List Byte) (queued : Bool) (position : Nat),
    Settled s → (s.port p).receiver = .sending frame queued position →
    let u := s.port p
    let bits := bitsOfBytes frame
    let after := position + sdi.length
    let receiver := if closes then Receiver.idle else .sending frame queued after
    let sdo := u.sdo ++ (bits.drop position).take sdi.length ++ List.replicate (sdi.length - (bits.length - position)) false
    let row := Instr.fetch p { opens := false, sdi := sdi, closes := closes }
    (queued = false ∨ bits.length ≤ position ∨ after < bits.length →
      exec row s = .next (s.openEvent.setPort p { u with receiver := receiver, sdo := sdo })) ∧
    ∀ f rest, queued = true → position < bits.length → bits.length ≤ after → u.queue = f :: rest →
      (∀ n gap, f = .notice n gap → exec row s = .next
        (s.setPort p { u with queue := rest, receiver := receiver, sdo := sdo }).openEvent) ∧
      ∀ c, f = .completion c → exec row s = .next (s.setPort p
        { u with queue := rest, requests := u.requests.filter (·.tag != c.tag), receiver := receiver, sdo := sdo }).openEvent

/-- PEEK (R182): four status bytes, then zeros; whole it clears the sticky flags it showed set, cut short it clears none. In portions
(log 10) each byte is that of the moment at which its first bit is shifted out, and the flags cleared are those that byte 4 showed. -/
def Obligations.PeekShowsAndClearsTheFlags : Prop :=
  ∀ (s : State) (p : PortId) (sdi : List Bool) (closes : Bool), Settled s →
    let u := s.port p
    let bit := fun (b : Bool) => if b then 1 else 0
    let service := match s.service.state with | .starting => 0 | .ready => 1 | .quiescing => 2 | .quiesced => 3
    let now : List Byte :=
      [BitVec.ofNat 8 (bit u.online + 2 * service), BitVec.ofNat 8 u.queue.length, BitVec.ofNat 8 u.requests.length,
       BitVec.ofNat 8 (bit u.flags.frameError + 2 * bit u.flags.overrun + 4 * bit u.flags.tagClash +
         8 * bit u.flags.noticesLost + 16 * bit (s.port p.other).online)]
    let noFlags : Sticky := ⟨false, false, false, false⟩
    let without := fun (f c : Sticky) => (⟨f.frameError && !c.frameError, f.overrun && !c.overrun, f.tagClash && !c.tagClash,
      f.noticesLost && !c.noticesLost⟩ : Sticky)
    (u.receiver = .idle →
      let row := Instr.peek p { opens := true, sdi := sdi, closes := closes }
      let receiver := if closes then Receiver.idle
        else .peeking (now.take (min 4 (sdi.length / 8 + 1))) sdi.length (if 24 ≤ sdi.length then u.flags else noFlags)
      let low := List.replicate 8 false
      (sdi.length < 32 → exec row s = .next (s.openEvent.setPort p
        { u with receiver := receiver, sdo := low ++ (bitsOfBytes now).take sdi.length })) ∧
      (32 ≤ sdi.length → exec row s = .next (s.openEvent.setPort p { u with
        receiver := receiver, flags := noFlags, sdo := low ++ bitsOfBytes now ++ List.replicate (sdi.length - 32) false }))) ∧
    ∀ taken position clear, u.receiver = .peeking taken position clear → taken.length = min 4 (position / 8 + 1) →
      let row := Instr.peek p { opens := false, sdi := sdi, closes := closes }
      let after := position + sdi.length
      let bytes := taken ++ now.drop taken.length
      let shown := if position < 24 ∧ 24 ≤ after then u.flags else clear
      let receiver := if closes then Receiver.idle else .peeking (bytes.take (min 4 (after / 8 + 1))) after shown
      let sdo := u.sdo ++ ((bitsOfBytes bytes).drop position).take sdi.length ++ List.replicate (sdi.length - (32 - position)) false
      (¬(position < 32 ∧ 32 ≤ after) → exec row s = .next (s.openEvent.setPort p { u with receiver := receiver, sdo := sdo })) ∧
      (position < 32 ∧ 32 ≤ after → exec row s = .next (s.openEvent.setPort p
        { u with receiver := receiver, flags := without u.flags shown, sdo := sdo }))

/-- PORT RESET (R71, R72, R184): not-started work of the port goes, started work goes on detached, the port unit is as after cold
reset, and an ONLINE port departs; the record of the bits on SDO, which is the model's own, is kept (log 11). Where the reset makes an
apply due, that PEER (OFFLINE) comes before the notices of the apply is the model's choice (log 33). A reset armed in an earlier portion
takes effect when SEL# rises (log 10). -/
def Obligations.PortResetEmptiesThePort : Prop :=
  (∀ (s : State) (p : PortId), Settled s → (s.port p).receiver = .idle →
    let waiter := fun (w : Waiter) => if w.port = p then { w with detached := true } else w
    let left : State := { s with
      sched := { s.sched.setWait p [] with
        job := match s.sched.job with
          | some (.read j) => some (.read (if j.port = p then { j with detached := true } else j))
          | other => other }
      staging := { s.staging with
        wtWaiters := s.staging.wtWaiters.map fun w => if w.port = p then { w with detached := true } else w
        flushWaiters := s.staging.flushWaiters.map fun w => if w.port = p then { w with detached := true } else w }
      link := { s.link with restartWaiters := s.link.restartWaiters.map waiter }
      service := { s.service with quiesce := s.service.quiesce.map fun q => { q with waiters := q.waiters.map waiter } } }
    let emptied := (left.setPort p
      { PortUnit.coldReset with online := (s.port p).online, sdo := List.replicate 8 false }).openEvent
    ((s.port p).online = false → exec (.portReset p) s = .next emptied) ∧
    ((s.port p).online = true → ∃ t, exec (.portReset p) s = .next t ∧ Departed emptied t p)) ∧
  ∀ (s : State) (p : PortId), Settled s → (s.port p).receiver = .resetArmed → (s.port p).sdo = List.replicate 8 false →
    exec (.clockedPortReset p { opens := false, sdi := [], closes := true }) s =
      exec (.portReset p) (s.updPort p fun u => { u with receiver := .idle })

/-- The output pins: while RESET# is low SDO is at high impedance, ATTN# and MSEL# are high and MSCK is low (R192); else ATTN# is low
while the response queue holds a frame (R185), and SDO is at high impedance while SEL# is high, 0 for the type byte, in SUBMIT and
after an unknown type byte, and carries the frame, then 0 (R175, R180, R182). The next clock reads the level that SDO has. -/
def Obligations.OutputsFollowTheState : Prop :=
  (∀ s : State, s.resetLow = true → s.pins =
    { sdoA := none, sdoB := none, attnA := false, attnB := false, mselHigh := true, msckHigh := false }) ∧
  (∀ s : State, s.resetLow = false → (s.pins.attnA = true ↔ s.portA.queue ≠ []) ∧ (s.pins.attnB = true ↔ s.portB.queue ≠ []) ∧
    s.pins.sdoA = s.sdoLevel .A ∧ s.pins.sdoB = s.sdoLevel .B ∧ s.pins.mselHigh = true) ∧
  ∀ (s : State) (p : PortId),
    let wire := (s.port p).receiver
    (wire = .idle → s.sdoLevel p = none) ∧
    (∀ bits, wire = .typing bits ∨ wire = .receiving bits ∨ wire = .ignoring .unknownType → s.sdoLevel p = some false) ∧
    (∀ frame queued position, wire = .sending frame queued position →
      (∀ bit, (bitsOfBytes frame)[position]? = some bit → s.sdoLevel p = some bit) ∧
      ((bitsOfBytes frame)[position]? = none → s.sdoLevel p = some false)) ∧
    (∀ bytes position clear, wire = .peeking bytes position clear →
      (∀ bit, (bitsOfBytes bytes)[position]? = some bit → s.sdoLevel p = some bit) ∧
      ((bitsOfBytes bytes)[position]? = none → s.sdoLevel p = some false)) ∧
    ∀ b level, s.sdoLevel p = some level → (∀ bits, wire ≠ .typing bits) →
      (∀ bytes position clear, wire = .peeking bytes position clear → position < 8 * bytes.length ∨ 4 ≤ bytes.length) →
      ((s.clockData p [b]).port p).sdo = (s.port p).sdo ++ [level]

/-- The bytes of a completion (R187 to R189), of a notice (R187, R190), of the INQUIRE payload (R189, R191), and of the messages to the
medium (R141), field by field; the codes of the statuses (R68). -/
def Obligations.FrameBytesFieldByField : Prop :=
  let byte := fun (n : Nat) => BitVec.ofNat 8 n
  let value := fun (n : Nat) => [byte (n / 65536), byte (n / 256), byte n]
  let word := fun (n : Nat) => [byte (n / 256), byte n]
  let bit := fun (b : Bool) => if b then 1 else 0
  let serviceNo := fun (x : ServiceState) => match x with | .starting => 0 | .ready => 1 | .quiescing => 2 | .quiesced => 3
  let mediaNo := fun (x : MediaState) => match x with | .unknown => 0 | .online => 1 | .fault => 2
  let phaseNo := fun (x : Phase) => match x with | .provisioning => 0 | .agreed => 1
  let regionNo := fun (x : RegionState) => match x with | .undefined => 0 | .defined => 1 | .fixed => 2
  let holderNo := fun (x : Option Hold) => match x with | none => 0 | some h => match h.holder with | .A => 1 | .B => 2
  let remaining := fun (x : Option Hold) => match x with | none => 0 | some h => h.remaining
  let attrsNo := fun (a : Attrs) => bit a.exclusive + 2 * bit a.peerRead + 4 * bit a.through + 8 * bit a.kept
  let proposalNo := fun (x : ProposalReport) => match x with | .none => 0 | .opened => 1 | .applying => 2
  let resultNo := fun (x : CheckpointResult) => match x with | .none => 0 | .good => 1 | .failed => 2
  (∀ (f : Frame) (more : Bool),
    let body := match f with | .completion c => completionBytes c more | .notice n gap => noticeBytes n gap more
    frameBytes f more = body ++ word (crc16 body).toNat) ∧
  (∀ (tag code : Byte) (st : Status) (more : Bool),
    let shown := fun (result : Result) => completionBytes { tag := tag, code := code, status := st, result := result } more
    let head := fun (b3 a b b10 c d id : Nat) => [0x01, tag, statusCode st, byte b3] ++ value a ++ value b ++
      [byte b10, byte c, byte d, byte id, byte (2 * bit more), code]
    shown .blank = head 0 0 0 0 0 0 0 ∧
    (∀ port service media loaded phase peer, shown (.attach port service media loaded phase peer) =
      head 0 0 0 (serviceNo service + 4 * mediaNo media + 16 * bit loaded + 32 * phaseNo phase + 64 * bit peer)
        (if port = .A then 0 else 1) 0 0) ∧
    (∀ good failing data, shown (.read good failing data) = head data.length good failing 0 0 0 0 ++ data.flatten) ∧
    (∀ n, shown (.lost n) = head 0 n 0 0 0 0 0) ∧ (∀ n, shown (.lease n) = head 0 0 0 0 n 0 0) ∧
    (∀ x, shown (.region x) = head (regionNo x.state + 4 * holderNo x.hold + 16 * bit x.changing) x.base x.length
      (attrsNo x.attrs) x.leasePeriod (remaining x.hold) 0) ∧
    (∀ id x, shown (.proposal id x) = head 0 0 0 (proposalNo x) 0 0 id) ∧
    ∀ q, shown (.inquire q) = head 0 0 0 0 0 0 0 ++
      ([byte (serviceNo q.service), byte (mediaNo q.media), byte (bit q.loaded), byte (phaseNo q.phase)] ++
        value q.p ++ value q.l ++ word q.s ++ word q.freeSpares ++ word q.inUseSpares ++ word q.retiredSpares ++
        [byte q.candidates, byte q.dirty, byte (bit q.forced), byte (bit q.checkpointPending), byte (resultNo q.lastResult)] ++
        [byte (q.generation / 16777216), byte (q.generation / 65536), byte (q.generation / 256), byte q.generation] ++
        [0, 0, 0, 0, 0])) ∧
  (∀ gap more : Bool,
    let head := fun (kind reason : Byte) (region : Nat) (a b : List Byte) (b10 c d id : Nat) =>
      [0x02, kind, reason, byte region] ++ a ++ b ++ [byte b10, byte c, byte d, byte id, byte (bit gap + 2 * bit more), 0]
    let shown := fun (n : Notice) => noticeBytes n gap more
    let z := value 0
    (∀ id w, (∀ r b l a k, shown (.proposal id (.define r b l a k) w) = head 1 0 r (value b) (value l) (attrsNo a + 16) k w id) ∧
      (∀ r, shown (.proposal id (.delete r) w) = head 1 0 r z z 32 0 w id) ∧
      (∀ r l, shown (.proposal id (.resize r l) w) = head 1 0 r z (value l) 48 0 w id) ∧
      (∀ r a k, shown (.proposal id (.reconfigure r a k) w) = head 1 0 r z z (attrsNo a + 64) k w id) ∧
      shown (.proposal id .resetTable w) = head 1 0 0 z z 80 0 w id ∧ shown (.proposal id .close w) = head 1 0 0 z z 96 0 w id ∧
      ∀ n, shown (.proposal id (.setSpares n) w) = head 1 0 0 z (value n) 112 0 w id) ∧
    (∀ id, ∀ x ∈ [(OutcomeReason.applied, (1 : Byte)), (.declined, 2), (.lapsedDeadline, 3), (.lapsedPeerAbsent, 4),
        (.lapsedTargetFixed, 5), (.withdrawnProposer, 6), (.withdrawnProposerOffline, 7)],
      (∀ r b l a k, shown (.outcome x.1 id (.define r b l a k)) = head 2 x.2 r z z 16 0 0 id) ∧
      (∀ r, shown (.outcome x.1 id (.delete r)) = head 2 x.2 r z z 32 0 0 id) ∧
      (∀ r l, shown (.outcome x.1 id (.resize r l)) = head 2 x.2 r z z 48 0 0 id) ∧
      (∀ r a k, shown (.outcome x.1 id (.reconfigure r a k)) = head 2 x.2 r z z 64 0 0 id) ∧
      shown (.outcome x.1 id .resetTable) = head 2 x.2 0 z z 80 0 0 id ∧ shown (.outcome x.1 id .close) = head 2 x.2 0 z z 96 0 0 id ∧
      ∀ n, shown (.outcome x.1 id (.setSpares n)) = head 2 x.2 0 z z 112 0 0 id) ∧
    (∀ r : Fin 16, shown (.holdLost .expired r) = head 3 1 r z z 0 0 0 0 ∧ shown (.holdLost .reconfigured r) = head 3 2 r z z 0 0 0 0 ∧
      shown (.holdLost .deleted r) = head 3 3 r z z 0 0 0 0 ∧ ∀ n, shown (.writeLost r n) = head 4 0 r (value n) z 0 0 0 0) ∧
    (∀ g, shown (.checkpointFailed g) =
      head 5 1 0 [byte (g / 256 / 65536), byte (g / 256 / 256), byte (g / 256)] [byte g, 0, 0] 0 0 0 0) ∧
    shown .mediaFault = head 6 1 0 z z 0 0 0 0 ∧ shown .mediaRestored = head 6 2 0 z z 0 0 0 0 ∧
    shown .serviceQuiesced = head 7 1 0 z z 0 0 0 0 ∧ shown .serviceResumed = head 7 2 0 z z 0 0 0 0 ∧
    shown .peerOnline = head 8 1 0 z z 0 0 0 0 ∧ shown .peerOffline = head 8 2 0 z z 0 0 0 0) ∧
  (∀ x ∈ [(Status.ok, (0x00 : Byte)), (.partialOk, 0x01), (.notReady, 0x02), (.notOnline, 0x03), (.badRequest, 0x04), (.noRegion, 0x05),
    (.outOfBounds, 0x06), (.noRight, 0x07), (.notHolder, 0x08), (.held, 0x09), (.regionChanging, 0x0A), (.leaseLost, 0x0B),
    (.proposalPending, 0x0C), (.noSuchProposal, 0x0D), (.invalidChange, 0x0E), (.targetFixed, 0x0F), (.peerAbsent, 0x10),
    (.wrongPhase, 0x11), (.quiesced, 0x12), (.mediaFault, 0x13), (.readError, 0x14), (.writeError, 0x15), (.portBusy, 0x16)],
    statusCode x.1 = x.2) ∧
  ∀ n : Nat,
    let sent := fun (body : List Byte) => body ++ word (crc16 body).toNat
    issueMessage .identify n = 0xA1 :: sent [1, byte n, 0, 0, 0] ∧
    (∀ pbn, issueMessage (.read pbn) n = 0xA1 :: sent ([2, byte n] ++ value pbn)) ∧
    (∀ pbn data, issueMessage (.write pbn data) n = 0xA1 :: sent ([3, byte n] ++ value pbn ++ data)) ∧
    pollMessage n = 0xA2 :: sent [byte n]

/-! ### RESET#, the tick and the part's own steps -/

/-- START_UP (R153, R165, R176): the timebase restarts and the identify job begins with its IDENTIFY; a port whose SEL# is low
waits for it to rise. With RESET# high already nothing happens (log 13). -/
def Obligations.StartUpBeginsIdentification : Prop :=
  ∀ (s : State) (lowA lowB : Bool),
    let waits := fun (low : Bool) => if low then Receiver.ignoring .sinceColdReset else .idle
    (s.resetLow = true → exec (.startUp lowA lowB) s = .next ({ s with
      resetLow := false
      portA := { s.portA with receiver := waits lowA }
      portB := { s.portB with receiver := waits lowB }
      service := { s.service with ticks := 0 }
      sched := { s.sched with job := some (.identify .identifying) }
      link := { s.link with timeouts := 0, flight := some .identify, deadline := some 50,
                            issueNo := if 255 ≤ s.link.issueNo then 1 else s.link.issueNo + 1 } } : State).openEvent) ∧
    (s.resetLow = false → exec (.startUp lowA lowB) s = .next s)

/-- The tick counts every lease and the window down (R14, R34). A lease that it brings to 0 is counted in the event of its own in which
it expires (log 21): the hold goes, the holder's not-started requests on the region complete LEASE_LOST, HOLD_LOST (EXPIRED) is
offered (R15, R16); likewise the window, at whose 0 the proposal lapses. A hold or a window that has begun again in between is counted
down; LEASE_EXPIRY and LAPSED_DEADLINE where nothing is left to count do nothing (log 13). Where the expiry makes an apply due, that
HOLD_LOST (EXPIRED) and the presentation that moves on come before the apply is the model's choice (log 30, log 33). -/
def Obligations.TickCountsDownAndExpires : Prop :=
  (∀ s : State, Settled s → exec .tick s = .next { s.openEvent.mapRegions fun _ x =>
      match x.hold with
      | some h => if 2 ≤ h.remaining then { x with hold := some { h with remaining := h.remaining - 1 } } else x
      | none => x with
    agree := { s.agree with proposal := s.agree.proposal.map fun pr =>
      match pr.state with
      | .opened w => if 2 ≤ w then { pr with state := .opened (w - 1) } else pr
      | .applying => pr }
    service := { s.service with ticks := s.service.ticks + 1 }
    ticking :=
      { leases := (List.finRange 16).filter fun r => match (s.region r).hold with
          | some h => decide (h.remaining ≤ 1)
          | none => false
        window := match s.agree.proposal with
          | some pr => match pr.state with
            | .opened w => decide (w ≤ 1)
            | .applying => false
          | none => false } }) ∧
  (∀ (s : State) (r : Fin 16), s.firstOwed 6 = [] →
    let counted : State := { s.openEvent with ticking := { s.ticking with leases := s.ticking.leases.erase r } }
    (r ∉ s.ticking.leases → exec (.leaseExpiry r) s = .next s) ∧
    (r ∈ s.ticking.leases → (s.region r).hold = none → exec (.leaseExpiry r) s = .next counted) ∧
    ∀ h, r ∈ s.ticking.leases → (s.region r).hold = some h →
      let p := h.holder
      let gone := (s.sched.wait p).filter (·.region == r)
      let dropped : State := { counted.setRegion r { s.region r with hold := none } with
        sched := s.sched.setWait p ((s.sched.wait p).filter (·.region != r)) }
      let ended := gone.foldl (fun t w => t.complete p w.tag .leaseLost .blank) dropped
      (2 ≤ h.remaining → exec (.leaseExpiry r) s =
        .next (counted.setRegion r { s.region r with hold := some { h with remaining := h.remaining - 1 } })) ∧
      (h.remaining ≤ 1 → (s.port p).waitingWrite = none →
        exec (.leaseExpiry r) s = .next (ended.offer p (.holdLost .expired r)).moveOn) ∧
      ∀ rec b c o d q, h.remaining ≤ 1 → (s.port p).waitingWrite = some rec → (∀ w ∈ s.sched.wait p, w.tag ≠ rec.tag) →
        rec.request = .write b c o d → regionOf b = some q →
        (q ≠ r → exec (.leaseExpiry r) s = .next (ended.offer p (.holdLost .expired r)).moveOn) ∧
        (q = r → exec (.leaseExpiry r) s =
          .next ((ended.complete p rec.tag .leaseLost .blank).offer p (.holdLost .expired r)).moveOn)) ∧
  ∀ s : State, s.firstOwed 6 = [] →
    let counted : State := { s.openEvent with ticking := { s.ticking with window := false } }
    (s.ticking.window = false → exec .lapsedDeadline s = .next s) ∧
    (s.ticking.window = true → (∀ pr, s.agree.proposal = some pr → pr.state = .applying) →
      exec .lapsedDeadline s = .next counted) ∧
    ∀ pr w, s.ticking.window = true → s.agree.proposal = some pr → pr.state = .opened w →
      (w ≤ 1 → exec .lapsedDeadline s = .next (({ counted with agree := { s.agree with proposal := none } } : State).offerBoth
        (.outcome .lapsedDeadline pr.id pr.change))) ∧
      (2 ≤ w → exec .lapsedDeadline s =
        .next { counted with agree := { s.agree with proposal := some { pr with state := .opened (w - 1) } } })

/-- WRITE_PLACEMENT (R77, R78, R79, R81, R82): the waiting WRITE of a port is placed in the first event in which slots can be had
for its misses, and presentation moves on; until then it waits. That the port's next requests are presented before the other port's
waiting WRITE is judged again is the model's choice (log 34), and so is that they are before an apply that is due (log 30). -/
def Obligations.WaitingWriteIsPlaced : Prop :=
  ∀ (s : State) (p : PortId) (rec : Record) (b c : Byte) (o : Word24) (d : List Byte) (r : Fin 16),
    s.firstOwed 4 = [] → (s.port p).waitingWrite = some rec → rec.request = .write b c o d → regionOf b = some r →
    let lbns := (List.range c.toNat).map ((s.region r).base + o.toNat + ·)
    let misses := lbns.filter fun n => (s.staging.find n).isNone
    let had := s.staging.available (lbns.filterMap s.staging.find)
    let through := (s.region r).attrs.through = true ∨ s.staging.forced = true
    let placed : Staging := s.staging.place lbns r d
    let started := (s.startRecord p rec.tag).setRegion r ((s.region r).renewedFor p)
    let waiter : WtWaiter :=
      { port := p, tag := rec.tag, detached := false, region := r, position := s.staging.writeOrder + 1,
        entries := (s.staging.slotsFor lbns).map fun x => ⟨x.2, .awaiting⟩ }
    (misses.length ≤ had.length → ¬through → exec (.writePlacement p) s =
      .next (({ started with staging := placed } : State).complete p rec.tag .ok .blank).moveOn) ∧
    (misses.length ≤ had.length → through → exec (.writePlacement p) s =
      .next ({ started with staging := { placed with wtWaiters := s.staging.wtWaiters ++ [waiter] } } : State).moveOn) ∧
    (had.length < misses.length → exec (.writePlacement p) s = .next s)

/-- WRITE_THROUGH_COMPLETION and FLUSH_COMPLETION (R82, R94): a waiter that waits for nothing any more is removed and its request
completes, a detached one's completion discarded; one that still waits stays. -/
def Obligations.WaitersComplete : Prop :=
  (∀ (s : State) (i : Nat) (w : WtWaiter), s.staging.wtWaiters[i]? = some w →
    let removed : State := { s with staging := { s.staging with wtWaiters := s.staging.wtWaiters.eraseIdx i } }
    ((∀ e ∈ w.entries, e.state = .satisfied) →
      exec (.writeThroughCompletion i) s = .next (removed.finish w.port w.tag w.detached .ok .blank)) ∧
    ((∀ e ∈ w.entries, e.state ≠ .awaiting) → (∃ e ∈ w.entries, e.state = .lost) →
      exec (.writeThroughCompletion i) s = .next (removed.finish w.port w.tag w.detached .writeError .blank)) ∧
    ((∃ e ∈ w.entries, e.state = .awaiting) → exec (.writeThroughCompletion i) s = .next s)) ∧
  ∀ (s : State) (i : Nat) (w : FlushWaiter), s.firstOwed 2 = [] → s.staging.flushWaiters[i]? = some w →
    let covered := ∃ j d, (s.slot j).unflushed? = some d ∧ (w.scope = none ∨ w.scope = some d.region) ∧ d.firstDirty ≤ w.mark
    let removed : State := { s with staging := { s.staging with flushWaiters := s.staging.flushWaiters.eraseIdx i } }
    (¬covered → w.lost = 0 → exec (.flushCompletion i) s = .next (removed.finish w.port w.tag w.detached .ok (.lost 0))) ∧
    (¬covered → w.lost ≠ 0 →
      exec (.flushCompletion i) s = .next (removed.finish w.port w.tag w.detached .partialOk (.lost w.lost))) ∧
    (covered → exec (.flushCompletion i) s = .next s)

/-- APPLY (R41, R43 to R46, R96): when the drain is over the proposal is applied, and not before; every CLEAN slot of the drain
scope is freed, and the scope is dropped. The zeros that a record gets as it becomes UNDEFINED, in fields that R1 gives no meaning, are
the model's choice (log 9). -/
def Obligations.ApplyWhenTheDrainIsOver : Prop :=
  (∀ (s : State) (pr : Proposal), s.firstOwed 3 = [] → s.agree.proposal = some pr → pr.state = .applying →
    s.agree.entering = none →
    (DrainOver s pr.change → ∃ t, exec .apply s = .next t ∧ Applied s t pr) ∧
    (¬DrainOver s pr.change → exec .apply s = .next s)) ∧
  ∀ b : Staging, b.cleanOrder.Nodup → (∀ i ∈ b.cleanOrder, i ∉ b.dirtyOrder) →
    let t := b.freeLeaving
    (∀ i : SlotId, b.leaves i → t.slots[i] = .free) ∧ (∀ i : SlotId, ¬b.leaves i → t.slots[i] = b.slots[i]) ∧
    t.cleanOrder.Sublist b.cleanOrder ∧ (∀ i, i ∈ t.cleanOrder ↔ i ∈ b.cleanOrder ∧ ¬b.leaves i) ∧
    t = { b with slots := t.slots, cleanOrder := t.cleanOrder, drain := .nothing }

/-- QUIESCE_END (R172): every waiter completes OK, or PARTIAL after a loss or a failed checkpoint; the service is QUIESCED;
SERVICE (QUIESCED) is offered to each port without a live waiter. -/
def Obligations.QuiesceEndsWithItsCheckpoint : Prop :=
  ∀ (s : State) (q : Quiesce), s.firstOwed 1 = [] → s.service.quiesce = some q →
    (q.ended = none → exec .quiesceEnd s = .next s) ∧
    ∀ good, q.ended = some good →
      let live := fun p => ∃ w ∈ q.waiters, w.port = p ∧ w.detached = false
      let done : State := { s.finishAll q.waiters (if good = true ∧ q.lost = 0 then .ok else .partialOk) with
        service := { s.service with state := .quiesced, quiesce := none } }
      (live .A → live .B → exec .quiesceEnd s = .next done) ∧
      (live .A → ¬live .B → exec .quiesceEnd s = .next (done.offer .B .serviceQuiesced)) ∧
      (¬live .A → live .B → exec .quiesceEnd s = .next (done.offer .A .serviceQuiesced)) ∧
      (¬live .A → ¬live .B → exec .quiesceEnd s = .next (done.offerBoth .serviceQuiesced))

/-! ### The media scheduler and its jobs (spec/04 to spec/08) -/

/-- Which slots are urgent (R84), pressure mode (R85), which slot is offered, and the order of the jobs (R123, R124). -/
def Obligations.JobsGoInOrder : Prop :=
  (∀ (s : State) (i : SlotId) (d : Dirty), s.urgent i d = true ↔
    (∃ w ∈ s.staging.wtWaiters, ∃ e ∈ w.entries, e.slot = i ∧ e.state = .awaiting) ∨ s.staging.drain.contains d.lbn = true ∨
    (∃ w ∈ s.staging.flushWaiters, (w.scope = none ∨ w.scope = some d.region) ∧ d.firstDirty ≤ w.mark) ∨
    s.service.state = .quiescing ∨ s.staging.pressure = true ∨ s.staging.forced = true) ∧
  (∀ b : Staging,
    (b.pressure = false → (b.judgePressure.pressure = true ↔ 48 ≤ b.dirtyOrder.length)) ∧
    (b.pressure = true → (b.judgePressure.pressure = true ↔ 41 ≤ b.dirtyOrder.length))) ∧
  (∀ s : State,
    let dirty := fun i => ∃ d, s.slot i = .dirty d
    let urgent := fun i => ∃ d, s.slot i = .dirty d ∧ s.urgent i d = true
    (∀ i before after, s.staging.dirtyOrder = before ++ i :: after →
      (dirty i → (∀ j ∈ before, ¬dirty j) → s.backgroundOffer = some i) ∧
      (urgent i → (∀ j ∈ before, ¬urgent j) → s.urgentOffer = some i)) ∧
    ((∀ i ∈ s.staging.dirtyOrder, ¬dirty i) → s.backgroundOffer = none) ∧
    ((∀ i ∈ s.staging.dirtyOrder, ¬urgent i) → s.urgentOffer = none)) ∧
  ∀ s : State,
    let pending := s.store.checkpointPending
    let list := s.sched.wait
    let last := s.sched.lastServed
    (pending = true → s.sched.yield = false → s.chooseJob = some .checkpoint) ∧
    (¬(pending = true ∧ s.sched.yield = false) →
      (∀ i, s.urgentOffer = some i → s.chooseJob = some (.flush i)) ∧
      (s.urgentOffer = none →
        (list last.other ≠ [] → s.chooseJob = some (.read last.other)) ∧
        (list last.other = [] → list last ≠ [] → s.chooseJob = some (.read last)) ∧
        (list last.other = [] → list last = [] →
          (∀ i, s.backgroundOffer = some i → s.chooseJob = some (.flush i)) ∧
          (s.backgroundOffer = none → s.chooseJob = if pending then some .checkpoint else none))))

/-- READ_JOB_BEGIN (R124, R127): the head of the list becomes STARTED, its port last-served, and its first missed block is read. -/
def Obligations.ReadJobBeginsForTheHead : Prop :=
  ∀ (s : State) (p : PortId) (w : WaitingRead) (rest : List WaitingRead), CanBegin s → s.chooseJob = some (.read p) →
    s.sched.wait p = w :: rest →
    let missed := (List.range w.area.length).filter fun k => w.area[k]? == some none
    let job : ReadJob := { port := p, detached := false, read := w, todo := missed, attempt := 1 }
    exec .readJobBegin s = .next ((({ s with sched :=
      { s.sched.setWait p rest with lastServed := p, yield := false, job := some (.read job) } } : State).setRecord
        p w.tag .started).issue (.read (s.blockMap.translate (w.lbn + missed.headD 0))))

/-- READ_JOB_ANSWER (R111, R127 to R129): by the answer and the attempt count; a block that ends CORRECTED asks for relocation,
one that ends UNRECOVERABLE is watched and ends the job READ_ERROR. -/
def Obligations.ReadJobGoesByItsAnswers : Prop :=
  ∀ (s : State) (issue : Byte) (j : ReadJob) (n : Nat) (rest : List Nat), Expected s issue → s.sched.job = some (.read j) →
    j.todo = n :: rest →
    let lbn := j.read.lbn + n
    let going := fun (t : State) (k : ReadJob) => ({ t with sched := { t.sched with job := some (.read k) } } : State)
    let ended := fun (t : State) (data : Block) =>
      let area := j.read.area.set n (some data)
      match rest with
      | [] => ({ t with sched := { t.sched with job := none } } : State).finish j.port j.read.tag j.detached .ok
          (.read j.read.count 0 (area.filterMap id))
      | m :: _ => (going t { j with read := { j.read with area := area }, todo := rest, attempt := 1 }).issue
          (.read (t.blockMap.translate (j.read.lbn + m)))
    (∀ data, data.length = 512 →
      (j.attempt = 1 → exec (.readJobAnswer issue (.good data)) s = .next (ended s.heard data)) ∧
      (2 ≤ j.attempt → exec (.readJobAnswer issue (.good data)) s =
        .next (ended (s.heard.relocate lbn j.read.region data) data)) ∧
      exec (.readJobAnswer issue (.corrected data)) s = .next (ended (s.heard.relocate lbn j.read.region data) data)) ∧
    (j.attempt < 3 → exec (.readJobAnswer issue .unrecoverable) s =
      .next ((going s.heard { j with attempt := j.attempt + 1 }).issue (.read (s.blockMap.translate lbn)))) ∧
    (3 ≤ j.attempt → exec (.readJobAnswer issue .unrecoverable) s =
      .next (({ s.heard with
        blockMap := s.blockMap.addCandidate lbn, sched := { s.sched with job := none } } : State).finish
          j.port j.read.tag j.detached .readError (.read n (j.read.offset + n) ((j.read.area.take n).filterMap id))))

/-- Relocation (the table of R95). -/
def Obligations.RelocationMarksOrTakesASlot : Prop :=
  ∀ (s : State) (lbn : Nat) (r : Fin 16) (data : Block),
    let b := s.staging
    let filled := fun (i : SlotId) (region : Fin 16) (block : Block) =>
      { s with staging := ({ b with
          slots := b.slots.set i (.dirty { lbn := lbn, region := region, firstDirty := b.writeOrder, lastWrite := b.writeOrder,
                                           relocate := true, data := block })
          dirtyOrder := b.dirtyOrder ++ [i], cleanOrder := b.cleanOrder.erase i } : Staging).judgePressure }
    (∀ i d, b.find lbn = some i → b.slots[i] = .dirty d →
      s.relocate lbn r data = { s with staging := { b with slots := b.slots.set i (.dirty { d with relocate := true }) } }) ∧
    (∀ i d fw, b.find lbn = some i → b.slots[i] = .flushing d fw →
      s.relocate lbn r data =
        { s with staging := { b with slots := b.slots.set i (.flushing { d with relocate := true } fw) } }) ∧
    (∀ i l q x, b.find lbn = some i → b.slots[i] = .clean l q x → s.relocate lbn r data = filled i q x) ∧
    (∀ i rest, b.find lbn = none → b.available [] = i :: rest → s.relocate lbn r data = filled i r data) ∧
    (b.find lbn = none → b.available [] = [] →
      s.relocate lbn r data = { s with blockMap := s.blockMap.addCandidate lbn })

/-- Translation and allocation (R100, R102): an LBN lives on the spare IN_USE for it, else at home; the FREE entry with the lowest
index is taken. The candidate list, when an LBN is added (R112). -/
def Obligations.BlockMapTranslatesAndWatches : Prop :=
  ∀ (m : BlockMap) (lbn : Nat),
    (SparesLawful m → ∀ i, m.spares[i]? = some (.inUse lbn) → m.translate lbn = m.p - m.s + i) ∧
    ((∀ e ∈ m.spares, e ≠ .inUse lbn) → m.translate lbn = 24 + lbn) ∧
    (∀ k, FirstFree m k → m.allocate = some k) ∧ (NoneFree m → m.allocate = none) ∧
    (lbn ∈ m.candidates → m.addCandidate lbn = m) ∧
    (lbn ∉ m.candidates → 32 ≤ m.candidates.length →
      m.addCandidate lbn = { m with candidates := m.candidates.tail ++ [lbn] }) ∧
    (lbn ∉ m.candidates → m.candidates.length < 32 →
      m.addCandidate lbn = { m with candidates := m.candidates ++ [lbn] })

/-- FLUSH_JOB_BEGIN (R87, R104, R130): the slot becomes FLUSHING, the relocate flag goes with the job, and the first target is a
FREE spare for a relocation, else the current mapping. -/
def Obligations.FlushJobBeginsOnItsSlot : Prop :=
  ∀ (s : State) (i : SlotId) (d : Dirty), CanBegin s → s.chooseJob = some (.flush i) → s.slot i = .dirty d →
    let begun := fun (target : Target) (tried : Nat) (m : BlockMap) => ({ s with
      staging := { s.staging with slots := s.staging.slots.set i (.flushing { d with relocate := false } d.lastWrite) }
      blockMap := m
      sched := { s.sched with yield := false, job := some (.flush
        { slot := i, lbn := d.lbn, data := d.data, relocate := d.relocate, target := target, tried := tried, verify := false }) } } :
      State)
    let current := s.blockMap.translate d.lbn
    (d.relocate = false → exec .flushJobBegin s = .next ((begun .current 0 s.blockMap).issue (.write current d.data))) ∧
    (∀ k, d.relocate = true → FirstFree s.blockMap k →
      exec .flushJobBegin s = .next ((begun (.spare k) 1 s.blockMap).issue (.write (s.blockMap.p - s.blockMap.s + k) d.data))) ∧
    (d.relocate = true → NoneFree s.blockMap →
      exec .flushJobBegin s = .next ((begun .current 0 (s.blockMap.addCandidate d.lbn)).issue (.write current d.data)))

/-- FLUSH_WRITE_ANSWER, VERIFY_ANSWER and SPARE_WRITE_ANSWER (R105 to R109, R114, R115): written, verified, moved to a spare, or
lost. -/
def Obligations.FlushJobGoesByItsAnswers : Prop :=
  ∀ (s : State) (issue : Byte) (j : FlushJob), Expected s issue → s.sched.job = some (.flush j) →
    let idle : State := { s.heard with sched := { s.sched with job := none } }
    let uncandidate : BlockMap → BlockMap := fun m => { m with candidates := m.candidates.erase j.lbn }
    (j.target = .current → j.verify = false →
      (j.lbn ∉ s.blockMap.candidates → exec (.flushWriteAnswer issue .good) s = .next (idle.flushWritten j.slot)) ∧
      (j.lbn ∈ s.blockMap.candidates → exec (.flushWriteAnswer issue .good) s =
        .next (({ s.heard with sched := { s.sched with job := some (.flush { j with verify := true }) } } : State).issue
          (.read (s.blockMap.translate j.lbn)))) ∧
      ∃ t, exec (.flushWriteAnswer issue .failed) s = .next t ∧ NextSpareTried s.heard t j) ∧
    (j.target = .current → j.verify = true →
      (∀ data, data.length = 512 → exec (.verifyAnswer issue (.good data)) s =
        .next (({ idle with blockMap := uncandidate s.blockMap } : State).flushWritten j.slot)) ∧
      ∀ a, (a = .unrecoverable ∨ ∃ data, a = .corrected data ∧ data.length = 512) →
        ∃ t, exec (.verifyAnswer issue a) s = .next t ∧ NextSpareTried s.heard t j) ∧
    ∀ k, j.target = .spare k →
      let moved := idle.withSpares
        ((s.blockMap.spares.map fun e => if e = .inUse j.lbn then .retired else e).set k (.inUse j.lbn))
      exec (.spareWriteAnswer issue .good) s =
        .next (({ moved with blockMap := uncandidate moved.blockMap } : State).flushWritten j.slot) ∧
      ∃ t, exec (.spareWriteAnswer issue .failed) s = .next t ∧
        NextSpareTried (s.heard.withSpares (s.blockMap.spares.set k .retired)) t j

/-- The outcomes of a flush at its slot: written, CLEAN or DIRTY again (R88); lost, counted, and reported once (R89, R90); and the
checkpoint that a quiesce requests when no slot is DIRTY or FLUSHING any more (R171). -/
def Obligations.FlushOutcomesReachTheSlot : Prop :=
  (∀ (s : State) (i : SlotId) (d : Dirty) (fw : Nat), s.slot i = .flushing d fw →
    let b := s.staging
    let entries := fun (test : WtWaiter → Bool) (st : EntryState) => b.wtWaiters.map fun w =>
      { w with entries := w.entries.map fun e => if e.slot = i ∧ e.state = .awaiting ∧ test w = true then { e with state := st } else e }
    let satisfied : Staging := { b with wtWaiters := entries (fun w => decide (w.position ≤ fw)) .satisfied }
    (d.lastWrite = fw → d.relocate = false → s.flushWritten i = ({ s with staging := ({ satisfied with
      slots := b.slots.set i (.clean d.lbn d.region d.data)
      dirtyOrder := b.dirtyOrder.erase i, cleanOrder := b.cleanOrder ++ [i] } : Staging).judgePressure } : State).noteRest) ∧
    (d.lastWrite ≠ fw ∨ d.relocate = true → s.flushWritten i =
      { s with staging := ({ satisfied with slots := b.slots.set i (.dirty d) } : Staging).judgePressure }) ∧
    let covered := ∃ w ∈ b.wtWaiters, w.detached = false ∧ ∃ e ∈ w.entries, e.slot = i ∧ e.state = .awaiting
    let freed : State := { s with
      staging := ({ b with
        slots := b.slots.set i .free, dirtyOrder := b.dirtyOrder.erase i, cleanOrder := b.cleanOrder.erase i
        wtWaiters := entries (fun _ => true) .lost
        flushWaiters := b.flushWaiters.map fun w =>
          if (w.scope = none ∨ w.scope = some d.region) ∧ d.firstDirty ≤ w.mark then { w with lost := min (w.lost + 1) 0xFFFFFF }
          else w } : Staging).judgePressure
      service := { s.service with quiesce := s.service.quiesce.map fun q => { q with lost := min (q.lost + 1) 255 } } }
    (covered → s.flushLost i = freed.noteRest) ∧
    (¬covered → s.flushLost i = (freed.offerBoth (.writeLost d.region (d.lbn - (s.region d.region).base))).noteRest)) ∧
  ∀ s : State,
    (∀ q, s.service.quiesce = some q → s.staging.dirtyOrder = [] → s.noteRest = { s with
      store := { s.store with checkpointPending := true }
      service := { s.service with quiesce := some { q with begun := false } } }) ∧
    (s.service.quiesce = none ∨ s.staging.dirtyOrder ≠ [] → s.noteRest = s)

/-- CHECKPOINT_JOB_BEGIN (R132, R157, R159, R161, R171): the snapshot, the copy that is not the newest, the next generation, the
first write; at the highest generation the job ends failed at once, and the end that ends a quiesce stands in a marker of the model's
own (log 26). What the snapshot takes. -/
def Obligations.CheckpointJobBegins : Prop :=
  (∀ s : State, CanBegin s → s.chooseJob = some .checkpoint →
    (s.store.generation ≠ 0xFFFFFFFF → ∀ copy generation,
      (copy, generation) = (match s.store.newest with
        | none => (CopyId.copy0, 1)
        | some .copy0 => (.copy1, s.store.generation + 1)
        | some .copy1 => (.copy0, s.store.generation + 1)) →
      let job : CheckpointJob := { snapshot := s.snapshot, copy := copy, generation := generation, written := 0 }
      exec .checkpointJobBegin s = .next (({ s with
        store := { s.store with checkpointPending := false }
        sched := { s.sched with yield := false, job := some (.checkpoint job) }
        service := { s.service with quiesce := s.service.quiesce.map fun q => { q with begun := true } } } : State).issue
          (.write (if copy = .copy0 then 0 else 12) (copyBlock s.snapshot generation 0)))) ∧
    (s.store.generation = 0xFFFFFFFF → exec .checkpointJobBegin s = .next (({ s with
      store := { s.store with checkpointPending := false, lastResult := .failed }
      sched := { s.sched with yield := true }
      service := { s.service with quiesce := s.service.quiesce.map fun q =>
        { q with begun := true, ended := if s.staging.dirtyOrder = [] then some false else q.ended } } } : State).offerBoth
          (.checkpointFailed 0)))) ∧
  ∀ s : State, s.snapshot.phase = s.agree.phase ∧ s.snapshot.p = s.blockMap.p ∧ s.snapshot.s = s.blockMap.s ∧
    s.snapshot.spares = s.blockMap.spares ∧ (s.snapshot.regions.map (·.id)).Pairwise (· < ·) ∧
    ∀ d, d ∈ s.snapshot.regions ↔ ∃ r, let x := s.region r
      x.state ≠ .undefined ∧ x.attrs.kept = true ∧
        d = ⟨r.val, x.base, x.length, x.attrs.exclusive, x.attrs.peerRead, x.attrs.through, x.leasePeriod⟩

/-- CHECKPOINT_WRITE_ANSWER (R132, R160, R161, R172): the next block; after the twelfth the copy is the newest; a failed write
fails the job, with its notice (R161); and the end that ends a quiesce, in a marker of the model's own (log 26). -/
def Obligations.CheckpointGoesByItsAnswers : Prop :=
  ∀ (s : State) (issue : Byte) (c : CheckpointJob), Expected s issue → s.sched.job = some (.checkpoint c) →
    let quiesce := fun (good : Bool) => s.service.quiesce.map fun q =>
      { q with ended := if q.begun = true ∧ s.staging.dirtyOrder = [] then some good else q.ended }
    (c.written + 1 < 12 → exec (.checkpointWriteAnswer issue .good) s =
      .next (({ s.heard with sched := { s.sched with job := some (.checkpoint { c with written := c.written + 1 }) } } : State).issue
        (.write ((if c.copy = .copy0 then 0 else 12) + (c.written + 1)) (copyBlock c.snapshot c.generation (c.written + 1))))) ∧
    (12 ≤ c.written + 1 → exec (.checkpointWriteAnswer issue .good) s = .next { s.heard with
      store := { s.store with newest := some c.copy, generation := c.generation, lastResult := .good }
      sched := { s.sched with job := none }
      service := { s.service with quiesce := quiesce true } }) ∧
    exec (.checkpointWriteAnswer issue .failed) s = .next (({ s.heard with
      store := { s.store with lastResult := .failed, checkpointPending := true }
      sched := { s.sched with job := none, yield := true }
      service := { s.service with quiesce := quiesce false } } : State).offerBoth (.checkpointFailed c.generation))

/-- IDENTIFY_ANSWER (R133, R144): accepted geometry sets the media ONLINE and starts the load where the table is UNLOADED; refused
geometry leaves FAULT; either end of the job is told (R149, R151, R153). LOAD_READ_ANSWER (R133): three attempts a block, an
UNRECOVERABLE block does not stop the job, and after the 24th the tables are loaded and the job ends. -/
def Obligations.IdentifyJobGoesByItsAnswers : Prop :=
  (∀ (s : State) (issue : Byte) (n : BitVec 32) (size : BitVec 16), Expected s issue →
    s.sched.job = some (.identify .identifying) →
    let accepted := size.toNat = 512 ∧ 1024 ≤ n.toNat ∧ n.toNat ≤ 1048576 ∧ (s.store.loaded = true → n.toNat = s.blockMap.p)
    (accepted → s.store.loaded = false → exec (.identifyAnswer issue n size) s = .next (({ s.heard with
      sched := { s.sched with job := some (.identify (.loading [] 1)) }
      link := { s.heard.link with media := .online, identified := some n.toNat } } : State).issue (.read 0))) ∧
    (accepted → s.store.loaded = true → exec (.identifyAnswer issue n size) s = .next (s.heard.identifyEnded .online true)) ∧
    (¬accepted → exec (.identifyAnswer issue n size) s = .next (s.heard.identifyEnded .fault false))) ∧
  ∀ (s : State) (issue : Byte) (blocks : List (Option Block)) (attempt : Nat), Expected s issue →
    s.sched.job = some (.identify (.loading blocks attempt)) →
    let reading := fun (xs : List (Option Block)) (count : Nat) =>
      ({ s.heard with sched := { s.sched with job := some (.identify (.loading xs count)) } } : State).issue (.read xs.length)
    let ended := fun (x : Option Block) =>
      if blocks.length + 1 < 24 then reading (blocks ++ [x]) 1
      else (s.heard.loadTables (blocks ++ [x])).identifyEnded s.link.media true
    (∀ data, data.length = 512 → exec (.loadReadAnswer issue (.good data)) s = .next (ended (some data)) ∧
      exec (.loadReadAnswer issue (.corrected data)) s = .next (ended (some data))) ∧
    (attempt < 3 → exec (.loadReadAnswer issue .unrecoverable) s = .next (reading blocks (attempt + 1))) ∧
    (3 ≤ attempt → exec (.loadReadAnswer issue .unrecoverable) s = .next (ended none))

/-- The copy selected (R166), when a copy is valid (R156), and the tables filled from it, or as on a blank medium (R23, R99, R114,
R117, R167). The zeros of an UNDEFINED record, in fields that R1 gives no meaning, are the model's choice (log 9). -/
def Obligations.TablesComeFromTheNewestCopy : Prop :=
  (∀ a b, selectCopy (some a) none = some (.copy0, a) ∧ selectCopy none (some b) = some (.copy1, b) ∧
    selectCopy none none = none ∧
    (b.generation ≤ a.generation → selectCopy (some a) (some b) = some (.copy0, a)) ∧
    (a.generation < b.generation → selectCopy (some a) (some b) = some (.copy1, b))) ∧
  (∀ (blocks : List (Option Block)) (p : Nat) (c : Config.RawCopy), validCopy blocks p = some c ↔
    let bytes := (blocks.filterMap id).flatten
    let l := p - 24 - c.s
    (∀ x ∈ blocks, x ≠ none) ∧ c = readCopy bytes ∧ c.mark = Config.formatMark ∧ c.crc = crc32 (bytes.take 6140) ∧
    c.generation ≠ 0 ∧ c.closing = c.generation ∧ c.p = p ∧ 16 ≤ c.s ∧ c.s ≤ 1024 ∧ 256 + 24 + c.s ≤ p ∧ c.phase ≠ none ∧
    (∀ d ∈ c.regions, d.id < 16 ∧ d.base + d.length ≤ l) ∧
    c.regions.Pairwise (fun d e => d.id ≠ e.id ∧
      ¬∃ n, (d.base ≤ n ∧ n < d.base + d.length) ∧ (e.base ≤ n ∧ n < e.base + e.length)) ∧
    (∀ lbn, Spare.inUse lbn ∈ c.spares → lbn < l) ∧
    c.spares.Pairwise (fun d e => ∀ lbn, d = .inUse lbn → d ≠ e)) ∧
  ∀ (s : State) (blocks : List (Option Block)) (p : Nat), s.link.identified = some p →
    let t := s.loadTables blocks
    let selected := selectCopy (validCopy (blocks.take 12) p) (validCopy (blocks.drop 12) p)
    t.store.loaded = true ∧ t.link.identified = none ∧ t.blockMap.candidates = [] ∧
    t.staging = { s.staging with forced := decide (t.blockMap.spares.countP (· == .free) ≤ 8) } ∧
    (∀ copy c, selected = some (copy, c) →
      t.store.newest = some copy ∧ t.store.generation = c.generation ∧ t.agree.phase = c.phase.getD .provisioning ∧
      t.blockMap.geometry = some ⟨p, c.s⟩ ∧ t.blockMap.spares = c.spares ∧
      ∀ r : Fin 16,
        (∀ d, c.regions.find? (fun d => d.id == r.val) = some d → t.region r =
          { state := .defined, base := d.base, length := d.length, attrs := ⟨d.exclusive, d.peerRead, d.through, true⟩,
            leasePeriod := d.leasePeriod, hold := none, changing := false }) ∧
        (c.regions.find? (fun d => d.id == r.val) = none → t.region r = Region.undefinedRecord)) ∧
    (selected = none →
      t.store.newest = none ∧ t.store.generation = 0 ∧ t.agree.phase = .provisioning ∧ t.blockMap.geometry = some ⟨p, 64⟩ ∧
      t.blockMap.spares = List.replicate 64 .free ∧ ∀ r, t.region r = Region.undefinedRecord)

/-- A copy that the part has written whole reads back valid for its P, with its generation and the tables of its snapshot, and for
no other P (R155, R156, R163); one whose first blocks alone were written, over an older copy, is invalid (R162). Its layout: mark,
generation, P, phase and S in the first block, then the definitions in id order, then the spare table, then 00h, the closing generation
in bytes 6,136 to 6,139 and the CRC-32 in bytes 6,140 to 6,143 (R155); how a field fills its bytes, and in which order the four bytes
of the CRC stand, is free (log 7). The CRC-32 begins at FFFFFFFFh, takes each byte from its most significant bit with the polynomial
04C11DB7h, and is not inverted (R155). -/
def Obligations.CopiesReadBackAsWritten : Prop :=
  (∀ (x : Config.Snapshot) (g p : Nat), SnapshotLawful x → 1 ≤ g → g ≤ 0xFFFFFFFF →
    let blocks := (List.range 12).map fun k => some (copyBlock x g k)
    let fields := generationBytes g ++ coded Config.headerCode (headerFields x) ++ x.regions.flatMap definitionBytes ++
      x.spares.flatMap spareBytes
    let body := be32 Config.formatMark.toNat ++ fields ++ List.replicate (6132 - fields.length) 0 ++ generationBytes g
    copyBytes x g = body ++ crc32Bytes (crc32 body) ∧ body.length = 6140 ∧ fields.length ≤ 6132 ∧
    (generationBytes g).length = 4 ∧ (coded Config.headerCode (headerFields x)).length = 8 ∧
    (∀ d, (definitionBytes d).length = 9) ∧ (∀ e, (spareBytes e).length = 3) ∧ (∀ k < 12, (copyBlock x g k).length = 512) ∧
    (p ≠ x.p → validCopy blocks p = none) ∧
    ∃ c, validCopy blocks x.p = some c ∧ c.generation = g ∧ c.phase = some x.phase ∧ c.s = x.s ∧ c.regions = x.regions ∧
      c.spares = x.spares) ∧
  (∃ order : Equiv.Perm (Fin 4), ∀ c, crc32Bytes c = (List.finRange 4).map fun i => (be32 c.toNat).getD (order i) 0) ∧
  (crc32 [] = 0xFFFFFFFF ∧ ∀ (bytes : List Byte) (byte : Byte), crc32 (bytes ++ [byte]) = (List.range 8).foldl
    (fun (r : BitVec 32) k => if r.msb = byte.getLsbD (7 - k) then r <<< 1 else (r <<< 1) ^^^ 0x04C11DB7) (crc32 bytes)) ∧
  ∀ (x y : Config.Snapshot) (g h k p : Nat), 1 ≤ g → g ≤ 0xFFFFFFFF → 1 ≤ h → h ≤ 0xFFFFFFFF → g ≠ h → 1 ≤ k → k ≤ 11 →
    validCopy ((List.range 12).map fun i => some (if i < k then copyBlock x g i else copyBlock y h i)) p = none

/-! ### Timeouts, FAULT and malformed answers (spec/07) -/

/-- OPERATION_TIMEOUT (R142, R143): the operation is issued again after the first and second timeout; after the third an identify
job fails, and any other job brings entry to FAULT. -/
def Obligations.TimeoutsRepeatThenFault : Prop :=
  (∀ (s : State) (op : Op), Settled s → s.link.flight = some op →
    let counted : State := { s.openEvent with link := { s.link with timeouts := s.link.timeouts + 1 } }
    (s.link.timeouts + 1 < 3 → exec .operationTimeout s = .next (counted.issue op)) ∧
    (3 ≤ s.link.timeouts + 1 →
      (∀ step, s.sched.job = some (.identify step) → exec .operationTimeout s =
        .next (({ counted with link := { counted.link with flight := none, deadline := none } } : State).identifyEnded
          .fault false)) ∧
      ((∀ step, s.sched.job ≠ some (.identify step)) → exec .operationTimeout s = .next counted.enterFault))) ∧
  ∀ s : State, Settled s → s.link.flight = none → exec .operationTimeout s = .next s.openEvent

/-- Entry to FAULT, one event (R91, R110, R135, R145, R146, R161, R173). Where it ends the last work that an apply waits for, the apply
is a step after it (log 1): that the table and the proposal stand unchanged here, and that MEDIA (FAULT) and CHECKPOINT (FAILED) come
before the notices of the apply, is the model's choice (log 32). -/
def Obligations.EntryToFaultEndsTheWork : Prop :=
  ∀ s : State,
    let t := s.enterFault
    t.link = { s.link with media := .fault, flight := none, deadline := none } ∧
    t.sched = { s.sched with job := none, waitA := [], waitB := [] } ∧
    t.staging = { s.staging with
      wtWaiters := [], flushWaiters := []
      slots := match s.sched.job with
        | some (.flush j) => match s.slot j.slot with
          | .flushing d _ => s.staging.slots.set j.slot (.dirty { d with relocate := j.relocate || d.relocate })
          | _ => s.staging.slots
        | _ => s.staging.slots } ∧
    t.store = (match s.sched.job with
      | some (.checkpoint _) => { s.store with lastResult := .failed, checkpointPending := true }
      | _ => s.store) ∧
    t.service = (if s.service.quiesce = none then s.service else { s.service with state := .ready, quiesce := none }) ∧
    t.blockMap = s.blockMap ∧ t.regions = s.regions ∧ t.agree = s.agree ∧
    ∀ p,
      let ended := (s.endedByFault p).foldl (fun u x => u.complete (s.base p) x.1 .mediaFault x.2) (s.port p)
      t.port p = match s.sched.job with
        | some (.checkpoint c) => (ended.acceptNotice .mediaFault).acceptNotice (.checkpointFailed c.generation)
        | _ => ended.acceptNotice .mediaFault

/-- Malformed answers are discarded (R140, R141): an answer for another issue, or with none in flight; a reply that is BUSY, of
another type or number, of an outcome that the operation does not have, or with a wrong check value. -/
def Obligations.MalformedAnswersAreDiscarded : Prop :=
  (∀ (s : State) (issue : Byte) (a : ReadAnswer) (w : WriteAnswer) (n : BitVec 32) (size : BitVec 16), Settled s →
    (s.link.flight = none ∨ issue.toNat ≠ s.link.issueNo) →
    ∀ c ∈ [Instr.readJobAnswer issue a, .flushWriteAnswer issue w, .verifyAnswer issue a, .spareWriteAnswer issue w,
      .checkpointWriteAnswer issue w, .identifyAnswer issue n size, .loadReadAnswer issue a], exec c s = .next s.openEvent) ∧
  ∀ (s : State) (op : Op) (reply : List Byte), Settled s → s.link.flight = some op →
    let outcome := reply.getD 2 0
    let length := 2 + match op with
      | .identify => 6
      | .read _ => if outcome = 3 then 0 else 512
      | .write .. => 0
    let fits := match op with
      | .identify => outcome = 1
      | .read _ => outcome = 1 ∨ outcome = 2 ∨ outcome = 3
      | .write .. => outcome = 1 ∨ outcome = 4
    let checked := ((reply.drop (1 + length)).take 2) = crc16Bytes ((reply.drop 1).take length)
    (reply.head? ≠ some 1 ∨ (reply.getD 1 0).toNat ≠ s.link.issueNo ∨ ¬fits ∨ ¬checked) →
    exec (.malformedAnswer reply) s = .next s.openEvent

/-! ### The response queue (spec/03, 3.4) -/

/-- A notice offered to a port (R65, R66). A completion made for a request in the list (R62, R63, R64): its record is COMPLETE, and
its frame stands behind the frames of earlier events, among the completions of its event in arrival order, before the notices of
its event; a request completes once. What older frames are: those queued when the event began. A request that is dispatched, waits for
slots or starts has its open record marked, and a started one keeps no payload (R53, R61). -/
def Obligations.FramesJoinTheQueueInOrder : Prop :=
  (∀ (s : State) (p : PortId) (n : Notice),
    let u := s.port p
    let queued := (u.queue.filter Frame.isNotice).length
    (u.online = false → s.offer p n = s) ∧
    (u.online = true → queued < 4 → s.offer p n =
      s.setPort p { u with queue := u.queue ++ [.notice n u.gapPending], gapPending := false }) ∧
    (u.online = true → 4 ≤ queued → s.offer p n =
      s.setPort p { u with flags := { u.flags with noticesLost := true }, gapPending := true,
                           receiver := u.receiver.keepNoticesLost })) ∧
  (∀ (u : PortUnit) (r : Record) (st : Status) (res : Result) (older : List Frame) (first second : List Completion)
    (notices : List (Notice × Bool)),
    u.requests.find? (fun x => x.tag == r.tag && x.state != .complete) = some r →
    u.queue = older ++ (first ++ second).map .completion ++ notices.map (fun n => .notice n.1 n.2) →
    (∀ c ∈ first, u.arrival c.tag ≤ u.arrival r.tag) → (∀ c ∈ second, u.arrival r.tag < u.arrival c.tag) →
    u.complete older.length r.tag st res = { u with
      requests := u.requests.map fun x =>
        if x.tag = r.tag ∧ x.state ≠ .complete then { x with state := .complete, request := withoutPayload x.request } else x
      queue := older ++ (first ++ ⟨r.tag, requestCode r.request, st, res⟩ :: second).map .completion ++
        notices.map (fun n => .notice n.1 n.2) }) ∧
  (∀ (u : PortUnit) (base : Nat) (tag : Byte) (st : Status) (res : Result), (∀ r ∈ u.requests, r.tag = tag → r.state = .complete) →
    u.complete base tag st res = u) ∧
  (∀ (s : State) (p : PortId) (tag : Byte) (st : Status) (res : Result),
    s.complete p tag st res = s.setPort p ((s.port p).complete (s.base p) tag st res) ∧
    s.openEvent.base p = (s.port p).queue.length) ∧
  ∀ (s : State) (p : PortId) (tag : Byte) (st : RecordState),
    let marked := fun (f : Record → Record) => s.setPort p { s.port p with
      requests := (s.port p).requests.map fun x => if x.tag = tag ∧ x.state ≠ .complete then f x else x }
    s.setRecord p tag st = marked (fun x => { x with state := st }) ∧
    s.startRecord p tag = marked fun x => { x with state := .started, request := withoutPayload x.request }

/-! ### The laws of the device -/

/-- After cold reset hold the laws of the device that speak of one state, `Lawful`: the first (R1), second (R9), fourth (R54), fifth
(R73), sixth (R101), ninth (R112), tenth (R63) and twelfth (R157), with the orders of R75 and R76, the slot of a flush job (R74) and the
ranges of R26, R28, R138 and R143. -/
def Obligations.LawsHoldAtReset : Prop := Lawful State.reset

/-- Every step keeps the laws of the device that speak of one state: the first (R1), second (R9), fourth (R54), fifth (R73), sixth
(R101), ninth (R112), tenth (R63) and twelfth (R157), with the orders of R75 and R76, the slot of a flush job (R74) and the ranges of
R26, R28, R138 and R143. The third (R24) and the seventh (R119) are the forms of their fields; the eighth and the eleventh are in the
next statement. -/
def Obligations.EveryStepKeepsTheLaws : Prop :=
  ∀ s t : State, Lawful s → step s = .next t → Lawful t

/-- The two laws that speak of steps. The eighth (R74): but for cold reset, a DIRTY or FLUSHING slot stays so, with its block, or the
step is the answer of the medium in which its flush ends: after GOOD it is CLEAN with its newest data, which the job wrote (R88), or it
is FREE, declared lost after three spares or with none FREE (R89, R107). The eleventh (R25), while no RESET_TABLE is proposed, waits in
a request list or arrives (in a well-formed row; SUBMIT_FRAME_DISCARDED and an open SUBMIT frame, whose bits are free, and cold reset
are left out): AGREED stays AGREED, and still no RESET_TABLE is proposed, waits or arrives. -/
def Obligations.StepsKeepUnflushedSlotsAndThePhase : Prop :=
  ∀ (c : Instr) (s t : State), Lawful s → exec c s = .next t → c ≠ .coldReset →
    (∀ i d, (s.slot i).unflushed? = some d →
      (∃ e, (t.slot i).unflushed? = some e ∧ e.lbn = d.lbn) ∨ FlushEnds c s t i d.lbn) ∧
    (s.agree.phase = .agreed → NoReset s → c.wellFormed = true → (∀ p tag f, c = .propose p tag f → f.kind ≠ 5) →
      (∀ p io, c ≠ .submitFrameDiscarded p io) → t.agree.phase = .agreed ∧ NoReset t)
end

