-- ==== Sys2Proof/Laws/State.lean ====
section
/-! SUPPORT. One lemma per field for each update of State: what the update leaves as it was. -/

namespace Sys2Proof.Machine

@[simp] theorem State.openEvent_pending (s : State) : (s.openEvent).pending = s.pending := rfl
@[simp] theorem State.openEvent_resetLow (s : State) : (s.openEvent).resetLow = s.resetLow := rfl
@[simp] theorem State.openEvent_portA (s : State) : (s.openEvent).portA = s.portA := rfl
@[simp] theorem State.openEvent_portB (s : State) : (s.openEvent).portB = s.portB := rfl
@[simp] theorem State.openEvent_regions (s : State) : (s.openEvent).regions = s.regions := rfl
@[simp] theorem State.openEvent_agree (s : State) : (s.openEvent).agree = s.agree := rfl
@[simp] theorem State.openEvent_staging (s : State) : (s.openEvent).staging = s.staging := rfl
@[simp] theorem State.openEvent_blockMap (s : State) : (s.openEvent).blockMap = s.blockMap := rfl
@[simp] theorem State.openEvent_sched (s : State) : (s.openEvent).sched = s.sched := rfl
@[simp] theorem State.openEvent_link (s : State) : (s.openEvent).link = s.link := rfl
@[simp] theorem State.openEvent_store (s : State) : (s.openEvent).store = s.store := rfl
@[simp] theorem State.openEvent_service (s : State) : (s.openEvent).service = s.service := rfl
@[simp] theorem State.openEvent_ticking (s : State) : (s.openEvent).ticking = s.ticking := rfl
@[simp] theorem State.openEvent_choices (s : State) : (s.openEvent).choices = s.choices := rfl

@[simp] theorem State.bumpChoice_pending (s : State) : (s.bumpChoice).pending = s.pending := rfl
@[simp] theorem State.bumpChoice_resetLow (s : State) : (s.bumpChoice).resetLow = s.resetLow := rfl
@[simp] theorem State.bumpChoice_portA (s : State) : (s.bumpChoice).portA = s.portA := rfl
@[simp] theorem State.bumpChoice_portB (s : State) : (s.bumpChoice).portB = s.portB := rfl
@[simp] theorem State.bumpChoice_regions (s : State) : (s.bumpChoice).regions = s.regions := rfl
@[simp] theorem State.bumpChoice_agree (s : State) : (s.bumpChoice).agree = s.agree := rfl
@[simp] theorem State.bumpChoice_staging (s : State) : (s.bumpChoice).staging = s.staging := rfl
@[simp] theorem State.bumpChoice_blockMap (s : State) : (s.bumpChoice).blockMap = s.blockMap := rfl
@[simp] theorem State.bumpChoice_sched (s : State) : (s.bumpChoice).sched = s.sched := rfl
@[simp] theorem State.bumpChoice_link (s : State) : (s.bumpChoice).link = s.link := rfl
@[simp] theorem State.bumpChoice_store (s : State) : (s.bumpChoice).store = s.store := rfl
@[simp] theorem State.bumpChoice_service (s : State) : (s.bumpChoice).service = s.service := rfl
@[simp] theorem State.bumpChoice_ticking (s : State) : (s.bumpChoice).ticking = s.ticking := rfl
@[simp] theorem State.bumpChoice_event (s : State) : (s.bumpChoice).event = s.event := rfl

@[simp] theorem State.setPort_pending (s : State) (p : PortId) (u : PortUnit) : (s.setPort p u).pending = s.pending := by cases p <;> rfl
@[simp] theorem State.setPort_resetLow (s : State) (p : PortId) (u : PortUnit) : (s.setPort p u).resetLow = s.resetLow := by cases p <;> rfl
@[simp] theorem State.setPort_regions (s : State) (p : PortId) (u : PortUnit) : (s.setPort p u).regions = s.regions := by cases p <;> rfl
@[simp] theorem State.setPort_agree (s : State) (p : PortId) (u : PortUnit) : (s.setPort p u).agree = s.agree := by cases p <;> rfl
@[simp] theorem State.setPort_staging (s : State) (p : PortId) (u : PortUnit) : (s.setPort p u).staging = s.staging := by cases p <;> rfl
@[simp] theorem State.setPort_blockMap (s : State) (p : PortId) (u : PortUnit) : (s.setPort p u).blockMap = s.blockMap := by cases p <;> rfl
@[simp] theorem State.setPort_sched (s : State) (p : PortId) (u : PortUnit) : (s.setPort p u).sched = s.sched := by cases p <;> rfl
@[simp] theorem State.setPort_link (s : State) (p : PortId) (u : PortUnit) : (s.setPort p u).link = s.link := by cases p <;> rfl
@[simp] theorem State.setPort_store (s : State) (p : PortId) (u : PortUnit) : (s.setPort p u).store = s.store := by cases p <;> rfl
@[simp] theorem State.setPort_service (s : State) (p : PortId) (u : PortUnit) : (s.setPort p u).service = s.service := by cases p <;> rfl
@[simp] theorem State.setPort_ticking (s : State) (p : PortId) (u : PortUnit) : (s.setPort p u).ticking = s.ticking := by cases p <;> rfl
@[simp] theorem State.setPort_event (s : State) (p : PortId) (u : PortUnit) : (s.setPort p u).event = s.event := by cases p <;> rfl
@[simp] theorem State.setPort_choices (s : State) (p : PortId) (u : PortUnit) : (s.setPort p u).choices = s.choices := by cases p <;> rfl

@[simp] theorem State.updPort_pending (s : State) (p : PortId) (f : PortUnit → PortUnit) : (s.updPort p f).pending = s.pending := by cases p <;> rfl
@[simp] theorem State.updPort_resetLow (s : State) (p : PortId) (f : PortUnit → PortUnit) : (s.updPort p f).resetLow = s.resetLow := by cases p <;> rfl
@[simp] theorem State.updPort_regions (s : State) (p : PortId) (f : PortUnit → PortUnit) : (s.updPort p f).regions = s.regions := by cases p <;> rfl
@[simp] theorem State.updPort_agree (s : State) (p : PortId) (f : PortUnit → PortUnit) : (s.updPort p f).agree = s.agree := by cases p <;> rfl
@[simp] theorem State.updPort_staging (s : State) (p : PortId) (f : PortUnit → PortUnit) : (s.updPort p f).staging = s.staging := by cases p <;> rfl
@[simp] theorem State.updPort_blockMap (s : State) (p : PortId) (f : PortUnit → PortUnit) : (s.updPort p f).blockMap = s.blockMap := by cases p <;> rfl
@[simp] theorem State.updPort_sched (s : State) (p : PortId) (f : PortUnit → PortUnit) : (s.updPort p f).sched = s.sched := by cases p <;> rfl
@[simp] theorem State.updPort_link (s : State) (p : PortId) (f : PortUnit → PortUnit) : (s.updPort p f).link = s.link := by cases p <;> rfl
@[simp] theorem State.updPort_store (s : State) (p : PortId) (f : PortUnit → PortUnit) : (s.updPort p f).store = s.store := by cases p <;> rfl
@[simp] theorem State.updPort_service (s : State) (p : PortId) (f : PortUnit → PortUnit) : (s.updPort p f).service = s.service := by cases p <;> rfl
@[simp] theorem State.updPort_ticking (s : State) (p : PortId) (f : PortUnit → PortUnit) : (s.updPort p f).ticking = s.ticking := by cases p <;> rfl
@[simp] theorem State.updPort_event (s : State) (p : PortId) (f : PortUnit → PortUnit) : (s.updPort p f).event = s.event := by cases p <;> rfl
@[simp] theorem State.updPort_choices (s : State) (p : PortId) (f : PortUnit → PortUnit) : (s.updPort p f).choices = s.choices := by cases p <;> rfl

@[simp] theorem State.setRegion_pending (s : State) (r : Fin 16) (x : Region) : (s.setRegion r x).pending = s.pending := rfl
@[simp] theorem State.setRegion_resetLow (s : State) (r : Fin 16) (x : Region) : (s.setRegion r x).resetLow = s.resetLow := rfl
@[simp] theorem State.setRegion_portA (s : State) (r : Fin 16) (x : Region) : (s.setRegion r x).portA = s.portA := rfl
@[simp] theorem State.setRegion_portB (s : State) (r : Fin 16) (x : Region) : (s.setRegion r x).portB = s.portB := rfl
@[simp] theorem State.setRegion_agree (s : State) (r : Fin 16) (x : Region) : (s.setRegion r x).agree = s.agree := rfl
@[simp] theorem State.setRegion_staging (s : State) (r : Fin 16) (x : Region) : (s.setRegion r x).staging = s.staging := rfl
@[simp] theorem State.setRegion_blockMap (s : State) (r : Fin 16) (x : Region) : (s.setRegion r x).blockMap = s.blockMap := rfl
@[simp] theorem State.setRegion_sched (s : State) (r : Fin 16) (x : Region) : (s.setRegion r x).sched = s.sched := rfl
@[simp] theorem State.setRegion_link (s : State) (r : Fin 16) (x : Region) : (s.setRegion r x).link = s.link := rfl
@[simp] theorem State.setRegion_store (s : State) (r : Fin 16) (x : Region) : (s.setRegion r x).store = s.store := rfl
@[simp] theorem State.setRegion_service (s : State) (r : Fin 16) (x : Region) : (s.setRegion r x).service = s.service := rfl
@[simp] theorem State.setRegion_ticking (s : State) (r : Fin 16) (x : Region) : (s.setRegion r x).ticking = s.ticking := rfl
@[simp] theorem State.setRegion_event (s : State) (r : Fin 16) (x : Region) : (s.setRegion r x).event = s.event := rfl
@[simp] theorem State.setRegion_choices (s : State) (r : Fin 16) (x : Region) : (s.setRegion r x).choices = s.choices := rfl

@[simp] theorem State.mapRegions_pending (s : State) (f : Fin 16 → Region → Region) : (s.mapRegions f).pending = s.pending := rfl
@[simp] theorem State.mapRegions_resetLow (s : State) (f : Fin 16 → Region → Region) : (s.mapRegions f).resetLow = s.resetLow := rfl
@[simp] theorem State.mapRegions_portA (s : State) (f : Fin 16 → Region → Region) : (s.mapRegions f).portA = s.portA := rfl
@[simp] theorem State.mapRegions_portB (s : State) (f : Fin 16 → Region → Region) : (s.mapRegions f).portB = s.portB := rfl
@[simp] theorem State.mapRegions_agree (s : State) (f : Fin 16 → Region → Region) : (s.mapRegions f).agree = s.agree := rfl
@[simp] theorem State.mapRegions_staging (s : State) (f : Fin 16 → Region → Region) : (s.mapRegions f).staging = s.staging := rfl
@[simp] theorem State.mapRegions_blockMap (s : State) (f : Fin 16 → Region → Region) : (s.mapRegions f).blockMap = s.blockMap := rfl
@[simp] theorem State.mapRegions_sched (s : State) (f : Fin 16 → Region → Region) : (s.mapRegions f).sched = s.sched := rfl
@[simp] theorem State.mapRegions_link (s : State) (f : Fin 16 → Region → Region) : (s.mapRegions f).link = s.link := rfl
@[simp] theorem State.mapRegions_store (s : State) (f : Fin 16 → Region → Region) : (s.mapRegions f).store = s.store := rfl
@[simp] theorem State.mapRegions_service (s : State) (f : Fin 16 → Region → Region) : (s.mapRegions f).service = s.service := rfl
@[simp] theorem State.mapRegions_ticking (s : State) (f : Fin 16 → Region → Region) : (s.mapRegions f).ticking = s.ticking := rfl
@[simp] theorem State.mapRegions_event (s : State) (f : Fin 16 → Region → Region) : (s.mapRegions f).event = s.event := rfl
@[simp] theorem State.mapRegions_choices (s : State) (f : Fin 16 → Region → Region) : (s.mapRegions f).choices = s.choices := rfl

@[simp] theorem State.setJob_pending (s : State) (j : Option Job) : (s.setJob j).pending = s.pending := rfl
@[simp] theorem State.setJob_resetLow (s : State) (j : Option Job) : (s.setJob j).resetLow = s.resetLow := rfl
@[simp] theorem State.setJob_portA (s : State) (j : Option Job) : (s.setJob j).portA = s.portA := rfl
@[simp] theorem State.setJob_portB (s : State) (j : Option Job) : (s.setJob j).portB = s.portB := rfl
@[simp] theorem State.setJob_regions (s : State) (j : Option Job) : (s.setJob j).regions = s.regions := rfl
@[simp] theorem State.setJob_agree (s : State) (j : Option Job) : (s.setJob j).agree = s.agree := rfl
@[simp] theorem State.setJob_staging (s : State) (j : Option Job) : (s.setJob j).staging = s.staging := rfl
@[simp] theorem State.setJob_blockMap (s : State) (j : Option Job) : (s.setJob j).blockMap = s.blockMap := rfl
@[simp] theorem State.setJob_link (s : State) (j : Option Job) : (s.setJob j).link = s.link := rfl
@[simp] theorem State.setJob_store (s : State) (j : Option Job) : (s.setJob j).store = s.store := rfl
@[simp] theorem State.setJob_service (s : State) (j : Option Job) : (s.setJob j).service = s.service := rfl
@[simp] theorem State.setJob_ticking (s : State) (j : Option Job) : (s.setJob j).ticking = s.ticking := rfl
@[simp] theorem State.setJob_event (s : State) (j : Option Job) : (s.setJob j).event = s.event := rfl
@[simp] theorem State.setJob_choices (s : State) (j : Option Job) : (s.setJob j).choices = s.choices := rfl

@[simp] theorem State.setYield_pending (s : State) (y : Bool) : (s.setYield y).pending = s.pending := rfl
@[simp] theorem State.setYield_resetLow (s : State) (y : Bool) : (s.setYield y).resetLow = s.resetLow := rfl
@[simp] theorem State.setYield_portA (s : State) (y : Bool) : (s.setYield y).portA = s.portA := rfl
@[simp] theorem State.setYield_portB (s : State) (y : Bool) : (s.setYield y).portB = s.portB := rfl
@[simp] theorem State.setYield_regions (s : State) (y : Bool) : (s.setYield y).regions = s.regions := rfl
@[simp] theorem State.setYield_agree (s : State) (y : Bool) : (s.setYield y).agree = s.agree := rfl
@[simp] theorem State.setYield_staging (s : State) (y : Bool) : (s.setYield y).staging = s.staging := rfl
@[simp] theorem State.setYield_blockMap (s : State) (y : Bool) : (s.setYield y).blockMap = s.blockMap := rfl
@[simp] theorem State.setYield_link (s : State) (y : Bool) : (s.setYield y).link = s.link := rfl
@[simp] theorem State.setYield_store (s : State) (y : Bool) : (s.setYield y).store = s.store := rfl
@[simp] theorem State.setYield_service (s : State) (y : Bool) : (s.setYield y).service = s.service := rfl
@[simp] theorem State.setYield_ticking (s : State) (y : Bool) : (s.setYield y).ticking = s.ticking := rfl
@[simp] theorem State.setYield_event (s : State) (y : Bool) : (s.setYield y).event = s.event := rfl
@[simp] theorem State.setYield_choices (s : State) (y : Bool) : (s.setYield y).choices = s.choices := rfl

@[simp] theorem State.issue_pending (s : State) (op : Op) : (s.issue op).pending = s.pending := rfl
@[simp] theorem State.issue_resetLow (s : State) (op : Op) : (s.issue op).resetLow = s.resetLow := rfl
@[simp] theorem State.issue_portA (s : State) (op : Op) : (s.issue op).portA = s.portA := rfl
@[simp] theorem State.issue_portB (s : State) (op : Op) : (s.issue op).portB = s.portB := rfl
@[simp] theorem State.issue_regions (s : State) (op : Op) : (s.issue op).regions = s.regions := rfl
@[simp] theorem State.issue_agree (s : State) (op : Op) : (s.issue op).agree = s.agree := rfl
@[simp] theorem State.issue_staging (s : State) (op : Op) : (s.issue op).staging = s.staging := rfl
@[simp] theorem State.issue_blockMap (s : State) (op : Op) : (s.issue op).blockMap = s.blockMap := rfl
@[simp] theorem State.issue_sched (s : State) (op : Op) : (s.issue op).sched = s.sched := rfl
@[simp] theorem State.issue_store (s : State) (op : Op) : (s.issue op).store = s.store := rfl
@[simp] theorem State.issue_service (s : State) (op : Op) : (s.issue op).service = s.service := rfl
@[simp] theorem State.issue_ticking (s : State) (op : Op) : (s.issue op).ticking = s.ticking := rfl
@[simp] theorem State.issue_event (s : State) (op : Op) : (s.issue op).event = s.event := rfl
@[simp] theorem State.issue_choices (s : State) (op : Op) : (s.issue op).choices = s.choices := rfl

@[simp] theorem State.answered_pending (s : State) : (s.answered).pending = s.pending := rfl
@[simp] theorem State.answered_resetLow (s : State) : (s.answered).resetLow = s.resetLow := rfl
@[simp] theorem State.answered_portA (s : State) : (s.answered).portA = s.portA := rfl
@[simp] theorem State.answered_portB (s : State) : (s.answered).portB = s.portB := rfl
@[simp] theorem State.answered_regions (s : State) : (s.answered).regions = s.regions := rfl
@[simp] theorem State.answered_agree (s : State) : (s.answered).agree = s.agree := rfl
@[simp] theorem State.answered_staging (s : State) : (s.answered).staging = s.staging := rfl
@[simp] theorem State.answered_blockMap (s : State) : (s.answered).blockMap = s.blockMap := rfl
@[simp] theorem State.answered_sched (s : State) : (s.answered).sched = s.sched := rfl
@[simp] theorem State.answered_store (s : State) : (s.answered).store = s.store := rfl
@[simp] theorem State.answered_service (s : State) : (s.answered).service = s.service := rfl
@[simp] theorem State.answered_ticking (s : State) : (s.answered).ticking = s.ticking := rfl
@[simp] theorem State.answered_event (s : State) : (s.answered).event = s.event := rfl
@[simp] theorem State.answered_choices (s : State) : (s.answered).choices = s.choices := rfl

@[simp] theorem State.dropOperation_pending (s : State) : (s.dropOperation).pending = s.pending := rfl
@[simp] theorem State.dropOperation_resetLow (s : State) : (s.dropOperation).resetLow = s.resetLow := rfl
@[simp] theorem State.dropOperation_portA (s : State) : (s.dropOperation).portA = s.portA := rfl
@[simp] theorem State.dropOperation_portB (s : State) : (s.dropOperation).portB = s.portB := rfl
@[simp] theorem State.dropOperation_regions (s : State) : (s.dropOperation).regions = s.regions := rfl
@[simp] theorem State.dropOperation_agree (s : State) : (s.dropOperation).agree = s.agree := rfl
@[simp] theorem State.dropOperation_staging (s : State) : (s.dropOperation).staging = s.staging := rfl
@[simp] theorem State.dropOperation_blockMap (s : State) : (s.dropOperation).blockMap = s.blockMap := rfl
@[simp] theorem State.dropOperation_sched (s : State) : (s.dropOperation).sched = s.sched := rfl
@[simp] theorem State.dropOperation_store (s : State) : (s.dropOperation).store = s.store := rfl
@[simp] theorem State.dropOperation_service (s : State) : (s.dropOperation).service = s.service := rfl
@[simp] theorem State.dropOperation_ticking (s : State) : (s.dropOperation).ticking = s.ticking := rfl
@[simp] theorem State.dropOperation_event (s : State) : (s.dropOperation).event = s.event := rfl
@[simp] theorem State.dropOperation_choices (s : State) : (s.dropOperation).choices = s.choices := rfl

@[simp] theorem State.setMedia_pending (s : State) (m : MediaState) : (s.setMedia m).pending = s.pending := rfl
@[simp] theorem State.setMedia_resetLow (s : State) (m : MediaState) : (s.setMedia m).resetLow = s.resetLow := rfl
@[simp] theorem State.setMedia_portA (s : State) (m : MediaState) : (s.setMedia m).portA = s.portA := rfl
@[simp] theorem State.setMedia_portB (s : State) (m : MediaState) : (s.setMedia m).portB = s.portB := rfl
@[simp] theorem State.setMedia_regions (s : State) (m : MediaState) : (s.setMedia m).regions = s.regions := rfl
@[simp] theorem State.setMedia_agree (s : State) (m : MediaState) : (s.setMedia m).agree = s.agree := rfl
@[simp] theorem State.setMedia_staging (s : State) (m : MediaState) : (s.setMedia m).staging = s.staging := rfl
@[simp] theorem State.setMedia_blockMap (s : State) (m : MediaState) : (s.setMedia m).blockMap = s.blockMap := rfl
@[simp] theorem State.setMedia_sched (s : State) (m : MediaState) : (s.setMedia m).sched = s.sched := rfl
@[simp] theorem State.setMedia_store (s : State) (m : MediaState) : (s.setMedia m).store = s.store := rfl
@[simp] theorem State.setMedia_service (s : State) (m : MediaState) : (s.setMedia m).service = s.service := rfl
@[simp] theorem State.setMedia_ticking (s : State) (m : MediaState) : (s.setMedia m).ticking = s.ticking := rfl
@[simp] theorem State.setMedia_event (s : State) (m : MediaState) : (s.setMedia m).event = s.event := rfl
@[simp] theorem State.setMedia_choices (s : State) (m : MediaState) : (s.setMedia m).choices = s.choices := rfl

@[simp] theorem State.requestCheckpoint_pending (s : State) : (s.requestCheckpoint).pending = s.pending := rfl
@[simp] theorem State.requestCheckpoint_resetLow (s : State) : (s.requestCheckpoint).resetLow = s.resetLow := rfl
@[simp] theorem State.requestCheckpoint_portA (s : State) : (s.requestCheckpoint).portA = s.portA := rfl
@[simp] theorem State.requestCheckpoint_portB (s : State) : (s.requestCheckpoint).portB = s.portB := rfl
@[simp] theorem State.requestCheckpoint_regions (s : State) : (s.requestCheckpoint).regions = s.regions := rfl
@[simp] theorem State.requestCheckpoint_agree (s : State) : (s.requestCheckpoint).agree = s.agree := rfl
@[simp] theorem State.requestCheckpoint_staging (s : State) : (s.requestCheckpoint).staging = s.staging := rfl
@[simp] theorem State.requestCheckpoint_blockMap (s : State) : (s.requestCheckpoint).blockMap = s.blockMap := rfl
@[simp] theorem State.requestCheckpoint_sched (s : State) : (s.requestCheckpoint).sched = s.sched := rfl
@[simp] theorem State.requestCheckpoint_link (s : State) : (s.requestCheckpoint).link = s.link := rfl
@[simp] theorem State.requestCheckpoint_service (s : State) : (s.requestCheckpoint).service = s.service := rfl
@[simp] theorem State.requestCheckpoint_ticking (s : State) : (s.requestCheckpoint).ticking = s.ticking := rfl
@[simp] theorem State.requestCheckpoint_event (s : State) : (s.requestCheckpoint).event = s.event := rfl
@[simp] theorem State.requestCheckpoint_choices (s : State) : (s.requestCheckpoint).choices = s.choices := rfl

@[simp] theorem State.judgeReserve_pending (s : State) : (s.judgeReserve).pending = s.pending := rfl
@[simp] theorem State.judgeReserve_resetLow (s : State) : (s.judgeReserve).resetLow = s.resetLow := rfl
@[simp] theorem State.judgeReserve_portA (s : State) : (s.judgeReserve).portA = s.portA := rfl
@[simp] theorem State.judgeReserve_portB (s : State) : (s.judgeReserve).portB = s.portB := rfl
@[simp] theorem State.judgeReserve_regions (s : State) : (s.judgeReserve).regions = s.regions := rfl
@[simp] theorem State.judgeReserve_agree (s : State) : (s.judgeReserve).agree = s.agree := rfl
@[simp] theorem State.judgeReserve_blockMap (s : State) : (s.judgeReserve).blockMap = s.blockMap := rfl
@[simp] theorem State.judgeReserve_sched (s : State) : (s.judgeReserve).sched = s.sched := rfl
@[simp] theorem State.judgeReserve_link (s : State) : (s.judgeReserve).link = s.link := rfl
@[simp] theorem State.judgeReserve_store (s : State) : (s.judgeReserve).store = s.store := rfl
@[simp] theorem State.judgeReserve_service (s : State) : (s.judgeReserve).service = s.service := rfl
@[simp] theorem State.judgeReserve_ticking (s : State) : (s.judgeReserve).ticking = s.ticking := rfl
@[simp] theorem State.judgeReserve_event (s : State) : (s.judgeReserve).event = s.event := rfl
@[simp] theorem State.judgeReserve_choices (s : State) : (s.judgeReserve).choices = s.choices := rfl

@[simp] theorem State.addCandidate_pending (s : State) (lbn : Nat) : (s.addCandidate lbn).pending = s.pending := rfl
@[simp] theorem State.addCandidate_resetLow (s : State) (lbn : Nat) : (s.addCandidate lbn).resetLow = s.resetLow := rfl
@[simp] theorem State.addCandidate_portA (s : State) (lbn : Nat) : (s.addCandidate lbn).portA = s.portA := rfl
@[simp] theorem State.addCandidate_portB (s : State) (lbn : Nat) : (s.addCandidate lbn).portB = s.portB := rfl
@[simp] theorem State.addCandidate_regions (s : State) (lbn : Nat) : (s.addCandidate lbn).regions = s.regions := rfl
@[simp] theorem State.addCandidate_agree (s : State) (lbn : Nat) : (s.addCandidate lbn).agree = s.agree := rfl
@[simp] theorem State.addCandidate_staging (s : State) (lbn : Nat) : (s.addCandidate lbn).staging = s.staging := rfl
@[simp] theorem State.addCandidate_sched (s : State) (lbn : Nat) : (s.addCandidate lbn).sched = s.sched := rfl
@[simp] theorem State.addCandidate_link (s : State) (lbn : Nat) : (s.addCandidate lbn).link = s.link := rfl
@[simp] theorem State.addCandidate_store (s : State) (lbn : Nat) : (s.addCandidate lbn).store = s.store := rfl
@[simp] theorem State.addCandidate_service (s : State) (lbn : Nat) : (s.addCandidate lbn).service = s.service := rfl
@[simp] theorem State.addCandidate_ticking (s : State) (lbn : Nat) : (s.addCandidate lbn).ticking = s.ticking := rfl
@[simp] theorem State.addCandidate_event (s : State) (lbn : Nat) : (s.addCandidate lbn).event = s.event := rfl
@[simp] theorem State.addCandidate_choices (s : State) (lbn : Nat) : (s.addCandidate lbn).choices = s.choices := rfl

@[simp] theorem State.complete_pending (s : State) (p : PortId) (tag : Byte) (st : Status) (res : Result) : (s.complete p tag st res).pending = s.pending := by cases p <;> rfl
@[simp] theorem State.complete_resetLow (s : State) (p : PortId) (tag : Byte) (st : Status) (res : Result) : (s.complete p tag st res).resetLow = s.resetLow := by cases p <;> rfl
@[simp] theorem State.complete_regions (s : State) (p : PortId) (tag : Byte) (st : Status) (res : Result) : (s.complete p tag st res).regions = s.regions := by cases p <;> rfl
@[simp] theorem State.complete_agree (s : State) (p : PortId) (tag : Byte) (st : Status) (res : Result) : (s.complete p tag st res).agree = s.agree := by cases p <;> rfl
@[simp] theorem State.complete_staging (s : State) (p : PortId) (tag : Byte) (st : Status) (res : Result) : (s.complete p tag st res).staging = s.staging := by cases p <;> rfl
@[simp] theorem State.complete_blockMap (s : State) (p : PortId) (tag : Byte) (st : Status) (res : Result) : (s.complete p tag st res).blockMap = s.blockMap := by cases p <;> rfl
@[simp] theorem State.complete_sched (s : State) (p : PortId) (tag : Byte) (st : Status) (res : Result) : (s.complete p tag st res).sched = s.sched := by cases p <;> rfl
@[simp] theorem State.complete_link (s : State) (p : PortId) (tag : Byte) (st : Status) (res : Result) : (s.complete p tag st res).link = s.link := by cases p <;> rfl
@[simp] theorem State.complete_store (s : State) (p : PortId) (tag : Byte) (st : Status) (res : Result) : (s.complete p tag st res).store = s.store := by cases p <;> rfl
@[simp] theorem State.complete_service (s : State) (p : PortId) (tag : Byte) (st : Status) (res : Result) : (s.complete p tag st res).service = s.service := by cases p <;> rfl
@[simp] theorem State.complete_ticking (s : State) (p : PortId) (tag : Byte) (st : Status) (res : Result) : (s.complete p tag st res).ticking = s.ticking := by cases p <;> rfl
@[simp] theorem State.complete_event (s : State) (p : PortId) (tag : Byte) (st : Status) (res : Result) : (s.complete p tag st res).event = s.event := by cases p <;> rfl
@[simp] theorem State.complete_choices (s : State) (p : PortId) (tag : Byte) (st : Status) (res : Result) : (s.complete p tag st res).choices = s.choices := by cases p <;> rfl

@[simp] theorem State.offer_pending (s : State) (p : PortId) (n : Notice) : (s.offer p n).pending = s.pending := by cases p <;> rfl
@[simp] theorem State.offer_resetLow (s : State) (p : PortId) (n : Notice) : (s.offer p n).resetLow = s.resetLow := by cases p <;> rfl
@[simp] theorem State.offer_regions (s : State) (p : PortId) (n : Notice) : (s.offer p n).regions = s.regions := by cases p <;> rfl
@[simp] theorem State.offer_agree (s : State) (p : PortId) (n : Notice) : (s.offer p n).agree = s.agree := by cases p <;> rfl
@[simp] theorem State.offer_staging (s : State) (p : PortId) (n : Notice) : (s.offer p n).staging = s.staging := by cases p <;> rfl
@[simp] theorem State.offer_blockMap (s : State) (p : PortId) (n : Notice) : (s.offer p n).blockMap = s.blockMap := by cases p <;> rfl
@[simp] theorem State.offer_sched (s : State) (p : PortId) (n : Notice) : (s.offer p n).sched = s.sched := by cases p <;> rfl
@[simp] theorem State.offer_link (s : State) (p : PortId) (n : Notice) : (s.offer p n).link = s.link := by cases p <;> rfl
@[simp] theorem State.offer_store (s : State) (p : PortId) (n : Notice) : (s.offer p n).store = s.store := by cases p <;> rfl
@[simp] theorem State.offer_service (s : State) (p : PortId) (n : Notice) : (s.offer p n).service = s.service := by cases p <;> rfl
@[simp] theorem State.offer_ticking (s : State) (p : PortId) (n : Notice) : (s.offer p n).ticking = s.ticking := by cases p <;> rfl
@[simp] theorem State.offer_event (s : State) (p : PortId) (n : Notice) : (s.offer p n).event = s.event := by cases p <;> rfl
@[simp] theorem State.offer_choices (s : State) (p : PortId) (n : Notice) : (s.offer p n).choices = s.choices := by cases p <;> rfl

@[simp] theorem State.offerBoth_pending (s : State) (n : Notice) : (s.offerBoth n).pending = s.pending := rfl
@[simp] theorem State.offerBoth_resetLow (s : State) (n : Notice) : (s.offerBoth n).resetLow = s.resetLow := rfl
@[simp] theorem State.offerBoth_regions (s : State) (n : Notice) : (s.offerBoth n).regions = s.regions := rfl
@[simp] theorem State.offerBoth_agree (s : State) (n : Notice) : (s.offerBoth n).agree = s.agree := rfl
@[simp] theorem State.offerBoth_staging (s : State) (n : Notice) : (s.offerBoth n).staging = s.staging := rfl
@[simp] theorem State.offerBoth_blockMap (s : State) (n : Notice) : (s.offerBoth n).blockMap = s.blockMap := rfl
@[simp] theorem State.offerBoth_sched (s : State) (n : Notice) : (s.offerBoth n).sched = s.sched := rfl
@[simp] theorem State.offerBoth_link (s : State) (n : Notice) : (s.offerBoth n).link = s.link := rfl
@[simp] theorem State.offerBoth_store (s : State) (n : Notice) : (s.offerBoth n).store = s.store := rfl
@[simp] theorem State.offerBoth_service (s : State) (n : Notice) : (s.offerBoth n).service = s.service := rfl
@[simp] theorem State.offerBoth_ticking (s : State) (n : Notice) : (s.offerBoth n).ticking = s.ticking := rfl
@[simp] theorem State.offerBoth_event (s : State) (n : Notice) : (s.offerBoth n).event = s.event := rfl
@[simp] theorem State.offerBoth_choices (s : State) (n : Notice) : (s.offerBoth n).choices = s.choices := rfl

@[simp] theorem State.setRecord_pending (s : State) (p : PortId) (tag : Byte) (st : RecordState) : (s.setRecord p tag st).pending = s.pending := by cases p <;> rfl
@[simp] theorem State.setRecord_resetLow (s : State) (p : PortId) (tag : Byte) (st : RecordState) : (s.setRecord p tag st).resetLow = s.resetLow := by cases p <;> rfl
@[simp] theorem State.setRecord_regions (s : State) (p : PortId) (tag : Byte) (st : RecordState) : (s.setRecord p tag st).regions = s.regions := by cases p <;> rfl
@[simp] theorem State.setRecord_agree (s : State) (p : PortId) (tag : Byte) (st : RecordState) : (s.setRecord p tag st).agree = s.agree := by cases p <;> rfl
@[simp] theorem State.setRecord_staging (s : State) (p : PortId) (tag : Byte) (st : RecordState) : (s.setRecord p tag st).staging = s.staging := by cases p <;> rfl
@[simp] theorem State.setRecord_blockMap (s : State) (p : PortId) (tag : Byte) (st : RecordState) : (s.setRecord p tag st).blockMap = s.blockMap := by cases p <;> rfl
@[simp] theorem State.setRecord_sched (s : State) (p : PortId) (tag : Byte) (st : RecordState) : (s.setRecord p tag st).sched = s.sched := by cases p <;> rfl
@[simp] theorem State.setRecord_link (s : State) (p : PortId) (tag : Byte) (st : RecordState) : (s.setRecord p tag st).link = s.link := by cases p <;> rfl
@[simp] theorem State.setRecord_store (s : State) (p : PortId) (tag : Byte) (st : RecordState) : (s.setRecord p tag st).store = s.store := by cases p <;> rfl
@[simp] theorem State.setRecord_service (s : State) (p : PortId) (tag : Byte) (st : RecordState) : (s.setRecord p tag st).service = s.service := by cases p <;> rfl
@[simp] theorem State.setRecord_ticking (s : State) (p : PortId) (tag : Byte) (st : RecordState) : (s.setRecord p tag st).ticking = s.ticking := by cases p <;> rfl
@[simp] theorem State.setRecord_event (s : State) (p : PortId) (tag : Byte) (st : RecordState) : (s.setRecord p tag st).event = s.event := by cases p <;> rfl
@[simp] theorem State.setRecord_choices (s : State) (p : PortId) (tag : Byte) (st : RecordState) : (s.setRecord p tag st).choices = s.choices := by cases p <;> rfl

@[simp] theorem State.startRecord_pending (s : State) (p : PortId) (tag : Byte) : (s.startRecord p tag).pending = s.pending := by cases p <;> rfl
@[simp] theorem State.startRecord_resetLow (s : State) (p : PortId) (tag : Byte) : (s.startRecord p tag).resetLow = s.resetLow := by cases p <;> rfl
@[simp] theorem State.startRecord_regions (s : State) (p : PortId) (tag : Byte) : (s.startRecord p tag).regions = s.regions := by cases p <;> rfl
@[simp] theorem State.startRecord_agree (s : State) (p : PortId) (tag : Byte) : (s.startRecord p tag).agree = s.agree := by cases p <;> rfl
@[simp] theorem State.startRecord_staging (s : State) (p : PortId) (tag : Byte) : (s.startRecord p tag).staging = s.staging := by cases p <;> rfl
@[simp] theorem State.startRecord_blockMap (s : State) (p : PortId) (tag : Byte) : (s.startRecord p tag).blockMap = s.blockMap := by cases p <;> rfl
@[simp] theorem State.startRecord_sched (s : State) (p : PortId) (tag : Byte) : (s.startRecord p tag).sched = s.sched := by cases p <;> rfl
@[simp] theorem State.startRecord_link (s : State) (p : PortId) (tag : Byte) : (s.startRecord p tag).link = s.link := by cases p <;> rfl
@[simp] theorem State.startRecord_store (s : State) (p : PortId) (tag : Byte) : (s.startRecord p tag).store = s.store := by cases p <;> rfl
@[simp] theorem State.startRecord_service (s : State) (p : PortId) (tag : Byte) : (s.startRecord p tag).service = s.service := by cases p <;> rfl
@[simp] theorem State.startRecord_ticking (s : State) (p : PortId) (tag : Byte) : (s.startRecord p tag).ticking = s.ticking := by cases p <;> rfl
@[simp] theorem State.startRecord_event (s : State) (p : PortId) (tag : Byte) : (s.startRecord p tag).event = s.event := by cases p <;> rfl
@[simp] theorem State.startRecord_choices (s : State) (p : PortId) (tag : Byte) : (s.startRecord p tag).choices = s.choices := by cases p <;> rfl

@[simp] theorem State.setReceiver_pending (s : State) (p : PortId) (r : Receiver) : (s.setReceiver p r).pending = s.pending := by cases p <;> rfl
@[simp] theorem State.setReceiver_resetLow (s : State) (p : PortId) (r : Receiver) : (s.setReceiver p r).resetLow = s.resetLow := by cases p <;> rfl
@[simp] theorem State.setReceiver_regions (s : State) (p : PortId) (r : Receiver) : (s.setReceiver p r).regions = s.regions := by cases p <;> rfl
@[simp] theorem State.setReceiver_agree (s : State) (p : PortId) (r : Receiver) : (s.setReceiver p r).agree = s.agree := by cases p <;> rfl
@[simp] theorem State.setReceiver_staging (s : State) (p : PortId) (r : Receiver) : (s.setReceiver p r).staging = s.staging := by cases p <;> rfl
@[simp] theorem State.setReceiver_blockMap (s : State) (p : PortId) (r : Receiver) : (s.setReceiver p r).blockMap = s.blockMap := by cases p <;> rfl
@[simp] theorem State.setReceiver_sched (s : State) (p : PortId) (r : Receiver) : (s.setReceiver p r).sched = s.sched := by cases p <;> rfl
@[simp] theorem State.setReceiver_link (s : State) (p : PortId) (r : Receiver) : (s.setReceiver p r).link = s.link := by cases p <;> rfl
@[simp] theorem State.setReceiver_store (s : State) (p : PortId) (r : Receiver) : (s.setReceiver p r).store = s.store := by cases p <;> rfl
@[simp] theorem State.setReceiver_service (s : State) (p : PortId) (r : Receiver) : (s.setReceiver p r).service = s.service := by cases p <;> rfl
@[simp] theorem State.setReceiver_ticking (s : State) (p : PortId) (r : Receiver) : (s.setReceiver p r).ticking = s.ticking := by cases p <;> rfl
@[simp] theorem State.setReceiver_event (s : State) (p : PortId) (r : Receiver) : (s.setReceiver p r).event = s.event := by cases p <;> rfl
@[simp] theorem State.setReceiver_choices (s : State) (p : PortId) (r : Receiver) : (s.setReceiver p r).choices = s.choices := by cases p <;> rfl

@[simp] theorem State.addSdo_pending (s : State) (p : PortId) (bits : List Bool) : (s.addSdo p bits).pending = s.pending := by cases p <;> rfl
@[simp] theorem State.addSdo_resetLow (s : State) (p : PortId) (bits : List Bool) : (s.addSdo p bits).resetLow = s.resetLow := by cases p <;> rfl
@[simp] theorem State.addSdo_regions (s : State) (p : PortId) (bits : List Bool) : (s.addSdo p bits).regions = s.regions := by cases p <;> rfl
@[simp] theorem State.addSdo_agree (s : State) (p : PortId) (bits : List Bool) : (s.addSdo p bits).agree = s.agree := by cases p <;> rfl
@[simp] theorem State.addSdo_staging (s : State) (p : PortId) (bits : List Bool) : (s.addSdo p bits).staging = s.staging := by cases p <;> rfl
@[simp] theorem State.addSdo_blockMap (s : State) (p : PortId) (bits : List Bool) : (s.addSdo p bits).blockMap = s.blockMap := by cases p <;> rfl
@[simp] theorem State.addSdo_sched (s : State) (p : PortId) (bits : List Bool) : (s.addSdo p bits).sched = s.sched := by cases p <;> rfl
@[simp] theorem State.addSdo_link (s : State) (p : PortId) (bits : List Bool) : (s.addSdo p bits).link = s.link := by cases p <;> rfl
@[simp] theorem State.addSdo_store (s : State) (p : PortId) (bits : List Bool) : (s.addSdo p bits).store = s.store := by cases p <;> rfl
@[simp] theorem State.addSdo_service (s : State) (p : PortId) (bits : List Bool) : (s.addSdo p bits).service = s.service := by cases p <;> rfl
@[simp] theorem State.addSdo_ticking (s : State) (p : PortId) (bits : List Bool) : (s.addSdo p bits).ticking = s.ticking := by cases p <;> rfl
@[simp] theorem State.addSdo_event (s : State) (p : PortId) (bits : List Bool) : (s.addSdo p bits).event = s.event := by cases p <;> rfl
@[simp] theorem State.addSdo_choices (s : State) (p : PortId) (bits : List Bool) : (s.addSdo p bits).choices = s.choices := by cases p <;> rfl

@[simp] theorem State.silent_pending (s : State) (p : PortId) (count : Nat) : (s.silent p count).pending = s.pending := by cases p <;> rfl
@[simp] theorem State.silent_resetLow (s : State) (p : PortId) (count : Nat) : (s.silent p count).resetLow = s.resetLow := by cases p <;> rfl
@[simp] theorem State.silent_regions (s : State) (p : PortId) (count : Nat) : (s.silent p count).regions = s.regions := by cases p <;> rfl
@[simp] theorem State.silent_agree (s : State) (p : PortId) (count : Nat) : (s.silent p count).agree = s.agree := by cases p <;> rfl
@[simp] theorem State.silent_staging (s : State) (p : PortId) (count : Nat) : (s.silent p count).staging = s.staging := by cases p <;> rfl
@[simp] theorem State.silent_blockMap (s : State) (p : PortId) (count : Nat) : (s.silent p count).blockMap = s.blockMap := by cases p <;> rfl
@[simp] theorem State.silent_sched (s : State) (p : PortId) (count : Nat) : (s.silent p count).sched = s.sched := by cases p <;> rfl
@[simp] theorem State.silent_link (s : State) (p : PortId) (count : Nat) : (s.silent p count).link = s.link := by cases p <;> rfl
@[simp] theorem State.silent_store (s : State) (p : PortId) (count : Nat) : (s.silent p count).store = s.store := by cases p <;> rfl
@[simp] theorem State.silent_service (s : State) (p : PortId) (count : Nat) : (s.silent p count).service = s.service := by cases p <;> rfl
@[simp] theorem State.silent_ticking (s : State) (p : PortId) (count : Nat) : (s.silent p count).ticking = s.ticking := by cases p <;> rfl
@[simp] theorem State.silent_event (s : State) (p : PortId) (count : Nat) : (s.silent p count).event = s.event := by cases p <;> rfl
@[simp] theorem State.silent_choices (s : State) (p : PortId) (count : Nat) : (s.silent p count).choices = s.choices := by cases p <;> rfl

@[simp] theorem State.stray_pending (s : State) (p : PortId) (count : Nat) : (s.stray p count).pending = s.pending := by cases p <;> rfl
@[simp] theorem State.stray_resetLow (s : State) (p : PortId) (count : Nat) : (s.stray p count).resetLow = s.resetLow := by cases p <;> rfl
@[simp] theorem State.stray_regions (s : State) (p : PortId) (count : Nat) : (s.stray p count).regions = s.regions := by cases p <;> rfl
@[simp] theorem State.stray_agree (s : State) (p : PortId) (count : Nat) : (s.stray p count).agree = s.agree := by cases p <;> rfl
@[simp] theorem State.stray_staging (s : State) (p : PortId) (count : Nat) : (s.stray p count).staging = s.staging := by cases p <;> rfl
@[simp] theorem State.stray_blockMap (s : State) (p : PortId) (count : Nat) : (s.stray p count).blockMap = s.blockMap := by cases p <;> rfl
@[simp] theorem State.stray_sched (s : State) (p : PortId) (count : Nat) : (s.stray p count).sched = s.sched := by cases p <;> rfl
@[simp] theorem State.stray_link (s : State) (p : PortId) (count : Nat) : (s.stray p count).link = s.link := by cases p <;> rfl
@[simp] theorem State.stray_store (s : State) (p : PortId) (count : Nat) : (s.stray p count).store = s.store := by cases p <;> rfl
@[simp] theorem State.stray_service (s : State) (p : PortId) (count : Nat) : (s.stray p count).service = s.service := by cases p <;> rfl
@[simp] theorem State.stray_ticking (s : State) (p : PortId) (count : Nat) : (s.stray p count).ticking = s.ticking := by cases p <;> rfl
@[simp] theorem State.stray_event (s : State) (p : PortId) (count : Nat) : (s.stray p count).event = s.event := by cases p <;> rfl

@[simp] theorem State.leaseCounted_pending (s : State) (r : Fin 16) : (s.leaseCounted r).pending = s.pending := rfl
@[simp] theorem State.leaseCounted_resetLow (s : State) (r : Fin 16) : (s.leaseCounted r).resetLow = s.resetLow := rfl
@[simp] theorem State.leaseCounted_portA (s : State) (r : Fin 16) : (s.leaseCounted r).portA = s.portA := rfl
@[simp] theorem State.leaseCounted_portB (s : State) (r : Fin 16) : (s.leaseCounted r).portB = s.portB := rfl
@[simp] theorem State.leaseCounted_regions (s : State) (r : Fin 16) : (s.leaseCounted r).regions = s.regions := rfl
@[simp] theorem State.leaseCounted_agree (s : State) (r : Fin 16) : (s.leaseCounted r).agree = s.agree := rfl
@[simp] theorem State.leaseCounted_staging (s : State) (r : Fin 16) : (s.leaseCounted r).staging = s.staging := rfl
@[simp] theorem State.leaseCounted_blockMap (s : State) (r : Fin 16) : (s.leaseCounted r).blockMap = s.blockMap := rfl
@[simp] theorem State.leaseCounted_sched (s : State) (r : Fin 16) : (s.leaseCounted r).sched = s.sched := rfl
@[simp] theorem State.leaseCounted_link (s : State) (r : Fin 16) : (s.leaseCounted r).link = s.link := rfl
@[simp] theorem State.leaseCounted_store (s : State) (r : Fin 16) : (s.leaseCounted r).store = s.store := rfl
@[simp] theorem State.leaseCounted_service (s : State) (r : Fin 16) : (s.leaseCounted r).service = s.service := rfl
@[simp] theorem State.leaseCounted_event (s : State) (r : Fin 16) : (s.leaseCounted r).event = s.event := rfl
@[simp] theorem State.leaseCounted_choices (s : State) (r : Fin 16) : (s.leaseCounted r).choices = s.choices := rfl

@[simp] theorem State.windowCounted_pending (s : State) : (s.windowCounted).pending = s.pending := rfl
@[simp] theorem State.windowCounted_resetLow (s : State) : (s.windowCounted).resetLow = s.resetLow := rfl
@[simp] theorem State.windowCounted_portA (s : State) : (s.windowCounted).portA = s.portA := rfl
@[simp] theorem State.windowCounted_portB (s : State) : (s.windowCounted).portB = s.portB := rfl
@[simp] theorem State.windowCounted_regions (s : State) : (s.windowCounted).regions = s.regions := rfl
@[simp] theorem State.windowCounted_agree (s : State) : (s.windowCounted).agree = s.agree := rfl
@[simp] theorem State.windowCounted_staging (s : State) : (s.windowCounted).staging = s.staging := rfl
@[simp] theorem State.windowCounted_blockMap (s : State) : (s.windowCounted).blockMap = s.blockMap := rfl
@[simp] theorem State.windowCounted_sched (s : State) : (s.windowCounted).sched = s.sched := rfl
@[simp] theorem State.windowCounted_link (s : State) : (s.windowCounted).link = s.link := rfl
@[simp] theorem State.windowCounted_store (s : State) : (s.windowCounted).store = s.store := rfl
@[simp] theorem State.windowCounted_service (s : State) : (s.windowCounted).service = s.service := rfl
@[simp] theorem State.windowCounted_event (s : State) : (s.windowCounted).event = s.event := rfl
@[simp] theorem State.windowCounted_choices (s : State) : (s.windowCounted).choices = s.choices := rfl

@[simp] theorem State.finish_pending (s : State) (p : PortId) (tag : Byte) (d : Bool) (st : Status) (res : Result) : (s.finish p tag d st res).pending = s.pending := by unfold State.finish; split <;> simp
@[simp] theorem State.finish_resetLow (s : State) (p : PortId) (tag : Byte) (d : Bool) (st : Status) (res : Result) : (s.finish p tag d st res).resetLow = s.resetLow := by unfold State.finish; split <;> simp
@[simp] theorem State.finish_regions (s : State) (p : PortId) (tag : Byte) (d : Bool) (st : Status) (res : Result) : (s.finish p tag d st res).regions = s.regions := by unfold State.finish; split <;> simp
@[simp] theorem State.finish_agree (s : State) (p : PortId) (tag : Byte) (d : Bool) (st : Status) (res : Result) : (s.finish p tag d st res).agree = s.agree := by unfold State.finish; split <;> simp
@[simp] theorem State.finish_staging (s : State) (p : PortId) (tag : Byte) (d : Bool) (st : Status) (res : Result) : (s.finish p tag d st res).staging = s.staging := by unfold State.finish; split <;> simp
@[simp] theorem State.finish_blockMap (s : State) (p : PortId) (tag : Byte) (d : Bool) (st : Status) (res : Result) : (s.finish p tag d st res).blockMap = s.blockMap := by unfold State.finish; split <;> simp
@[simp] theorem State.finish_sched (s : State) (p : PortId) (tag : Byte) (d : Bool) (st : Status) (res : Result) : (s.finish p tag d st res).sched = s.sched := by unfold State.finish; split <;> simp
@[simp] theorem State.finish_link (s : State) (p : PortId) (tag : Byte) (d : Bool) (st : Status) (res : Result) : (s.finish p tag d st res).link = s.link := by unfold State.finish; split <;> simp
@[simp] theorem State.finish_store (s : State) (p : PortId) (tag : Byte) (d : Bool) (st : Status) (res : Result) : (s.finish p tag d st res).store = s.store := by unfold State.finish; split <;> simp
@[simp] theorem State.finish_service (s : State) (p : PortId) (tag : Byte) (d : Bool) (st : Status) (res : Result) : (s.finish p tag d st res).service = s.service := by unfold State.finish; split <;> simp
@[simp] theorem State.finish_ticking (s : State) (p : PortId) (tag : Byte) (d : Bool) (st : Status) (res : Result) : (s.finish p tag d st res).ticking = s.ticking := by unfold State.finish; split <;> simp
@[simp] theorem State.finish_event (s : State) (p : PortId) (tag : Byte) (d : Bool) (st : Status) (res : Result) : (s.finish p tag d st res).event = s.event := by unfold State.finish; split <;> simp
@[simp] theorem State.finish_choices (s : State) (p : PortId) (tag : Byte) (d : Bool) (st : Status) (res : Result) : (s.finish p tag d st res).choices = s.choices := by unfold State.finish; split <;> simp

@[simp] theorem State.renewIfHolder_pending (s : State) (p : PortId) (r : Fin 16) : (s.renewIfHolder p r).pending = s.pending := by unfold State.renewIfHolder; dsimp only; split <;> simp
@[simp] theorem State.renewIfHolder_resetLow (s : State) (p : PortId) (r : Fin 16) : (s.renewIfHolder p r).resetLow = s.resetLow := by unfold State.renewIfHolder; dsimp only; split <;> simp
@[simp] theorem State.renewIfHolder_portA (s : State) (p : PortId) (r : Fin 16) : (s.renewIfHolder p r).portA = s.portA := by unfold State.renewIfHolder; dsimp only; split <;> simp
@[simp] theorem State.renewIfHolder_portB (s : State) (p : PortId) (r : Fin 16) : (s.renewIfHolder p r).portB = s.portB := by unfold State.renewIfHolder; dsimp only; split <;> simp
@[simp] theorem State.renewIfHolder_agree (s : State) (p : PortId) (r : Fin 16) : (s.renewIfHolder p r).agree = s.agree := by unfold State.renewIfHolder; dsimp only; split <;> simp
@[simp] theorem State.renewIfHolder_staging (s : State) (p : PortId) (r : Fin 16) : (s.renewIfHolder p r).staging = s.staging := by unfold State.renewIfHolder; dsimp only; split <;> simp
@[simp] theorem State.renewIfHolder_blockMap (s : State) (p : PortId) (r : Fin 16) : (s.renewIfHolder p r).blockMap = s.blockMap := by unfold State.renewIfHolder; dsimp only; split <;> simp
@[simp] theorem State.renewIfHolder_sched (s : State) (p : PortId) (r : Fin 16) : (s.renewIfHolder p r).sched = s.sched := by unfold State.renewIfHolder; dsimp only; split <;> simp
@[simp] theorem State.renewIfHolder_link (s : State) (p : PortId) (r : Fin 16) : (s.renewIfHolder p r).link = s.link := by unfold State.renewIfHolder; dsimp only; split <;> simp
@[simp] theorem State.renewIfHolder_store (s : State) (p : PortId) (r : Fin 16) : (s.renewIfHolder p r).store = s.store := by unfold State.renewIfHolder; dsimp only; split <;> simp
@[simp] theorem State.renewIfHolder_service (s : State) (p : PortId) (r : Fin 16) : (s.renewIfHolder p r).service = s.service := by unfold State.renewIfHolder; dsimp only; split <;> simp
@[simp] theorem State.renewIfHolder_ticking (s : State) (p : PortId) (r : Fin 16) : (s.renewIfHolder p r).ticking = s.ticking := by unfold State.renewIfHolder; dsimp only; split <;> simp
@[simp] theorem State.renewIfHolder_event (s : State) (p : PortId) (r : Fin 16) : (s.renewIfHolder p r).event = s.event := by unfold State.renewIfHolder; dsimp only; split <;> simp
@[simp] theorem State.renewIfHolder_choices (s : State) (p : PortId) (r : Fin 16) : (s.renewIfHolder p r).choices = s.choices := by unfold State.renewIfHolder; dsimp only; split <;> simp

/-! ### Ports and regions after an update -/

@[simp] theorem State.setPort_port (s : State) (p : PortId) (u : PortUnit) : (s.setPort p u).port p = u := by
  cases p <;> rfl

@[simp] theorem State.setPort_port_other (s : State) (p : PortId) (u : PortUnit) :
    (s.setPort p u).port p.other = s.port p.other := by
  cases p <;> rfl

@[simp] theorem State.openEvent_port (s : State) (p : PortId) : s.openEvent.port p = s.port p := by cases p <;> rfl

@[simp] theorem State.bumpChoice_port (s : State) (p : PortId) : s.bumpChoice.port p = s.port p := by cases p <;> rfl

@[simp] theorem State.setRegion_port (s : State) (r : Fin 16) (x : Region) (p : PortId) :
    (s.setRegion r x).port p = s.port p := by
  cases p <;> rfl

@[simp] theorem State.mapRegions_port (s : State) (f : Fin 16 → Region → Region) (p : PortId) :
    (s.mapRegions f).port p = s.port p := by
  cases p <;> rfl

@[simp] theorem State.setPort_setPort (s : State) (p : PortId) (u v : PortUnit) :
    (s.setPort p u).setPort p v = s.setPort p v := by
  cases p <;> rfl

@[simp] theorem State.setPort_same (s : State) (p : PortId) : s.setPort p (s.port p) = s := by cases p <;> rfl

@[simp] theorem State.updPort_port (s : State) (p : PortId) (f : PortUnit → PortUnit) :
    (s.updPort p f).port p = f (s.port p) := by
  cases p <;> rfl

@[simp] theorem State.updPort_port_other (s : State) (p : PortId) (f : PortUnit → PortUnit) :
    (s.updPort p f).port p.other = s.port p.other := by
  cases p <;> rfl

@[simp] theorem State.setPort_region (s : State) (p : PortId) (u : PortUnit) (r : Fin 16) :
    (s.setPort p u).region r = s.region r := by
  cases p <;> rfl

@[simp] theorem State.openEvent_region (s : State) (r : Fin 16) : s.openEvent.region r = s.region r := rfl

@[simp] theorem State.setRegion_region (s : State) (r : Fin 16) (x : Region) : (s.setRegion r x).region r = x := by
  simp [State.region, State.setRegion]

theorem State.setRegion_region_of_ne (s : State) (r q : Fin 16) (x : Region) (h : q ≠ r) :
    (s.setRegion r x).region q = s.region q := by
  have h' : r.val ≠ q.val := fun e => h (Fin.ext e.symm)
  simp [State.region, State.setRegion, Vector.getElem_set_ne, h']

theorem State.mapRegions_region (s : State) (f : Fin 16 → Region → Region) (r : Fin 16) :
    (s.mapRegions f).region r = f r (s.region r) := by
  simp [State.region, State.mapRegions]

theorem State.setRegion_setPort (s : State) (p : PortId) (u : PortUnit) (r : Fin 16) (x : Region) :
    (s.setPort p u).setRegion r x = (s.setRegion r x).setPort p u := by
  cases p <;> rfl

@[simp] theorem State.setRegion_same (s : State) (r : Fin 16) : s.setRegion r (s.region r) = s := by
  simp [State.setRegion, State.region]

@[simp] theorem PortId.other_other (p : PortId) : p.other.other = p := by cases p <;> rfl

theorem PortId.other_ne (p : PortId) : p.other ≠ p := by cases p <;> decide

end Sys2Proof.Machine
end

