-- ==== Sys2Proof/Laws/Events.lean ====
section
/-! SUPPORT. What finishing an event, taking a SUBMIT and completing a request do, said once for the statements about single
commands. -/

namespace Sys2Proof.Machine

/-! ### Finishing an event -/

theorem State.firstOwed_openEvent (s : State) (b : Nat) : s.openEvent.firstOwed b = s.firstOwed b := by
  have h : s.openEvent.owedAt = s.owedAt := by
    funext k
    match k with
    | 0 => rfl
    | 1 => rfl
    | 2 => rfl
    | 3 => rfl
    | 4 => rfl
    | 5 => rfl
    | 6 => rfl
    | n + 7 => rfl
  unfold State.firstOwed
  rw [h]

theorem State.settleBelow_of_none (s : State) (b n : Nat) (h : s.firstOwed b = []) : State.settleBelow b n s = s := by
  cases n with
  | zero => rfl
  | succ n => simp [State.settleBelow, h, pick]

theorem State.settle_of_none (s : State) (h : s.firstOwed 7 = []) : s.settle = s := s.settleBelow_of_none 7 _ h

theorem State.fromOutside_quiet (s : State) (f : State → State) (hr : s.resetLow = false) (h : s.firstOwed 7 = []) :
    s.fromOutside f = f s.openEvent := by
  simp [State.fromOutside, hr, s.settle_of_none h]

theorem State.fromOutside_resetLow (s : State) (f : State → State) (hr : s.resetLow = true) : s.fromOutside f = s := by
  simp [State.fromOutside, hr]

/-- A step of the part given as a command, with nothing owed before it. -/
theorem State.ownStep_of_none (s : State) (k : Nat) (test : Owed → Bool) (h : s.firstOwed k = []) :
    s.ownStep k test = match (s.owedAt k).find? test with
      | some o => s.perform o
      | none => s :=
  congrArg (fun t : State => match (t.owedAt k).find? test with | some o => t.perform o | none => t)
    (s.settleBelow_of_none k s.settleFuel h)

/-! ### Presentation -/

theorem State.advance_of_still (s : State) (n : Nat) (he : s.agree.entering = none) (h : s.readyPorts = []) :
    s.advance n = s := by
  cases n with
  | zero => rfl
  | succ n => simp [State.advance, he, h, pick]

theorem State.moveOn_of_still (s : State) (he : s.agree.entering = none) (h : s.readyPorts = []) : s.moveOn = s :=
  s.advance_of_still _ he h

/-- With one request to present, presentation moves on from the state that presenting it leaves. -/
theorem State.moveOn_of_one (s : State) (p : PortId) (he : s.agree.entering = none) (h : s.readyPorts = [p]) :
    s.moveOn = (s.presentNext p).advance (2 * (s.portA.requests.length + s.portB.requests.length) + 1) := by
  simp [State.moveOn, State.presentFuel, State.advance, he, h, pick, State.chose]

theorem State.mem_readyPorts (s : State) (p : PortId) : p ∈ s.readyPorts ↔ (s.port p).nextToPresent.isSome := by
  cases p <;> simp [State.readyPorts]

theorem State.readyPorts_nil (s : State) : s.readyPorts = [] ↔ ∀ p, (s.port p).nextToPresent = none := by
  constructor
  · intro h p
    have hp : p ∉ s.readyPorts := by simp [h]
    rw [s.mem_readyPorts] at hp
    simpa using hp
  · intro h
    simp [State.readyPorts, h]

theorem State.readyPorts_one (s : State) (p : PortId) (hp : (s.port p).nextToPresent.isSome = true)
    (ho : (s.port p.other).nextToPresent = none) : s.readyPorts = [p] := by
  cases p <;> simp_all [State.readyPorts, PortId.other]

/-- No request awaits its turn where nothing waits for slots and nothing is next. -/
theorem PortUnit.none_awaits (u : PortUnit) (h : u.nextToPresent = none)
    (hw : ∀ r ∈ u.requests, r.state ≠ .awaitingSlots) : ∀ r ∈ u.requests, r.state ≠ .awaitingTurn := by
  have h1 : (u.requests.any fun r => r.state == .awaitingSlots) = false := by simpa using hw
  simp only [PortUnit.nextToPresent, h1] at h
  simpa using h

/-- With nothing held back and nothing next, a request taken is next. -/
theorem PortUnit.next_withRequest (u : PortUnit) (tag : Byte) (q : Request) (h : u.nextToPresent = none)
    (hw : ∀ r ∈ u.requests, r.state ≠ .awaitingSlots) :
    (u.withRequest tag q .awaitingTurn).nextToPresent = some ⟨tag, q, .awaitingTurn⟩ := by
  have ht := u.none_awaits h hw
  have h2 : u.requests.find? (fun r => r.state == .awaitingTurn) = none := by simpa using ht
  simp [PortUnit.nextToPresent, PortUnit.withRequest, h2, List.find?_append]
  intro r hr
  exact hw r hr

/-- A request that no longer awaits its turn is not next. -/
theorem PortUnit.next_of_moved (u : PortUnit) (st : RecordState) (r : Record) (h : u.nextToPresent = none)
    (hw : ∀ x ∈ u.requests, x.state ≠ .awaitingSlots) (hr : r.state = st) (hst : st ≠ .awaitingTurn) :
    ({ u with requests := u.requests ++ [r] } : PortUnit).nextToPresent = none := by
  have ht := u.none_awaits h hw
  have h2 : (u.requests ++ [r]).find? (fun x => x.state == .awaitingTurn) = none := by
    simp only [List.find?_eq_none, List.mem_append, List.mem_singleton]
    intro x hx
    rcases hx with hx | rfl
    · simpa using ht x hx
    · simpa [hr] using hst
  unfold PortUnit.nextToPresent
  simp only [h2]
  split <;> rfl

/-! ### The taking of a SUBMIT -/

/-- A SUBMIT that is taken: its request is presented, then presentation moves on (R54, R56). -/
theorem State.submit_taken (s : State) (p : PortId) (tag : Byte) (q : Request) (hq : Quiet s) (hc : CanTake s p tag) :
    s.openEvent.submit p tag q =
      ((s.taking p tag q .awaitingTurn).present p tag q).advance (2 * (s.portA.requests.length + s.portB.requests.length) + 3) := by
  obtain ⟨_, _, he, hr⟩ := hq
  obtain ⟨hi, hl, hf, hw⟩ := hc
  have hn := (s.readyPorts_nil).mp hr
  have hclash : ((s.port p).requests.any fun r => r.tag == tag) = false := by simpa using hf
  have hroom : ¬ Config.maxOutstanding ≤ (s.port p).requests.length := by omega
  have hnext : ((s.taking p tag q .awaitingTurn).port p).nextToPresent = some ⟨tag, q, .awaitingTurn⟩ := by
    simpa [State.taking] using (s.port p).next_withRequest tag q (hn p) hw
  have hother : ((s.taking p tag q .awaitingTurn).port p.other).nextToPresent = none := by
    simpa [State.taking] using hn p.other
  have hone := (s.taking p tag q .awaitingTurn).readyPorts_one p (by simp [hnext]) hother
  have hent : (s.taking p tag q .awaitingTurn).agree.entering = none := by simpa [State.taking] using he
  have hmove := (s.taking p tag q .awaitingTurn).moveOn_of_one p hent hone
  have hlen : 2 * ((s.taking p tag q .awaitingTurn).portA.requests.length +
      (s.taking p tag q .awaitingTurn).portB.requests.length) + 1 =
      2 * (s.portA.requests.length + s.portB.requests.length) + 3 := by
    cases p <;> simp [State.taking, State.setPort, State.port, PortUnit.withRequest, State.openEvent] <;> omega
  have happ : ((s.openEvent.silent p (8 * (1 + frameLength q))).updPort p
      fun u => { u with requests := u.requests ++ [⟨tag, q, .awaitingTurn⟩] }) = s.taking p tag q .awaitingTurn := by
    simp [State.taking, State.silent, State.updPort, PortUnit.withRequest]
  have hpres : (s.taking p tag q .awaitingTurn).presentNext p = (s.taking p tag q .awaitingTurn).present p tag q := by
    simp [State.presentNext, hnext]
  have hreq : ((s.openEvent.silent p (8 * (1 + frameLength q))).port p).requests = (s.port p).requests := by
    simp [State.silent]
  simp only [State.submit, State.closeOpen, State.openEvent_port, hi, if_true, State.takeSubmit, hreq, hroom, if_false, hclash,
    Bool.false_eq_true, happ]
  rw [hmove, hpres, hlen]

/-- The same where nothing more is to be presented afterwards. -/
theorem State.submit_taken_still (s : State) (p : PortId) (tag : Byte) (q : Request) (t : State) (hq : Quiet s)
    (hc : CanTake s p tag) (ht : (s.taking p tag q .awaitingTurn).present p tag q = t) (he : t.agree.entering = none)
    (hr : t.readyPorts = []) : s.openEvent.submit p tag q = t := by
  rw [s.submit_taken p tag q hq hc, ht, t.advance_of_still _ he hr]

/-! ### Completing the request just taken -/

theorem Record.isOpen_of_ne (r : Record) (tag : Byte) (h : r.tag ≠ tag) : r.isOpen tag = false := by simp [Record.isOpen, h]

theorem Record.isOpen_new (tag : Byte) (q : Request) (st : RecordState) (h : st ≠ .complete) :
    Record.isOpen tag ⟨tag, q, st⟩ = true := by
  simp [Record.isOpen, h]

/-- The open record of a new request is found at the tail of the list. -/
theorem PortUnit.find_new (u : PortUnit) (tag : Byte) (q : Request) (st : RecordState)
    (hf : ∀ r ∈ u.requests, r.tag ≠ tag) (hst : st ≠ .complete) :
    (u.requests ++ [(⟨tag, q, st⟩ : Record)]).find? (Record.isOpen tag) = some ⟨tag, q, st⟩ := by
  have h : u.requests.find? (Record.isOpen tag) = none := by
    rw [List.find?_eq_none]
    exact fun r hr => by simp [r.isOpen_of_ne tag (hf r hr)]
  simp [List.find?_append, h, Record.isOpen_new tag q st hst]

/-- What is done to the open record of a new request is done to no other. -/
theorem PortUnit.map_new (u : PortUnit) (tag : Byte) (q : Request) (st : RecordState) (f : Record → Record)
    (hf : ∀ r ∈ u.requests, r.tag ≠ tag) (hst : st ≠ .complete) :
    ((u.requests ++ [(⟨tag, q, st⟩ : Record)]).map fun r => if r.isOpen tag then f r else r) = u.requests ++ [f ⟨tag, q, st⟩] := by
  have hm : (u.requests.map fun r => if r.isOpen tag then f r else r) = u.requests := by
    conv => rhs; rw [← List.map_id u.requests]
    refine List.map_congr_left fun r hr => ?_
    simp [r.isOpen_of_ne tag (hf r hr)]
  rw [List.map_append, hm]
  simp [Record.isOpen_new tag q st hst]

/-- Completing the request just taken, in an event that has made no frame for the port: COMPLETE, with its completion at the
tail of the queue. -/
theorem PortUnit.complete_new (u : PortUnit) (tag : Byte) (q : Request) (st : RecordState) (status : Status) (res : Result)
    (hf : ∀ r ∈ u.requests, r.tag ≠ tag) (hst : st ≠ .complete) :
    (u.withRequest tag q st).complete u.queue.length tag status res = u.answered tag q status res := by
  simp [PortUnit.complete, PortUnit.withRequest, u.find_new tag q st hf hst, u.map_new tag q st _ hf hst, PortUnit.answered,
    insertCompletion, Record.finished, -List.map_append]

theorem State.base_openEvent (s : State) (p : PortId) : s.openEvent.base p = (s.port p).queue.length := by cases p <;> rfl

theorem State.base_setPort (s : State) (p q : PortId) (u : PortUnit) : (s.setPort p u).base q = s.base q := by
  cases p <;> cases q <;> rfl

/-- The request just taken is answered. -/
theorem State.taking_complete (s : State) (p : PortId) (tag : Byte) (q : Request) (st : RecordState) (status : Status)
    (res : Result) (hf : ∀ r ∈ (s.port p).requests, r.tag ≠ tag) (hst : st ≠ .complete := by decide) :
    (s.taking p tag q st).complete p tag status res = s.answering p tag q status res := by
  simp [State.complete, State.updPort, State.taking, State.answering, State.base_setPort, State.base_openEvent,
    (s.port p).complete_new tag q st status res hf hst]

/-- An answered request leaves nothing to present. -/
theorem State.answering_still (s : State) (p : PortId) (tag : Byte) (q : Request) (status : Status) (res : Result)
    (hq : Quiet s) (hc : CanTake s p tag) :
    (s.answering p tag q status res).agree.entering = none ∧ (s.answering p tag q status res).readyPorts = [] := by
  obtain ⟨_, _, he, hr⟩ := hq
  obtain ⟨_, _, _, hw⟩ := hc
  have hn := (s.readyPorts_nil).mp hr
  refine ⟨by simpa [State.answering] using he, ?_⟩
  rw [State.readyPorts_nil]
  intro x
  have hp : ((s.port p).answered tag q status res).nextToPresent = none :=
    (s.port p).next_of_moved .complete ⟨tag, withoutPayload q, .complete⟩ (hn p) hw rfl (by decide)
  by_cases hx : x = p
  · subst hx
    simpa [State.answering] using hp
  · have : x = p.other := by cases x <;> cases p <;> simp_all [PortId.other]
    subst this
    simpa [State.answering] using hn p.other

end Sys2Proof.Machine
end

