-- ==== Sys2Proof/Laws/Requests.lean ====
section
/-! SUPPORT. The request rows: every row is the SUBMIT of its request, and what presenting the request just taken does. -/

namespace Sys2Proof.Machine

theorem mem_requestCodes (c : Byte) : requestCodes.contains c = true ↔
    c = 0x01 ∨ c = 0x02 ∨ c = 0x10 ∨ c = 0x11 ∨ c = 0x12 ∨ c = 0x20 ∨ c = 0x21 ∨ c = 0x22 ∨ c = 0x23 ∨ c = 0x24 ∨
    c = 0x30 ∨ c = 0x31 ∨ c = 0x32 ∨ c = 0x40 ∨ c = 0x41 ∨ c = 0x42 ∨ c = 0x43 := by
  simp [requestCodes]

/-- A header with a code outside the seventeen states an unknown request (R58, R68). -/
theorem requestOfHeader_unknown (c tag : Byte) (rest : List Byte) (h : requestCodes.contains c = false) :
    requestOfHeader (c :: tag :: rest) [] = .unknown c := by
  have h' : ¬ requestCodes.contains c = true := by simpa using h
  rw [mem_requestCodes] at h'
  simp only [not_or] at h'
  obtain ⟨h1, h2, h3, h4, h5, h6, h7, h8, h9, h10, h11, h12, h13, h14, h15, h16, h17⟩ := h'
  unfold requestOfHeader
  simp only [List.getD_cons_zero]
  rw [if_neg h1, if_neg h2, if_neg h3, if_neg h4, if_neg h5, if_neg h6, if_neg h7, if_neg h8, if_neg h9, if_neg h10,
    if_neg h11, if_neg h12, if_neg h13, if_neg h14, if_neg h15, if_neg h16, if_neg h17]

/-- The row of a request that a frame carries whole is its SUBMIT (R177, R178). -/
theorem exec_rowOf (p : PortId) (tag : Byte) (q : Request) (s : State) (h : keptWhole q = true) :
    exec (rowOf p tag q) s = .next (s.fromOutside fun t => t.submit p tag q) := by
  cases q with
  | write r c o d =>
    simp only [keptWhole, Bool.and_eq_true, decide_eq_true_eq] at h
    simp [rowOf, exec, execWrite, h.1, h.2]
  | unknown c =>
    have hc : requestCodes.contains c = false := by simpa [keptWhole] using h
    simp only [rowOf, exec, execUnknownRequestCode, requestOfHeader_unknown c tag _ hc]
  | _ => rfl

theorem State.refusal_taking (s : State) (p : PortId) (tag : Byte) (q x : Request) (st : RecordState) :
    (s.taking p tag x st).refusal p q = s.refusal p q := by
  have hr : (s.taking p tag x st).regionRefusal p q = s.regionRefusal p q := by
    unfold State.regionRefusal
    simp [State.taking]
  simp [State.refusal, hr, State.mediaDown, State.atRest]
  simp [State.taking, PortUnit.withRequest]

/-- A request refused at presentation is answered with its status and has no other effect (R57, R62). -/
theorem State.present_refused (s : State) (p : PortId) (tag : Byte) (q : Request) (st : Status)
    (hf : ∀ r ∈ (s.port p).requests, r.tag ≠ tag) (h : s.refusal p q = some st) :
    (s.taking p tag q .awaitingTurn).present p tag q = s.answering p tag q st .blank := by
  simp [State.present, s.refusal_taking, h, s.taking_complete p tag q .awaitingTurn st .blank hf]

/-- A request that passes its checks is dispatched (R60). -/
theorem State.present_passed (s : State) (p : PortId) (tag : Byte) (q : Request) (h : s.refusal p q = none) :
    (s.taking p tag q .awaitingTurn).present p tag q = (s.taking p tag q .awaitingTurn).dispatch p tag q := by
  simp [State.present, s.refusal_taking, h]

/-- A command from a port between two events, whose request is taken, and after which nothing more is to be presented. -/
theorem exec_request (s : State) (p : PortId) (tag : Byte) (q : Request) (t : State) (hk : keptWhole q = true)
    (hq : Quiet s) (hc : CanTake s p tag) (h : s.refusal p q = none)
    (ht : (s.taking p tag q .awaitingTurn).dispatch p tag q = t) (he : t.agree.entering = none) (hr : t.readyPorts = []) :
    exec (rowOf p tag q) s = .next t := by
  rw [exec_rowOf p tag q s hk, s.fromOutside_quiet _ hq.1 hq.2.1]
  rw [s.submit_taken_still p tag q t hq hc ((s.present_passed p tag q h).trans ht) he hr]

/-- The same for a request that is answered at dispatch with no other effect. -/
theorem exec_request_answered (s : State) (p : PortId) (tag : Byte) (q : Request) (st : Status) (res : Result)
    (hk : keptWhole q = true) (hq : Quiet s) (hc : CanTake s p tag) (h : s.refusal p q = none)
    (ht : (s.taking p tag q .awaitingTurn).dispatch p tag q = s.answering p tag q st res) :
    exec (rowOf p tag q) s = .next (s.answering p tag q st res) :=
  exec_request s p tag q _ hk hq hc h ht (s.answering_still p tag q st res hq hc).1 (s.answering_still p tag q st res hq hc).2

/-! ### Nothing to present -/

/-- No request of the port unit awaits its turn or waits for slots. -/
def PortUnit.still (u : PortUnit) : Prop := ∀ r ∈ u.requests, r.state ≠ .awaitingTurn ∧ r.state ≠ .awaitingSlots

theorem PortUnit.still.next {u : PortUnit} (h : u.still) : u.nextToPresent = none := by
  have h2 : u.requests.find? (fun r => r.state == .awaitingTurn) = none := by
    simp only [List.find?_eq_none]
    intro r hr
    simpa using (h r hr).1
  unfold PortUnit.nextToPresent
  simp only [h2]
  split <;> rfl

theorem PortUnit.still_of_quiet (u : PortUnit) (h : u.nextToPresent = none) (hw : ∀ r ∈ u.requests, r.state ≠ .awaitingSlots) :
    u.still := fun r hr => ⟨u.none_awaits h hw r hr, hw r hr⟩

theorem State.readyPorts_of_still (s : State) (p : PortId) (h : (s.port p).still)
    (ho : (s.port p.other).nextToPresent = none) : s.readyPorts = [] := by
  rw [s.readyPorts_nil]
  intro x
  by_cases hx : x = p
  · subst hx
    exact h.next
  · have : x = p.other := by cases x <;> cases p <;> simp_all [PortId.other]
    subst this
    exact ho

/-- A request that is added in a state past presentation leaves the port still. -/
theorem PortUnit.still_append (u : PortUnit) (r : Record) (h : u.still)
    (hr : r.state ≠ .awaitingTurn ∧ r.state ≠ .awaitingSlots) :
    ({ u with requests := u.requests ++ [r] } : PortUnit).still := by
  intro x hx
  simp only [List.mem_append, List.mem_singleton] at hx
  rcases hx with hx | rfl
  · exact h x hx
  · exact hr

theorem State.port_still (s : State) (p : PortId) (tag : Byte) (hq : Quiet s) (hc : CanTake s p tag) : (s.port p).still :=
  (s.port p).still_of_quiet ((s.readyPorts_nil.mp hq.2.2.2) p) hc.2.2.2

theorem State.other_next (s : State) (p : PortId) (hq : Quiet s) : (s.port p.other).nextToPresent = none :=
  (s.readyPorts_nil.mp hq.2.2.2) p.other

/-! ### Notices leave requests alone -/

theorem PortUnit.acceptNotice_requests (u : PortUnit) (n : Notice) : (u.acceptNotice n).requests = u.requests := by
  unfold PortUnit.acceptNotice
  split
  · rfl
  · split <;> rfl

theorem PortUnit.acceptNotice_next (u : PortUnit) (n : Notice) : (u.acceptNotice n).nextToPresent = u.nextToPresent := by
  simp [PortUnit.nextToPresent, u.acceptNotice_requests n]

theorem State.offer_next (s : State) (p x : PortId) (n : Notice) :
    ((s.offer p n).port x).nextToPresent = (s.port x).nextToPresent := by
  cases p <;> cases x <;>
    simp [State.offer, State.updPort, State.setPort, State.port, PortUnit.acceptNotice_next]

theorem State.offer_readyPorts (s : State) (p : PortId) (n : Notice) : (s.offer p n).readyPorts = s.readyPorts := by
  simp [State.readyPorts, s.offer_next]

theorem State.offerBoth_readyPorts (s : State) (n : Notice) : (s.offerBoth n).readyPorts = s.readyPorts := by
  simp [State.offerBoth, State.offer_readyPorts]

end Sys2Proof.Machine
end

