-- ==== Sys2Proof/Laws/Present.lean ====
section
/-! SUPPORT. Presentation ends: presenting a request takes it out of those that await their turn and adds none, so that
presentation always moves on until nothing is left to present, whatever its fuel beyond what is needed. -/

namespace Sys2Proof.Machine

/-! ### How a request list moves -/

/-- A record keeps its tag, and its state stays or is past presentation. -/
def Record.MovesTo (r r' : Record) : Prop := r'.tag = r.tag ∧ (r'.state = r.state ∨ r'.state ≠ .awaitingTurn)

/-- A request list whose records have only moved on. -/
def ListMoved (xs ys : List Record) : Prop := List.Forall₂ Record.MovesTo xs ys

theorem Record.MovesTo.refl (r : Record) : r.MovesTo r := ⟨rfl, .inl rfl⟩

theorem Record.MovesTo.trans {a b c : Record} (h : a.MovesTo b) (k : b.MovesTo c) : a.MovesTo c := by
  refine ⟨k.1.trans h.1, ?_⟩
  rcases k.2 with k2 | k2
  · rw [k2]
    exact h.2
  · exact .inr k2

theorem ListMoved.refl (xs : List Record) : ListMoved xs xs := by
  induction xs with
  | nil => exact .nil
  | cons x xs ih => exact .cons (.refl x) ih

theorem ListMoved.trans {xs ys zs : List Record} (h : ListMoved xs ys) (k : ListMoved ys zs) : ListMoved xs zs := by
  induction h generalizing zs with
  | nil => cases k; exact .nil
  | cons h1 _ ih =>
    cases k with
    | cons k1 k2 => exact .cons (h1.trans k1) (ih k2)

theorem ListMoved.map (xs : List Record) (f : Record → Record) (h : ∀ r : Record, r.MovesTo (f r)) : ListMoved xs (xs.map f) := by
  induction xs with
  | nil => exact .nil
  | cons x xs ih => exact .cons (h x) ih

/-- The request lists of both ports have only moved on. -/
def State.Moved (s t : State) : Prop := ∀ x, ListMoved (s.port x).requests (t.port x).requests

theorem State.Moved.refl (s : State) : s.Moved s := fun _ => .refl _

theorem State.Moved.trans {s t u : State} (h : s.Moved t) (k : t.Moved u) : s.Moved u := fun x => (h x).trans (k x)

/-- States with the same port units. -/
theorem State.Moved.of_ports {s t : State} (hA : t.portA = s.portA) (hB : t.portB = s.portB) : s.Moved t := by
  intro x
  cases x
  · simpa [State.port, hA] using ListMoved.refl s.portA.requests
  · simpa [State.port, hB] using ListMoved.refl s.portB.requests

/-- A move that starts from a state with the same port units. -/
theorem State.Moved.starting {s t u : State} (k : t.Moved u) (hA : t.portA = s.portA) (hB : t.portB = s.portB) : s.Moved u :=
  State.Moved.trans (.of_ports hA hB) k

/-- A move that ends in a state with the same port units. -/
theorem State.Moved.ending {s t u : State} (k : s.Moved t) (hA : u.portA = t.portA) (hB : u.portB = t.portB) : s.Moved u :=
  State.Moved.trans k (.of_ports hA hB)

/-- No record of the port with this tag awaits its turn. -/
def State.Past (s : State) (p : PortId) (tag : Byte) : Prop :=
  ∀ r ∈ (s.port p).requests, r.tag = tag → r.state ≠ .awaitingTurn

theorem ListMoved.past {xs ys : List Record} (h : ListMoved xs ys) (tag : Byte)
    (hx : ∀ r ∈ xs, r.tag = tag → r.state ≠ .awaitingTurn) : ∀ r ∈ ys, r.tag = tag → r.state ≠ .awaitingTurn := by
  induction h with
  | nil => intro r hr; cases hr
  | cons h1 _ ih =>
    intro r hr ht
    rcases List.mem_cons.mp hr with rfl | hr
    · rcases h1.2 with h2 | h2
      · rw [h2]
        exact hx _ (by simp) (h1.1 ▸ ht)
      · exact h2
    · exact ih (fun r hr => hx r (by simp [hr])) r hr ht

theorem State.Past.moved {s t : State} {p : PortId} {tag : Byte} (h : s.Past p tag) (m : s.Moved t) : t.Past p tag :=
  (m p).past tag h

/-! ### Port operations -/

theorem State.moved_updPort (s : State) (p : PortId) (f : PortUnit → PortUnit)
    (h : ∀ u : PortUnit, ListMoved u.requests (f u).requests) : s.Moved (s.updPort p f) := by
  intro x
  cases p <;> cases x <;> first | exact h _ | exact ListMoved.refl _

theorem PortUnit.complete_moved (u : PortUnit) (base : Nat) (tag : Byte) (st : Status) (res : Result) :
    ListMoved u.requests (u.complete base tag st res).requests := by
  unfold PortUnit.complete
  split
  · exact .refl _
  · refine ListMoved.map _ _ fun r => ?_
    split
    · exact ⟨rfl, .inr (by simp [Record.finished])⟩
    · exact .refl r

theorem State.complete_moved (s : State) (p : PortId) (tag : Byte) (st : Status) (res : Result) :
    s.Moved (s.complete p tag st res) := s.moved_updPort p _ fun u => u.complete_moved _ _ _ _

/-- What is done to the open record of a tag leaves no record of the tag that awaits its turn. -/
theorem Record.changed_past (a : Record) (tag : Byte) (f : Record → Record) (hf : (f a).state ≠ .awaitingTurn)
    (ht : (if a.isOpen tag then f a else a).tag = tag) : (if a.isOpen tag then f a else a).state ≠ .awaitingTurn := by
  by_cases hb : a.isOpen tag = true
  · rw [if_pos hb]
    exact hf
  · rw [if_neg hb] at ht ⊢
    intro hs
    exact hb (by simp [Record.isOpen, ht, hs])

theorem PortUnit.complete_past (u : PortUnit) (base : Nat) (tag : Byte) (st : Status) (res : Result) :
    ∀ r ∈ (u.complete base tag st res).requests, r.tag = tag → r.state ≠ .awaitingTurn := by
  unfold PortUnit.complete
  split
  · next h =>
    intro r hr ht hs
    exact absurd (List.find?_eq_none.mp h r hr) (by simp [Record.isOpen, ht, hs])
  · intro r hr ht
    simp only [List.mem_map] at hr
    obtain ⟨a, _, rfl⟩ := hr
    exact a.changed_past tag Record.finished (by simp [Record.finished]) ht

theorem State.complete_past (s : State) (p : PortId) (tag : Byte) (st : Status) (res : Result) :
    (s.complete p tag st res).Past p tag := by
  intro r hr
  simp only [State.complete, State.updPort_port] at hr
  exact (s.port p).complete_past _ tag st res r hr

theorem State.setRecord_moved (s : State) (p : PortId) (tag : Byte) (st : RecordState) (h : st ≠ .awaitingTurn) :
    s.Moved (s.setRecord p tag st) := by
  refine s.moved_updPort p _ fun u => ListMoved.map _ _ fun r => ?_
  split
  · exact ⟨rfl, .inr h⟩
  · exact .refl r

theorem State.setRecord_past (s : State) (p : PortId) (tag : Byte) (st : RecordState) (h : st ≠ .awaitingTurn) :
    (s.setRecord p tag st).Past p tag := by
  intro r hr ht
  simp only [State.setRecord, State.updPort_port, List.mem_map] at hr
  obtain ⟨a, _, rfl⟩ := hr
  exact a.changed_past tag (fun x => { x with state := st }) h ht

theorem State.startRecord_moved (s : State) (p : PortId) (tag : Byte) : s.Moved (s.startRecord p tag) := by
  refine s.moved_updPort p _ fun u => ListMoved.map _ _ fun r => ?_
  split
  · exact ⟨rfl, .inr (by simp)⟩
  · exact .refl r

theorem State.startRecord_past (s : State) (p : PortId) (tag : Byte) : (s.startRecord p tag).Past p tag := by
  intro r hr ht
  simp only [State.startRecord, State.updPort_port, List.mem_map] at hr
  obtain ⟨a, _, rfl⟩ := hr
  exact a.changed_past tag (fun x => { x with state := .started, request := withoutPayload x.request }) (by simp) ht

theorem State.finish_moved (s : State) (p : PortId) (tag : Byte) (d : Bool) (st : Status) (res : Result) :
    s.Moved (s.finish p tag d st res) := by
  unfold State.finish
  split
  · exact .refl s
  · exact s.complete_moved p tag st res

theorem State.offer_moved (s : State) (p : PortId) (n : Notice) : s.Moved (s.offer p n) :=
  s.moved_updPort p _ fun u => by rw [u.acceptNotice_requests n]; exact .refl _

theorem State.offerBoth_moved (s : State) (n : Notice) : s.Moved (s.offerBoth n) :=
  (s.offer_moved .A n).trans ((s.offer .A n).offer_moved .B n)

theorem State.offers_moved (offers : List (PortId × Notice)) (s : State) :
    s.Moved (offers.foldl (fun t x => t.offer x.1 x.2) s) := by
  induction offers generalizing s with
  | nil => exact .refl s
  | cons x xs ih => exact (s.offer_moved x.1 x.2).trans (ih _)

theorem State.offerInAnyOrder_moved (s : State) (offers : List (PortId × Notice)) : s.Moved (s.offerInAnyOrder offers) :=
  (s.offers_moved _).ending rfl rfl

theorem State.completeAll_moved (p : PortId) (tags : List Byte) (st : Status) (s : State) :
    s.Moved (s.completeAll p tags st) := by
  unfold State.completeAll
  induction tags generalizing s with
  | nil => exact .refl s
  | cons x xs ih => exact (s.complete_moved p x st .blank).trans (ih _)

theorem State.finishWaiters_moved (ws : List Waiter) (st : Status) (s : State) : s.Moved (s.finishWaiters ws st) := by
  unfold State.finishWaiters
  induction ws generalizing s with
  | nil => exact .refl s
  | cons x xs ih => exact (s.finish_moved x.port x.tag x.detached st .blank).trans (ih _)

theorem State.endWaitingWrite_moved (s : State) (p : PortId) (names : Fin 16 → Bool) (st : Status) :
    s.Moved (s.endWaitingWrite p names st) := by
  unfold State.endWaitingWrite
  split
  · exact .refl s
  · split
    · split
      · exact s.complete_moved p _ st .blank
      · exact .refl s
    · exact .refl s

theorem State.endNotStarted_moved (s : State) (p : PortId) (r : Fin 16) : s.Moved (s.endNotStarted p r) := by
  unfold State.endNotStarted
  dsimp only
  refine .trans ?_ (State.endWaitingWrite_moved _ p _ _)
  exact (State.completeAll_moved p _ _ _).starting rfl rfl

theorem State.renewIfHolder_moved (s : State) (p : PortId) (r : Fin 16) : s.Moved (s.renewIfHolder p r) :=
  .of_ports (by simp) (by simp)

theorem State.endProposal_moved (s : State) (pr : Proposal) (reason : OutcomeReason) : s.Moved (s.endProposal pr reason) :=
  (State.offerBoth_moved _ _).starting rfl rfl

theorem State.goOffline_moved (s : State) (p : PortId) : s.Moved (s.goOffline p) := by
  have h : s.Moved ((s.updPort p fun u => { u with online := false }).dropHoldsOf p) :=
    (s.moved_updPort p (fun u => { u with online := false }) fun u => ListMoved.refl _).ending rfl rfl
  unfold State.goOffline
  dsimp only
  generalize (s.updPort p fun u => { u with online := false }).dropHoldsOf p = t at h ⊢
  split
  · refine State.Moved.trans ?_ (State.offerInAnyOrder_moved _ _)
    exact h.ending rfl rfl
  · exact h.trans (State.offer_moved _ _ _)

/-! ### The apply and entry to APPLYING -/

theorem State.requestCheckpoint_moved (s : State) : s.Moved s.requestCheckpoint := .of_ports rfl rfl

theorem State.applyTables_moved (s : State) (c : Change) : s.Moved (s.applyTables c) := by
  cases c <;> exact .of_ports rfl rfl

theorem State.applyProposal_moved (s : State) (pr : Proposal) : s.Moved (s.applyProposal pr) := by
  have h1 : s.Moved ((s.applyTables pr.change).mapRegions pr.change.newRecord) :=
    (s.applyTables_moved pr.change).ending rfl rfl
  unfold State.applyProposal
  dsimp only
  generalize ((s.applyTables pr.change).mapRegions pr.change.newRecord) = t at h1 ⊢
  have h2 (b : Staging) (xs : List (PortId × Notice)) (f : Fin 16 → Region → Region) (reason : OutcomeReason) :
      s.Moved (((({ t with staging := b } : State).offerInAnyOrder xs).mapRegions f).endProposal pr reason) := by
    refine State.Moved.trans ?_ (State.endProposal_moved _ pr reason)
    refine State.Moved.ending (.trans ?_ (State.offerInAnyOrder_moved _ xs)) rfl rfl
    exact h1.ending rfl rfl
  split
  · exact (h2 _ _ _ _).trans (State.requestCheckpoint_moved _)
  · exact h2 _ _ _ _

theorem State.enterApplying_moved (s : State) (p : PortId) (pr : Proposal) : s.Moved (s.enterApplying p pr) := by
  unfold State.enterApplying
  dsimp only
  refine State.Moved.ending (.trans ?_ (State.endWaitingWrite_moved _ .B _ _)) rfl rfl
  exact (State.endWaitingWrite_moved _ .A _ _).starting rfl rfl

theorem State.endEntering_moved (s : State) : s.Moved s.endEntering := by
  unfold State.endEntering
  dsimp only
  split
  · exact (State.applyProposal_moved _ _).starting rfl rfl
  · exact .of_ports rfl rfl

/-! ### Presentation of a request -/

/-- What every dispatch does to the request lists: they only move on, and the request is past presentation. -/
def State.Presents (s t : State) (p : PortId) (tag : Byte) : Prop := s.Moved t ∧ t.Past p tag

theorem State.complete_presents (s : State) (p : PortId) (tag : Byte) (st : Status) (res : Result) :
    s.Presents (s.complete p tag st res) p tag := ⟨s.complete_moved p tag st res, s.complete_past p tag st res⟩

theorem State.Presents.after {s t u : State} {p : PortId} {tag : Byte} (h : s.Presents t p tag) (k : t.Moved u) :
    s.Presents u p tag := ⟨h.1.trans k, h.2.moved k⟩

theorem State.Presents.before {s t u : State} {p : PortId} {tag : Byte} (h : s.Moved t) (k : t.Presents u p tag) :
    s.Presents u p tag := ⟨h.trans k.1, k.2⟩

/-- Presentation that starts from a state with the same port units. -/
theorem State.Presents.starting {s t u : State} {p : PortId} {tag : Byte} (k : t.Presents u p tag) (hA : t.portA = s.portA)
    (hB : t.portB = s.portB) : s.Presents u p tag := ⟨k.1.starting hA hB, k.2⟩

theorem State.started_presents (s : State) (p : PortId) (tag : Byte) : s.Presents (s.startRecord p tag) p tag :=
  ⟨s.startRecord_moved p tag, s.startRecord_past p tag⟩

theorem State.attach_presents (s : State) (p : PortId) (tag : Byte) : s.Presents (s.attach p tag) p tag := by
  have h : s.Moved (s.updPort p fun u => { u with online := true }) := s.moved_updPort p _ fun u => ListMoved.refl _
  have k := State.Presents.before h
    ((s.updPort p fun u => { u with online := true }).complete_presents p tag .ok
      (.attach p s.service.state s.link.media s.store.loaded s.agree.phase (s.port p.other).online))
  unfold State.attach
  dsimp only
  split
  · exact k
  · exact k.after (State.offer_moved _ _ _)

theorem State.detach_presents (s : State) (p : PortId) (tag : Byte) : s.Presents (s.detach p tag) p tag := by
  unfold State.detach
  split
  · exact s.complete_presents p tag _ _
  · exact (s.complete_presents p tag _ _).after (State.goOffline_moved _ p)

theorem State.dispatchRead_presents (s : State) (p : PortId) (tag : Byte) (r : Fin 16) (c : Byte) (o : Word24) :
    s.Presents (s.dispatchRead p tag r c o) p tag := by
  unfold State.dispatchRead
  dsimp only
  split
  · exact .before (s.renewIfHolder_moved p r) (State.complete_presents _ p tag _ _)
  · refine .before (s.renewIfHolder_moved p r) ⟨?_, ?_⟩
    · exact (State.setRecord_moved _ p tag .dispatched (by simp)).ending rfl rfl
    · exact (State.setRecord_past (s.renewIfHolder p r) p tag .dispatched (by simp)).moved (.of_ports rfl rfl)

theorem State.placeWrite_presents (s : State) (p : PortId) (tag : Byte) (r : Fin 16) (c : Byte) (o : Word24) (d : List Byte) :
    s.Presents (s.placeWrite p tag r c o d) p tag := by
  have k (b : Staging) : s.Presents ((({ s with staging := b } : State).startRecord p tag).renewIfHolder p r) p tag := by
    refine State.Presents.after ?_ (State.renewIfHolder_moved _ p r)
    exact State.Presents.starting (State.started_presents { s with staging := b } p tag) rfl rfl
  unfold State.placeWrite
  dsimp only
  split
  · exact (k _).after (.of_ports rfl rfl)
  · exact (k _).after (State.complete_moved _ p tag _ _)

theorem State.writeIntake_presents (s : State) (p : PortId) (tag : Byte) (r : Fin 16) (c : Byte) (o : Word24) (d : List Byte) :
    s.Presents (s.writeIntake p tag r c o d) p tag := by
  unfold State.writeIntake
  split
  · exact s.placeWrite_presents p tag r c o d
  · exact ⟨s.setRecord_moved p tag _ (by simp), s.setRecord_past p tag _ (by simp)⟩

theorem State.dispatchFlush_presents (s : State) (p : PortId) (tag : Byte) (scope : FlushScope) :
    s.Presents (s.dispatchFlush p tag scope) p tag := by
  have h (t : State) (m : s.Moved t) (d : Bool) (w : FlushWaiter) : s.Presents (if d = true then t.complete p tag .ok (.lost 0)
      else { t.startRecord p tag with staging :=
        { (t.startRecord p tag).staging with flushWaiters := (t.startRecord p tag).staging.flushWaiters ++ [w] } }) p tag := by
    split
    · exact .before m (t.complete_presents p tag _ _)
    · exact (State.Presents.before m (t.started_presents p tag)).after (.of_ports rfl rfl)
  cases scope with
  | all => exact h s (.refl s) _ _
  | one r => exact h (s.renewIfHolder p r) (s.renewIfHolder_moved p r) _ _

theorem State.claim_presents (s : State) (p : PortId) (tag : Byte) (r : Fin 16) : s.Presents (s.claim p tag r) p tag := by
  have take := State.Presents.before (t := s.hold p r) (.of_ports rfl rfl)
    (State.complete_presents (s.hold p r) p tag .ok (.lease (s.region r).leasePeriod))
  unfold State.claim
  dsimp only
  split
  · exact s.complete_presents p tag _ _
  · split
    · exact take
    · split
      · exact take
      · exact s.complete_presents p tag _ _

theorem State.renew_presents (s : State) (p : PortId) (tag : Byte) (r : Fin 16) : s.Presents (s.renew p tag r) p tag := by
  unfold State.renew
  split
  · exact .before (t := s.hold p r) (.of_ports rfl rfl) (State.complete_presents _ p tag _ _)
  · exact s.complete_presents p tag _ _

theorem State.release_presents (s : State) (p : PortId) (tag : Byte) (r : Fin 16) : s.Presents (s.release p tag r) p tag := by
  unfold State.release
  split
  · refine State.Presents.before ?_ (State.complete_presents _ p tag _ _)
    exact State.Moved.starting (State.endNotStarted_moved (s.dropHold r) p r) rfl rfl
  · exact s.complete_presents p tag _ _

theorem State.lapseIfFixed_moved (s : State) (r : Fin 16) : s.Moved (s.lapseIfFixed r) := by
  unfold State.lapseIfFixed
  split
  · split
    · exact s.endProposal_moved _ _
    · exact .refl s
  · exact .refl s

theorem State.fix_presents (s : State) (p : PortId) (tag : Byte) (r : Fin 16) : s.Presents (s.fix p tag r) p tag := by
  unfold State.fix
  split
  · exact s.complete_presents p tag _ _
  · refine State.Presents.after ?_ (State.lapseIfFixed_moved _ r)
    refine State.Presents.before ?_ (State.complete_presents _ p tag _ _)
    exact .of_ports rfl rfl

theorem State.propose_presents (s : State) (p : PortId) (tag : Byte) (c : Change) (w : Nat) :
    s.Presents (s.propose p tag c w) p tag := by
  have k := State.Presents.before (t := s.takeProposal (s.newProposal p c w)) (.of_ports rfl rfl)
    (State.complete_presents (s.takeProposal (s.newProposal p c w)) p tag .ok
      (.proposal (s.newProposal p c w).id (s.newProposal p c w).report))
  unfold State.propose
  split
  · exact s.complete_presents p tag _ _
  · split
    · exact s.complete_presents p tag _ _
    · dsimp only
      split
      · exact k.after (State.enterApplying_moved _ p _)
      · split
        · exact k.after (State.offer_moved _ _ _)
        · exact s.complete_presents p tag _ _

theorem State.answer_presents (s : State) (p : PortId) (tag id a : Byte) : s.Presents (s.answer p tag id a) p tag := by
  have k := s.complete_presents p tag .ok .blank
  unfold State.answer
  split
  · split
    · dsimp only
      split
      · exact k.after (State.enterApplying_moved _ p _)
      · exact k.after (State.endProposal_moved _ _ _)
    · exact s.complete_presents p tag _ _
  · exact s.complete_presents p tag _ _

theorem State.withdraw_presents (s : State) (p : PortId) (tag id : Byte) : s.Presents (s.withdraw p tag id) p tag := by
  unfold State.withdraw
  split
  · split
    · split
      · exact s.complete_presents p tag _ _
      · exact (s.complete_presents p tag _ _).after (State.endProposal_moved _ _ _)
    · exact s.complete_presents p tag _ _
  · exact s.complete_presents p tag _ _

theorem State.beginQuiesce_presents (s : State) (p : PortId) (tag : Byte) : s.Presents (s.beginQuiesce p tag) p tag := by
  have k (q : ServiceControl) : s.Presents (({ s.startRecord p tag with service := q } : State).endWaitingWrite .A
      (fun _ => true) .quiesced |>.endWaitingWrite .B (fun _ => true) .quiesced) p tag :=
    (s.started_presents p tag).after
      (((State.endWaitingWrite_moved _ .A _ _).trans (State.endWaitingWrite_moved _ .B _ _)).starting rfl rfl)
  unfold State.beginQuiesce
  dsimp only
  split
  · exact (k _).after (State.requestCheckpoint_moved _)
  · exact k _

theorem State.quiesce_presents (s : State) (p : PortId) (tag : Byte) : s.Presents (s.quiesce p tag) p tag := by
  have hj : s.Presents (s.joinQuiesce p tag) p tag := by
    unfold State.joinQuiesce
    split
    · exact (s.started_presents p tag).after (.of_ports rfl rfl)
    · exact s.started_presents p tag
  have hb : s.Presents (if s.agree.proposal.isSome then s.complete p tag .proposalPending .blank
      else if s.mediaDown then s.complete p tag .mediaFault .blank else s.beginQuiesce p tag) p tag := by
    split
    · exact s.complete_presents p tag _ _
    · split
      · exact s.complete_presents p tag _ _
      · exact s.beginQuiesce_presents p tag
  unfold State.quiesce
  split
  · exact hj
  · exact s.complete_presents p tag _ _
  · exact hb
  · exact hb

theorem State.resume_presents (s : State) (p : PortId) (tag : Byte) : s.Presents (s.resume p tag) p tag := by
  unfold State.resume
  split
  · exact s.complete_presents p tag _ _
  · refine State.Presents.after ?_ (State.offer_moved _ _ _)
    refine State.Presents.before ?_ (State.complete_presents _ p tag _ _)
    exact .of_ports rfl rfl
  · exact s.complete_presents p tag _ _
  · exact s.complete_presents p tag _ _

theorem State.mediaRestart_presents (s : State) (p : PortId) (tag : Byte) : s.Presents (s.mediaRestart p tag) p tag := by
  unfold State.mediaRestart
  dsimp only
  split
  · exact (s.started_presents p tag).after (.of_ports rfl rfl)
  · split
    · exact s.complete_presents p tag _ _
    · exact (s.started_presents p tag).after (.of_ports rfl rfl)

theorem State.onRegion_presents (s : State) (p : PortId) (tag b : Byte) (f : Fin 16 → State)
    (hb : (regionOf b).isNone = false) (h : ∀ r, s.Presents (f r) p tag) : s.Presents (s.onRegion b f) p tag := by
  unfold State.onRegion
  split
  · exact h _
  · next h0 => simp [h0] at hb

/-- Presentation of any request: the request lists only move on, and the request is past presentation. -/
theorem State.present_presents (s : State) (p : PortId) (tag : Byte) (q : Request) : s.Presents (s.present p tag q) p tag := by
  unfold State.present
  split
  · exact s.complete_presents p tag _ _
  · next h =>
    have hbad : badFields q = false := by
      by_contra hb
      simp only [Bool.not_eq_false] at hb
      unfold State.refusal at h
      split at h
      · cases h
      · split at h
        · cases h
        · simp at h
    cases q with
    | attach => exact s.attach_presents p tag
    | detach => exact s.detach_presents p tag
    | read b c o =>
      simp only [badFields, Bool.or_eq_false_iff] at hbad
      exact s.onRegion_presents p tag b _ hbad.1 fun r => s.dispatchRead_presents p tag r c o
    | write b c o d =>
      simp only [badFields, Bool.or_eq_false_iff] at hbad
      exact s.onRegion_presents p tag b _ hbad.1 fun r => s.writeIntake_presents p tag r c o d
    | flush b =>
      simp only [badFields] at hbad
      unfold State.dispatch
      dsimp only
      split
      · exact s.dispatchFlush_presents p tag _
      · next h0 => simp [h0] at hbad
    | claim b => exact s.onRegion_presents p tag b _ hbad fun r => s.claim_presents p tag r
    | renew b => exact s.onRegion_presents p tag b _ hbad fun r => s.renew_presents p tag r
    | release b => exact s.onRegion_presents p tag b _ hbad fun r => s.release_presents p tag r
    | fix b => exact s.onRegion_presents p tag b _ hbad fun r => s.fix_presents p tag r
    | queryRegion b => exact s.onRegion_presents p tag b _ hbad fun r => s.complete_presents p tag _ _
    | propose f =>
      simp only [badFields] at hbad
      unfold State.dispatch
      dsimp only
      split
      · exact s.propose_presents p tag _ _
      · next h0 => simp [h0] at hbad
    | answer id a => exact s.answer_presents p tag id a
    | withdraw id => exact s.withdraw_presents p tag id
    | inquire => exact s.complete_presents p tag _ _
    | quiesce => exact s.quiesce_presents p tag
    | resume => exact s.resume_presents p tag
    | mediaRestart => exact s.mediaRestart_presents p tag
    | unknown c => exact s.complete_presents p tag _ _

/-! ### Presentation ends -/

/-- Requests of a list that await their turn. -/
def turns (xs : List Record) : Nat := xs.countP fun r => r.state == .awaitingTurn

theorem ListMoved.turns_le {xs ys : List Record} (h : ListMoved xs ys) : turns ys ≤ turns xs := by
  induction h with
  | nil => exact Nat.le_refl _
  | cons h1 _ ih =>
    rename_i a b xs ys _
    simp only [turns, List.countP_cons] at ih ⊢
    rcases h1.2 with h2 | h2
    · rw [h2]
      omega
    · have : (b.state == RecordState.awaitingTurn) = false := by simpa using h2
      simp only [this]
      split <;> first | omega | simp_all

theorem ListMoved.turns_lt {xs ys : List Record} (h : ListMoved xs ys) (tag : Byte)
    (hx : ∃ r ∈ xs, r.tag = tag ∧ r.state = .awaitingTurn) (hy : ∀ r ∈ ys, r.tag = tag → r.state ≠ .awaitingTurn) :
    turns ys < turns xs := by
  induction h with
  | nil =>
    obtain ⟨r, hr, _⟩ := hx
    cases hr
  | cons h1 h2 ih =>
    rename_i a b xs ys
    obtain ⟨r, hr, ht, hs⟩ := hx
    simp only [turns, List.countP_cons]
    have hle := ListMoved.turns_le h2
    simp only [turns] at hle
    rcases List.mem_cons.mp hr with rfl | hr
    · have hb : b.state ≠ .awaitingTurn := hy b (by simp) (h1.1.trans ht)
      have hb' : (b.state == RecordState.awaitingTurn) = false := by simpa using hb
      have ha' : (r.state == RecordState.awaitingTurn) = true := by simp [hs]
      simp only [hb', ha']
      simp
      omega
    · have hlt := ih ⟨r, hr, ht, hs⟩ (fun r hr => hy r (by simp [hr]))
      simp only [turns] at hlt
      rcases h1.2 with h3 | h3
      · rw [h3]
        omega
      · have hb' : (b.state == RecordState.awaitingTurn) = false := by simpa using h3
        simp only [hb']
        split <;> first | omega | simp_all

/-- How much presentation is left: two for each request that awaits its turn, one for an entry to APPLYING. -/
def State.left (s : State) : Nat :=
  2 * (turns s.portA.requests + turns s.portB.requests) + if s.agree.entering.isSome then 1 else 0

theorem State.presentNext_turns (s : State) (p : PortId) (h : (s.port p).nextToPresent.isSome = true) :
    turns (s.presentNext p).portA.requests + turns (s.presentNext p).portB.requests <
      turns s.portA.requests + turns s.portB.requests := by
  obtain ⟨r, hr⟩ := Option.isSome_iff_exists.mp h
  have hfind : (s.port p).requests.find? (fun x => x.state == .awaitingTurn) = some r := by
    unfold PortUnit.nextToPresent at hr
    split at hr
    · cases hr
    · exact hr
  have hmem := List.mem_of_find?_eq_some hfind
  have hstate : r.state = .awaitingTurn := by simpa using List.find?_some hfind
  have hp := s.present_presents p r.tag r.request
  have heq : s.presentNext p = s.present p r.tag r.request := by simp [State.presentNext, hr]
  rw [heq]
  have hA := (hp.1 .A).turns_le
  have hB := (hp.1 .B).turns_le
  have hlt := (hp.1 p).turns_lt r.tag ⟨r, hmem, rfl, hstate⟩ hp.2
  cases p <;> simp only [State.port] at hA hB hlt <;> omega

theorem State.chose_ports {α : Type} (s : State) (xs : List α) :
    (s.chose xs).portA = s.portA ∧ (s.chose xs).portB = s.portB ∧ (s.chose xs).agree = s.agree := by
  unfold State.chose
  split <;> exact ⟨rfl, rfl, rfl⟩

theorem pick_mem {α : Type} (xs : List α) (n : Nat) (x : α) (h : pick xs n = some x) : x ∈ xs := by
  unfold pick at h
  split at h
  · cases h
  · simp_all
  · exact List.mem_of_getElem? h

theorem pick_none {α : Type} (xs : List α) (n : Nat) (h : pick xs n = none) : xs = [] := by
  unfold pick at h
  split at h
  · rfl
  · cases h
  · rename_i ys h1 h2
    exfalso
    have hlen : 0 < xs.length := by
      rcases xs with _ | ⟨a, xs⟩
      · exact absurd rfl h1
      · simp
    have := Nat.mod_lt (Config.choice n) hlen
    rw [List.getElem?_eq_none_iff] at h
    omega

/-- The next state of `advance`, when there is one. -/
def State.advanceStep (s : State) : Option State :=
  match s.agree.entering with
  | some p => some (if (s.port p.other).nextToPresent.isSome then s.presentNext p.other else s.endEntering)
  | none =>
    match pick s.readyPorts s.choices with
    | some p => some ((s.chose s.readyPorts).presentNext p)
    | none => none

theorem State.advance_succ (s : State) (n : Nat) :
    s.advance (n + 1) = match s.advanceStep with
      | some t => t.advance n
      | none => s := by
  unfold State.advanceStep
  cases h : s.agree.entering with
  | some p =>
    simp only [State.advance, h]
    split <;> rfl
  | none =>
    simp only [State.advance, h]
    cases pick s.readyPorts s.choices <;> rfl

theorem State.endProposal_entering (s : State) (pr : Proposal) (reason : OutcomeReason) :
    (s.endProposal pr reason).agree.entering = s.agree.entering := by simp [State.endProposal]

theorem State.offers_agree (offers : List (PortId × Notice)) (s : State) :
    (offers.foldl (fun t x => t.offer x.1 x.2) s).agree = s.agree := by
  induction offers generalizing s with
  | nil => rfl
  | cons x xs ih => exact (ih _).trans (by simp)

theorem State.offerInAnyOrder_agree (s : State) (offers : List (PortId × Notice)) :
    (s.offerInAnyOrder offers).agree = s.agree := s.offers_agree _

theorem State.applyTables_entering (s : State) (c : Change) : (s.applyTables c).agree.entering = s.agree.entering := by
  cases c <;> rfl

theorem State.applyProposal_entering (s : State) (pr : Proposal) :
    (s.applyProposal pr).agree.entering = s.agree.entering := by
  unfold State.applyProposal
  dsimp only
  split <;> simp [State.endProposal_entering, State.offerInAnyOrder_agree, State.applyTables_entering]

theorem State.endEntering_entering (s : State) : s.endEntering.agree.entering = none := by
  unfold State.endEntering
  dsimp only
  split
  · rw [State.applyProposal_entering]
  · rfl

theorem State.advanceStep_left (s t : State) (h : s.advanceStep = some t) : t.left < s.left := by
  unfold State.advanceStep at h
  cases he : s.agree.entering with
  | some p =>
    simp only [he, Option.some.injEq] at h
    by_cases hn : (s.port p.other).nextToPresent.isSome = true
    · rw [if_pos hn] at h
      have := s.presentNext_turns p.other hn
      rw [h] at this
      unfold State.left
      simp only [he, Option.isSome_some, if_true]
      split <;> omega
    · rw [if_neg hn] at h
      subst h
      have hA := (s.endEntering_moved .A).turns_le
      have hB := (s.endEntering_moved .B).turns_le
      simp only [State.port] at hA hB
      unfold State.left
      simp only [he, s.endEntering_entering, Option.isSome_some, Option.isSome_none, if_true]
      simp
      omega
  | none =>
    simp only [he] at h
    cases hp : pick s.readyPorts s.choices with
    | none => simp [hp] at h
    | some p =>
      simp only [hp, Option.some.injEq] at h
      have hc := s.chose_ports s.readyPorts
      have hmem := pick_mem _ _ _ hp
      rw [s.mem_readyPorts] at hmem
      have hmem' : ((s.chose s.readyPorts).port p).nextToPresent.isSome = true := by
        cases p <;> simpa [State.port, hc.1, hc.2.1] using hmem
      have := (s.chose s.readyPorts).presentNext_turns p hmem'
      rw [h, hc.1, hc.2.1] at this
      unfold State.left
      simp only [he, Option.isSome_none]
      split <;> simp <;> omega

theorem State.advanceStep_none (s : State) (h : s.advanceStep = none) : s.agree.entering = none ∧ s.readyPorts = [] := by
  unfold State.advanceStep at h
  cases he : s.agree.entering with
  | some p => simp [he] at h
  | none =>
    simp only [he] at h
    refine ⟨rfl, ?_⟩
    cases hp : pick s.readyPorts s.choices with
    | none => exact pick_none _ _ hp
    | some p => simp [hp] at h

/-- Beyond what is left to present, fuel makes no difference. -/
theorem State.advance_enough (n m : Nat) (s : State) (hn : s.left ≤ n) (hm : s.left ≤ m) : s.advance n = s.advance m := by
  induction n generalizing s m with
  | zero =>
    cases m with
    | zero => rfl
    | succ m =>
      rw [s.advance_succ]
      cases h : s.advanceStep with
      | none => rfl
      | some t =>
        have := s.advanceStep_left t h
        omega
  | succ n ih =>
    cases h : s.advanceStep with
    | none =>
      rw [s.advance_of_still _ (s.advanceStep_none h).1 (s.advanceStep_none h).2,
        s.advance_of_still _ (s.advanceStep_none h).1 (s.advanceStep_none h).2]
    | some t =>
      have hl := s.advanceStep_left t h
      cases m with
      | zero => omega
      | succ m =>
        rw [s.advance_succ, s.advance_succ, h]
        exact ih m t (by omega) (by omega)

/-- With fuel for what is left, nothing is left to present. -/
theorem State.advance_still (n : Nat) (s : State) (hn : s.left ≤ n) :
    (s.advance n).agree.entering = none ∧ (s.advance n).readyPorts = [] := by
  induction n generalizing s with
  | zero =>
    cases h : s.advanceStep with
    | none => exact s.advanceStep_none h
    | some t =>
      have := s.advanceStep_left t h
      omega
  | succ n ih =>
    rw [s.advance_succ]
    cases h : s.advanceStep with
    | none => exact s.advanceStep_none h
    | some t =>
      have := s.advanceStep_left t h
      exact ih t (by omega)

theorem turns_le_length (xs : List Record) : turns xs ≤ xs.length := List.countP_le_length

theorem State.left_le_fuel (s : State) : s.left ≤ s.presentFuel := by
  have hA := turns_le_length s.portA.requests
  have hB := turns_le_length s.portB.requests
  unfold State.left State.presentFuel
  split <;> omega

/-- Presentation moves on until nothing is left to present. -/
theorem State.moveOn_still (s : State) : s.moveOn.agree.entering = none ∧ s.moveOn.readyPorts = [] :=
  s.advance_still _ s.left_le_fuel

theorem State.advance_moveOn (s : State) (n : Nat) (h : s.left ≤ n) : s.advance n = s.moveOn :=
  State.advance_enough n _ s h s.left_le_fuel

/-- Presentation moves on by one step of `advance`, and then moves on again. -/
theorem State.moveOn_step (s : State) : s.moveOn = match s.advanceStep with
    | some t => t.moveOn
    | none => s := by
  have h : s.moveOn = s.advance (s.left + 1) := (s.advance_moveOn _ (by omega)).symm
  rw [h, s.advance_succ]
  cases hs : s.advanceStep with
  | none => rfl
  | some t => exact t.advance_moveOn _ (by have := s.advanceStep_left t hs; omega)

theorem PortUnit.presentsNext_iff (u : PortUnit) (r : Record) : u.PresentsNext r ↔ u.nextToPresent = some r := by
  unfold PortUnit.PresentsNext PortUnit.nextToPresent
  split
  · next h =>
    simp only [List.any_eq_true, beq_iff_eq] at h
    obtain ⟨x, hx, hs⟩ := h
    exact ⟨fun k => absurd hs (k.1 x hx), fun k => by cases k⟩
  · next h =>
    have h' : ∀ x ∈ u.requests, x.state ≠ .awaitingSlots := by simpa using h
    rw [List.find?_eq_some_iff_append]
    constructor
    · rintro ⟨_, before, after, hl, hr, hb⟩
      exact ⟨by simp [hr], before, after, hl, fun x hx => by simp [hb x hx]⟩
    · rintro ⟨hr, before, after, hl, hb⟩
      exact ⟨h', before, after, hl, by simpa using hr, fun x hx => by simpa using hb x hx⟩

theorem PortUnit.presentsNone_iff (u : PortUnit) : u.PresentsNone ↔ u.nextToPresent = none := by
  unfold PortUnit.PresentsNone PortUnit.nextToPresent
  split
  · next h =>
    simp only [List.any_eq_true, beq_iff_eq] at h
    exact ⟨fun _ => rfl, fun _ => .inl h⟩
  · next h =>
    have h' : ∀ x ∈ u.requests, x.state ≠ .awaitingSlots := by simpa using h
    rw [List.find?_eq_none]
    constructor
    · rintro (⟨y, hy, hs⟩ | k) x hx
      · exact absurd hs (h' y hy)
      · simpa using k x hx
    · intro k
      exact .inr fun x hx => by simpa using k x hx

theorem ListMoved.length {xs ys : List Record} (h : ListMoved xs ys) : ys.length = xs.length :=
  (List.Forall₂.length_eq h).symm

/-- A SUBMIT that is taken: its request is presented, then presentation moves on (R54, R56). -/
theorem State.submit_moves_on (s : State) (p : PortId) (tag : Byte) (q : Request) (hq : Quiet s) (hc : CanTake s p tag) :
    s.openEvent.submit p tag q = ((s.taking p tag q .awaitingTurn).present p tag q).moveOn := by
  rw [s.submit_taken p tag q hq hc]
  refine State.advance_moveOn _ _ ?_
  have hm := ((s.taking p tag q .awaitingTurn).present_presents p tag q).1
  have hA := (hm .A).length
  have hB := (hm .B).length
  have h1 := turns_le_length ((s.taking p tag q .awaitingTurn).present p tag q).portA.requests
  have h2 := turns_le_length ((s.taking p tag q .awaitingTurn).present p tag q).portB.requests
  have hlen : (s.taking p tag q .awaitingTurn).portA.requests.length + (s.taking p tag q .awaitingTurn).portB.requests.length =
      s.portA.requests.length + s.portB.requests.length + 1 := by
    cases p <;> simp [State.taking, State.setPort, State.port, PortUnit.withRequest, State.openEvent] <;> omega
  simp only [State.port] at hA hB
  unfold State.left
  split <;> omega

end Sys2Proof.Machine
end

