-- ==== Sys2Proof/Laws/Ports.lean ====
section
/-! SUPPORT. The laws of one port unit, and the operations that keep them. -/

namespace Sys2Proof.Machine

/-- The laws of a port unit (R54, R63, R65); under `n` it has no part in a RESET_TABLE. -/
structure PortLawful (n : Prop) (u : PortUnit) : Prop where
  length : u.requests.length ≤ Config.maxOutstanding
  tags : (u.requests.map Record.tag).Nodup
  completions : u.queue.countP (fun f => !f.isNotice) ≤ u.requests.countP (fun r => r.state == .complete)
  notices : u.noticeCount ≤ Config.noticeRoom
  quiet : n → (∀ r ∈ u.requests, asksReset r.request = false) ∧ ∀ bits, u.receiver ≠ .receiving bits

theorem Frame.isNotice_completion (c : Completion) : (Frame.completion c).isNotice = false := rfl

theorem Frame.isNotice_notice (n : Notice) (gap : Bool) : (Frame.notice n gap).isNotice = true := rfl

theorem asksReset_withoutPayload (q : Request) : asksReset (withoutPayload q) = asksReset q := by cases q <;> rfl

/-! ### What a change of the open record of a tag keeps -/

section mapOpen

variable (tag : Byte) (f : Record → Record) (ht : ∀ r, (f r).tag = r.tag)

include ht in
theorem mapOpen_tags (xs : List Record) :
    (xs.map fun r => if r.isOpen tag then f r else r).map Record.tag = xs.map Record.tag := by
  rw [List.map_map]
  refine List.map_congr_left fun r _ => ?_
  simp only [Function.comp]
  split
  · exact ht r
  · rfl

theorem mapOpen_complete (xs : List Record) : xs.countP (fun r => r.state == .complete) ≤
    (xs.map fun r => if r.isOpen tag then f r else r).countP fun r => r.state == .complete := by
  induction xs with
  | nil => exact Nat.le_refl _
  | cons r xs ih =>
    simp only [List.map_cons, List.countP_cons]
    by_cases hb : r.isOpen tag = true
    · have : (r.state == .complete) = false := by
        simp only [Record.isOpen, Bool.and_eq_true, bne_iff_ne] at hb
        simpa using hb.2
      rw [this]
      simp only [Bool.false_eq_true, if_false, Nat.add_zero]
      omega
    · rw [if_neg hb]
      omega

/-- An open record that becomes COMPLETE is one more. -/
theorem mapOpen_complete_lt (xs : List Record) (hf : ∀ r, (f r).state = .complete) (r : Record)
    (h : xs.find? (Record.isOpen tag) = some r) : xs.countP (fun r => r.state == .complete) <
    (xs.map fun r => if r.isOpen tag then f r else r).countP fun r => r.state == .complete := by
  induction xs with
  | nil => cases h
  | cons x xs ih =>
    simp only [List.map_cons, List.countP_cons]
    by_cases hb : x.isOpen tag = true
    · have hx : (x.state == .complete) = false := by
        simp only [Record.isOpen, Bool.and_eq_true, bne_iff_ne] at hb
        simpa using hb.2
      have := mapOpen_complete tag f xs
      rw [if_pos hb, hx, hf x]
      simp only [Bool.false_eq_true, if_false, Nat.add_zero, beq_self_eq_true, if_true]
      omega
    · rw [List.find?_cons_of_neg hb] at h
      have := ih h
      rw [if_neg hb]
      omega

include ht in
theorem PortLawful.mapOpen {n : Prop} {u : PortUnit} (h : PortLawful n u)
    (hq : ∀ r, asksReset (f r).request = asksReset r.request) :
    PortLawful n { u with requests := u.requests.map fun r => if r.isOpen tag then f r else r } := by
  refine ⟨by simpa using h.length, ?_, Nat.le_trans h.completions (mapOpen_complete tag f _), h.notices, fun hn => ⟨?_, (h.quiet hn).2⟩⟩
  · rw [mapOpen_tags tag f ht]
    exact h.tags
  · intro r hr
    simp only [List.mem_map] at hr
    obtain ⟨x, hx, rfl⟩ := hr
    split
    · rw [hq x]
      exact (h.quiet hn).1 x hx
    · exact (h.quiet hn).1 x hx

end mapOpen

/-! ### Completions -/

theorem insertCompletion_notices (u : PortUnit) (c : Completion) (fs : List Frame) :
    (insertCompletion u c fs).countP Frame.isNotice = fs.countP Frame.isNotice := by
  induction fs with
  | nil => rfl
  | cons f fs ih =>
    cases f with
    | completion d =>
      simp only [insertCompletion]
      split
      · simp [List.countP_cons, ih]
      · simp [Frame.isNotice]
    | notice n g => simp [insertCompletion, List.countP_cons, Frame.isNotice]

theorem insertCompletion_completions (u : PortUnit) (c : Completion) (fs : List Frame) :
    (insertCompletion u c fs).countP (fun f => !f.isNotice) = fs.countP (fun f => !f.isNotice) + 1 := by
  induction fs with
  | nil => rfl
  | cons f fs ih =>
    cases f with
    | completion d =>
      simp only [insertCompletion]
      split
      · simp [ih, Frame.isNotice_completion]
      · simp [Frame.isNotice_completion]
    | notice n g => simp [insertCompletion, Frame.isNotice_completion, Frame.isNotice_notice]

theorem PortUnit.complete_notices (u : PortUnit) (base : Nat) (tag : Byte) (st : Status) (res : Result) :
    (u.complete base tag st res).noticeCount = u.noticeCount := by
  unfold PortUnit.complete
  split
  · rfl
  · unfold PortUnit.noticeCount
    simp only [List.countP_append, insertCompletion_notices]
    rw [← List.countP_append, List.take_append_drop]

theorem PortUnit.complete_online (u : PortUnit) (base : Nat) (tag : Byte) (st : Status) (res : Result) :
    (u.complete base tag st res).online = u.online := by
  unfold PortUnit.complete
  split <;> rfl

theorem PortLawful.complete {n : Prop} {u : PortUnit} (h : PortLawful n u) (base : Nat) (tag : Byte) (st : Status) (res : Result) :
    PortLawful n (u.complete base tag st res) := by
  have hn := u.complete_notices base tag st res
  unfold PortUnit.complete at hn ⊢
  split
  · exact h
  · next r hr =>
    have k := h.mapOpen tag Record.finished (fun _ => rfl) fun r => asksReset_withoutPayload r.request
    have hc := mapOpen_complete_lt tag Record.finished u.requests (fun _ => rfl) r hr
    refine ⟨k.length, k.tags, ?_, ?_, k.quiet⟩
    · simp only [List.countP_append, insertCompletion_completions]
      have e : u.queue.countP (fun f => !f.isNotice) = (u.queue.take base).countP (fun f => !f.isNotice) +
          (u.queue.drop base).countP (fun f => !f.isNotice) := by
        rw [← List.countP_append, List.take_append_drop]
      have := h.completions
      omega
    · simp only [hr] at hn
      rw [hn]
      exact h.notices

/-! ### Notices -/

/-- A notice offered never makes more than four. -/
theorem PortUnit.acceptNotice_notices (u : PortUnit) (n : Notice) (h : u.noticeCount ≤ Config.noticeRoom) :
    (u.acceptNotice n).noticeCount ≤ Config.noticeRoom := by
  unfold PortUnit.acceptNotice
  split
  · exact h
  · split
    · next h2 =>
      simp only [PortUnit.noticeCount, List.countP_append] at h2 ⊢
      simpa [Frame.isNotice] using h2
    · exact h

theorem PortUnit.acceptNotice_online (u : PortUnit) (n : Notice) : (u.acceptNotice n).online = u.online := by
  unfold PortUnit.acceptNotice
  split
  · rfl
  · split <;> rfl

theorem Receiver.keepNoticesLost_receiving (r : Receiver) (bits : List Bool) (h : r ≠ .receiving bits) :
    r.keepNoticesLost ≠ .receiving bits := by
  cases r <;> simp_all [Receiver.keepNoticesLost]

theorem PortLawful.acceptNotice {n : Prop} {u : PortUnit} (h : PortLawful n u) (x : Notice) : PortLawful n (u.acceptNotice x) := by
  refine ⟨by rw [PortUnit.acceptNotice_requests]; exact h.length, by rw [PortUnit.acceptNotice_requests]; exact h.tags, ?_,
    u.acceptNotice_notices x h.notices, fun hn => ⟨by rw [PortUnit.acceptNotice_requests]; exact (h.quiet hn).1, ?_⟩⟩
  · rw [PortUnit.acceptNotice_requests]
    unfold PortUnit.acceptNotice
    split
    · exact h.completions
    · split
      · simpa [Frame.isNotice] using h.completions
      · exact h.completions
  · intro bits
    have k := (h.quiet hn).2 bits
    unfold PortUnit.acceptNotice
    split
    · exact k
    · split
      · exact k
      · exact u.receiver.keepNoticesLost_receiving bits k

/-! ### Wires -/

/-- The same requests, queue and port state; flags, gap, SDO and receiver may change. -/
theorem PortLawful.wires {n : Prop} {u v : PortUnit} (h : PortLawful n u) (hr : v.requests = u.requests := by rfl)
    (hq : v.queue = u.queue := by rfl) (hv : n → ∀ bits, v.receiver ≠ .receiving bits) : PortLawful n v :=
  ⟨by rw [hr]; exact h.length, by rw [hr]; exact h.tags, by rw [hr, hq]; exact h.completions,
    by unfold PortUnit.noticeCount; rw [hq]; exact h.notices, fun hn => ⟨by rw [hr]; exact (h.quiet hn).1, hv hn⟩⟩

/-- A SUBMIT that is taken. -/
theorem PortLawful.append {n : Prop} {u : PortUnit} (h : PortLawful n u) (tag : Byte) (q : Request)
    (hl : u.requests.length < Config.maxOutstanding) (hf : ∀ r ∈ u.requests, r.tag ≠ tag) (hq : n → asksReset q = false) :
    PortLawful n { u with requests := u.requests ++ [⟨tag, q, .awaitingTurn⟩] } := by
  refine ⟨?_, ?_, ?_, h.notices, fun hn => ⟨?_, (h.quiet hn).2⟩⟩
  · simp only [List.length_append, List.length_singleton]
    omega
  · simp only [List.map_append, List.map_cons, List.map_nil, List.nodup_append, List.nodup_singleton, List.mem_singleton,
      List.mem_map, true_and]
    refine ⟨h.tags, ?_⟩
    rintro a ⟨r, hr, rfl⟩ b rfl
    exact hf r hr
  · simp only [List.countP_append]
    exact Nat.le_trans h.completions (Nat.le_add_right _ _)
  · intro r hr
    simp only [List.mem_append, List.mem_singleton] at hr
    rcases hr with hr | rfl
    · exact (h.quiet hn).1 r hr
    · exact hq hn

theorem PortLawful.empty (n : Prop) (u : PortUnit) (hr : u.requests = []) (hq : u.queue = [])
    (hv : ∀ bits, u.receiver ≠ .receiving bits) : PortLawful n u :=
  ⟨by simp [hr], by simp [hr], by simp [hr, hq], by simp [PortUnit.noticeCount, hq], fun _ => ⟨by simp [hr], hv⟩⟩

/-- Of records with different tags, those with one tag are at most one. -/
theorem countP_dropTag (xs : List Record) (tag : Byte) (h : (xs.map Record.tag).Nodup) :
    xs.countP (fun r => r.state == .complete) ≤ (xs.filter fun r => r.tag != tag).countP (fun r => r.state == .complete) + 1 := by
  induction xs with
  | nil => exact Nat.zero_le _
  | cons x xs ih =>
    simp only [List.map_cons, List.nodup_cons] at h
    by_cases hx : x.tag = tag
    · have e : xs.filter (fun r => r.tag != tag) = xs := by
        rw [List.filter_eq_self]
        intro r hr
        have : r.tag ≠ tag := fun k => h.1 (by rw [hx, ← k]; exact List.mem_map_of_mem hr)
        simpa using this
      rw [List.filter_cons_of_neg (by simp [hx]), e, List.countP_cons]
      split <;> omega
    · rw [List.filter_cons_of_pos (by simp [hx]), List.countP_cons, List.countP_cons]
      have := ih h.2
      omega

theorem PortUnit.removeHead_online (u : PortUnit) : u.removeHead.online = u.online := by
  unfold PortUnit.removeHead
  split <;> rfl

theorem PortLawful.removeHead {n : Prop} {u : PortUnit} (h : PortLawful n u) : PortLawful n u.removeHead := by
  have hc := h.completions
  have hn := h.notices
  unfold PortUnit.noticeCount at hn
  unfold PortUnit.removeHead
  split
  · exact h
  · next c rest hq =>
    simp only [hq, List.countP_cons, Frame.isNotice_completion, Bool.not_false, if_true, Bool.false_eq_true, if_false] at hc hn
    refine ⟨Nat.le_trans (List.length_filter_le _ _) h.length, h.tags.sublist (List.filter_sublist.map _), ?_, by unfold PortUnit.noticeCount; dsimp only; omega,
      fun k => ⟨fun r hr => (h.quiet k).1 r (List.mem_of_mem_filter hr), (h.quiet k).2⟩⟩
    have := countP_dropTag u.requests c.tag h.tags
    dsimp only
    omega
  · next x gap rest hq =>
    simp only [hq, List.countP_cons, Frame.isNotice_notice, Bool.not_true, if_true, Bool.false_eq_true, if_false, Nat.add_zero] at hc hn
    exact ⟨h.length, h.tags, hc, by unfold PortUnit.noticeCount; dsimp only; omega, h.quiet⟩

end Sys2Proof.Machine
end

