-- ==== Sys2Proof/Laws/Buffer.lean ====
section
/-! SUPPORT. The laws of the Staging Buffer, and the operations that keep them: no two slots hold one block, the orders hold their
slots, a DIRTY or FLUSHING slot stays so until its flush ends. -/

namespace Sys2Proof.Machine

/-! ### Slots -/

theorem Staging.setSlot_slot (b : Staging) (i j : SlotId) (x : Slot) :
    (b.setSlot i x).slots[j] = if j = i then x else b.slots[j] := by
  unfold Staging.setSlot
  rw [Fin.getElem_fin, Vector.getElem_set]
  by_cases h : j = i
  · subst h
    simp
  · have : (i : Nat) ≠ j := fun e => h (Fin.ext e.symm)
    simp [h, this]

theorem Staging.makeDirty_slot (b : Staging) (i j : SlotId) (d : Dirty) :
    (b.makeDirty i d).slots[j] = if j = i then .dirty d else b.slots[j] := b.setSlot_slot i j _

theorem Staging.makeClean_slot (b : Staging) (i j : SlotId) (d : Dirty) :
    (b.makeClean i d).slots[j] = if j = i then .clean d.lbn d.region d.data else b.slots[j] := b.setSlot_slot i j _

theorem Staging.makeFree_slot (b : Staging) (i j : SlotId) :
    (b.makeFree i).slots[j] = if j = i then .free else b.slots[j] := b.setSlot_slot i j _

/-- The slot that lookup finds holds the block. -/
theorem Staging.find_some (b : Staging) (lbn : Nat) (i : SlotId) (h : b.find lbn = some i) : b.slots[i].lbn? = some lbn := by
  unfold Staging.find at h
  have := List.find?_some h
  simpa using this

/-- Where lookup finds none, no slot holds the block. -/
theorem Staging.find_none (b : Staging) (lbn : Nat) (h : b.find lbn = none) (i : SlotId) : b.slots[i].lbn? ≠ some lbn := by
  unfold Staging.find at h
  rw [List.find?_eq_none] at h
  have := h i (by simp [allSlots])
  simpa using this

theorem Slot.unflushed_lbn (x : Slot) (d : Dirty) (h : x.unflushed? = some d) : x.lbn? = some d.lbn := by
  cases x <;> simp_all [Slot.unflushed?, Slot.lbn?]

/-- A slot is CLEAN. -/
def Slot.isClean : Slot → Prop
  | .clean .. => True
  | .free | .dirty _ | .flushing .. => False

theorem Slot.isClean_iff (x : Slot) : x.isClean ↔ ∃ lbn r data, x = .clean lbn r data := by cases x <;> simp [Slot.isClean]

/-! ### What the operations keep -/

/-- Every DIRTY or FLUSHING slot is one still, with its block. -/
def Staging.KeepsDirty (b c : Staging) : Prop :=
  ∀ (i : SlotId) d, b.slots[i].unflushed? = some d → ∃ e, c.slots[i].unflushed? = some e ∧ e.lbn = d.lbn

theorem Staging.KeepsDirty.of_slots {b c : Staging} (h : c.slots = b.slots) : b.KeepsDirty c := fun i d k => ⟨d, by rw [h]; exact k, rfl⟩

theorem Staging.KeepsDirty.trans {a b c : Staging} (h : a.KeepsDirty b) (k : b.KeepsDirty c) : a.KeepsDirty c := by
  intro i d hd
  obtain ⟨e, he, hl⟩ := h i d hd
  obtain ⟨f, hf, hm⟩ := k i e he
  exact ⟨f, hf, hm.trans hl⟩

/-- The slots and the orders alone matter. -/
theorem BufferLawful.same {b c : Staging} (h : BufferLawful b) (hs : c.slots = b.slots := by rfl)
    (hd : c.dirtyOrder = b.dirtyOrder := by rfl) (hc : c.cleanOrder = b.cleanOrder := by rfl) : BufferLawful c :=
  ⟨by rw [hs]; exact h.once, by rw [hs, hd]; exact h.dirty, by rw [hs, hc]; exact h.clean⟩

/-- A slot that stays DIRTY or FLUSHING with its block. -/
theorem BufferLawful.rewrite {b : Staging} (h : BufferLawful b) (i : SlotId) (x : Slot) (d e : Dirty)
    (hd : b.slots[i].unflushed? = some d) (he : x.unflushed? = some e) (hl : e.lbn = d.lbn) : BufferLawful (b.setSlot i x) := by
  have hlbn (j : SlotId) : (b.setSlot i x).slots[j].lbn? = b.slots[j].lbn? := by
    rw [b.setSlot_slot]
    split
    · next k =>
      rw [k, Slot.unflushed_lbn _ _ he, Slot.unflushed_lbn _ _ hd, hl]
    · rfl
  refine ⟨fun j k lbn => by rw [hlbn, hlbn]; exact h.once j k lbn, ⟨h.dirty.1, fun j => ?_⟩, ⟨h.clean.1, fun j => ?_⟩⟩
  · show j ∈ b.dirtyOrder ↔ _
    rw [h.dirty.2 j, b.setSlot_slot]
    split
    · next k => rw [k, hd, he]; simp
    · rfl
  · show j ∈ b.cleanOrder ↔ _
    rw [h.clean.2 j, b.setSlot_slot]
    split
    · next k =>
      rw [k, ← Slot.isClean_iff, ← Slot.isClean_iff]
      generalize b.slots[i] = y at hd
      cases x <;> cases y <;> simp_all [Slot.unflushed?, Slot.isClean]
    · rfl

theorem Staging.KeepsDirty.rewrite (b : Staging) (i : SlotId) (x : Slot) (d e : Dirty) (hd : b.slots[i].unflushed? = some d)
    (he : x.unflushed? = some e) (hl : e.lbn = d.lbn) : b.KeepsDirty (b.setSlot i x) := by
  intro j f hf
  rw [b.setSlot_slot]
  split
  · next k =>
    subst k
    refine ⟨e, he, ?_⟩
    rw [hd] at hf
    cases hf
    exact hl
  · exact ⟨f, hf, rfl⟩

/-- A FREE or CLEAN slot becomes DIRTY with a block that no other slot holds. -/
theorem BufferLawful.makeDirty {b : Staging} (h : BufferLawful b) (i : SlotId) (d : Dirty) (hi : b.slots[i].unflushed? = none)
    (ho : ∀ j : SlotId, b.slots[j].lbn? = some d.lbn → j = i) : BufferLawful (b.makeDirty i d) := by
  have hnd : i ∉ b.dirtyOrder := by rw [h.dirty.2 i, hi]; simp
  refine ⟨fun j k lbn hj hk => ?_, ⟨?_, fun j => ?_⟩, ⟨h.clean.1.erase _, fun j => ?_⟩⟩
  · rw [b.makeDirty_slot] at hj hk
    by_cases ej : j = i <;> by_cases ek : k = i
    · rw [ej, ek]
    · rw [if_pos ej] at hj
      rw [if_neg ek] at hk
      simp only [Slot.lbn?, Option.some.injEq] at hj
      subst hj
      exact absurd (ho k hk) ek
    · rw [if_neg ej] at hj
      rw [if_pos ek] at hk
      simp only [Slot.lbn?, Option.some.injEq] at hk
      subst hk
      exact absurd (ho j hj) ej
    · rw [if_neg ej] at hj
      rw [if_neg ek] at hk
      exact h.once j k lbn hj hk
  · show (b.dirtyOrder ++ [i]).Nodup
    rw [List.nodup_append]
    exact ⟨h.dirty.1, by simp, fun a ha c hc e => hnd (by simp only [List.mem_singleton] at hc; rw [← hc, ← e]; exact ha)⟩
  · show j ∈ b.dirtyOrder ++ [i] ↔ _
    rw [b.makeDirty_slot, List.mem_append, List.mem_singleton, h.dirty.2 j]
    by_cases e : j = i
    · simp [e, Slot.unflushed?]
    · simp [e]
  · show j ∈ b.cleanOrder.erase i ↔ _
    rw [b.makeDirty_slot, h.clean.1.mem_erase_iff, h.clean.2 j]
    by_cases e : j = i
    · simp [e]
    · simp [e]

theorem Staging.KeepsDirty.makeDirty (b : Staging) (i : SlotId) (d : Dirty) (hi : b.slots[i].unflushed? = none) :
    b.KeepsDirty (b.makeDirty i d) := by
  intro j f hf
  rw [b.makeDirty_slot]
  split
  · next k =>
    rw [k, hi] at hf
    cases hf
  · exact ⟨f, hf, rfl⟩

/-- A FLUSHING slot becomes CLEAN. -/
theorem BufferLawful.makeClean {b : Staging} (h : BufferLawful b) (i : SlotId) (d : Dirty) (hi : b.slots[i].unflushed? = some d) :
    BufferLawful (b.makeClean i d) := by
  have hlbn (j : SlotId) : (b.makeClean i d).slots[j].lbn? = b.slots[j].lbn? := by
    rw [b.makeClean_slot]
    split
    · next k => rw [k, Slot.unflushed_lbn _ _ hi]; rfl
    · rfl
  have hnc : i ∉ b.cleanOrder := by
    rw [h.clean.2 i]
    rintro ⟨l, r, x, e⟩
    rw [e] at hi
    cases hi
  refine ⟨fun j k lbn => by rw [hlbn, hlbn]; exact h.once j k lbn, ⟨h.dirty.1.erase _, fun j => ?_⟩, ⟨?_, fun j => ?_⟩⟩
  · show j ∈ b.dirtyOrder.erase i ↔ _
    rw [b.makeClean_slot, h.dirty.1.mem_erase_iff, h.dirty.2 j]
    by_cases e : j = i
    · simp [e, Slot.unflushed?]
    · simp [e]
  · show (b.cleanOrder ++ [i]).Nodup
    rw [List.nodup_append]
    exact ⟨h.clean.1, by simp, fun a ha c hc e => hnc (by simp only [List.mem_singleton] at hc; rw [← hc, ← e]; exact ha)⟩
  · show j ∈ b.cleanOrder ++ [i] ↔ _
    rw [b.makeClean_slot, List.mem_append, List.mem_singleton, h.clean.2 j]
    by_cases e : j = i
    · simp [e]
    · simp [e]

/-- A slot becomes FREE. -/
theorem BufferLawful.makeFree {b : Staging} (h : BufferLawful b) (i : SlotId) : BufferLawful (b.makeFree i) := by
  refine ⟨fun j k lbn hj hk => ?_, ⟨h.dirty.1.erase _, fun j => ?_⟩, ⟨h.clean.1.erase _, fun j => ?_⟩⟩
  · rw [b.makeFree_slot] at hj hk
    by_cases ej : j = i
    · rw [if_pos ej] at hj
      cases hj
    · by_cases ek : k = i
      · rw [if_pos ek] at hk
        cases hk
      · rw [if_neg ej] at hj
        rw [if_neg ek] at hk
        exact h.once j k lbn hj hk
  · show j ∈ b.dirtyOrder.erase i ↔ _
    rw [b.makeFree_slot, h.dirty.1.mem_erase_iff, h.dirty.2 j]
    by_cases e : j = i
    · simp [e, Slot.unflushed?]
    · simp [e]
  · show j ∈ b.cleanOrder.erase i ↔ _
    rw [b.makeFree_slot, h.clean.1.mem_erase_iff, h.clean.2 j]
    by_cases e : j = i
    · simp [e]
    · simp [e]

theorem Staging.KeepsDirty.makeFree (b : Staging) (i : SlotId) (hi : b.slots[i].unflushed? = none) :
    b.KeepsDirty (b.makeFree i) := by
  intro j f hf
  rw [b.makeFree_slot]
  split
  · next k =>
    rw [k, hi] at hf
    cases hf
  · exact ⟨f, hf, rfl⟩

/-- Slots that are not DIRTY or FLUSHING are freed. -/
theorem BufferLawful.freeAll (gone : List SlotId) {b : Staging} (h : BufferLawful b) (hg : ∀ i ∈ gone, b.slots[i].unflushed? = none) :
    BufferLawful (gone.foldl Staging.makeFree b) ∧ b.KeepsDirty (gone.foldl Staging.makeFree b) := by
  induction gone generalizing b with
  | nil => exact ⟨h, .of_slots rfl⟩
  | cons i gone ih =>
    have hf : ∀ j ∈ gone, (b.makeFree i).slots[j].unflushed? = none := by
      intro j hj
      rw [b.makeFree_slot]
      split
      · rfl
      · exact hg j (List.mem_cons_of_mem _ hj)
    have := ih (h.makeFree i) hf
    exact ⟨this.1, (Staging.KeepsDirty.makeFree b i (hg i (List.mem_cons_self ..))).trans this.2⟩

theorem BufferLawful.clean_unflushed {b : Staging} (h : BufferLawful b) (i : SlotId) (hi : i ∈ b.cleanOrder) :
    b.slots[i].unflushed? = none := by
  obtain ⟨l, r, x, e⟩ := (h.clean.2 i).1 hi
  rw [e]
  rfl

/-- The slots of the drain scope are freed (R96). -/
theorem BufferLawful.freeLeaving {b : Staging} (h : BufferLawful b) : BufferLawful b.freeLeaving ∧ b.KeepsDirty b.freeLeaving := by
  have k := h.freeAll (b.cleanOrder.filter fun i => match b.slots[i].lbn? with
    | some lbn => b.drain.contains lbn
    | none => false) fun i hi => h.clean_unflushed i (List.mem_of_mem_filter hi)
  exact ⟨k.1.same, k.2.trans (.of_slots rfl)⟩

/-! ### Placement (R77, R78) -/

/-- The slots that can be had are FREE or CLEAN, are no hits, and none comes twice. -/
theorem BufferLawful.available {b : Staging} (h : BufferLawful b) (hits : List SlotId) (hh : ∀ i ∈ hits, b.slots[i].lbn? ≠ none) :
    (b.available hits).Nodup ∧ ∀ i ∈ b.available hits, b.slots[i].unflushed? = none ∧ i ∉ hits := by
  unfold Staging.available
  refine ⟨?_, fun i hi => ?_⟩
  · rw [List.nodup_append]
    refine ⟨(List.nodup_finRange 64).filter _, h.clean.1.filter _, fun a ha c hc e => ?_⟩
    subst e
    obtain ⟨l, r, x, k⟩ := (h.clean.2 a).1 (List.mem_of_mem_filter hc)
    have := (List.mem_filter.1 ha).2
    rw [k] at this
    cases this
  · rw [List.mem_append] at hi
    rcases hi with hi | hi
    · have hf := (List.mem_filter.1 hi).2
      cases hs : b.slots[i] with
      | free =>
        refine ⟨rfl, fun k => hh i k ?_⟩
        rw [hs]
        rfl
      | clean _ _ _ => rw [hs] at hf; cases hf
      | dirty _ => rw [hs] at hf; cases hf
      | flushing _ _ => rw [hs] at hf; cases hf
    · have hf := List.mem_filter.1 hi
      exact ⟨h.clean_unflushed i hf.1, by simpa using hf.2⟩

/-- What `putBlocks` needs of its pairs: different blocks, different slots; each slot holds its block, or is FREE or CLEAN while no
slot holds it. -/
structure Staging.Fitting (b : Staging) (pairs : List (Nat × SlotId)) : Prop where
  lbns : (pairs.map Prod.fst).Nodup
  slots : (pairs.map Prod.snd).Nodup
  fits : ∀ x ∈ pairs, b.slots[x.2].lbn? = some x.1 ∨
    (b.slots[x.2].unflushed? = none ∧ ∀ j : SlotId, b.slots[j].lbn? ≠ some x.1)

theorem Staging.putBlock_other (b : Staging) (i j : SlotId) (lbn : Nat) (r : Fin 16) (position : Nat) (data : Block) (h : j ≠ i) :
    (b.putBlock i lbn r position data).slots[j] = b.slots[j] := by
  unfold Staging.putBlock
  dsimp only
  split
  · exact (b.makeDirty_slot i j _).trans (if_neg h)
  · exact (b.makeDirty_slot i j _).trans (if_neg h)
  · exact (b.setSlot_slot i j _).trans (if_neg h)
  · exact (b.setSlot_slot i j _).trans (if_neg h)

theorem Staging.putBlock_lbn (b : Staging) (i : SlotId) (lbn : Nat) (r : Fin 16) (position : Nat) (data : Block) :
    (b.putBlock i lbn r position data).slots[i].lbn? = some lbn := by
  unfold Staging.putBlock
  dsimp only
  split
  · rw [b.makeDirty_slot, if_pos rfl]; rfl
  · rw [b.makeDirty_slot, if_pos rfl]; rfl
  · rw [b.setSlot_slot, if_pos rfl]; rfl
  · rw [b.setSlot_slot, if_pos rfl]; rfl

theorem BufferLawful.putBlock {b : Staging} (h : BufferLawful b) (i : SlotId) (lbn : Nat) (r : Fin 16) (position : Nat) (data : Block)
    (hf : b.slots[i].lbn? = some lbn ∨ (b.slots[i].unflushed? = none ∧ ∀ j : SlotId, b.slots[j].lbn? ≠ some lbn)) :
    BufferLawful (b.putBlock i lbn r position data) ∧ b.KeepsDirty (b.putBlock i lbn r position data) := by
  have ho : ∀ j : SlotId, b.slots[j].lbn? = some lbn → j = i := by
    intro j hj
    rcases hf with hf | hf
    · exact h.once j i lbn hj hf
    · exact absurd hj (hf.2 j)
  unfold Staging.putBlock
  dsimp only
  split
  · next hs =>
    have hu : b.slots[i].unflushed? = none := by rw [hs]; rfl
    exact ⟨h.makeDirty i _ hu ho, .makeDirty b i _ hu⟩
  · next hs =>
    have hu : b.slots[i].unflushed? = none := by rw [hs]; rfl
    exact ⟨h.makeDirty i _ hu ho, .makeDirty b i _ hu⟩
  · next d hs =>
    have hu : b.slots[i].unflushed? = some d := by rw [hs]; rfl
    have hl : lbn = d.lbn := by
      rcases hf with hf | hf
      · rw [Slot.unflushed_lbn _ _ hu] at hf
        exact (Option.some.inj hf).symm
      · rw [hu] at hf
        cases hf.1
    exact ⟨h.rewrite i _ d _ hu rfl hl, .rewrite b i _ d _ hu rfl hl⟩
  · next d fw hs =>
    have hu : b.slots[i].unflushed? = some d := by rw [hs]; rfl
    have hl : lbn = d.lbn := by
      rcases hf with hf | hf
      · rw [Slot.unflushed_lbn _ _ hu] at hf
        exact (Option.some.inj hf).symm
      · rw [hu] at hf
        cases hf.1
    exact ⟨h.rewrite i _ d _ hu rfl hl, .rewrite b i _ d _ hu rfl hl⟩

theorem BufferLawful.putBlocks (r : Fin 16) (position : Nat) (payload : List Byte) (pairs : List (Nat × SlotId)) :
    ∀ (k : Nat) {b : Staging}, BufferLawful b → b.Fitting pairs →
      BufferLawful (b.putBlocks r position payload k pairs) ∧ b.KeepsDirty (b.putBlocks r position payload k pairs) := by
  induction pairs with
  | nil => exact fun k b h _ => ⟨h, .of_slots rfl⟩
  | cons x pairs ih =>
    intro k b h hf
    obtain ⟨lbn, i⟩ := x
    have h1 := h.putBlock i lbn r position (payloadBlock payload k) (hf.fits _ (List.mem_cons_self ..))
    have hl := hf.lbns
    have hs := hf.slots
    simp only [List.map_cons, List.nodup_cons] at hl hs
    have hf2 : (b.putBlock i lbn r position (payloadBlock payload k)).Fitting pairs := by
      refine ⟨hl.2, hs.2, fun y hy => ?_⟩
      have hne : y.2 ≠ i := fun e => hs.1 (by rw [← e]; exact List.mem_map_of_mem hy)
      have hlne : y.1 ≠ lbn := fun e => hl.1 (by rw [← e]; exact List.mem_map_of_mem hy)
      rw [b.putBlock_other i y.2 _ _ _ _ hne]
      rcases hf.fits y (List.mem_cons_of_mem _ hy) with k | k
      · exact .inl k
      · refine .inr ⟨k.1, fun j => ?_⟩
        by_cases hj : j = i
        · subst hj
          rw [b.putBlock_lbn]
          intro e
          exact hlne (Option.some.inj e).symm
        · rw [b.putBlock_other i j _ _ _ _ hj]
          exact k.2 j
    have h2 := ih (k + 1) h1.1 hf2
    exact ⟨h2.1, h1.2.trans h2.2⟩

/-- The pairs that placement makes. -/
theorem Staging.assign_fits (b : Staging) : ∀ (lbns : List Nat) (had : List SlotId), lbns.Nodup → had.Nodup →
    (∀ i ∈ had, b.slots[i].unflushed? = none ∧ ∀ n ∈ lbns, b.find n ≠ some i) →
    b.Fitting (b.assign lbns had) ∧ (∀ x ∈ b.assign lbns had, x.1 ∈ lbns ∧ (x.2 ∈ had ∨ b.find x.1 = some x.2))
  | [], had, _, _, _ => ⟨⟨by simp [Staging.assign], by simp [Staging.assign], by simp [Staging.assign]⟩, by simp [Staging.assign]⟩
  | n :: ns, had, hn, hh, ha => by
    simp only [List.nodup_cons] at hn
    have rest (had' : List SlotId) (hs : had'.Sublist had) := b.assign_fits ns had' hn.2 (hh.sublist hs)
      fun i hi => ⟨(ha i (hs.subset hi)).1, fun m hm => (ha i (hs.subset hi)).2 m (List.mem_cons_of_mem _ hm)⟩
    have build (i : SlotId) (had' : List SlotId) (hs : had'.Sublist had)
        (hfit : b.slots[i].lbn? = some n ∨ (b.slots[i].unflushed? = none ∧ ∀ j : SlotId, b.slots[j].lbn? ≠ some n))
        (hi : i ∈ had ∨ b.find n = some i) (hni : i ∉ had') (hfi : ∀ m ∈ ns, b.find m ≠ some i) :
        b.Fitting ((n, i) :: b.assign ns had') ∧
          ∀ x ∈ (n, i) :: b.assign ns had', x.1 ∈ n :: ns ∧ (x.2 ∈ had ∨ b.find x.1 = some x.2) := by
      obtain ⟨k, m⟩ := rest had' hs
      refine ⟨⟨?_, ?_, ?_⟩, ?_⟩
      · simp only [List.map_cons, List.nodup_cons]
        refine ⟨fun e => ?_, k.lbns⟩
        obtain ⟨x, hx, e⟩ := List.mem_map.1 e
        exact hn.1 (e ▸ (m x hx).1)
      · simp only [List.map_cons, List.nodup_cons]
        refine ⟨fun e => ?_, k.slots⟩
        obtain ⟨x, hx, e⟩ := List.mem_map.1 e
        rcases (m x hx).2 with q | q
        · exact hni (e ▸ q)
        · exact hfi x.1 (m x hx).1 (e ▸ q)
      · intro x hx
        rcases List.mem_cons.1 hx with rfl | hx
        · exact hfit
        · exact k.fits x hx
      · intro x hx
        rcases List.mem_cons.1 hx with rfl | hx
        · exact ⟨List.mem_cons_self .., hi⟩
        · refine ⟨List.mem_cons_of_mem _ (m x hx).1, ?_⟩
          rcases (m x hx).2 with q | q
          · exact .inl (hs.subset q)
          · exact .inr q
    unfold Staging.assign
    split
    · next i hf =>
      refine build i _ (List.Sublist.refl _) (.inl (b.find_some n i hf)) (.inr hf) (fun hi => ?_) fun m hm e => ?_
      · exact (ha i hi).2 n (List.mem_cons_self ..) hf
      · have h1 := b.find_some n i hf
        have h2 := b.find_some m i e
        rw [h1] at h2
        exact hn.1 (Option.some.inj h2 ▸ hm)
    · next i had' hf =>
      have hc := List.nodup_cons.1 hh
      refine build i had' (List.sublist_cons_self _ _) (.inr ⟨(ha i (List.mem_cons_self ..)).1, b.find_none n hf⟩)
        (.inl (List.mem_cons_self ..)) hc.1 fun m hm => (ha i (List.mem_cons_self ..)).2 m (List.mem_cons_of_mem _ hm)
    · next hf =>
      obtain ⟨k, m⟩ := rest [] (List.Sublist.refl _)
      exact ⟨k, fun x hx => ⟨List.mem_cons_of_mem _ (m x hx).1, (m x hx).2⟩⟩

theorem BufferLawful.slotsFor {b : Staging} (h : BufferLawful b) (lbns : List Nat) (hl : lbns.Nodup) :
    b.Fitting (b.slotsFor lbns) := by
  have hh : ∀ i ∈ b.hits lbns, b.slots[i].lbn? ≠ none := by
    intro i hi
    obtain ⟨n, _, hf⟩ := List.mem_filterMap.1 hi
    rw [b.find_some n i hf]
    simp
  have k := h.available (b.hits lbns) hh
  refine (b.assign_fits lbns _ hl k.1 fun i hi => ⟨(k.2 i hi).1, fun n hn hf => ?_⟩).1
  exact (k.2 i hi).2 (List.mem_filterMap.2 ⟨n, hn, hf⟩)

/-- Placement (R78). -/
theorem BufferLawful.place {b : Staging} (h : BufferLawful b) (lbns : List Nat) (hl : lbns.Nodup) (r : Fin 16) (payload : List Byte) :
    BufferLawful (b.place lbns r payload) ∧ b.KeepsDirty (b.place lbns r payload) := by
  have h1 : BufferLawful { b with writeOrder := b.writeOrder + 1 } := h.same
  have hf := h.slotsFor lbns hl
  have k := BufferLawful.putBlocks r (b.writeOrder + 1) payload (b.slotsFor lbns) 0 h1 ⟨hf.lbns, hf.slots, hf.fits⟩
  exact ⟨k.1.same, (Staging.KeepsDirty.of_slots rfl).trans (k.2.trans (.of_slots rfl))⟩

theorem blockLbns_nodup (first count : Nat) : (blockLbns first count).Nodup := by
  unfold blockLbns
  exact List.Nodup.map (fun a b h => by simpa using h) List.nodup_range

/-! ### What a flush job carries -/

/-- Each slot stays, or is rewritten: no position ahead of the write order, and the slot of the flush job in progress FLUSHING with
its block, its data new only with a new position. -/
theorem FlushLawful.update {b c : Staging} {job : Option Job} (h : FlushLawful b job) (hw : b.writeOrder ≤ c.writeOrder)
    (hs : ∀ i : SlotId, c.slots[i] = b.slots[i] ∨
      ((∀ d, c.slots[i].unflushed? = some d → d.lastWrite ≤ c.writeOrder) ∧
        ∀ j d fw, job = some (.flush j) → j.slot = i → b.slots[i] = .flushing d fw → fw ≤ b.writeOrder →
          ∃ e, c.slots[i] = .flushing e fw ∧ e.lbn = d.lbn ∧ (e.lastWrite = fw → d.lastWrite = fw ∧ e.data = d.data))) :
    FlushLawful c job := by
  refine ⟨fun i d hd => ?_, fun j hj => ?_⟩
  · rcases hs i with k | k
    · rw [k] at hd
      exact Nat.le_trans (h.dated i d hd) hw
    · exact k.1 d hd
  · obtain ⟨d, fw, h1, h2, h3, h4⟩ := h.carried j hj
    rcases hs j.slot with k | k
    · exact ⟨d, fw, k.trans h1, Nat.le_trans h2 hw, h3, h4⟩
    · obtain ⟨e, k1, k2, k3⟩ := k.2 j d fw hj rfl h1 h2
      exact ⟨e, fw, k1, Nat.le_trans h2 hw, k2.trans h3, fun w => (k3 w).2.trans (h4 (k3 w).1)⟩

/-- The slots, the write order and the job alone matter. -/
theorem FlushLawful.same {b c : Staging} {job : Option Job} (h : FlushLawful b job) (hs : c.slots = b.slots := by rfl)
    (hw : c.writeOrder = b.writeOrder := by rfl) : FlushLawful c job :=
  h.update (Nat.le_of_eq hw.symm) fun i => .inl (by rw [hs])

/-- No flush job is in progress, or one that carries the same. -/
theorem FlushLawful.job {b : Staging} {x y : Option Job} (h : FlushLawful b x)
    (hy : ∀ j, y = some (.flush j) → ∃ k, x = some (.flush k) ∧ k.slot = j.slot ∧ k.lbn = j.lbn ∧ k.data = j.data) :
    FlushLawful b y :=
  ⟨h.dated, fun j hj => by
    obtain ⟨k, hk, h1, h2, h3⟩ := hy j hj
    obtain ⟨d, fw, h4, h5, h6, h7⟩ := h.carried k hk
    exact ⟨d, fw, (congrArg (b.slots[·]) h1).symm.trans h4, h5, h6.trans h2, fun w => (h7 w).trans h3⟩⟩

/-- One slot is rewritten. -/
theorem FlushLawful.setSlot {b : Staging} {job : Option Job} (h : FlushLawful b job) (i : SlotId) (x : Slot)
    (hd : ∀ d, x.unflushed? = some d → d.lastWrite ≤ b.writeOrder)
    (hx : ∀ j d fw, job = some (.flush j) → j.slot = i → b.slots[i] = .flushing d fw → fw ≤ b.writeOrder →
      ∃ e, x = .flushing e fw ∧ e.lbn = d.lbn ∧ (e.lastWrite = fw → d.lastWrite = fw ∧ e.data = d.data)) :
    FlushLawful (b.setSlot i x) job := by
  refine h.update (Nat.le_refl _) fun k => ?_
  rw [b.setSlot_slot]
  by_cases e : k = i
  · rw [if_pos e, e]
    exact .inr ⟨hd, hx⟩
  · exact .inl (if_neg e)

/-- A slot that is not FLUSHING is rewritten. -/
theorem FlushLawful.setIdle {b : Staging} {job : Option Job} (h : FlushLawful b job) (i : SlotId) (x : Slot)
    (hd : ∀ d, x.unflushed? = some d → d.lastWrite ≤ b.writeOrder) (hi : ∀ d fw, b.slots[i] ≠ .flushing d fw) :
    FlushLawful (b.setSlot i x) job :=
  h.setSlot i x hd fun _ d fw _ _ e _ => absurd e (hi d fw)

/-- A slot is rewritten while no flush job is in progress. -/
theorem FlushLawful.setAny {b : Staging} (h : FlushLawful b none) (i : SlotId) (x : Slot)
    (hd : ∀ d, x.unflushed? = some d → d.lastWrite ≤ b.writeOrder) : FlushLawful (b.setSlot i x) none :=
  h.setSlot i x hd fun _ _ _ e => by cases e

theorem FlushLawful.makeDirty {b : Staging} {job : Option Job} (h : FlushLawful b job) (i : SlotId) (d : Dirty)
    (hd : d.lastWrite ≤ b.writeOrder) (hi : b.slots[i].unflushed? = none) : FlushLawful (b.makeDirty i d) job :=
  (h.setIdle i (.dirty d) (fun e he => by cases he; exact hd) fun e fw k => by rw [k] at hi; cases hi).same

theorem FlushLawful.makeFree {b : Staging} {job : Option Job} (h : FlushLawful b job) (i : SlotId)
    (hi : job = none ∨ b.slots[i].unflushed? = none) : FlushLawful (b.makeFree i) job := by
  refine (h.setSlot i .free (fun e he => by cases he) fun j e fw hj _ k => ?_).same
  rcases hi with hi | hi
  · rw [hi] at hj
    cases hj
  · rw [k] at hi
    cases hi

theorem FlushLawful.freeAll {job : Option Job} (gone : List SlotId) {b : Staging} (h : FlushLawful b job)
    (hg : ∀ i ∈ gone, b.slots[i].unflushed? = none) : FlushLawful (gone.foldl Staging.makeFree b) job := by
  induction gone generalizing b with
  | nil => exact h
  | cons i gone ih =>
    refine ih (h.makeFree i (.inr (hg i (List.mem_cons_self ..)))) fun j hj => ?_
    rw [b.makeFree_slot]
    split
    · rfl
    · exact hg j (List.mem_cons_of_mem _ hj)

theorem FlushLawful.freeLeaving {b : Staging} {job : Option Job} (h : FlushLawful b job) (hb : BufferLawful b) :
    FlushLawful b.freeLeaving job :=
  (FlushLawful.freeAll (b.cleanOrder.filter fun i => match b.slots[i].lbn? with
    | some lbn => b.drain.contains lbn
    | none => false) h fun i hi => hb.clean_unflushed i (List.mem_of_mem_filter hi)).same

/-- A slot after a run of blocks at one position: as it was, or written at that position, FLUSHING if it was. -/
def Staging.WrittenAt (position : Nat) (b c : Staging) (i : SlotId) : Prop :=
  c.slots[i] = b.slots[i] ∨ ((∀ d, c.slots[i].unflushed? = some d → d.lastWrite = position) ∧
    ∀ d fw, b.slots[i] = .flushing d fw → ∃ e, c.slots[i] = .flushing e fw ∧ e.lastWrite = position)

theorem Staging.putBlock_written (b : Staging) (i : SlotId) (lbn : Nat) (r : Fin 16) (position : Nat) (data : Block) (j : SlotId) :
    Staging.WrittenAt position b (b.putBlock i lbn r position data) j := by
  by_cases k : j = i
  · subst k
    right
    unfold Staging.putBlock
    dsimp only
    split
    · next hs =>
      rw [b.makeDirty_slot, if_pos rfl]
      exact ⟨fun d hd => (by cases hd; rfl), fun d fw e => (by rw [hs] at e; cases e)⟩
    · next hs =>
      rw [b.makeDirty_slot, if_pos rfl]
      exact ⟨fun d hd => (by cases hd; rfl), fun d fw e => (by rw [hs] at e; cases e)⟩
    · next hs =>
      rw [b.setSlot_slot, if_pos rfl]
      exact ⟨fun d hd => (by cases hd; rfl), fun d fw e => (by rw [hs] at e; cases e)⟩
    · next hs =>
      rw [b.setSlot_slot, if_pos rfl]
      exact ⟨fun d hd => (by cases hd; rfl), fun d fw e => (by rw [hs] at e; cases e; exact ⟨_, rfl, rfl⟩)⟩
  · exact .inl (b.putBlock_other i j lbn r position data k)

theorem Staging.putBlocks_written (r : Fin 16) (position : Nat) (payload : List Byte) (pairs : List (Nat × SlotId)) (j : SlotId) :
    ∀ (k : Nat) (b : Staging), Staging.WrittenAt position b (b.putBlocks r position payload k pairs) j := by
  induction pairs with
  | nil => exact fun k b => .inl rfl
  | cons x pairs ih =>
    intro k b
    have h1 := b.putBlock_written x.2 x.1 r position (payloadBlock payload k) j
    have h2 := ih (k + 1) (b.putBlock x.2 x.1 r position (payloadBlock payload k))
    change Staging.WrittenAt position b ((b.putBlock x.2 x.1 r position (payloadBlock payload k)).putBlocks r position payload (k + 1) pairs) j
    generalize b.putBlock x.2 x.1 r position (payloadBlock payload k) = c at h1 h2 ⊢
    rcases h2 with h2 | h2
    · unfold Staging.WrittenAt
      rw [h2]
      exact h1
    · refine .inr ⟨h2.1, fun d fw e => ?_⟩
      rcases h1 with h1 | h1
      · exact h2.2 d fw (h1.trans e)
      · obtain ⟨e', k1, _⟩ := h1.2 d fw e
        exact h2.2 e' fw k1

theorem Staging.putBlock_writeOrder (b : Staging) (i : SlotId) (lbn : Nat) (r : Fin 16) (position : Nat) (data : Block) :
    (b.putBlock i lbn r position data).writeOrder = b.writeOrder := by
  unfold Staging.putBlock
  dsimp only
  split <;> rfl

theorem Staging.putBlocks_writeOrder (r : Fin 16) (position : Nat) (payload : List Byte) (pairs : List (Nat × SlotId)) :
    ∀ (k : Nat) (b : Staging), (b.putBlocks r position payload k pairs).writeOrder = b.writeOrder := by
  induction pairs with
  | nil => exact fun k b => rfl
  | cons x pairs ih =>
    intro k b
    exact (ih (k + 1) _).trans (b.putBlock_writeOrder ..)

/-- Placement (R78): a slot it rewrites has the new position, which no flush job in progress was begun at. -/
theorem FlushLawful.place {b : Staging} {job : Option Job} (h : FlushLawful b job) (lbns : List Nat) (r : Fin 16) (payload : List Byte)
    (hk : b.KeepsDirty (b.place lbns r payload)) : FlushLawful (b.place lbns r payload) job := by
  have hwo : (b.place lbns r payload).writeOrder = b.writeOrder + 1 := Staging.putBlocks_writeOrder ..
  refine h.update (by omega) fun i => ?_
  rw [hwo]
  have hs : Staging.WrittenAt (b.writeOrder + 1) b (b.place lbns r payload) i :=
    Staging.putBlocks_written r (b.writeOrder + 1) payload (b.slotsFor lbns) i 0 { b with writeOrder := b.writeOrder + 1 }
  rcases hs with k | k
  · exact .inl k
  · refine .inr ⟨fun d hd => Nat.le_of_eq (k.1 d hd), fun j d fw _ _ e hf => ?_⟩
    obtain ⟨x, hx, hp⟩ := k.2 d fw e
    obtain ⟨y, hy, hl⟩ := hk i d (by rw [e]; rfl)
    rw [hx] at hy
    cases hy
    exact ⟨x, hx, hl, fun w => by omega⟩

end Sys2Proof.Machine
end

