-- ==== Sys2Proof/Laws/Copies.lean ====
section
/-! SUPPORT. A metadata copy read back: the fields of `readCopy` on the bytes of `copyBytes` (R155). -/

namespace Sys2Proof.Machine

/-! ### Numbers in bytes -/

theorem natOfBytes_be32 (n : Nat) (h : n < 4294967296) : natOfBytes (be32 n) = n := by
  simp [natOfBytes, be32]; omega

theorem natOfBytes_be24 (n : Nat) (h : n < 16777216) : natOfBytes (be24 n) = n := by
  simp [natOfBytes, be24]; omega

theorem natOfBytes_be16 (n : Nat) (h : n < 65536) : natOfBytes (be16 n) = n := by
  simp [natOfBytes, be16]; omega

theorem ofNat_be32 (w : BitVec 32) : BitVec.ofNat 32 (natOfBytes (be32 w.toNat)) = w := by
  rw [natOfBytes_be32 _ w.isLt]; simp

theorem generationOf_bytes (g : Nat) (h : g < 4294967296) : generationOf (generationBytes g) = g := by
  unfold generationOf generationBytes
  rw [ofNat_be32, Equiv.symm_apply_apply, BitVec.toNat_ofNat]
  omega

theorem reordered_length (order : Equiv.Perm (Fin 4)) (bytes : List Byte) : (reordered order bytes).length = 4 := by
  simp [reordered]

/-- The order is undone by its inverse. -/
theorem reordered_symm (order : Equiv.Perm (Fin 4)) (bytes : List Byte) (h : bytes.length = 4) :
    reordered order.symm (reordered order bytes) = bytes := by
  apply List.ext_getElem
  · rw [reordered_length, h]
  · intro i h1 h2
    simp [reordered, List.getD, h2]

theorem crc32Of_bytes (c : BitVec 32) : crc32Of (crc32Bytes c) = c := by
  unfold crc32Of crc32Bytes
  rw [reordered_symm _ _ rfl, ofNat_be32]

/-! ### Bytes under a free code -/

theorem coded_length {n : Nat} (code : Equiv.Perm (Vector Byte n)) (fields : List Byte) : (coded code fields).length = n := by
  simp [coded]

/-- What was coded is read back. -/
theorem decoded_coded {n : Nat} (code : Equiv.Perm (Vector Byte n)) (fields : List Byte) (h : fields.length = n) :
    decoded code (coded code fields) = fields := by
  have hv : (Vector.ofFn fun i : Fin n => (coded code fields).getD i 0) = code (Vector.ofFn fun i => fields.getD i 0) := by
    apply Vector.ext
    intro i hi
    simp [coded, List.getD]
  unfold decoded
  rw [coded, hv, Equiv.symm_apply_apply]
  apply List.ext_getElem
  · simp [h]
  · intro i h1 h2
    simp [List.getD, h2]

/-! ### Records -/

/-- A saved definition that fits its nine bytes. -/
def SavedFits (d : Config.SavedRegion) : Prop :=
  d.id < 256 ∧ d.base < 16777216 ∧ d.length < 16777216 ∧ 1 ≤ d.leasePeriod ∧ d.leasePeriod ≤ 255

theorem definitionBytes_length (d : Config.SavedRegion) : (definitionBytes d).length = 9 := coded_length _ _

theorem spareBytes_length (e : Spare) : (spareBytes e).length = 3 := coded_length _ _

theorem attrBits : ∀ e p t : Bool,
    (BitVec.ofNat 8 (flagCode e + 2 * flagCode p + 4 * flagCode t)).getLsbD 0 = e ∧
    (BitVec.ofNat 8 (flagCode e + 2 * flagCode p + 4 * flagCode t)).getLsbD 1 = p ∧
    (BitVec.ofNat 8 (flagCode e + 2 * flagCode p + 4 * flagCode t)).getLsbD 2 = t := by decide

theorem definitionOf_fields (d : Config.SavedRegion) (h : SavedFits d) : definitionOf (definitionFields d) = d := by
  obtain ⟨id, base, length, e, p, t, lease⟩ := d
  obtain ⟨h1, h2, h3, h4, h5⟩ := h
  have hb : natOfBytes (be24 base) = base := natOfBytes_be24 _ h2
  have hl : natOfBytes (be24 length) = length := natOfBytes_be24 _ h3
  simp only [be24] at hb hl
  simp only [definitionOf, definitionFields, be24]
  simp only [Config.SavedRegion.mk.injEq]
  refine ⟨?_, hb, hl, ?_, ?_, ?_, ?_⟩
  · simp only [List.cons_append, List.getD_cons_zero, BitVec.toNat_ofNat]; simp only at h1; omega
  · exact (attrBits e p t).1
  · exact (attrBits e p t).2.1
  · exact (attrBits e p t).2.2
  · simp; simp only at h4 h5; omega

theorem definitionOf_bytes (d : Config.SavedRegion) (h : SavedFits d) :
    definitionOf (decoded Config.definitionCode (definitionBytes d)) = d := by
  rw [definitionBytes, decoded_coded _ _ (by simp [definitionFields, be24, Config.definitionBytes]), definitionOf_fields d h]

theorem spareOfNumber_number (e : Spare) : spareOfNumber (spareNumber e) = e := by cases e <;> rfl

theorem spareOf_bytes (e : Spare) (h : spareNumber e < 16777216) :
    spareOfNumber (natOfBytes (decoded Config.spareCode (spareBytes e))) = e := by
  rw [spareBytes, decoded_coded Config.spareCode _ rfl, natOfBytes_be24 _ h, spareOfNumber_number]

/-! ### Runs of records -/

/-- Record k of a run of records of one length. -/
theorem fieldAt_flatMap {α : Type} (f : α → List Byte) (m : Nat) (hf : ∀ x, (f x).length = m) (rest : List Byte) :
    ∀ (xs : List α) (k : Nat) (h : k < xs.length), fieldAt (xs.flatMap f ++ rest) (m * k) m = f xs[k]
  | x :: xs, 0, _ => by
    rw [Nat.mul_zero, List.flatMap_cons, List.append_assoc]
    exact List.take_left' (hf x)
  | x :: xs, k + 1, h => by
    have ih := fieldAt_flatMap f m hf rest xs k (by simpa using h)
    rw [List.getElem_cons_succ, ← ih]
    unfold fieldAt
    rw [List.flatMap_cons, List.append_assoc, Nat.mul_succ, Nat.add_comm, ← List.drop_drop]
    conv_lhs => rw [← hf x, List.drop_left]
    rw [hf x]

theorem flatMap_length {α : Type} (f : α → List Byte) (m : Nat) (hf : ∀ x, (f x).length = m) (xs : List α) :
    (xs.flatMap f).length = m * xs.length := by
  induction xs with
  | nil => simp
  | cons x xs ih => rw [List.flatMap_cons, List.length_append, ih, hf, List.length_cons]; ring

/-! ### The copy -/

/-- A snapshot whose values fit the bytes of a copy. -/
structure SnapshotFits (x : Config.Snapshot) : Prop where
  blocks : x.p < 4294967296
  count : x.s = x.spares.length
  spares : x.spares.length ≤ 1024
  regions : x.regions.length ≤ 16
  saved : ∀ d ∈ x.regions, SavedFits d
  inUse : ∀ e ∈ x.spares, spareNumber e < 16777216

theorem copyFields_length (x : Config.Snapshot) (g : Nat) :
    (copyFields x g).length = 16 + 9 * x.regions.length + 3 * x.spares.length := by
  have hr := flatMap_length definitionBytes 9 definitionBytes_length x.regions
  have hs := flatMap_length spareBytes 3 spareBytes_length x.spares
  have hh : (coded Config.headerCode (headerFields x)).length = 8 := coded_length _ _
  simp only [copyFields, generationBytes, be32, List.length_append, hr, hs, hh, List.length_cons, List.length_nil]

/-- The bytes of a copy in their five parts. -/
theorem copyBytes_parts (x : Config.Snapshot) (g : Nat) : ∃ middle crc : List Byte, middle.length = 6128 ∧ crc.length = 4 ∧
    copyBytes x g = be32 Config.formatMark.toNat ++ (generationBytes g ++ (middle ++ (generationBytes g ++ crc))) ∧
    middle = ((coded Config.headerCode (headerFields x) ++ x.regions.flatMap definitionBytes ++ x.spares.flatMap spareBytes) ++
      List.replicate copyRoom 0).take 6128 ∧
    crc32Of crc = crc32 ((copyBytes x g).take 6140) := by
  have hbody : (copyFields x g ++ List.replicate copyRoom 0).take copyRoom = be32 Config.formatMark.toNat ++
      (generationBytes g ++ ((coded Config.headerCode (headerFields x) ++ x.regions.flatMap definitionBytes ++
        x.spares.flatMap spareBytes) ++ List.replicate copyRoom 0).take 6128) := by
    have m4 : (be32 Config.formatMark.toNat).length = 4 := rfl
    have g4 : (generationBytes g).length = 4 := rfl
    simp only [copyFields, List.append_assoc]
    rw [show copyRoom = 4 + (4 + 6128) from rfl, List.take_append, m4, List.take_of_length_le (by rw [m4]; omega),
      show 4 + (4 + 6128) - 4 = 4 + 6128 from rfl, List.take_append, g4, List.take_of_length_le (by rw [g4]; omega)]
  refine ⟨_, _, ?_, rfl, by simp only [copyBytes, hbody, List.append_assoc]; rfl, rfl, ?_⟩
  · rw [List.length_take, List.length_append, List.length_replicate]
    simp [copyRoom]
  · rw [crc32Of_bytes]
    congr 1
    symm
    unfold copyBytes
    rw [hbody]
    refine (List.take_left' ?_).trans ?_
    · simp only [List.length_append, List.length_take, List.length_replicate, generationBytes, be32, List.length_cons,
        List.length_nil, copyRoom]
      omega
    · simp only [List.append_assoc]

theorem copyBytes_length (x : Config.Snapshot) (g : Nat) : (copyBytes x g).length = 6144 := by
  obtain ⟨middle, crc, hm, hl, h, _⟩ := copyBytes_parts x g
  rw [h]
  simp [generationBytes, be32, hm, hl]

/-- The layout of a copy (R155): mark, generation, the rest of the header, the definitions, the spare table, 00h, the closing
generation, the CRC-32. -/
theorem copyBytes_layout (x : Config.Snapshot) (g : Nat) (hx : SnapshotFits x) : ∃ crc : List Byte, crc.length = 4 ∧
    crc32Of crc = crc32 ((copyBytes x g).take 6140) ∧
    copyBytes x g = be32 Config.formatMark.toNat ++ (generationBytes g ++ (coded Config.headerCode (headerFields x) ++
      (x.regions.flatMap definitionBytes ++ (x.spares.flatMap spareBytes ++
        (List.replicate (6120 - 9 * x.regions.length - 3 * x.spares.length) 0 ++ (generationBytes g ++ crc)))))) := by
  obtain ⟨middle, crc, _, hl, h, hm, hc⟩ := copyBytes_parts x g
  refine ⟨crc, hl, hc, ?_⟩
  rw [h, hm]
  have hr := flatMap_length definitionBytes 9 definitionBytes_length x.regions
  have hs := flatMap_length spareBytes 3 spareBytes_length x.spares
  have hh : (coded Config.headerCode (headerFields x)).length = 8 := coded_length _ _
  have h16 := hx.regions
  have h1024 := hx.spares
  rw [List.take_append, List.take_of_length_le (by simp only [List.length_append, hr, hs, hh]; omega), List.take_replicate]
  have e : min (6128 - ((coded Config.headerCode (headerFields x)) ++ x.regions.flatMap definitionBytes ++
      x.spares.flatMap spareBytes).length) copyRoom = 6120 - 9 * x.regions.length - 3 * x.spares.length := by
    simp only [List.length_append, hr, hs, hh, copyRoom]
    omega
  rw [e]
  simp only [List.append_assoc]

/-- What a copy that has been written whole reads back as (R155). -/
theorem readCopy_copyBytes (x : Config.Snapshot) (g : Nat) (hx : SnapshotFits x) (hg : g < 4294967296) :
    readCopy (copyBytes x g) =
      { mark := Config.formatMark, generation := g, p := x.p, phase := some x.phase, s := x.s, regions := x.regions,
        spares := x.spares, closing := g, crc := crc32 ((copyBytes x g).take 6140) } := by
  obtain ⟨crc, hl, hc, h⟩ := copyBytes_layout x g hx
  have hr := flatMap_length definitionBytes 9 definitionBytes_length x.regions
  have hs := flatMap_length spareBytes 3 spareBytes_length x.spares
  have hh : (coded Config.headerCode (headerFields x)).length = 8 := coded_length _ _
  have g4 : (generationBytes g).length = 4 := rfl
  have m4 : (be32 Config.formatMark.toNat).length = 4 := rfl
  have h16 := hx.regions
  have h1024 := hx.spares
  have f0 : fieldAt (copyBytes x g) 0 4 = be32 Config.formatMark.toNat := by
    rw [h]; exact List.take_left' m4
  have d4 := List.drop_left' (l₂ := generationBytes g ++ (coded Config.headerCode (headerFields x) ++
      (x.regions.flatMap definitionBytes ++ (x.spares.flatMap spareBytes ++
        (List.replicate (6120 - 9 * x.regions.length - 3 * x.spares.length) 0 ++ (generationBytes g ++ crc)))))) m4
  rw [← h] at d4
  have f4 : fieldAt (copyBytes x g) 4 4 = generationBytes g := by
    unfold fieldAt; rw [d4]; exact List.take_left' g4
  have d8 := congrArg (List.drop 4) d4
  rw [List.drop_drop, List.drop_left' g4] at d8
  have f8 : fieldAt (copyBytes x g) 8 8 = coded Config.headerCode (headerFields x) := by
    unfold fieldAt; rw [d8]; exact List.take_left' hh
  have d16 := congrArg (List.drop 8) d8
  rw [List.drop_drop, List.drop_left' hh] at d16
  have f16 (n m : Nat) : fieldAt (copyBytes x g) (16 + n) m = fieldAt (x.regions.flatMap definitionBytes ++
      (x.spares.flatMap spareBytes ++ (List.replicate (6120 - 9 * x.regions.length - 3 * x.spares.length) 0 ++
        (generationBytes g ++ crc)))) n m := by
    unfold fieldAt; rw [← List.drop_drop, d16]
  have fs (n m : Nat) : fieldAt (copyBytes x g) (16 + 9 * x.regions.length + n) m = fieldAt (x.spares.flatMap spareBytes ++
      (List.replicate (6120 - 9 * x.regions.length - 3 * x.spares.length) 0 ++ (generationBytes g ++ crc))) n m := by
    rw [Nat.add_assoc, f16]
    unfold fieldAt
    rw [← List.drop_drop, List.drop_left' hr]
  have hend : (copyBytes x g).drop 6136 = generationBytes g ++ crc := by
    have e : be32 Config.formatMark.toNat ++ (generationBytes g ++ (coded Config.headerCode (headerFields x) ++
      (x.regions.flatMap definitionBytes ++ (x.spares.flatMap spareBytes ++
        (List.replicate (6120 - 9 * x.regions.length - 3 * x.spares.length) 0 ++ (generationBytes g ++ crc)))))) =
      (be32 Config.formatMark.toNat ++ generationBytes g ++ coded Config.headerCode (headerFields x) ++
      x.regions.flatMap definitionBytes ++ x.spares.flatMap spareBytes ++
        List.replicate (6120 - 9 * x.regions.length - 3 * x.spares.length) 0) ++ (generationBytes g ++ crc) := by
      simp only [List.append_assoc]
    rw [h, e]
    apply List.drop_left'
    simp only [List.length_append, m4, g4, hh, hr, hs, List.length_replicate]
    omega
  have f6136 : fieldAt (copyBytes x g) 6136 4 = generationBytes g := by
    unfold fieldAt; rw [hend]; exact List.take_left' g4
  have f6140 : fieldAt (copyBytes x g) 6140 4 = crc := by
    unfold fieldAt
    rw [show (6140 : Nat) = 6136 + 4 from rfl, ← List.drop_drop, hend, List.drop_left' g4]
    exact List.take_of_length_le (by omega)
  have hcount : ((headerFields x).getD 7 0).toNat = x.regions.length := by
    show (BitVec.ofNat 8 x.regions.length).toNat = _
    rw [BitVec.toNat_ofNat]; omega
  have hp : fieldAt (headerFields x) 0 4 = be32 x.p := rfl
  have h5 : fieldAt (headerFields x) 5 2 = be16 x.s := rfl
  have hph : phaseOf ((headerFields x).getD 4 0) = some x.phase := by
    show phaseOf (BitVec.ofNat 8 (phaseCode x.phase)) = _
    cases x.phase <;> rfl
  have hcs := hx.count
  unfold readCopy
  dsimp only
  rw [f0, f4, f8, f6136, f6140, decoded_coded Config.headerCode _ rfl, hcount, hp, h5, hph, ofNat_be32, generationOf_bytes g hg, hc,
    natOfBytes_be32 _ hx.blocks, natOfBytes_be16 _ (by omega)]
  simp only [Config.RawCopy.mk.injEq, true_and, and_true]
  constructor
  · apply List.ext_getElem
    · simp
    · intro k h1 h2
      simp only [List.getElem_map, List.getElem_range]
      rw [f16, fieldAt_flatMap definitionBytes 9 definitionBytes_length _ _ _ h2]
      exact definitionOf_bytes _ (hx.saved _ (List.getElem_mem h2))
  · apply List.ext_getElem
    · simp [hcs]
    · intro k h1 h2
      simp only [List.getElem_map, List.getElem_range]
      rw [fs, fieldAt_flatMap spareBytes 3 spareBytes_length _ _ _ h2]
      exact spareOf_bytes _ (hx.inUse _ (List.getElem_mem h2))

/-! ### Its blocks -/

/-- A run of blocks put together again. -/
theorem blocks_flatten (m : Nat) : ∀ (n : Nat) (bytes : List Byte), bytes.length = m * n →
    ((List.range n).map fun k => (bytes.drop (m * k)).take m).flatten = bytes
  | 0, bytes, h => by
    have : bytes = [] := List.eq_nil_of_length_eq_zero (by simpa using h)
    simp [this]
  | n + 1, bytes, h => by
    have ih := blocks_flatten m n (bytes.drop m) (by rw [List.length_drop, h, Nat.mul_succ]; omega)
    rw [List.range_succ_eq_map, List.map_cons, List.flatten_cons, List.map_map]
    have e : ((fun k => (bytes.drop (m * k)).take m) ∘ Nat.succ) = fun k => ((bytes.drop m).drop (m * k)).take m := by
      funext k
      simp only [Function.comp, List.drop_drop, Nat.mul_succ, Nat.add_comm]
    rw [e, ih]
    simp

/-- The twelve blocks of a copy are the copy (R155). -/
theorem copyBlocks_flatten (x : Config.Snapshot) (g : Nat) :
    ((List.range 12).map fun k => copyBlock x g k).flatten = copyBytes x g :=
  blocks_flatten 512 12 _ (by rw [copyBytes_length])

theorem copyBlock_length (x : Config.Snapshot) (g k : Nat) (h : k < 12) : (copyBlock x g k).length = 512 := by
  unfold copyBlock
  rw [List.length_take, List.length_drop, copyBytes_length]
  show min 512 (6144 - 512 * k) = 512
  omega

end Sys2Proof.Machine
end

