-- ==== Sys2Proof/Laws/Frames.lean ====
section
/-! SUPPORT. Bytes and bits of a frame, and the request header read back from what a master sends. -/

namespace Sys2Proof.Machine

/-- Eight bits of a byte spell the byte. -/
theorem byteOfBits_bitsOfByte : ∀ b : Byte, byteOfBits (bitsOfByte b) = b := by
  decide +kernel

/-- The bytes of the bits of bytes are the bytes. -/
theorem bytesOfBits_bitsOfBytes (bs : List Byte) : bytesOfBits (bitsOfBytes bs) = bs := by
  induction bs with
  | nil => rfl
  | cons b bs ih =>
    have h : bitsOfBytes (b :: bs) = bitsOfByte b ++ bitsOfBytes bs := by simp [bitsOfBytes]
    rw [h]
    change byteOfBits (bitsOfByte b) :: bytesOfBits (bitsOfBytes bs) = b :: bs
    rw [byteOfBits_bitsOfByte, ih]

theorem bitsOfBytes_length (bs : List Byte) : (bitsOfBytes bs).length = 8 * bs.length := by
  induction bs with
  | nil => rfl
  | cons b bs ih =>
    have h : bitsOfBytes (b :: bs) = bitsOfByte b ++ bitsOfBytes bs := by simp [bitsOfBytes]
    rw [h, List.length_append, ih]
    simp [bitsOfByte]
    omega

/-- A 24-bit field is read back from its three bytes. -/
theorem word24_be24 (w : Word24) :
    word24 (BitVec.ofNat 8 (w.toNat / 65536)) (BitVec.ofNat 8 (w.toNat / 256)) (BitVec.ofNat 8 w.toNat) = w := by
  apply BitVec.eq_of_toNat_eq
  have h := w.isLt
  simp only [word24, BitVec.toNat_ofNat]
  omega

/-- The same with the low byte as a narrowed word. -/
theorem word24_setWidth (w : Word24) :
    word24 (BitVec.ofNat 8 (w.toNat / 65536)) (BitVec.ofNat 8 (w.toNat / 256)) (BitVec.setWidth 8 w) = w := by
  have h : BitVec.setWidth 8 w = BitVec.ofNat 8 w.toNat := by simp
  rw [h, word24_be24]

theorem headerOfRequest_length (tag : Byte) (q : Request) : (headerOfRequest tag q).length = 16 := by
  cases q <;> rfl

theorem headerOfRequest_code (tag : Byte) (q : Request) : (headerOfRequest tag q).getD 0 0 = requestCode q := by
  cases q <;> rfl

theorem headerOfRequest_tag (tag : Byte) (q : Request) : (headerOfRequest tag q).getD 1 0 = tag := by
  cases q <;> rfl

theorem crc16Bytes_length (bytes : List Byte) : (crc16Bytes bytes).length = 2 := rfl

end Sys2Proof.Machine
end

