-- ==== Sys2Proof/Laws/Lawful.lean ====
section
/-! SUPPORT. The operations of the part keep its laws: for each shared operation, that a lawful state stays lawful, and what a
step keeps beside the laws (the eighth and the eleventh law). -/

namespace Sys2Proof.Machine

/-- What a step keeps: the laws of one state; the slots `D` names stay DIRTY or FLUSHING with their block; and under `n` the phase
stays AGREED, no RESET_TABLE being proposed. -/
structure Kept (D : SlotId → Nat → Prop) (n : Prop) (s : State) : Prop where
  regions : RegionsLawful s
  holds : HoldsLawful s
  ports : ∀ p, PortLawful n (s.port p)
  buffer : BufferLawful s.staging
  spares : SparesLawful s.blockMap
  candidates : CandidatesLawful s.blockMap
  checkpoint : CheckpointLawful s
  counters : CountersBounded s
  proposal : ProposalLawful s
  unloaded : UnloadedLawful s
  flushing : FlushLawful s.staging s.sched.job
  unflushed : ∀ i lbn, D i lbn → ∃ d, (s.slot i).unflushed? = some d ∧ d.lbn = lbn
  agreed : n → s.agree.phase = .agreed ∧ ∀ pr, s.agree.proposal = some pr → pr.change ≠ .resetTable

variable {D : SlotId → Nat → Prop} {n : Prop} {s t : State}

theorem Kept.lawful (h : Kept D n s) : Lawful s :=
  ⟨h.regions, h.holds, fun p => (h.ports p).length, fun p => ⟨(h.ports p).tags, (h.ports p).completions, (h.ports p).notices⟩,
    h.buffer, h.spares, h.candidates, h.checkpoint, h.counters, h.proposal, h.unloaded, h.flushing⟩

theorem Lawful.kept (h : Lawful s) (hD : ∀ i lbn, D i lbn → ∃ d, (s.slot i).unflushed? = some d ∧ d.lbn = lbn)
    (hn : n → s.agree.phase = .agreed ∧ NoReset s) : Kept D n s :=
  ⟨h.regions, h.holds, fun p => ⟨h.requests p, (h.queues p).1, (h.queues p).2.1, (h.queues p).2.2, fun k => (hn k).2.2 p⟩,
    h.buffer, h.spares, h.candidates, h.checkpoint, h.counters, h.proposal, h.unloaded, h.flushing, hD, fun k => ⟨(hn k).1, (hn k).2.1⟩⟩

/-! ### Changes that touch no law -/

/-- A change of fields that no law speaks of. -/
theorem Kept.frame (h : Kept D n s) (hA : t.portA = s.portA := by rfl) (hB : t.portB = s.portB := by rfl)
    (hr : t.regions = s.regions := by rfl) (hm : t.blockMap = s.blockMap := by rfl)
    (hn : t.agree.nextId = s.agree.nextId := by rfl) (ha : t.agree.phase = s.agree.phase := by rfl)
    (hq : t.agree.proposal = s.agree.proposal := by rfl) (hb : t.staging.slots = s.staging.slots := by rfl)
    (hd : t.staging.dirtyOrder = s.staging.dirtyOrder := by rfl) (hc : t.staging.cleanOrder = s.staging.cleanOrder := by rfl)
    (hl : t.link = s.link := by rfl)
    (hj : t.sched.job = s.sched.job := by rfl) (hs : t.store.newest = s.store.newest := by rfl)
    (hg : t.store.generation = s.store.generation := by rfl) (ho : t.store.loaded = s.store.loaded := by rfl)
    (hw : t.staging.writeOrder = s.staging.writeOrder := by rfl) : Kept D n t := by
  have hp : t.port = s.port := by
    funext p
    cases p
    · exact hA
    · exact hB
  have hreg : t.region = s.region := by
    funext r
    simp [State.region, hr]
  have hslot : t.slot = s.slot := by
    funext i
    simp [State.slot, hb]
  have hfit (c : Change) : ChangeFits t c = ChangeFits s c := by
    unfold ChangeFits
    rw [hreg, hm]
  refine ⟨?_, ?_, ?_, h.buffer.same hb hd hc, ?_, ?_, ?_, ?_, ?_, ?_, by rw [hj]; exact h.flushing.same hb hw, ?_, ?_⟩
  · unfold RegionsLawful
    rw [hreg, hm]
    exact h.regions
  · unfold HoldsLawful
    rw [hreg, hp]
    exact h.holds
  · rw [hp]
    exact h.ports
  · rw [hm]
    exact h.spares
  · rw [hm]
    exact h.candidates
  · intro c
    rw [hj, hs, hg]
    exact h.checkpoint c
  · unfold CountersBounded
    rw [hn, hl]
    exact h.counters
  · intro pr
    rw [hq, hfit]
    exact h.proposal pr
  · unfold UnloadedLawful
    rw [hq, ha, ho, hj]
    exact h.unloaded
  · rw [hslot]
    exact h.unflushed
  · rw [ha, hq]
    exact h.agreed

/-! ### Port units -/

theorem portEqOrOther (p q : PortId) : q = p ∨ q = p.other := by cases p <;> cases q <;> simp [PortId.other]

/-- A port unit that stays ONLINE and keeps its laws. -/
theorem Kept.updPort (h : Kept D n s) (p : PortId) (f : PortUnit → PortUnit) (hf : PortLawful n (f (s.port p)))
    (ho : (s.port p).online = true → (f (s.port p)).online = true) : Kept D n (s.updPort p f) := by
  have hreg (r : Fin 16) : (s.updPort p f).region r = s.region r := by cases p <;> rfl
  have hslot (i : SlotId) : (s.updPort p f).slot i = s.slot i := by cases p <;> rfl
  have hfit (c : Change) : ChangeFits (s.updPort p f) c = ChangeFits s c := by cases p <;> rfl
  refine ⟨by simpa only [RegionsLawful, hreg, State.updPort_blockMap] using h.regions, ⟨?_, by simpa only [hreg] using h.holds.2⟩, ?_,
    by simpa using h.buffer, by simpa using h.spares, by simpa using h.candidates, fun c => by simpa using h.checkpoint c,
    by simpa only [CountersBounded, State.updPort_agree, State.updPort_link] using h.counters,
    by simpa only [ProposalLawful, State.updPort_agree, hfit] using h.proposal,
    by simpa only [UnloadedLawful, State.updPort_agree, State.updPort_store, State.updPort_sched] using h.unloaded,
    by simpa only [State.updPort_staging, State.updPort_sched] using h.flushing,
    by simpa only [hslot] using h.unflushed, by simpa only [State.updPort_agree] using h.agreed⟩
  · intro r x hx
    rw [hreg] at hx ⊢
    have k := h.holds.1 r x hx
    refine ⟨k.1, ?_, k.2.2⟩
    rcases portEqOrOther p x.holder with e | e
    · rw [e] at k ⊢
      simpa using ho k.2.1
    · rw [e] at k ⊢
      simpa using k.2.1
  · intro q
    rcases portEqOrOther p q with e | e
    · rw [e]
      simpa using hf
    · rw [e]
      simpa using h.ports p.other

/-- A port unit with the same requests, queue and port state. -/
theorem Kept.wires (h : Kept D n s) (p : PortId) (f : PortUnit → PortUnit) (hr : (f (s.port p)).requests = (s.port p).requests)
    (hq : (f (s.port p)).queue = (s.port p).queue) (ho : (f (s.port p)).online = (s.port p).online)
    (hv : n → ∀ bits, (f (s.port p)).receiver ≠ .receiving bits) : Kept D n (s.updPort p f) :=
  h.updPort p f ((h.ports p).wires hr hq hv) fun k => ho ▸ k

theorem Kept.notReceiving (h : Kept D n s) (p : PortId) (k : n) (bits : List Bool) : (s.port p).receiver ≠ .receiving bits :=
  ((h.ports p).quiet k).2 bits

theorem Kept.setReceiver (h : Kept D n s) (p : PortId) (r : Receiver) (hr : n → ∀ bits, r ≠ .receiving bits) :
    Kept D n (s.setReceiver p r) := h.wires p _ rfl rfl rfl hr

theorem Kept.frameError (h : Kept D n s) (p : PortId) : Kept D n (s.updPort p PortUnit.setFrameError) :=
  h.wires p _ rfl rfl rfl fun k => h.notReceiving p k

theorem Kept.complete (h : Kept D n s) (p : PortId) (tag : Byte) (st : Status) (res : Result) :
    Kept D n (s.complete p tag st res) :=
  h.updPort p _ ((h.ports p).complete _ tag st res) fun k => by rw [PortUnit.complete_online]; exact k

theorem Kept.finish (h : Kept D n s) (p : PortId) (tag : Byte) (d : Bool) (st : Status) (res : Result) :
    Kept D n (s.finish p tag d st res) := by
  unfold State.finish
  split
  · exact h
  · exact h.complete p tag st res

theorem Kept.offer (h : Kept D n s) (p : PortId) (x : Notice) : Kept D n (s.offer p x) :=
  h.updPort p _ ((h.ports p).acceptNotice x) fun k => by rw [PortUnit.acceptNotice_online]; exact k

theorem Kept.offerBoth (h : Kept D n s) (x : Notice) : Kept D n (s.offerBoth x) := (h.offer .A x).offer .B x

theorem Kept.offers (offers : List (PortId × Notice)) : ∀ {s : State}, Kept D n s →
    Kept D n (offers.foldl (fun t x => t.offer x.1 x.2) s) := by
  induction offers with
  | nil => exact fun h => h
  | cons x xs ih => exact fun h => ih (h.offer x.1 x.2)

theorem Kept.offerInAnyOrder (h : Kept D n s) (offers : List (PortId × Notice)) :
    Kept D n (s.offerInAnyOrder offers) := (Kept.offers _ h).frame

theorem Kept.setRecord (h : Kept D n s) (p : PortId) (tag : Byte) (st : RecordState) : Kept D n (s.setRecord p tag st) :=
  h.updPort p _ ((h.ports p).mapOpen tag (fun x => { x with state := st }) (fun _ => rfl) fun _ => rfl) id

theorem Kept.startRecord (h : Kept D n s) (p : PortId) (tag : Byte) : Kept D n (s.startRecord p tag) :=
  h.updPort p _ ((h.ports p).mapOpen tag (fun x => { x with state := .started, request := withoutPayload x.request }) (fun _ => rfl)
    fun r => asksReset_withoutPayload r.request) id

theorem Kept.openEvent (h : Kept D n s) : Kept D n s.openEvent := h.frame

theorem Kept.chose {α : Type} (h : Kept D n s) (xs : List α) : Kept D n (s.chose xs) := by
  unfold State.chose
  split
  · exact h
  · exact h
  · exact h.frame

theorem Kept.completeAll (p : PortId) (tags : List Byte) (st : Status) : ∀ {s : State}, Kept D n s →
    Kept D n (s.completeAll p tags st) := by
  unfold State.completeAll
  induction tags with
  | nil => exact fun h => h
  | cons x xs ih => exact fun h => ih (h.complete p x st .blank)

theorem Kept.finishWaiters (ws : List Waiter) (st : Status) : ∀ {s : State}, Kept D n s → Kept D n (s.finishWaiters ws st) := by
  unfold State.finishWaiters
  induction ws with
  | nil => exact fun h => h
  | cons x xs ih => exact fun h => ih (h.finish x.port x.tag x.detached st .blank)

theorem Kept.endWaitingWrite (h : Kept D n s) (p : PortId) (names : Fin 16 → Bool) (st : Status) :
    Kept D n (s.endWaitingWrite p names st) := by
  unfold State.endWaitingWrite
  split
  · exact h
  · split
    · split
      · exact h.complete p _ st .blank
      · exact h
    · exact h

/-! ### Regions -/

/-- The same definition; hold and changing flag may differ, and DEFINED may have become FIXED. -/
structure Region.Same (x y : Region) : Prop where
  state : x.state = .undefined ↔ y.state = .undefined
  base : x.base = y.base
  length : x.length = y.length
  attrs : x.attrs = y.attrs
  leasePeriod : x.leasePeriod = y.leasePeriod

theorem Region.Same.of_eq {x y : Region} (hs : x.state = y.state := by rfl) (hb : x.base = y.base := by rfl)
    (hl : x.length = y.length := by rfl) (ha : x.attrs = y.attrs := by rfl) (hp : x.leasePeriod = y.leasePeriod := by rfl) :
    x.Same y := ⟨by rw [hs], hb, hl, ha, hp⟩

theorem Region.Same.defined {x y : Region} (h : x.Same y) (k : x.state ≠ .undefined) : y.state ≠ .undefined :=
  fun e => k (h.state.2 e)

theorem RegionsLawful.same (h : RegionsLawful s) (hr : ∀ r, (t.region r).Same (s.region r)) (hl : t.blockMap.l = s.blockMap.l) :
    RegionsLawful t := by
  refine ⟨fun r k => ?_, fun q r e kq kr => ?_⟩
  · rw [(hr r).base, (hr r).length, hl]
    exact h.1 r ((hr r).defined k)
  · rw [(hr r).base, (hr r).length, (hr q).base, (hr q).length]
    exact h.2 q r e ((hr q).defined kq) ((hr r).defined kr)

theorem ChangeFits.same {c : Change} (h : ChangeFits s c) (hr : ∀ r, (t.region r).Same (s.region r))
    (hl : t.blockMap.l = s.blockMap.l) (hp : t.blockMap.p = s.blockMap.p) : ChangeFits t c := by
  cases c with
  | define r base length attrs lease =>
    refine ⟨by rw [hl]; exact h.1, h.2.1, fun q e k => ?_⟩
    rw [(hr q).base, (hr q).length]
    exact h.2.2 q e ((hr q).defined k)
  | resize r length =>
    refine ⟨by rw [hl, (hr r).base]; exact h.1, fun q e k => ?_⟩
    rw [(hr q).base, (hr q).length, (hr r).base]
    exact h.2 q e ((hr q).defined k)
  | setSpares count =>
    intro r k
    rw [(hr r).base, (hr r).length, hp]
    exact h r ((hr r).defined k)
  | reconfigure _ _ _ => exact h
  | delete _ => exact h
  | resetTable => exact h
  | close => exact h

/-- Region records and port units change, the records keep their definitions: a hold they keep or get is lawful. -/
theorem Kept.change (h : Kept D n s) (hr : ∀ r, (t.region r).Same (s.region r))
    (hh : ∀ r y, (t.region r).hold = some y →
      (s.region r).attrs.exclusive = true ∧ (t.port y.holder).online = true ∧ 1 ≤ y.remaining ∧ y.remaining ≤ 255)
    (hp : ∀ p, PortLawful n (t.port p)) (hm : t.blockMap = s.blockMap) (ha : t.agree = s.agree) (hb : t.staging = s.staging)
    (hl : t.link = s.link) (hj : t.sched = s.sched) (hs : t.store = s.store) : Kept D n t := by
  refine ⟨h.regions.same hr (by rw [hm]), ⟨fun r y hy => ?_, fun r he => ?_⟩, hp, hb ▸ h.buffer, hm ▸ h.spares, hm ▸ h.candidates,
    fun c => ?_, ?_, fun pr => ?_, ?_, by rw [hb, hj]; exact h.flushing, fun i lbn => ?_, ?_⟩
  · rw [(hr r).attrs]
    exact hh r y hy
  · rw [(hr r).attrs] at he
    rw [(hr r).leasePeriod]
    exact h.holds.2 r he
  · rw [hj, hs]
    exact h.checkpoint c
  · unfold CountersBounded
    rw [ha, hl]
    exact h.counters
  · rw [ha]
    intro k
    have := h.proposal pr k
    exact ⟨this.1, this.2.1, this.2.2.same hr (by rw [hm]) (by rw [hm])⟩
  · unfold UnloadedLawful
    rw [ha, hs, hj]
    exact h.unloaded
  · unfold State.slot
    rw [hb]
    exact h.unflushed i lbn
  · rw [ha]
    exact h.agreed

/-- Records change and keep their definitions: a hold they keep or get is lawful. -/
theorem Kept.mapRegions (h : Kept D n s) (f : Fin 16 → Region → Region) (hs : ∀ r, (f r (s.region r)).Same (s.region r))
    (hf : ∀ r y, (f r (s.region r)).hold = some y →
      (s.region r).attrs.exclusive = true ∧ (s.port y.holder).online = true ∧ 1 ≤ y.remaining ∧ y.remaining ≤ 255) :
    Kept D n (s.mapRegions f) :=
  h.change (fun r => by rw [s.mapRegions_region]; exact hs r)
    (fun r y hy => by rw [s.mapRegions_region] at hy; rw [State.mapRegions_port]; exact hf r y hy)
    (fun p => by rw [State.mapRegions_port]; exact h.ports p) (s.mapRegions_blockMap f) (s.mapRegions_agree f)
    (s.mapRegions_staging f) (s.mapRegions_link f) (s.mapRegions_sched f) (s.mapRegions_store f)

/-- One record changes and keeps its definition. -/
theorem Kept.setRegion (h : Kept D n s) (r : Fin 16) (x : Region) (hs : x.Same (s.region r))
    (hx : ∀ y, x.hold = some y →
      (s.region r).attrs.exclusive = true ∧ (s.port y.holder).online = true ∧ 1 ≤ y.remaining ∧ y.remaining ≤ 255) :
    Kept D n (s.setRegion r x) := by
  refine h.change (fun q => ?_) (fun q y hy => ?_) (fun p => by rw [State.setRegion_port]; exact h.ports p)
    (s.setRegion_blockMap r x) (s.setRegion_agree r x) (s.setRegion_staging r x) (s.setRegion_link r x) (s.setRegion_sched r x)
    (s.setRegion_store r x)
  · by_cases k : q = r
    · rw [k, s.setRegion_region]
      exact hs
    · rw [s.setRegion_region_of_ne r q x k]
      exact .of_eq
  · rw [State.setRegion_port]
    by_cases k : q = r
    · rw [k, s.setRegion_region] at hy
      rw [k]
      exact hx y hy
    · rw [s.setRegion_region_of_ne r q x k] at hy
      exact h.holds.1 q y hy

theorem Kept.dropHold (h : Kept D n s) (r : Fin 16) : Kept D n (s.dropHold r) :=
  h.setRegion r _ .of_eq fun y hy => by cases hy

theorem Kept.heldBy (h : Kept D n s) (r : Fin 16) (p : PortId) (hp : (s.region r).heldBy p = true) :
    (s.region r).attrs.exclusive = true ∧ (s.port p).online = true := by
  unfold Region.heldBy at hp
  split at hp
  · next x hx =>
    have : x.holder = p := by simpa using hp
    subst this
    exact ⟨(h.holds.1 r x hx).1, (h.holds.1 r x hx).2.1⟩
  · cases hp

/-- A hold is set to the lease period of its EXCLUSIVE region. -/
theorem Kept.hold (h : Kept D n s) (p : PortId) (r : Fin 16) (he : (s.region r).attrs.exclusive = true)
    (ho : (s.port p).online = true) : Kept D n (s.hold p r) :=
  h.setRegion r _ .of_eq fun y hy => by
    cases hy
    exact ⟨he, ho, h.holds.2 r he⟩

theorem Kept.renewIfHolder (h : Kept D n s) (p : PortId) (r : Fin 16) : Kept D n (s.renewIfHolder p r) := by
  unfold State.renewIfHolder
  dsimp only
  split
  · next hp => exact h.hold p r (h.heldBy r p hp).1 (h.heldBy r p hp).2
  · exact h

@[simp] theorem Scheduler.setWait_job (c : Scheduler) (p : PortId) (xs : List WaitingRead) : (c.setWait p xs).job = c.job := by
  cases p <;> rfl

/-- The wait lists and the order of service change. -/
theorem Kept.setSched (h : Kept D n s) (c : Scheduler) (hj : c.job = s.sched.job) : Kept D n { s with sched := c } :=
  h.frame (hj := hj)

theorem Kept.endNotStarted (h : Kept D n s) (p : PortId) (r : Fin 16) : Kept D n (s.endNotStarted p r) := by
  unfold State.endNotStarted
  dsimp only
  refine Kept.endWaitingWrite ?_ p _ _
  refine Kept.completeAll p _ _ ?_
  exact h.setSched _ (by simp)

theorem Region.countDown_same (x : Region) : x.countDown.Same x := by
  unfold Region.countDown
  split
  · exact .of_eq
  · exact .of_eq

/-- A hold that is counted down and does not run out. -/
theorem Region.countDown_hold (x : Region) (y : Hold) (h : x.countDown.hold = some y) :
    ∃ z, x.hold = some z ∧ y.holder = z.holder ∧ y.remaining ≤ z.remaining ∧ (1 ≤ z.remaining → 1 ≤ y.remaining) := by
  unfold Region.countDown at h
  split at h
  · exact ⟨y, h, rfl, Nat.le_refl _, id⟩
  · next k =>
    simp only [Option.map_eq_some_iff] at h
    obtain ⟨z, hz, rfl⟩ := h
    refine ⟨z, hz, rfl, Nat.sub_le _ _, fun _ => ?_⟩
    simp only [Region.lastTick, hz, decide_eq_true_eq] at k
    dsimp only
    omega

theorem Kept.countDown_hold (h : Kept D n s) (r : Fin 16) (y : Hold) (hy : (s.region r).countDown.hold = some y) :
    (s.region r).attrs.exclusive = true ∧ (s.port y.holder).online = true ∧ 1 ≤ y.remaining ∧ y.remaining ≤ 255 := by
  obtain ⟨z, hz, e, hle, hpos⟩ := (s.region r).countDown_hold y hy
  have k := h.holds.1 r z hz
  rw [e]
  exact ⟨k.1, k.2.1, hpos k.2.2.1, Nat.le_trans hle k.2.2.2⟩

theorem Kept.countLease (h : Kept D n s) (r : Fin 16) : Kept D n (s.setRegion r (s.region r).countDown) :=
  h.setRegion r _ (s.region r).countDown_same (h.countDown_hold r)

theorem Kept.countLeases (h : Kept D n s) : Kept D n (s.mapRegions fun _ x => x.countDown) :=
  h.mapRegions _ (fun r => (s.region r).countDown_same) h.countDown_hold

/-- A port goes OFFLINE and its holds are dropped. -/
theorem Kept.depart (h : Kept D n s) (p : PortId) :
    Kept D n ((s.updPort p fun u => { u with online := false }).dropHoldsOf p) := by
  unfold State.dropHoldsOf
  generalize hg : (fun (_ : Fin 16) (x : Region) => if x.heldBy p = true then { x with hold := none } else x) = f
  have hf (r : Fin 16) (x : Region) : f r x = if x.heldBy p = true then { x with hold := none } else x := by rw [← hg]
  have hreg (r : Fin 16) : ((s.updPort p fun u => { u with online := false }).mapRegions f).region r = f r (s.region r) := by
    rw [State.mapRegions_region]
    cases p <;> rfl
  refine h.change (fun r => ?_) (fun r y hy => ?_) (fun q => ?_) (by simp) (by simp) (by simp) (by simp) (by simp) (by simp)
  · rw [hreg, hf]
    split
    · exact .of_eq
    · exact .of_eq
  · rw [hreg, hf] at hy
    split at hy
    · cases hy
    · next hp =>
      have k := h.holds.1 r y hy
      refine ⟨k.1, ?_, k.2.2⟩
      rw [State.mapRegions_port]
      rcases portEqOrOther p y.holder with q | q
      · exact absurd (by simp [Region.heldBy, hy, q]) hp
      · rw [q] at k ⊢
        simpa using k.2.1
  · rw [State.mapRegions_port]
    rcases portEqOrOther p q with k | k
    · rw [k, State.updPort_port]
      exact (h.ports p).wires (hv := fun w => h.notReceiving p w)
    · rw [k, State.updPort_port_other]
      exact h.ports p.other

/-! ### Block map -/

/-- The spares and candidates change and stay lawful; P and S stay. -/
theorem Kept.setBlockMap (h : Kept D n s) (m : BlockMap) (hs : SparesLawful m) (hc : CandidatesLawful m)
    (hg : m.geometry = s.blockMap.geometry) : Kept D n { s with blockMap := m } := by
  have hl : m.l = s.blockMap.l := by unfold BlockMap.l; rw [hg]
  have hp : m.p = s.blockMap.p := by unfold BlockMap.p; rw [hg]
  exact ⟨h.regions.same (fun _ => .of_eq) hl, h.holds, h.ports, h.buffer, hs, hc, h.checkpoint, h.counters,
    fun pr k => ⟨(h.proposal pr k).1, (h.proposal pr k).2.1, (h.proposal pr k).2.2.same (fun _ => .of_eq) hl hp⟩, h.unloaded,
    h.flushing, h.unflushed, h.agreed⟩

theorem BlockMap.addCandidate_lawful (m : BlockMap) (lbn : Nat) (h : CandidatesLawful m) :
    CandidatesLawful (m.addCandidate lbn) := by
  obtain ⟨h1, h2⟩ := h
  unfold BlockMap.addCandidate
  split
  · exact ⟨h1, h2⟩
  · next hc =>
    have hn : lbn ∉ m.candidates := by simpa using hc
    split
    · next hl =>
      have hpos : 0 < m.candidates.length := by
        unfold Config.maxCandidates at hl
        omega
      refine ⟨?_, ?_⟩
      · simp only [List.length_append, List.length_tail, List.length_singleton]
        omega
      · have ht := List.Nodup.sublist (List.tail_sublist m.candidates) h2
        have hnt : lbn ∉ m.candidates.tail := fun e => hn (List.mem_of_mem_tail e)
        simp only [List.nodup_append, List.nodup_singleton, List.mem_singleton, ne_eq, true_and]
        refine ⟨ht, fun a ha b hb e => ?_⟩
        subst hb
        subst e
        exact hnt ha
    · next hl =>
      refine ⟨?_, ?_⟩
      · simp only [List.length_append, List.length_singleton]
        omega
      · simp only [List.nodup_append, List.nodup_singleton, List.mem_singleton, ne_eq, true_and]
        refine ⟨h2, fun a ha b hb e => ?_⟩
        subst hb
        subst e
        exact hn ha

theorem BlockMap.addCandidate_spares (m : BlockMap) (lbn : Nat) (h : SparesLawful m) : SparesLawful (m.addCandidate lbn) := by
  unfold BlockMap.addCandidate
  split
  · exact h
  · split <;> exact h

theorem BlockMap.addCandidate_geometry (m : BlockMap) (lbn : Nat) : (m.addCandidate lbn).geometry = m.geometry := by
  unfold BlockMap.addCandidate
  split
  · rfl
  · split <;> rfl

theorem Kept.addCandidate (h : Kept D n s) (lbn : Nat) : Kept D n (s.addCandidate lbn) :=
  h.setBlockMap _ (s.blockMap.addCandidate_spares lbn h.spares) (s.blockMap.addCandidate_lawful lbn h.candidates)
    (s.blockMap.addCandidate_geometry lbn)

theorem BlockMap.dropCandidate_lawful (m : BlockMap) (lbn : Nat) (h : CandidatesLawful m) :
    CandidatesLawful (m.dropCandidate lbn) :=
  ⟨Nat.le_trans (List.length_erase_le) h.1, List.Nodup.sublist List.erase_sublist h.2⟩

theorem BlockMap.retire_spares (m : BlockMap) (i : Nat) (h : SparesLawful m) : SparesLawful (m.retire i) := by
  refine ⟨?_, ?_⟩
  · have := h.1
    simpa [BlockMap.retire, BlockMap.s] using this
  · intro a b lbn ha hb
    simp only [BlockMap.retire, List.getElem?_set] at ha hb
    split at ha
    · split at ha <;> simp at ha
    · split at hb
      · split at hb <;> simp at hb
      · exact h.2 a b lbn ha hb

theorem BlockMap.succeedAt_spares (m : BlockMap) (lbn i : Nat) (h : SparesLawful m) : SparesLawful (m.succeedAt lbn i) := by
  refine ⟨?_, ?_⟩
  · have := h.1
    simpa [BlockMap.succeedAt, BlockMap.s] using this
  · have key : ∀ a n, (m.succeedAt lbn i).spares[a]? = some (.inUse n) →
        (a = i ∧ n = lbn) ∨ (a ≠ i ∧ n ≠ lbn ∧ m.spares[a]? = some (.inUse n)) := by
      intro a n ha
      simp only [BlockMap.succeedAt, List.getElem?_set, List.length_map, List.getElem?_map] at ha
      split at ha
      · next e =>
        split at ha
        · simp only [Option.some.injEq, Spare.inUse.injEq] at ha
          exact .inl ⟨e.symm, ha.symm⟩
        · cases ha
      · next e =>
        cases hm : m.spares[a]? with
        | none => simp [hm] at ha
        | some x =>
          simp only [hm, Option.map_some, Option.some.injEq] at ha
          split at ha
          · cases ha
          · next hne =>
            subst ha
            exact .inr ⟨fun k => e k.symm, fun k => hne (by simp [k]), rfl⟩
    intro a b n ha hb
    rcases key a n ha with ⟨ha1, ha2⟩ | ⟨ha1, ha2, ha3⟩
    · rcases key b n hb with ⟨hb1, _⟩ | ⟨_, hb2, _⟩
      · rw [ha1, hb1]
      · exact absurd ha2 hb2
    · rcases key b n hb with ⟨_, hb2⟩ | ⟨_, _, hb3⟩
      · exact absurd hb2 ha2
      · exact h.2 a b n ha3 hb3

end Sys2Proof.Machine
end

