-- ==== Sys2Proof/Laws/LawfulJobs.lean ====
section
/-! SUPPORT. The media jobs, the agreement and the table load keep the laws of the part. -/

namespace Sys2Proof.Machine

variable {D : SlotId → Nat → Prop} {n : Prop} {s t : State}

/-! ### Link, job and store -/

/-- The link changes within its ranges. -/
theorem Kept.setLink (h : Kept D n s) (l : MediaLink) (h1 : l.issueNo ≤ 255) (h2 : l.timeouts ≤ Config.maxTimeouts)
    (h3 : l.flight.isSome = true ∨ l.media = .online → l.timeouts < Config.maxTimeouts) : Kept D n { s with link := l } :=
  ⟨h.regions, h.holds, h.ports, h.buffer, h.spares, h.candidates, h.checkpoint, ⟨h.counters.1, h1, h2, h3⟩, h.proposal, h.unloaded,
    h.flushing, h.unflushed, h.agreed⟩

theorem nextIssueNo_le (n : Nat) : nextIssueNo n ≤ 255 := by
  unfold nextIssueNo
  split <;> omega

/-- An operation is issued with the timeout count below 3. -/
theorem Kept.issue (h : Kept D n s) (op : Op) (ht : s.link.timeouts < Config.maxTimeouts) : Kept D n (s.issue op) :=
  h.setLink _ (nextIssueNo_le _) (Nat.le_of_lt ht) fun _ => ht

theorem noTimeouts : 0 < Config.maxTimeouts := by decide

theorem Kept.answered (h : Kept D n s) : Kept D n s.answered :=
  h.setLink _ h.counters.2.1 (Nat.zero_le _) fun _ => noTimeouts

theorem State.answered_timeouts (s : State) : s.answered.link.timeouts < Config.maxTimeouts := noTimeouts

theorem Kept.dropOperation (h : Kept D n s) : Kept D n s.dropOperation :=
  h.setLink _ h.counters.2.1 h.counters.2.2.1 fun k => h.counters.2.2.2 (k.elim (fun e => by cases e) .inr)

/-- Another job, or none, is in progress. -/
theorem Kept.setJob (h : Kept D n s) (j : Option Job)
    (hj : ∀ c, j = some (.checkpoint c) → s.store.newest ≠ some c.copy ∧
      c.generation = if s.store.newest = none then 1 else s.store.generation + 1)
    (hl : ∀ blocks attempt, j = some (.identify (.loading blocks attempt)) → s.store.loaded = false)
    (hf : FlushLawful s.staging j) : Kept D n (s.setJob j) :=
  ⟨h.regions, h.holds, h.ports, h.buffer, h.spares, h.candidates, hj, h.counters, h.proposal, ⟨h.unloaded.1, hl⟩, hf, h.unflushed, h.agreed⟩

/-- A job that is no flush job. -/
theorem Kept.otherJob (h : Kept D n s) (j : Option Job) (hj : ∀ k, j ≠ some (.flush k)) : FlushLawful s.staging j :=
  h.flushing.job fun k e => absurd e (hj k)

/-- A flush job that carries what the one in progress carries. -/
theorem Kept.sameFlush (h : Kept D n s) (j k : FlushJob) (hj : s.sched.job = some (.flush j)) (hs : j.slot = k.slot := by rfl)
    (hl : j.lbn = k.lbn := by rfl) (hd : j.data = k.data := by rfl) : FlushLawful s.staging (some (.flush k)) :=
  h.flushing.job fun x e => by
    cases e
    exact ⟨j, hj, hs, hl, hd⟩

theorem Kept.noJob (h : Kept D n s) : Kept D n (s.setJob none) :=
  h.setJob none (fun _ e => by cases e) (fun _ _ e => by cases e) (h.otherJob _ fun _ e => by cases e)

theorem Kept.setYield (h : Kept D n s) (y : Bool) : Kept D n (s.setYield y) := h.frame

theorem Kept.judgeReserve (h : Kept D n s) : Kept D n s.judgeReserve := h.frame

theorem Kept.requestCheckpoint (h : Kept D n s) : Kept D n s.requestCheckpoint := h.frame

/-- The waiters, the flags and the drain scope. -/
theorem Kept.setWaiters (h : Kept D n s) (b : Staging) (hs : b.slots = s.staging.slots := by rfl)
    (hd : b.dirtyOrder = s.staging.dirtyOrder := by rfl) (hc : b.cleanOrder = s.staging.cleanOrder := by rfl)
    (hw : b.writeOrder = s.staging.writeOrder := by rfl) : Kept D n { s with staging := b } :=
  h.frame (hb := hs) (hd := hd) (hc := hc) (hw := hw)

/-- The buffer changes and keeps what is DIRTY or FLUSHING. -/
theorem Kept.setStaging (h : Kept D n s) (b : Staging) (hb : BufferLawful b ∧ s.staging.KeepsDirty b)
    (hf : FlushLawful b s.sched.job) : Kept D n { s with staging := b } :=
  ⟨h.regions, h.holds, h.ports, hb.1, h.spares, h.candidates, h.checkpoint, h.counters, h.proposal, h.unloaded, hf,
    fun i lbn k => by
      obtain ⟨d, hd, hl⟩ := h.unflushed i lbn k
      obtain ⟨e, he, hm⟩ := hb.2 i d hd
      exact ⟨e, he, hm.trans hl⟩, h.agreed⟩

/-- The buffer changes and keeps what is DIRTY or FLUSHING but for one slot. -/
theorem Kept.endSlot (h : Kept D n s) (b : Staging) (hb : BufferLawful b) (i : SlotId) (hD : ∀ lbn, ¬D i lbn)
    (hs : ∀ j : SlotId, j ≠ i → b.slots[j] = s.staging.slots[j]) (hf : FlushLawful b s.sched.job) : Kept D n { s with staging := b } :=
  ⟨h.regions, h.holds, h.ports, hb, h.spares, h.candidates, h.checkpoint, h.counters, h.proposal, h.unloaded, hf,
    fun j lbn k => by
      have hj : j ≠ i := fun e => hD lbn (e ▸ k)
      obtain ⟨d, hd, hl⟩ := h.unflushed j lbn k
      exact ⟨d, by unfold State.slot; rw [hs j hj]; exact hd, hl⟩, h.agreed⟩

/-- Fewer slots are followed. -/
theorem Kept.mono {E : SlotId → Nat → Prop} (h : Kept D n s) (hE : ∀ i lbn, E i lbn → D i lbn) : Kept E n s :=
  ⟨h.regions, h.holds, h.ports, h.buffer, h.spares, h.candidates, h.checkpoint, h.counters, h.proposal, h.unloaded,
    h.flushing, fun i lbn k => h.unflushed i lbn (hE i lbn k), h.agreed⟩

theorem Kept.setService (h : Kept D n s) (c : ServiceControl) : Kept D n { s with service := c } := h.frame

theorem Kept.checkpointFailed (h : Kept D n s) (again : Bool) (g : Nat) : Kept D n (s.checkpointFailed again g) := by
  unfold State.checkpointFailed
  exact Kept.offerBoth (s := { s with store := _ }) h.frame _

theorem Kept.noteCheckpointBegun (h : Kept D n s) : Kept D n s.noteCheckpointBegun := by
  unfold State.noteCheckpointBegun
  split
  · exact h.frame
  · exact h

theorem Kept.noteCheckpointEnded (h : Kept D n s) (good : Bool) : Kept D n (s.noteCheckpointEnded good) := by
  unfold State.noteCheckpointEnded
  split
  · split
    · exact h.frame
    · exact h
  · exact h

theorem Kept.noteRest (h : Kept D n s) : Kept D n s.noteRest := by
  unfold State.noteRest
  split
  · split
    · exact h.frame
    · exact h
  · exact h

theorem Kept.countQuiesceLoss (h : Kept D n s) : Kept D n s.countQuiesceLoss := by
  unfold State.countQuiesceLoss
  split
  · exact h.frame
  · exact h

/-! ### Buffer -/

theorem Staging.judgePressure_lawful {b : Staging} (h : BufferLawful b) : BufferLawful b.judgePressure := h.same

theorem Kept.flushWritten (h : Kept D n s) (i : SlotId) (hD : ∀ lbn, ¬D i lbn) (hj : s.sched.job = none) :
    Kept D n (s.flushWritten i) := by
  have hf := h.flushing
  rw [hj] at hf
  unfold State.flushWritten
  split
  · next d fw hs =>
    have hu : s.staging.slots[i].unflushed? = some d := by
      change (s.slot i).unflushed? = _
      rw [hs]
      rfl
    have ht : BufferLawful { s.staging with wtWaiters := s.staging.wtWaiters.map (WtWaiter.satisfy i fw) } := h.buffer.same
    dsimp only
    split
    · exact (h.endSlot _ (Staging.judgePressure_lawful (ht.makeClean i d hu)) i hD (fun j hj =>
        (Staging.makeClean_slot _ i j d).trans (if_neg hj)) (by
          rw [hj]
          exact (hf.setAny i (.clean d.lbn d.region d.data) fun _ e => by cases e).same)).noteRest
    · exact h.endSlot _ (Staging.judgePressure_lawful (ht.rewrite i _ d d hu rfl rfl)) i hD (fun j hj =>
        (Staging.setSlot_slot _ i j _).trans (if_neg hj)) (by
          rw [hj]
          exact (hf.setAny i (.dirty d) fun _ e => by cases e; exact hf.dated i d hu).same)
  all_goals exact h

theorem Kept.flushLost (h : Kept D n s) (i : SlotId) (hD : ∀ lbn, ¬D i lbn) (hj : s.sched.job = none) :
    Kept D n (s.flushLost i) := by
  have hf := h.flushing
  rw [hj] at hf
  unfold State.flushLost
  split
  · next d fw hs =>
    have ht : BufferLawful { s.staging with
        wtWaiters := s.staging.wtWaiters.map (WtWaiter.lose i)
        flushWaiters := s.staging.flushWaiters.map (FlushWaiter.countLoss d) } := h.buffer.same
    have k := h.endSlot _ (Staging.judgePressure_lawful (ht.makeFree i)) i hD (fun j hj =>
      (Staging.makeFree_slot _ i j).trans (if_neg hj)) (by rw [hj]; exact (hf.makeFree i (.inl rfl)).same)
    dsimp only
    split
    · exact k.countQuiesceLoss.noteRest
    · exact (k.countQuiesceLoss.offerBoth _).noteRest
  all_goals exact h

theorem Staging.available_nil {b : Staging} (h : BufferLawful b) (i : SlotId) (rest : List SlotId) (hi : b.available [] = i :: rest) :
    b.slots[i].unflushed? = none := ((h.available [] (fun _ k => by cases k)).2 i (by rw [hi]; exact List.mem_cons_self ..)).1

theorem Kept.relocate (h : Kept D n s) (lbn : Nat) (r : Fin 16) (data : Block) : Kept D n (s.relocate lbn r data) := by
  unfold State.relocate
  dsimp only
  split
  · next i hi =>
    have hl := s.staging.find_some lbn i hi
    split
    · next d hs =>
      have hu : s.staging.slots[i].unflushed? = some d := by rw [hs]; rfl
      exact h.setStaging _ ⟨h.buffer.rewrite i _ d { d with relocate := true } hu rfl rfl, .rewrite _ i _ d _ hu rfl rfl⟩
        (h.flushing.setIdle i _ (fun _ e => by cases e; exact h.flushing.dated i d hu) fun _ _ e => by rw [hs] at e; cases e)
    · next d fw hs =>
      have hu : s.staging.slots[i].unflushed? = some d := by rw [hs]; rfl
      exact h.setStaging _ ⟨h.buffer.rewrite i _ d { d with relocate := true } hu rfl rfl, .rewrite _ i _ d _ hu rfl rfl⟩
        (h.flushing.setSlot i _ (fun _ e => by cases e; exact h.flushing.dated i d hu) fun _ e w _ _ k _ => by
          rw [hs] at k
          cases k
          exact ⟨_, rfl, rfl, fun q => ⟨q, rfl⟩⟩)
    · next hs =>
      have hu : s.staging.slots[i].unflushed? = none := by rw [hs]; rfl
      exact h.setStaging _ ⟨Staging.judgePressure_lawful (h.buffer.makeDirty i _ hu fun j hj => h.buffer.once j i lbn hj hl),
        (Staging.KeepsDirty.makeDirty _ i _ hu).trans (.of_slots rfl)⟩ (h.flushing.makeDirty i _ (Nat.le_refl _) hu).same
    · exact h
  · next hn =>
    split
    · next i rest hi =>
      have hu := Staging.available_nil h.buffer i rest hi
      exact h.setStaging _ ⟨Staging.judgePressure_lawful (h.buffer.makeDirty i _ hu fun j hj => absurd hj (s.staging.find_none lbn hn j)),
        (Staging.KeepsDirty.makeDirty _ i _ hu).trans (.of_slots rfl)⟩ (h.flushing.makeDirty i _ (Nat.le_refl _) hu).same
    · exact h.addCandidate lbn

theorem State.relocate_link (s : State) (lbn : Nat) (r : Fin 16) (data : Block) : (s.relocate lbn r data).link = s.link := by
  unfold State.relocate
  dsimp only
  split
  · split <;> rfl
  · split <;> rfl

theorem Kept.placeWrite (h : Kept D n s) (p : PortId) (tag : Byte) (r : Fin 16) (c : Byte) (o : Word24)
    (d : List Byte) : Kept D n (s.placeWrite p tag r c o d) := by
  have k := h.buffer.place (blockLbns (s.lbnAt r o) c.toNat) (blockLbns_nodup _ _) r d
  have kf := h.flushing.place _ r d k.2
  unfold State.placeWrite
  dsimp only
  split
  · exact (((h.setStaging _ k kf).startRecord p tag).renewIfHolder p r).setWaiters _
  · exact (((h.setStaging _ k kf).startRecord p tag).renewIfHolder p r).complete p tag _ _

theorem Kept.dispatchRead (h : Kept D n s) (p : PortId) (tag : Byte) (r : Fin 16) (c : Byte) (o : Word24) :
    Kept D n (s.dispatchRead p tag r c o) := by
  unfold State.dispatchRead
  dsimp only
  split
  · exact (h.renewIfHolder p r).complete p tag _ _
  · exact ((h.renewIfHolder p r).setRecord p tag _).setSched _ (by simp)

theorem Kept.dispatchFlush (h : Kept D n s) (p : PortId) (tag : Byte) (scope : FlushScope) :
    Kept D n (s.dispatchFlush p tag scope) := by
  have key (t : State) (k : Kept D n t) (d : Bool) (w : FlushWaiter) : Kept D n (if d = true then t.complete p tag .ok (.lost 0)
      else { t.startRecord p tag with staging :=
        { (t.startRecord p tag).staging with flushWaiters := (t.startRecord p tag).staging.flushWaiters ++ [w] } }) := by
    split
    · exact k.complete p tag _ _
    · exact (k.startRecord p tag).setWaiters _
  cases scope with
  | all => exact key s h _ _
  | one r => exact key _ (h.renewIfHolder p r) _ _

/-! ### The beginning of a job -/

theorem Kept.online_timeouts (h : Kept D n s) (hm : s.link.media = .online) : s.link.timeouts < Config.maxTimeouts :=
  h.counters.2.2.2 (.inr hm)

theorem Kept.beginRead (h : Kept D n s) (p : PortId) (ht : s.link.timeouts < Config.maxTimeouts) :
    Kept D n (s.beginRead p) := by
  unfold State.beginRead
  split
  · exact h
  · refine Kept.issue ?_ _ (by simpa using ht)
    exact ((h.setSched { s.sched.setWait p _ with lastServed := p, yield := false } (by simp)).setJob _ (by simp) (by simp) (h.otherJob _ (by simp))).setRecord p _ _

theorem State.watchIfNoSpare_link (s : State) (d : Dirty) : (s.watchIfNoSpare d).link = s.link := by
  unfold State.watchIfNoSpare
  split <;> rfl

theorem Kept.beginFlush (h : Kept D n s) (i : SlotId) (ht : s.link.timeouts < Config.maxTimeouts) :
    Kept D n (s.beginFlush i) := by
  unfold State.beginFlush
  split
  · next d hs =>
    have hu : s.staging.slots[i].unflushed? = some d := by
      change (s.slot i).unflushed? = _
      rw [hs]
      rfl
    have k := h.setStaging (s.staging.setSlot i (.flushing { d with relocate := false } d.lastWrite))
      ⟨h.buffer.rewrite i _ d _ hu rfl rfl, .rewrite _ i _ d _ hu rfl rfl⟩
      (h.flushing.setIdle i _ (fun _ e => by cases e; exact h.flushing.dated i d hu) fun _ _ e => by
        rw [show s.staging.slots[i] = _ from hs] at e
        cases e)
    have kw : Kept D n (State.watchIfNoSpare { s with staging := s.staging.setSlot i (.flushing { d with relocate := false } d.lastWrite) } d) ∧
        (State.watchIfNoSpare { s with staging := s.staging.setSlot i (.flushing { d with relocate := false } d.lastWrite) } d).staging =
          s.staging.setSlot i (.flushing { d with relocate := false } d.lastWrite) := by
      unfold State.watchIfNoSpare
      split
      · exact ⟨k.addCandidate _, rfl⟩
      · exact ⟨k, rfl⟩
    refine Kept.issue (Kept.setYield (Kept.setJob kw.1 _ (by simp) (by simp) ?_) false) _ (by simpa [State.watchIfNoSpare_link] using ht)
    rw [kw.2]
    refine ⟨k.flushing.dated, fun j e => ?_⟩
    cases e
    exact ⟨_, _, (Staging.setSlot_slot _ i i _).trans (if_pos rfl), h.flushing.dated i d hu, rfl, fun _ => rfl⟩
  all_goals exact h

/-- The target of a checkpoint is the copy that is not the newest, with the next generation (R157). -/
theorem MetaStore.target_lawful (m : MetaStore) :
    m.newest ≠ some m.target.1 ∧ m.target.2 = if m.newest = none then 1 else m.generation + 1 := by
  unfold MetaStore.target
  split <;> simp_all

theorem State.noteCheckpointBegun_fields (s : State) :
    s.noteCheckpointBegun.store = s.store ∧ s.noteCheckpointBegun.link = s.link := by
  unfold State.noteCheckpointBegun
  split <;> exact ⟨rfl, rfl⟩

theorem Kept.beginCheckpoint (h : Kept D n s) (ht : s.link.timeouts < Config.maxTimeouts) :
    Kept D n s.beginCheckpoint := by
  have h1 : Kept D n (({ s with store := { s.store with checkpointPending := false } } : State).setYield false) := h.frame
  have hf := State.noteCheckpointBegun_fields (({ s with store := { s.store with checkpointPending := false } } : State).setYield false)
  unfold State.beginCheckpoint
  dsimp only
  generalize hb : (({ s with store := { s.store with checkpointPending := false } } : State).setYield false).noteCheckpointBegun = b at hf
  have h2 : Kept D n b := hb ▸ h1.noteCheckpointBegun
  split
  · exact ((h2.checkpointFailed _ _).setYield _).noteCheckpointEnded _
  · refine Kept.issue ?_ _ (by simpa [hf.2] using ht)
    refine h2.setJob _ (fun c hc => ?_) (by simp) (h2.otherJob _ (by simp))
    simp only [Option.some.injEq, Job.checkpoint.injEq] at hc
    subst hc
    rw [hf.1]
    exact s.store.target_lawful

theorem Kept.beginIdentify (h : Kept D n s) : Kept D n s.beginIdentify := by
  unfold State.beginIdentify
  refine Kept.issue (Kept.setJob ?_ _ (by simp) (by simp) ?_) _ noTimeouts
  · exact h.setLink _ h.counters.2.1 (Nat.zero_le _) fun _ => noTimeouts
  · exact h.otherJob _ (by simp)

theorem State.jobDue_online (s : State) (j : JobChoice) (h : s.jobDue = some j) : s.link.media = .online := by
  unfold State.jobDue at h
  split at h
  · next k =>
    simp only [Bool.and_eq_true, beq_iff_eq] at k
    exact k.1.2
  · cases h

theorem Kept.beginJob (h : Kept D n s) (j : JobChoice) (hj : s.jobDue = some j) : Kept D n (s.beginJob j) := by
  have ht := h.online_timeouts (s.jobDue_online j hj)
  cases j with
  | read p => exact h.beginRead p ht
  | flush i => exact h.beginFlush i ht
  | checkpoint => exact h.beginCheckpoint ht

/-! ### The read job -/

theorem Kept.readBlockEnded (h : Kept D n s) (j : ReadJob) (m : Nat) (rest : List Nat) (data : Block)
    (corrected : Bool) (ht : s.link.timeouts < Config.maxTimeouts) : Kept D n (s.readBlockEnded j m rest data corrected) := by
  unfold State.readBlockEnded
  dsimp only
  have h1 : Kept D n (if corrected = true then s.relocate (j.read.lbn + m) j.read.region data else s) := by
    split
    · exact h.relocate _ _ _
    · exact h
  have h2 : (if corrected = true then s.relocate (j.read.lbn + m) j.read.region data else s).link = s.link := by
    split
    · exact s.relocate_link _ _ _
    · rfl
  generalize (if corrected = true then s.relocate (j.read.lbn + m) j.read.region data else s) = t at h1 h2
  split
  · exact h1.noJob.finish _ _ _ _ _
  · exact Kept.issue (h1.setJob _ (by simp) (by simp) (h1.otherJob _ (by simp))) _ (by simpa [h2] using ht)

theorem Kept.readAnswered (h : Kept D n s) (j : ReadJob) (answer : ReadAnswer)
    (ht : s.link.timeouts < Config.maxTimeouts) : Kept D n (s.readAnswered j answer) := by
  unfold State.readAnswered
  split
  · exact h
  · split
    · exact h.readBlockEnded _ _ _ _ _ ht
    · exact h.readBlockEnded _ _ _ _ _ ht
    · split
      · exact Kept.issue (h.setJob _ (by simp) (by simp) (h.otherJob _ (by simp))) _ (by simpa using ht)
      · exact ((h.addCandidate _).noJob).finish _ _ _ _ _

/-! ### The flush job -/

theorem Kept.endFlushWritten (h : Kept D n s) (j : FlushJob) (hD : ∀ lbn, ¬D j.slot lbn) : Kept D n (s.endFlushWritten j) :=
  h.noJob.flushWritten _ hD rfl

theorem Kept.endFlushLost (h : Kept D n s) (j : FlushJob) (hD : ∀ lbn, ¬D j.slot lbn) : Kept D n (s.endFlushLost j) :=
  h.noJob.flushLost _ hD rfl

theorem Kept.sparesChanged (h : Kept D n s) (m : BlockMap) (hs : SparesLawful m) (hc : CandidatesLawful m)
    (hg : m.geometry = s.blockMap.geometry) : Kept D n (s.sparesChanged m) :=
  ((h.setBlockMap m hs hc hg).requestCheckpoint).judgeReserve

theorem Kept.tryNextSpare (h : Kept D n s) (j : FlushJob) (hj : s.sched.job = some (.flush j)) (hD : ∀ lbn, ¬D j.slot lbn) (ht : s.link.timeouts < Config.maxTimeouts) :
    Kept D n (s.tryNextSpare j) := by
  unfold State.tryNextSpare
  split
  · exact h.endFlushLost j hD
  · split
    · exact h.endFlushLost j hD
    · exact Kept.issue (h.setJob _ (by simp) (by simp) (h.sameFlush j _ hj)) _ (by simpa using ht)

theorem Kept.reassign (h : Kept D n s) (j : FlushJob) (hj : s.sched.job = some (.flush j)) (hD : ∀ lbn, ¬D j.slot lbn) (ht : s.link.timeouts < Config.maxTimeouts) :
    Kept D n (s.reassign j) := by
  unfold State.reassign
  split
  · exact h.tryNextSpare j hj hD ht
  · refine Kept.tryNextSpare ?_ j hj hD (by simpa [State.sparesChanged] using ht)
    exact h.sparesChanged _ (BlockMap.retire_spares _ _ h.spares) h.candidates rfl

theorem Kept.currentWriteAnswered (h : Kept D n s) (j : FlushJob) (hj : s.sched.job = some (.flush j)) (hD : ∀ lbn, ¬D j.slot lbn) (answer : WriteAnswer)
    (ht : s.link.timeouts < Config.maxTimeouts) : Kept D n (s.currentWriteAnswered j answer) := by
  cases answer with
  | good =>
    simp only [State.currentWriteAnswered]
    split
    · exact Kept.issue (h.setJob _ (by simp) (by simp) (h.sameFlush j _ hj)) _ (by simpa using ht)
    · exact h.endFlushWritten j hD
  | failed => exact h.reassign j hj hD ht

theorem Kept.verifyAnswered (h : Kept D n s) (j : FlushJob) (hj : s.sched.job = some (.flush j)) (hD : ∀ lbn, ¬D j.slot lbn) (answer : ReadAnswer)
    (ht : s.link.timeouts < Config.maxTimeouts) : Kept D n (s.verifyAnswered j answer) := by
  cases answer with
  | good d =>
    exact (h.setBlockMap (s.blockMap.dropCandidate j.lbn) h.spares (BlockMap.dropCandidate_lawful _ _ h.candidates) rfl).endFlushWritten j hD
  | corrected d => exact h.reassign j hj hD ht
  | unrecoverable => exact h.reassign j hj hD ht

theorem Kept.spareWriteAnswered (h : Kept D n s) (j : FlushJob) (hj : s.sched.job = some (.flush j)) (hD : ∀ lbn, ¬D j.slot lbn) (k : Nat) (answer : WriteAnswer)
    (ht : s.link.timeouts < Config.maxTimeouts) : Kept D n (s.spareWriteAnswered j k answer) := by
  cases answer with
  | good =>
    refine Kept.endFlushWritten ?_ j hD
    exact h.sparesChanged _ (BlockMap.succeedAt_spares _ _ _ h.spares) (BlockMap.dropCandidate_lawful _ _ h.candidates) rfl
  | failed => exact h.reassign j hj hD ht

/-! ### The checkpoint job -/

theorem Kept.checkpointWriteAnswered (h : Kept D n s) (c : CheckpointJob) (answer : WriteAnswer)
    (hj : s.sched.job = some (.checkpoint c)) (ht : s.link.timeouts < Config.maxTimeouts) :
    Kept D n (s.checkpointWriteAnswered c answer) := by
  cases answer with
  | good =>
    simp only [State.checkpointWriteAnswered]
    split
    · refine Kept.issue ?_ _ (by simpa using ht)
      refine h.setJob _ (fun d hd => ?_) (by simp) (h.otherJob _ (by simp))
      simp only [Option.some.injEq, Job.checkpoint.injEq] at hd
      subst hd
      exact h.checkpoint c hj
    · refine Kept.noteCheckpointEnded ?_ true
      exact ⟨h.regions, h.holds, h.ports, h.buffer, h.spares, h.candidates, fun _ e => (by cases e), h.counters, h.proposal,
        ⟨h.unloaded.1, fun _ _ e => (by cases e)⟩, h.otherJob none (by simp), h.unflushed, h.agreed⟩
  | failed =>
    exact ((h.noJob.checkpointFailed _ _).setYield _).noteCheckpointEnded _

/-! ### The identify job and the table load -/

theorem Kept.setMedia (h : Kept D n s) (m : MediaState) (hm : m = .online → s.link.timeouts < Config.maxTimeouts) :
    Kept D n (s.setMedia m) :=
  h.setLink _ h.counters.2.1 h.counters.2.2.1 fun k => k.elim (fun e => h.counters.2.2.2 (.inl e)) hm

theorem Kept.endRestart (h : Kept D n s) (success : Bool) : Kept D n (s.endRestart success) := by
  have h1 : Kept D n { s with link := { s.link with restart := false, restartWaiters := [] } } :=
    h.setLink _ h.counters.2.1 h.counters.2.2.1 h.counters.2.2.2
  unfold State.endRestart
  dsimp only
  split
  · exact (h1.finishWaiters _ _).offerBoth _
  · exact h1.finishWaiters _ _

theorem Kept.endIdentify (h : Kept D n (s.setJob none)) (success : Bool) : Kept D n (s.endIdentify success) := by
  have h1 : Kept D n { s.setJob none with link := { s.link with identified := none } } :=
    h.setLink _ h.counters.2.1 h.counters.2.2.1 h.counters.2.2.2
  unfold State.endIdentify
  dsimp only
  split
  · exact h1.endRestart success
  · exact h1.setService _

theorem Kept.identifyAnswered (h : Kept D n s) (count size : Nat) (ht : s.link.timeouts < Config.maxTimeouts) :
    Kept D n (s.identifyAnswered count size) := by
  unfold State.identifyAnswered
  split
  · split
    · exact (h.setMedia .online fun _ => ht).noJob.endIdentify true
    · next hl =>
      dsimp only
      refine Kept.issue (Kept.setJob ?_ _ (by simp) (fun _ _ _ => by simpa using hl) ?_) _ (by simpa using ht)
      · exact h.setLink _ h.counters.2.1 h.counters.2.2.1 fun _ => ht
      · exact h.otherJob _ (by simp)
  · exact (h.setMedia .fault fun e => by cases e).noJob.endIdentify false

/-- A load fills the tables of a part that had none. -/
theorem Kept.load (h : Kept D n s) (regions : Vector Region 16) (phase : Phase) (m : BlockMap) (store : MetaStore)
    (hu : s.store.loaded = false) (hj : s.sched.job = none) (ho : store.loaded = true)
    (hr : RegionsLawful { s with regions := regions, blockMap := m }) (hh : ∀ r : Fin 16, (regions[r]).hold = none)
    (hp : ∀ r : Fin 16, (regions[r]).attrs.exclusive = true → 1 ≤ (regions[r]).leasePeriod ∧ (regions[r]).leasePeriod ≤ 255)
    (hs : SparesLawful m) (hc : m.candidates = []) :
    Kept D n { s with regions := regions, agree := { s.agree with phase := phase }, blockMap := m, store := store } := by
  have hn := (h.unloaded.1 hu).1
  refine ⟨hr, ⟨fun r x hx => ?_, hp⟩, h.ports, h.buffer, hs, ?_, fun c e => ?_, h.counters, fun pr e => ?_, ⟨fun e => ?_, fun _ _ e => ?_⟩,
    h.flushing, h.unflushed, fun k => ?_⟩
  · have : (regions[r]).hold = some x := hx
    rw [hh r] at this
    cases this
  · unfold CandidatesLawful
    simp [hc]
  · exact absurd (hj.symm.trans e) (by simp)
  · exact absurd (hn.symm.trans e) (by simp)
  · exact absurd (ho.symm.trans e) (by simp)
  · exact absurd (hj.symm.trans e) (by simp)
  · have := (h.agreed k).1
    rw [(h.unloaded.1 hu).2] at this
    cases this

theorem pairwiseApart_get {α : Type} (apart : α → α → Bool) (xs : List α) (h : pairwiseApart apart xs = true) (i j : Nat) (x y : α)
    (hij : i < j) (hx : xs[i]? = some x) (hy : xs[j]? = some y) : apart x y = true := by
  induction xs generalizing i j with
  | nil => simp at hx
  | cons a xs ih =>
    simp only [pairwiseApart, Bool.and_eq_true, List.all_eq_true] at h
    cases j with
    | zero => omega
    | succ j =>
      simp only [List.getElem?_cons_succ] at hy
      cases i with
      | zero =>
        simp only [List.getElem?_cons_zero, Option.some.injEq] at hx
        subst hx
        exact h.1 y (List.mem_of_getElem? hy)
      | succ i =>
        simp only [List.getElem?_cons_succ] at hx
        exact ih h.2 i j (by omega) hx hy

/-- No two spare entries of a list are IN_USE for one block. -/
def sparesApart (xs : List Spare) : Bool :=
  pairwiseApart (fun d e => match d with | .inUse _ => d != e | .free => true | .retired => true) xs

theorem sparesApart_eq (xs : List Spare) (h : sparesApart xs = true) (i j lbn : Nat) (hi : xs[i]? = some (.inUse lbn))
    (hj : xs[j]? = some (.inUse lbn)) : i = j := by
  rcases Nat.lt_trichotomy i j with k | k | k
  · have := pairwiseApart_get _ xs h i j _ _ k hi hj
    simp at this
  · exact k
  · have := pairwiseApart_get _ xs h j i _ _ k hj hi
    simp at this

theorem loadedSpares_lawful (p s : Nat) (xs : List Spare) (h : xs.length = s ∧ sparesApart xs = true) :
    SparesLawful { geometry := some ⟨p, s⟩, spares := xs, candidates := [] } :=
  ⟨h.1, fun i j lbn hi hj => sparesApart_eq xs h.2 i j lbn hi hj⟩

theorem blankSpares_lawful (p s : Nat) :
    SparesLawful { geometry := some ⟨p, s⟩, spares := List.replicate s .free, candidates := [] } := by
  refine ⟨by simp [BlockMap.s], ?_⟩
  intro i j lbn hi
  simp [List.getElem?_replicate] at hi

theorem extentsOverlap_shares (b l b' l' : Nat) (h : extentsOverlap b l b' l' = false) : ¬Shares b l b' l' := by
  rintro ⟨k, hk⟩
  simp only [extentsOverlap, decide_eq_false_iff_not] at h
  omega

/-- What the load uses of a valid copy (R156). -/
structure CopyLawful (c : Config.RawCopy) : Prop where
  spares : c.spares.length = c.s ∧ sparesApart c.spares = true
  inside : ∀ d ∈ c.regions, d.base + d.length ≤ c.p - Config.metadataBlocks - c.s
  apart : ∀ d ∈ c.regions, ∀ e ∈ c.regions, d.id ≠ e.id → ¬Shares d.base d.length e.base e.length
  leases : ∀ d ∈ c.regions, 1 ≤ d.leasePeriod ∧ d.leasePeriod ≤ 255

theorem pairwiseApart_regions (xs : List Config.SavedRegion)
    (h : pairwiseApart (fun d e => d.id != e.id && !extentsOverlap d.base d.length e.base e.length) xs = true) :
    ∀ d ∈ xs, ∀ e ∈ xs, d.id ≠ e.id → ¬Shares d.base d.length e.base e.length := by
  induction xs with
  | nil => exact fun d hd => by cases hd
  | cons x xs ih =>
    simp only [pairwiseApart, Bool.and_eq_true, List.all_eq_true] at h
    have key (e : Config.SavedRegion) (he : e ∈ xs) : ¬Shares x.base x.length e.base e.length :=
      extentsOverlap_shares _ _ _ _ (by simpa using (h.1 e he).2)
    intro d hd e he hne
    rcases List.mem_cons.1 hd with hd | hd <;> rcases List.mem_cons.1 he with he | he
    · exact absurd (by rw [hd, he]) hne
    · rw [hd]
      exact key e he
    · rintro ⟨k, k1, k2⟩
      rw [he] at k2
      exact key d hd ⟨k, k2, k1⟩
    · exact ih h.2 d hd e he hne

theorem validCopy_lawful (blocks : List (Option Block)) (p : Nat) (c : Config.RawCopy) (h : validCopy blocks p = some c) :
    c.p = p ∧ CopyLawful c := by
  unfold validCopy at h
  split at h
  · dsimp only at h
    split at h
    · next k =>
      cases h
      unfold copyOk contentsOk at k
      simp only [Bool.and_eq_true, List.all_eq_true, beq_iff_eq, decide_eq_true_eq] at k
      refine ⟨k.1.2, ⟨by simp [readCopy], k.2.2⟩, fun d hd => (k.2.1.1.1.2 d hd).2, pairwiseApart_regions _ k.2.1.1.2, fun d hd => ?_⟩
      unfold readCopy at hd
      simp only [List.mem_map] at hd
      obtain ⟨_, _, rfl⟩ := hd
      unfold definitionOf
      dsimp only
      omega
    · cases h
  · cases h

/-- The records that a copy fills. -/
theorem loadedRecord (c : Config.RawCopy) (r : Fin 16) (x : Region)
    (h : x = match c.regions.find? fun d => d.id == r.val with | some d => loadedRegion d | none => Region.undefinedRecord) :
    (x.hold = none) ∧ (x = Region.undefinedRecord ∨ ∃ d ∈ c.regions, d.id = r.val ∧ x = loadedRegion d) := by
  subst h
  split
  · next d hd => exact ⟨rfl, .inr ⟨d, List.mem_of_find?_eq_some hd, by simpa using List.find?_some hd, rfl⟩⟩
  · exact ⟨rfl, .inl rfl⟩

theorem Kept.loadCopy (h : Kept D n s) (id : CopyId) (c : Config.RawCopy) (hc : CopyLawful c) (hu : s.store.loaded = false)
    (hj : s.sched.job = none) : Kept D n (s.loadCopy id c c.p) := by
  have key (r : Fin 16) := loadedRecord c r _ rfl
  unfold State.loadCopy
  dsimp only
  generalize hv : Vector.ofFn (n := 16) (fun r : Fin 16 =>
    match c.regions.find? fun d => d.id == r.val with | some d => loadedRegion d | none => Region.undefinedRecord) = v
  have hg (r : Fin 16) : v[r] = match c.regions.find? fun d => d.id == r.val with
      | some d => loadedRegion d | none => Region.undefinedRecord := by
    rw [← hv]
    simp only [Fin.getElem_fin, Vector.getElem_ofFn]
  simp only [← hg] at key
  have hd (r : Fin 16) (k : v[r].state ≠ .undefined) : ∃ d ∈ c.regions, d.id = r.val ∧ v[r] = loadedRegion d := by
    rcases (key r).2 with e | e
    · exact absurd (by rw [e]; rfl) k
    · exact e
  refine Kept.judgeReserve (h.load v _ _ _ hu hj rfl ⟨fun r k => ?_, fun q r hne kq kr => ?_⟩ (fun r => (key r).1) (fun r k => ?_)
    (loadedSpares_lawful _ _ _ hc.spares) rfl)
  · obtain ⟨d, hm, _, e⟩ := hd r k
    change v[r].base + v[r].length ≤ _
    rw [e]
    exact hc.inside d hm
  · obtain ⟨d, hm, hi, e⟩ := hd q kq
    obtain ⟨d', hm', hi', e'⟩ := hd r kr
    change ¬Shares v[q].base v[q].length v[r].base v[r].length
    rw [e, e']
    exact hc.apart d hm d' hm' fun w => hne (Fin.ext (by rw [← hi, ← hi', w]))
  · rcases (key r).2 with e | ⟨d, hm, _, e⟩
    · rw [e] at k
      cases k
    · rw [e]
      exact hc.leases d hm

theorem Kept.loadBlank (h : Kept D n s) (p : Nat) (hu : s.store.loaded = false) (hj : s.sched.job = none) :
    Kept D n (s.loadBlank p) := by
  have hv (r : Fin 16) : (Vector.replicate 16 Region.undefinedRecord)[r] = Region.undefinedRecord := by simp
  refine Kept.judgeReserve (h.load _ _ _ _ hu hj rfl ⟨fun r k => ?_, fun q r _ k => ?_⟩ (fun r => by rw [hv]; rfl) (fun r k => ?_)
    (blankSpares_lawful _ _) rfl)
  · exact absurd (congrArg Region.state (hv r)) k
  · exact absurd (congrArg Region.state (hv q)) k
  · rw [hv] at k
    cases k

theorem Kept.loadTables (h : Kept D n s) (blocks : List (Option Block)) (hu : s.store.loaded = false) (hj : s.sched.job = none) :
    Kept D n (s.loadTables blocks) := by
  have closes (t : State) (k : Kept D n t) : Kept D n { t with link := { t.link with identified := none } } :=
    k.setLink _ k.counters.2.1 k.counters.2.2.1 k.counters.2.2.2
  have copy (id : CopyId) (c : Config.RawCopy) (bs : List (Option Block)) (hc : validCopy bs (s.link.identified.getD 0) = some c) :
      Kept D n (s.loadCopy id c (s.link.identified.getD 0)) := by
    obtain ⟨e, k⟩ := validCopy_lawful _ _ _ hc
    rw [← e]
    exact h.loadCopy id c k hu hj
  unfold State.loadTables
  dsimp only
  refine closes _ ?_
  split
  · next id c hsel =>
    unfold selectCopy at hsel
    split at hsel
    · next a b ha hb =>
      split at hsel
      · cases hsel
        exact copy _ _ _ hb
      · cases hsel
        exact copy _ _ _ ha
    · next a ha _ =>
      cases hsel
      exact copy _ _ _ ha
    · next b _ hb =>
      cases hsel
      exact copy _ _ _ hb
    · cases hsel
  · exact h.loadBlank _ hu hj

theorem State.loadTables_setJob (s : State) (blocks : List (Option Block)) (j : Option Job) :
    (s.loadTables blocks).setJob j = (s.setJob j).loadTables blocks := by
  unfold State.loadTables
  simp only [State.setJob_link]
  split <;> rfl

theorem Kept.loadReadAnswered (h : Kept D n s) (blocks : List (Option Block)) (attempt : Nat) (answer : ReadAnswer)
    (hu : s.store.loaded = false) (ht : s.link.timeouts < Config.maxTimeouts) :
    Kept D n (s.loadReadAnswered blocks attempt answer) := by
  have ended (bs : List (Option Block)) : Kept D n (s.loadBlockEnded bs) := by
    unfold State.loadBlockEnded
    split
    · exact Kept.issue (h.setJob (some (.identify (.loading _ _))) (by simp) (fun _ _ _ => hu) (h.otherJob _ (by simp))) _ (by simpa using ht)
    · refine Kept.endIdentify ?_ true
      rw [State.loadTables_setJob]
      exact h.noJob.loadTables bs hu rfl
  cases answer with
  | good d => exact ended _
  | corrected d => exact ended _
  | unrecoverable =>
    simp only [State.loadReadAnswered]
    split
    · exact Kept.issue (h.setJob (some (.identify (.loading _ _))) (by simp) (fun _ _ _ => hu) (h.otherJob _ (by simp))) _ (by simpa using ht)
    · exact ended _

/-! ### Timeouts and FAULT -/

theorem Kept.faultWaitList (h : Kept D n s) (p : PortId) : Kept D n (s.faultWaitList p) :=
  (h.setSched _ (by simp)).completeAll p _ _

theorem Kept.abandonJob (h : Kept D n s) : Kept D n s.abandonJob := by
  unfold State.abandonJob
  dsimp only
  split
  · exact h.noJob.finish _ _ _ _ _
  · next j hj =>
    have k := h.otherJob none (by simp)
    suffices w : (BufferLawful (s.staging.takeBack j.slot j.relocate) ∧ s.staging.KeepsDirty (s.staging.takeBack j.slot j.relocate)) ∧
        FlushLawful (s.staging.takeBack j.slot j.relocate) none from h.noJob.setStaging _ w.1 w.2
    unfold Staging.takeBack
    split
    · next d fw hs =>
      have hs : s.staging.slots[j.slot] = .flushing d fw := hs
      have hu : s.staging.slots[j.slot].unflushed? = some d := by rw [hs]; rfl
      exact ⟨⟨h.buffer.rewrite j.slot _ d { d with relocate := j.relocate || d.relocate } hu rfl rfl, .rewrite _ j.slot _ d _ hu rfl rfl⟩,
        k.setAny j.slot _ fun _ e => by cases e; exact k.dated j.slot d hu⟩
    all_goals exact ⟨⟨h.buffer, .of_slots rfl⟩, k⟩
  all_goals exact h.noJob

theorem Kept.faultBuffer (h : Kept D n s) : Kept D n s.faultBuffer := by
  have h1 : Kept D n { s with staging := { s.staging with wtWaiters := [], flushWaiters := [] } } := h.setWaiters _
  unfold State.faultBuffer
  dsimp only
  have wt (ws : List WtWaiter) (t : State) (k : Kept D n t) :
      Kept D n (ws.foldl (fun t w => t.finish w.port w.tag w.detached .mediaFault .blank) t) := by
    induction ws generalizing t with
    | nil => exact k
    | cons w ws ih => exact ih _ (k.finish _ _ _ _ _)
  have fl (ws : List FlushWaiter) (t : State) (k : Kept D n t) :
      Kept D n (ws.foldl (fun t w => t.finish w.port w.tag w.detached .mediaFault (.lost w.lost)) t) := by
    induction ws generalizing t with
    | nil => exact k
    | cons w ws ih => exact ih _ (k.finish _ _ _ _ _)
  exact fl _ _ (wt _ _ h1)

theorem Kept.faultQuiesce (h : Kept D n s) : Kept D n s.faultQuiesce := by
  unfold State.faultQuiesce
  split
  · exact (h.setService _).finishWaiters _ _
  · exact h

theorem Kept.enterFault (h : Kept D n s) : Kept D n s.enterFault := by
  have h1 := (h.setMedia .fault fun e => by cases e).dropOperation
  have h2 := ((((h1.abandonJob).faultWaitList .A).faultWaitList .B).faultBuffer).faultQuiesce
  unfold State.enterFault
  dsimp only
  split
  · exact (h2.offerBoth _).checkpointFailed _ _
  all_goals exact h2.offerBoth _

/-- The third timeout: the media is FAULT before the count stands at 3 with it. -/
theorem Kept.timedOut (h : Kept D n s) (op : Op) (hf : s.link.flight = some op) : Kept D n (s.timedOut op) := by
  have ht : s.link.timeouts < Config.maxTimeouts := h.counters.2.2.2 (.inl (by simp [hf]))
  unfold State.timedOut
  dsimp only
  split
  · next hlt =>
    refine Kept.issue (s := { s with link := { s.link with timeouts := s.link.timeouts + 1 } }) ?_ _ hlt
    exact h.setLink _ h.counters.2.1 (Nat.le_of_lt hlt) fun _ => hlt
  · have h1 : Kept D n ((({ s with link := { s.link with timeouts := s.link.timeouts + 1 } } : State).setMedia .fault).dropOperation) := by
      refine h.setLink _ h.counters.2.1 ht ?_
      rintro (e | e)
      · cases e
      · cases e
    have h2 : Kept D n (({ s with link := { s.link with timeouts := s.link.timeouts + 1 } } : State).enterFault) := by
      have h3 := ((((h1.abandonJob).faultWaitList .A).faultWaitList .B).faultBuffer).faultQuiesce
      unfold State.enterFault
      dsimp only
      split
      · exact (h3.offerBoth _).checkpointFailed _ _
      all_goals exact h3.offerBoth _
    split
    · exact h1.noJob.endIdentify false
    all_goals exact h2

end Sys2Proof.Machine
end

