-- ==== Sys2Proof/Laws/LawfulEvents.lean ====
section
/-! SUPPORT. The agreement, presentation, the wires and the steps of an event keep the laws of the part. -/

namespace Sys2Proof.Machine

variable {D : SlotId → Nat → Prop} {n : Prop} {s t : State}

/-! ### The agreement -/

/-- The record is removed. -/
theorem Kept.noProposal (h : Kept D n s) : Kept D n { s with agree := { s.agree with proposal := none } } :=
  ⟨h.regions, h.holds, h.ports, h.buffer, h.spares, h.candidates, h.checkpoint, h.counters, fun _ e => (by cases e),
    ⟨fun e => ⟨rfl, (h.unloaded.1 e).2⟩, h.unloaded.2⟩, h.flushing, h.unflushed, fun k => ⟨(h.agreed k).1, fun _ e => (by cases e)⟩⟩

/-- A record that keeps its ranges is taken or changes. -/
theorem Kept.setProposal (h : Kept D n s) (pr : Proposal) (nextId : Nat) (entering : Option PortId) (hl : s.store.loaded = true)
    (hi : 1 ≤ pr.id ∧ pr.id ≤ 255) (hw : ∀ w, pr.state = .opened w → 1 ≤ w ∧ w ≤ 255) (hc : ChangeFits s pr.change)
    (hn : n → pr.change ≠ .resetTable) (hx : 1 ≤ nextId ∧ nextId ≤ 255) :
    Kept D n { s with agree := { s.agree with proposal := some pr, nextId := nextId, entering := entering } } :=
  ⟨h.regions, h.holds, h.ports, h.buffer, h.spares, h.candidates, h.checkpoint, ⟨hx, h.counters.2⟩,
    fun _ e => (by cases e; exact ⟨hi, hw, hc⟩), ⟨fun e => (by rw [hl] at e; cases e), h.unloaded.2⟩, h.flushing, h.unflushed,
    fun k => ⟨(h.agreed k).1, fun _ e => (by cases e; exact hn k)⟩⟩

/-- There is a proposal only when the table is LOADED. -/
theorem Kept.proposal_loaded (h : Kept D n s) (pr : Proposal) (hp : s.agree.proposal = some pr) : s.store.loaded = true := by
  cases hl : s.store.loaded with
  | true => rfl
  | false =>
    have := (h.unloaded.1 hl).1
    rw [hp] at this
    cases this

/-- The record changes its state. -/
theorem Kept.stateProposal (h : Kept D n s) (pr : Proposal) (hp : s.agree.proposal = some pr) (st : ProposalState)
    (entering : Option PortId) (hw : ∀ w, st = .opened w → 1 ≤ w ∧ w ≤ 255) :
    Kept D n { s with agree := { s.agree with proposal := some { pr with state := st }, entering := entering } } :=
  h.setProposal { pr with state := st } s.agree.nextId entering (h.proposal_loaded pr hp) (h.proposal pr hp).1 hw (h.proposal pr hp).2.2
    (fun k => (h.agreed k).2 pr hp) h.counters.1

theorem Agreement.openProposal_some (a : Agreement) (pr : Proposal) (h : a.openProposal = some pr) :
    a.proposal = some pr ∧ ∃ w, pr.state = .opened w := by
  unfold Agreement.openProposal at h
  split at h
  · next x hx =>
    split at h
    · next w hw =>
      cases h
      exact ⟨hx, w, hw⟩
    · cases h
  · cases h

theorem Kept.endProposal (h : Kept D n s) (pr : Proposal) (reason : OutcomeReason) :
    Kept D n (s.endProposal pr reason) :=
  h.noProposal.offerBoth _

theorem Kept.goOffline (h : Kept D n s) (p : PortId) : Kept D n (s.goOffline p) := by
  have h1 := h.depart p
  unfold State.goOffline
  dsimp only
  generalize (s.updPort p fun u => { u with online := false }).dropHoldsOf p = t at h1 ⊢
  split
  · exact h1.noProposal.offerInAnyOrder _
  · exact h1.offer _ _

theorem State.applyTables_region (s : State) (c : Change) (r : Fin 16) : (s.applyTables c).region r = s.region r := by
  cases c <;> rfl

theorem State.applyTables_port (s : State) (c : Change) (p : PortId) : (s.applyTables c).port p = s.port p := by
  cases c <;> cases p <;> rfl

/-- A hold that is left after an apply is one that was there, of a region that is still EXCLUSIVE. -/
theorem Change.settledRecord_hold (c : Change) (r : Fin 16) (x : Region) (y : Hold)
    (h : (c.settledRecord r (c.newRecord r x)).hold = some y) :
    x.hold = some y ∧ ((c.settledRecord r (c.newRecord r x)).attrs.exclusive = x.attrs.exclusive ∨
      (c.settledRecord r (c.newRecord r x)).attrs.exclusive = true) := by
  cases c with
  | define q base length attrs lease =>
    by_cases hq : q = r <;> simp_all [Change.settledRecord, Change.newRecord, Change.holdLoss, Change.targets]
  | delete q =>
    by_cases hq : q = r <;> simp_all [Change.settledRecord, Change.newRecord, Change.holdLoss, Change.targets]
  | resize q length =>
    by_cases hq : q = r <;> simp_all [Change.settledRecord, Change.newRecord, Change.holdLoss, Change.targets]
  | reconfigure q attrs lease =>
    by_cases hq : q = r
    · by_cases he : attrs.exclusive = false <;>
        simp_all [Change.settledRecord, Change.newRecord, Change.holdLoss, Change.targets]
    · simp_all [Change.settledRecord, Change.newRecord, Change.holdLoss, Change.targets]
  | resetTable => simp_all [Change.settledRecord, Change.newRecord, Change.holdLoss, Change.targets]
  | close => simp_all [Change.settledRecord, Change.newRecord, Change.holdLoss, Change.targets]
  | setSpares n => simp_all [Change.settledRecord, Change.newRecord, Change.holdLoss, Change.targets]

/-- What offers keep: everything but the port units, and in these the requests and the port state. -/
theorem State.offers_fields (offers : List (PortId × Notice)) (s : State) :
    (offers.foldl (fun t x => t.offer x.1 x.2) s).regions = s.regions ∧
    (offers.foldl (fun t x => t.offer x.1 x.2) s).agree = s.agree ∧
    (offers.foldl (fun t x => t.offer x.1 x.2) s).staging = s.staging ∧
    (offers.foldl (fun t x => t.offer x.1 x.2) s).blockMap = s.blockMap ∧
    (offers.foldl (fun t x => t.offer x.1 x.2) s).sched = s.sched ∧
    (offers.foldl (fun t x => t.offer x.1 x.2) s).link = s.link ∧
    (offers.foldl (fun t x => t.offer x.1 x.2) s).store = s.store := by
  induction offers generalizing s with
  | nil => exact ⟨rfl, rfl, rfl, rfl, rfl, rfl, rfl⟩
  | cons x xs ih =>
    have k := ih (s.offer x.1 x.2)
    simp only [State.offer_regions, State.offer_agree, State.offer_staging, State.offer_blockMap, State.offer_sched,
      State.offer_link, State.offer_store] at k
    exact k

theorem State.offers_ports (offers : List (PortId × Notice)) (s : State) (hs : ∀ p, PortLawful n (s.port p)) (p : PortId) :
    PortLawful n ((offers.foldl (fun t x => t.offer x.1 x.2) s).port p) ∧
    ((offers.foldl (fun t x => t.offer x.1 x.2) s).port p).online = (s.port p).online := by
  induction offers generalizing s with
  | nil => exact ⟨hs p, rfl⟩
  | cons x xs ih =>
    have key (q : PortId) : PortLawful n ((s.offer x.1 x.2).port q) ∧ ((s.offer x.1 x.2).port q).online = (s.port q).online := by
      rcases portEqOrOther x.1 q with e | e
      · rw [e]
        simp only [State.offer, State.updPort_port, PortUnit.acceptNotice_online]
        exact ⟨(hs x.1).acceptNotice x.2, trivial⟩
      · rw [e]
        simp only [State.offer, State.updPort_port_other]
        exact ⟨hs _, trivial⟩
    have k := ih (s.offer x.1 x.2) fun q => (key q).1
    exact ⟨k.1, k.2.trans (key p).2⟩

theorem Shares.symm {b l b' l' : Nat} (h : Shares b l b' l') : Shares b' l' b l := by
  obtain ⟨k, h1, h2⟩ := h
  exact ⟨k, h2, h1⟩

/-- The first law after an apply (R28: no second validation). -/
theorem RegionsLawful.applied (h : RegionsLawful s) (c : Change) (hc : ChangeFits s c)
    (hr : ∀ r, t.region r = c.settledRecord r (c.newRecord r (s.region r)))
    (hl : t.blockMap = (s.applyTables c).blockMap) : RegionsLawful t := by
  have one (q : Fin 16) (hsame : ∀ r, r ≠ q → t.region r = s.region r) (hlen : t.blockMap.l = s.blockMap.l)
      (hin : (t.region q).state ≠ .undefined → (t.region q).base + (t.region q).length ≤ s.blockMap.l)
      (hap : (t.region q).state ≠ .undefined → ∀ r, r ≠ q → (s.region r).state ≠ .undefined →
        ¬Shares (t.region q).base (t.region q).length (s.region r).base (s.region r).length) : RegionsLawful t := by
    refine ⟨fun r k => ?_, fun a b hne ka kb => ?_⟩
    · rw [hlen]
      by_cases e : r = q
      · subst e
        exact hin k
      · rw [hsame r e] at k ⊢
        exact h.1 r k
    · by_cases ea : a = q
      · subst ea
        rw [hsame b (Ne.symm hne)] at kb ⊢
        exact hap ka b (Ne.symm hne) kb
      · by_cases eb : b = q
        · subst eb
          rw [hsame a ea] at ka ⊢
          exact fun w => hap kb a ea ka w.symm
        · rw [hsame a ea] at ka ⊢
          rw [hsame b eb] at kb ⊢
          exact h.2 a b hne ka kb
  cases c with
  | define q base length attrs lease =>
    have hq : t.region q = ⟨.defined, base, length, attrs, lease, none, false⟩ := by
      rw [hr]
      simp [Change.settledRecord, Change.newRecord, Change.holdLoss, Change.targets]
    refine one q (fun r e => ?_) (by rw [hl]; rfl) ?_ ?_
    · rw [hr]
      simp [Change.settledRecord, Change.newRecord, Change.holdLoss, Change.targets, Ne.symm e]
    · rw [hq]
      exact fun _ => hc.1
    · rw [hq]
      exact fun _ => hc.2.2
  | delete q =>
    have hq : (t.region q).state = .undefined := by
      rw [hr]
      simp [Change.settledRecord, Change.newRecord, Change.holdLoss, Change.targets, Region.undefinedRecord]
    refine one q (fun r e => ?_) (by rw [hl]; rfl) (fun k => absurd hq k) fun k => absurd hq k
    rw [hr]
    simp [Change.settledRecord, Change.newRecord, Change.holdLoss, Change.targets, Ne.symm e]
  | resize q length =>
    have hq : (t.region q).base = (s.region q).base ∧ (t.region q).length = length := by
      rw [hr]
      simp [Change.settledRecord, Change.newRecord, Change.holdLoss, Change.targets]
    refine one q (fun r e => ?_) (by rw [hl]; rfl) ?_ ?_
    · rw [hr]
      simp [Change.settledRecord, Change.newRecord, Change.holdLoss, Change.targets, Ne.symm e]
    · rw [hq.1, hq.2]
      exact fun _ => hc.1
    · rw [hq.1, hq.2]
      exact fun _ => hc.2
  | reconfigure q attrs lease =>
    have hq : (t.region q).state = (s.region q).state ∧ (t.region q).base = (s.region q).base ∧
        (t.region q).length = (s.region q).length := by
      rw [hr]
      by_cases he : attrs.exclusive = false <;>
        simp [Change.settledRecord, Change.newRecord, Change.holdLoss, Change.targets, he]
    refine one q (fun r e => ?_) (by rw [hl]; rfl) ?_ ?_
    · rw [hr]
      simp [Change.settledRecord, Change.newRecord, Change.holdLoss, Change.targets, Ne.symm e]
    · rw [hq.1, hq.2.1, hq.2.2]
      exact h.1 q
    · rw [hq.1, hq.2.1, hq.2.2]
      exact fun k r e => h.2 q r (Ne.symm e) k
  | resetTable =>
    have hq (r : Fin 16) : (t.region r).state = .undefined := by
      rw [hr]
      simp [Change.settledRecord, Change.newRecord, Change.holdLoss, Change.targets, Region.undefinedRecord]
    exact ⟨fun r k => absurd (hq r) k, fun r _ _ k => absurd (hq r) k⟩
  | close =>
    refine h.same (fun r => ?_) (by rw [hl]; rfl)
    rw [hr]
    exact .of_eq
  | setSpares count =>
    have hq (r : Fin 16) : t.region r = s.region r := by
      rw [hr]
      simp [Change.settledRecord, Change.newRecord, Change.holdLoss, Change.targets]
    refine ⟨fun r k => ?_, fun a b hne => ?_⟩
    · rw [hq] at k ⊢
      rw [hl]
      exact hc r k
    · rw [hq, hq]
      exact h.2 a b hne

/-- The second law after an apply. -/
theorem HoldsLawful.applied (h : HoldsLawful s) (c : Change) (hc : ChangeFits s c)
    (hr : ∀ r, t.region r = c.settledRecord r (c.newRecord r (s.region r)))
    (ho : ∀ p, (t.port p).online = (s.port p).online) : HoldsLawful t := by
  refine ⟨fun r y hy => ?_, fun r he => ?_⟩
  · rw [hr] at hy ⊢
    obtain ⟨k1, k2⟩ := c.settledRecord_hold r _ y hy
    have k := h.1 r y k1
    refine ⟨?_, by rw [ho]; exact k.2.1, k.2.2⟩
    rcases k2 with k2 | k2
    · rw [k2]
      exact k.1
    · exact k2
  · rw [hr] at he ⊢
    have k := h.2 r
    cases c with
    | define q base length attrs lease =>
      have k2 := hc.2.1
      by_cases e : q = r <;> simp_all [Change.settledRecord, Change.newRecord, Change.holdLoss, Change.targets]
    | delete q =>
      by_cases e : q = r <;> simp_all [Change.settledRecord, Change.newRecord, Change.holdLoss, Change.targets, Region.undefinedRecord]
    | resize q length =>
      by_cases e : q = r <;> simp_all [Change.settledRecord, Change.newRecord, Change.holdLoss, Change.targets]
    | reconfigure q attrs lease =>
      have k2 : 1 ≤ lease ∧ lease ≤ 255 := hc
      by_cases e : q = r
      · by_cases ha : attrs.exclusive = false <;> simp_all [Change.settledRecord, Change.newRecord, Change.holdLoss, Change.targets]
      · simp_all [Change.settledRecord, Change.newRecord, Change.holdLoss, Change.targets]
    | resetTable => simp_all [Change.settledRecord, Change.newRecord, Change.holdLoss, Change.targets, Region.undefinedRecord]
    | close => simp_all [Change.settledRecord, Change.newRecord, Change.holdLoss, Change.targets]
    | setSpares count => simp_all [Change.settledRecord, Change.newRecord, Change.holdLoss, Change.targets]

/-- What the tables of step 1 keep. -/
theorem State.applyTables_fields (s : State) (c : Change) :
    (s.applyTables c).agree.nextId = s.agree.nextId ∧ (s.applyTables c).link = s.link ∧ (s.applyTables c).sched = s.sched ∧
    (s.applyTables c).store = s.store ∧ (s.applyTables c).staging.slots = s.staging.slots ∧
    (s.applyTables c).staging.dirtyOrder = s.staging.dirtyOrder ∧ (s.applyTables c).staging.cleanOrder = s.staging.cleanOrder ∧
    (s.applyTables c).staging.writeOrder = s.staging.writeOrder := by
  cases c <;> exact ⟨rfl, rfl, rfl, rfl, rfl, rfl, rfl, rfl⟩

theorem State.applyTables_blockMap (s : State) (c : Change) (hs : SparesLawful s.blockMap) (hc : CandidatesLawful s.blockMap) :
    SparesLawful (s.applyTables c).blockMap ∧ CandidatesLawful (s.applyTables c).blockMap := by
  cases c with
  | setSpares count =>
    refine ⟨⟨by simp [State.applyTables, State.judgeReserve, BlockMap.s], fun i j lbn hi => ?_⟩, ?_⟩
    · simp [State.applyTables, State.judgeReserve, List.getElem?_replicate] at hi
    · exact ⟨Nat.le_trans (List.length_filter_le _ _) hc.1, List.Nodup.sublist List.filter_sublist hc.2⟩
  | define _ _ _ _ _ => exact ⟨hs, hc⟩
  | delete _ => exact ⟨hs, hc⟩
  | resize _ _ => exact ⟨hs, hc⟩
  | reconfigure _ _ _ => exact ⟨hs, hc⟩
  | resetTable => exact ⟨hs, hc⟩
  | close => exact ⟨hs, hc⟩

/-- What an apply makes of the laws, its record removed (R43 steps 1 to 5). -/
theorem Kept.applied (h : Kept D n s) (pr : Proposal) (hp : s.agree.proposal = some pr) (b : Staging)
    (hb : BufferLawful b ∧ s.staging.KeepsDirty b) (hf : FlushLawful b s.sched.job)
    (hr : ∀ r, t.region r = pr.change.settledRecord r (pr.change.newRecord r (s.region r)))
    (hports : ∀ p, PortLawful n (t.port p) ∧ (t.port p).online = (s.port p).online)
    (hm : t.blockMap = (s.applyTables pr.change).blockMap) (hst : t.staging = b) (hl : t.link = s.link) (hj : t.sched = s.sched)
    (hs : t.store = s.store) (hn : t.agree.nextId = s.agree.nextId) (hno : t.agree.proposal = none)
    (hph : t.agree.phase = (s.applyTables pr.change).agree.phase) : Kept D n t := by
  have hc := (h.proposal pr hp).2.2
  have hlo := h.proposal_loaded pr hp
  have hmap := s.applyTables_blockMap pr.change h.spares h.candidates
  refine ⟨h.regions.applied pr.change hc hr hm, h.holds.applied pr.change hc hr fun p => (hports p).2, fun p => (hports p).1,
    hst ▸ hb.1, hm ▸ hmap.1, hm ▸ hmap.2, fun d => ?_, ?_, fun x e => ?_, ⟨fun e => ?_, fun bs at' e => ?_⟩,
    by rw [hst, hj]; exact hf, fun i lbn k => ?_, fun k => ⟨?_, fun x e => ?_⟩⟩
  · rw [hj, hs]
    exact h.checkpoint d
  · unfold CountersBounded
    rw [hn, hl]
    exact h.counters
  · rw [hno] at e
    cases e
  · rw [hs, hlo] at e
    cases e
  · rw [hj] at e
    rw [hs]
    exact h.unloaded.2 bs at' e
  · obtain ⟨d, hd, hlb⟩ := h.unflushed i lbn k
    obtain ⟨e, he, hm⟩ := hb.2 i d hd
    unfold State.slot
    rw [hst]
    exact ⟨e, he, hm.trans hlb⟩
  · rw [hph]
    have k2 := (h.agreed k).2 pr hp
    have k1 := (h.agreed k).1
    cases hch : pr.change with
    | resetTable => exact absurd hch k2
    | close => rfl
    | define _ _ _ _ _ => exact k1
    | delete _ => exact k1
    | resize _ _ => exact k1
    | reconfigure _ _ _ => exact k1
    | setSpares _ => exact k1
  · rw [hno] at e
    cases e

/-- The regions and the record after an apply, before its OUTCOME. -/
theorem Kept.applyRecords (h : Kept D n s) (pr : Proposal) (hp : s.agree.proposal = some pr) (offers : List (PortId × Notice))
    (v w : State) (hv : v = (s.applyTables pr.change).mapRegions pr.change.newRecord)
    (hw : w = (({ v with staging := v.staging.freeLeaving } : State).offerInAnyOrder offers).mapRegions pr.change.settledRecord) :
    Kept D n { w with agree := { w.agree with proposal := none } } := by
  have ht := s.applyTables_fields pr.change
  have hv1 : v.blockMap = (s.applyTables pr.change).blockMap := by rw [hv, State.mapRegions_blockMap]
  have hv2 : v.link = s.link := by rw [hv, State.mapRegions_link]; exact ht.2.1
  have hv3 : v.sched = s.sched := by rw [hv, State.mapRegions_sched]; exact ht.2.2.1
  have hv4 : v.store = s.store := by rw [hv, State.mapRegions_store]; exact ht.2.2.2.1
  have hv5 : v.staging = (s.applyTables pr.change).staging := by rw [hv, State.mapRegions_staging]
  have hv6 : v.agree = (s.applyTables pr.change).agree := by rw [hv, State.mapRegions_agree]
  have hv7 (r : Fin 16) : v.region r = pr.change.newRecord r (s.region r) := by
    rw [hv, State.mapRegions_region, State.applyTables_region]
  have hv8 (p : PortId) : v.port p = s.port p := by rw [hv, State.mapRegions_port, State.applyTables_port]
  have hvb : BufferLawful v.staging := by rw [hv5]; exact h.buffer.same ht.2.2.2.2.1 ht.2.2.2.2.2.1 ht.2.2.2.2.2.2.1
  have hvf : FlushLawful v.staging s.sched.job := by rw [hv5]; exact h.flushing.same ht.2.2.2.2.1 ht.2.2.2.2.2.2.2
  have hvk : s.staging.KeepsDirty v.staging := by rw [hv5]; exact .of_slots ht.2.2.2.2.1
  unfold State.offerInAnyOrder at hw
  dsimp only at hw
  generalize hx : inAnyOrder offers.length offers v.choices = xs at hw
  have hf := State.offers_fields xs { v with staging := v.staging.freeLeaving }
  have hq := State.offers_ports (n := n) xs { v with staging := v.staging.freeLeaving } fun p => by
    have : ({ v with staging := v.staging.freeLeaving } : State).port p = v.port p := by cases p <;> rfl
    rw [this, hv8]
    exact h.ports p
  generalize xs.foldl (fun t x => t.offer x.1 x.2) { v with staging := v.staging.freeLeaving } = u at hw hf hq
  generalize hu : ({ u with choices := u.choices + offers.length } : State) = u' at hw
  have hfree := hvb.freeLeaving
  refine h.applied pr hp v.staging.freeLeaving ⟨hfree.1, hvk.trans hfree.2⟩ (hvf.freeLeaving hvb) (fun r => ?_) (fun p => ?_) ?_ ?_ ?_ ?_ ?_ ?_ rfl ?_
  · change w.region r = _
    rw [hw, State.mapRegions_region, ← hv7, ← hu]
    congr 1
    change u.regions[r] = v.regions[r]
    rw [hf.1]
  · have e : ({ w with agree := { w.agree with proposal := none } } : State).port p = u.port p := by
      have e1 : ({ w with agree := { w.agree with proposal := none } } : State).port p = w.port p := by cases p <;> rfl
      rw [e1, hw, State.mapRegions_port, ← hu]
      cases p <;> rfl
    rw [e]
    refine ⟨(hq p).1, (hq p).2.trans ?_⟩
    rw [← hv8]
    cases p <;> rfl
  · change w.blockMap = _
    rw [hw, State.mapRegions_blockMap, ← hu]
    exact hf.2.2.2.1.trans hv1
  · change w.staging = _
    rw [hw, State.mapRegions_staging, ← hu]
    exact hf.2.2.1
  · change w.link = _
    rw [hw, State.mapRegions_link, ← hu]
    exact hf.2.2.2.2.2.1.trans hv2
  · change w.sched = _
    rw [hw, State.mapRegions_sched, ← hu]
    exact hf.2.2.2.2.1.trans hv3
  · change w.store = _
    rw [hw, State.mapRegions_store, ← hu]
    exact hf.2.2.2.2.2.2.trans hv4
  · change w.agree.nextId = _
    rw [hw, State.mapRegions_agree, ← hu]
    change u.agree.nextId = _
    rw [hf.2.1]
    change v.agree.nextId = _
    rw [hv6]
    exact ht.1
  · change w.agree.phase = _
    rw [hw, State.mapRegions_agree, ← hu]
    change u.agree.phase = _
    rw [hf.2.1]
    change v.agree.phase = _
    rw [hv6]

theorem Kept.applyProposal (h : Kept D n s) (pr : Proposal) (hp : s.agree.proposal = some pr) : Kept D n (s.applyProposal pr) := by
  have k := (h.applyRecords pr hp (s.lostHolds pr.change) _ _ rfl rfl).offerBoth (.outcome .applied pr.id pr.change)
  unfold State.applyProposal
  dsimp only
  split
  · exact k.requestCheckpoint
  · exact k

theorem Change.flagChanging_same (c : Change) (r : Fin 16) (x : Region) :
    (c.flagChanging r x).Same x ∧ (c.flagChanging r x).hold = x.hold := by
  unfold Change.flagChanging
  split
  · exact ⟨.of_eq, rfl⟩
  · exact ⟨.of_eq, rfl⟩

theorem Kept.enterApplying (h : Kept D n s) (p : PortId) (pr : Proposal) (hp : s.agree.proposal = some pr) :
    Kept D n (s.enterApplying p pr) := by
  have h1 := h.stateProposal pr hp .applying (some p) fun w e => by cases e
  have h2 := h1.mapRegions pr.change.flagChanging (fun r => (pr.change.flagChanging_same r _).1) fun r y hy =>
    h1.holds.1 r y ((pr.change.flagChanging_same r _).2.symm.trans hy)
  unfold State.enterApplying
  dsimp only
  exact ((h2.endWaitingWrite .A _ _).endWaitingWrite .B _ _).setWaiters _

theorem State.applyDue_proposal (s : State) (pr : Proposal) (h : s.applyDue = some pr) : s.agree.proposal = some pr := by
  unfold State.applyDue at h
  split at h
  · next x hx =>
    split at h
    · cases h
      exact hx
    · cases h
  · cases h

theorem Kept.endEntering (h : Kept D n s) : Kept D n s.endEntering := by
  have h1 : Kept D n { s with agree := { s.agree with entering := none } } := h.frame
  unfold State.endEntering
  dsimp only
  split
  · next pr hd => exact h1.applyProposal pr (State.applyDue_proposal _ pr hd)
  · exact h1

/-! ### Requests -/

theorem Kept.attach (h : Kept D n s) (p : PortId) (tag : Byte) : Kept D n (s.attach p tag) := by
  have h1 := (h.updPort p (fun u => { u with online := true }) ((h.ports p).wires (hv := h.notReceiving p)) fun _ => rfl).complete p tag .ok
    (.attach p s.service.state s.link.media s.store.loaded s.agree.phase (s.port p.other).online)
  unfold State.attach
  dsimp only
  split
  · exact h1
  · exact h1.offer _ _

theorem Kept.detach (h : Kept D n s) (p : PortId) (tag : Byte) : Kept D n (s.detach p tag) := by
  unfold State.detach
  split
  · exact h.complete p tag _ _
  · exact (h.complete p tag _ _).goOffline p

theorem Kept.claim (h : Kept D n s) (p : PortId) (tag : Byte) (r : Fin 16) (ho : (s.port p).online = true) :
    Kept D n (s.claim p tag r) := by
  unfold State.claim
  dsimp only
  split
  · exact h.complete p tag _ _
  · next he =>
    have k := (h.hold p r (by simpa using he) ho).complete p tag .ok (.lease (s.region r).leasePeriod)
    split
    · exact k
    · split
      · exact k
      · exact h.complete p tag _ _

theorem Kept.renew (h : Kept D n s) (p : PortId) (tag : Byte) (r : Fin 16) : Kept D n (s.renew p tag r) := by
  unfold State.renew
  split
  · next hp =>
    have k := h.heldBy r p hp
    exact (h.hold p r k.1 k.2).complete p tag _ _
  · exact h.complete p tag _ _

theorem Kept.release (h : Kept D n s) (p : PortId) (tag : Byte) (r : Fin 16) : Kept D n (s.release p tag r) := by
  unfold State.release
  split
  · exact ((h.dropHold r).endNotStarted p r).complete p tag _ _
  · exact h.complete p tag _ _

theorem Kept.fix (h : Kept D n s) (p : PortId) (tag : Byte) (r : Fin 16) (hd : (s.region r).state ≠ .undefined) :
    Kept D n (s.fix p tag r) := by
  have hs : ({ s.region r with state := .fixed } : Region).Same (s.region r) := ⟨by simp [hd], rfl, rfl, rfl, rfl⟩
  unfold State.fix
  split
  · exact h.complete p tag _ _
  · have k := (h.setRegion r { s.region r with state := .fixed } hs (h.holds.1 r)).complete p tag .ok .blank
    unfold State.lapseIfFixed
    split
    · split
      · exact k.endProposal _ _
      · exact k
    · exact k

theorem nextProposalId_range (n : Nat) : 1 ≤ nextProposalId n ∧ nextProposalId n ≤ 255 := by
  unfold nextProposalId
  split <;> omega

/-- The changing of a record that a PROPOSE asks for (R27). -/
theorem changeOf_ranges (f : ProposeFields) (c : Change) (h : changeOf f = some c) :
    (1 ≤ f.window.toNat ∧ f.window.toNat ≤ 255) ∧ (c = .resetTable → f.kind = 5) ∧
    match c with
    | .define _ _ _ _ lease => 1 ≤ lease ∧ lease ≤ 255
    | .reconfigure _ _ lease => 1 ≤ lease ∧ lease ≤ 255
    | .delete _ | .resize .. | .resetTable | .close | .setSpares _ => True := by
  have byte (b : Byte) (hb : ¬b = 0) : 1 ≤ b.toNat ∧ b.toNat ≤ 255 := by
    have h1 := b.isLt
    have h2 : b.toNat ≠ 0 := fun e => hb (by apply BitVec.eq_of_toNat_eq; simpa using e)
    omega
  unfold changeOf at h
  split at h
  · cases h
  · next hw =>
    refine ⟨byte _ hw, ?_⟩
    repeat' split at h
    all_goals first
      | (cases h; done)
      | (simp only [Option.map_eq_some_iff] at h
         obtain ⟨r, _, rfl⟩ := h
         first
           | exact ⟨fun e => (by cases e), byte _ (by assumption)⟩
           | exact ⟨fun e => (by cases e), trivial⟩)
      | (cases h
         refine ⟨fun e => ?_, trivial⟩
         first
           | assumption
           | cases e)

theorem State.overlaps_none (s : State) (base length : Nat) (x : Option (Fin 16)) (h : s.overlapsDefined base length x = false)
    (q : Fin 16) (hx : x ≠ some q) (hq : (s.region q).state ≠ .undefined) :
    ¬Shares base length (s.region q).base (s.region q).length := by
  unfold State.overlapsDefined at h
  rw [List.any_eq_false] at h
  have := h q (by simp [allRegions])
  refine extentsOverlap_shares _ _ _ _ ?_
  simp only [Region.isDefined, Bool.and_eq_true, bne_iff_ne, ne_eq] at this
  cases he : extentsOverlap base length (s.region q).base (s.region q).length with
  | false => rfl
  | true => exact absurd ⟨⟨hq, hx⟩, he⟩ this

/-- A change that passes its validation fits (R28). -/
theorem State.validate_fits (s : State) (f : ProposeFields) (c : Change) (hf : changeOf f = some c) (h : s.validate c = none) :
    ChangeFits s c := by
  have hr := (changeOf_ranges f c hf).2.2
  cases c with
  | define r base length attrs lease =>
    simp only [State.validate] at h
    split at h
    · cases h
    · next k =>
      simp only [Bool.or_eq_true, decide_eq_true_eq, not_or, Nat.not_lt, Bool.not_eq_true] at k
      exact ⟨k.1.2, hr, fun q _ hq => s.overlaps_none base length none k.2 q (by simp) hq⟩
  | resize r length =>
    simp only [State.validate] at h
    split at h
    · cases h
    · split at h
      · cases h
      · next k =>
        simp only [Bool.or_eq_true, decide_eq_true_eq, not_or, Nat.not_lt, Bool.not_eq_true] at k
        exact ⟨k.1.2, fun q hne hq => s.overlaps_none _ length _ k.2 q (fun e => hne (Option.some.inj e).symm) hq⟩
  | reconfigure _ _ _ => exact hr
  | setSpares count =>
    simp only [State.validate] at h
    split at h
    · cases h
    · split at h
      · cases h
      · next k =>
        simp only [State.badSpareCount, Bool.or_eq_true, decide_eq_true_eq, not_or, Bool.not_eq_true, List.any_eq_false] at k
        intro r hdef
        have k2 := k.2 r (by simp [allRegions])
        simp only [Region.isDefined, Bool.and_eq_false_iff, decide_eq_false_iff_not, Nat.not_lt] at k2
        rcases k2 with e | e
        · exact absurd (by simpa using e) hdef
        · exact e
  | delete _ => trivial
  | resetTable => trivial
  | close => trivial

theorem Kept.propose (h : Kept D n s) (p : PortId) (tag : Byte) (f : ProposeFields) (c : Change) (hf : changeOf f = some c)
    (hl : s.store.loaded = true) (hk : n → f.kind ≠ 5) : Kept D n (s.propose p tag c f.window.toNat) := by
  have hr := changeOf_ranges f c hf
  unfold State.propose
  split
  · exact h.complete p tag _ _
  · split
    · exact h.complete p tag _ _
    · next hv =>
      have k (res : Result) : Kept D n ((s.takeProposal (s.newProposal p c f.window.toNat)).complete p tag .ok res) := by
        refine Kept.complete ?_ p tag .ok res
        refine h.setProposal _ _ s.agree.entering hl h.counters.1 (fun w e => ?_) (s.validate_fits f c hf hv)
          (fun x e => hk x (hr.2.1 e)) (nextProposalId_range _)
        have hst : (s.newProposal p c f.window.toNat).state = (match s.agree.phase with
          | .provisioning => .applying
          | .agreed => .opened f.window.toNat) := rfl
        rw [hst] at e
        split at e
        · cases e
        · cases e
          exact hr.1
      dsimp only
      split
      · exact (k _).enterApplying p _ (by simp [State.takeProposal])
      · split
        · exact (k _).offer _ _
        · exact h.complete p tag _ _

theorem Kept.answer (h : Kept D n s) (p : PortId) (tag id a : Byte) : Kept D n (s.answer p tag id a) := by
  unfold State.answer
  split
  · split
    · dsimp only
      split
      · refine (h.complete p tag _ _).enterApplying p _ ?_
        rw [State.complete_agree]
        exact (Agreement.openProposal_some _ _ (by assumption)).1
      · exact (h.complete p tag _ _).endProposal _ _
    · exact h.complete p tag _ _
  · exact h.complete p tag _ _

theorem Kept.withdraw (h : Kept D n s) (p : PortId) (tag id : Byte) : Kept D n (s.withdraw p tag id) := by
  unfold State.withdraw
  split
  · split
    · split
      · exact h.complete p tag _ _
      · exact (h.complete p tag _ _).endProposal _ _
    · exact h.complete p tag _ _
  · exact h.complete p tag _ _

theorem Kept.quiesce (h : Kept D n s) (p : PortId) (tag : Byte) : Kept D n (s.quiesce p tag) := by
  have hj : Kept D n (s.joinQuiesce p tag) := by
    unfold State.joinQuiesce
    split
    · exact (h.startRecord p tag).setService _
    · exact h.startRecord p tag
  have hb : Kept D n (s.beginQuiesce p tag) := by
    unfold State.beginQuiesce
    dsimp only
    split
    · exact ((((h.startRecord p tag).setService _).endWaitingWrite .A _ _).endWaitingWrite .B _ _).requestCheckpoint
    · exact (((h.startRecord p tag).setService _).endWaitingWrite .A _ _).endWaitingWrite .B _ _
  have hr : Kept D n (if s.agree.proposal.isSome then s.complete p tag .proposalPending .blank
      else if s.mediaDown then s.complete p tag .mediaFault .blank else s.beginQuiesce p tag) := by
    split
    · exact h.complete p tag _ _
    · split
      · exact h.complete p tag _ _
      · exact hb
  unfold State.quiesce
  split
  · exact hj
  · exact h.complete p tag _ _
  · exact hr
  · exact hr

theorem Kept.resume (h : Kept D n s) (p : PortId) (tag : Byte) : Kept D n (s.resume p tag) := by
  unfold State.resume
  split
  · exact h.complete p tag _ _
  · exact ((h.setService _).complete p tag _ _).offer _ _
  · exact h.complete p tag _ _
  · exact h.complete p tag _ _

theorem Kept.mediaRestart (h : Kept D n s) (p : PortId) (tag : Byte) : Kept D n (s.mediaRestart p tag) := by
  have h1 : Kept D n { s.startRecord p tag with
      link := { s.link with restart := true, restartWaiters := s.link.restartWaiters ++ [⟨p, tag, false⟩] } } :=
    (h.startRecord p tag).setLink _ h.counters.2.1 h.counters.2.2.1 h.counters.2.2.2
  unfold State.mediaRestart
  dsimp only
  split
  · exact h1
  · split
    · exact h.complete p tag _ _
    · exact h1.beginIdentify

theorem Kept.onRegion (h : Kept D n s) (b : Byte) (f : Fin 16 → State) (hf : ∀ r, Kept D n (f r)) :
    Kept D n (s.onRegion b f) := by
  unfold State.onRegion
  split
  · exact hf _
  · exact h

theorem Kept.writeIntake (h : Kept D n s) (p : PortId) (tag : Byte) (r : Fin 16) (c : Byte) (o : Word24)
    (d : List Byte) : Kept D n (s.writeIntake p tag r c o d) := by
  unfold State.writeIntake
  split
  · exact h.placeWrite p tag r c o d
  · exact h.setRecord p tag _

/-- A request that passes its checks is from an ONLINE port, unless it is an ATTACH (R57). -/
theorem State.refusal_online (s : State) (p : PortId) (q : Request) (h : s.refusal p q = none) (hq : q ≠ .attach) :
    (s.port p).online = true := by
  unfold State.refusal at h
  split at h
  · cases h
  · split at h
    · cases h
    · next k =>
      cases ho : (s.port p).online with
      | true => rfl
      | false => exact absurd ⟨ho, hq⟩ k

theorem State.refusal_loaded (s : State) (p : PortId) (q : Request) (h : s.refusal p q = none) (hq : needsMedia q = true) :
    s.store.loaded = true := by
  unfold State.refusal at h
  split at h
  · cases h
  · split at h
    · cases h
    · split at h
      · cases h
      · split at h
        · cases h
        · next k =>
          simp only [hq, Bool.and_true, State.mediaDown, Bool.or_eq_true, Bool.not_eq_true', not_or, Bool.not_eq_false] at k
          exact k.2

theorem State.refusal_defined (s : State) (p : PortId) (b : Byte) (r : Fin 16) (hb : regionOf b = some r)
    (h : s.refusal p (.fix b) = none) : (s.region r).state ≠ .undefined := by
  intro e
  unfold State.refusal at h
  repeat' split at h
  all_goals first
    | (exact absurd h (by simp))
    | simp [State.regionRefusal, hb, regionCheck, Region.isDefined, e] at h

theorem Kept.present (h : Kept D n s) (p : PortId) (tag : Byte) (q : Request) (hq : n → asksReset q = false) :
    Kept D n (s.present p tag q) := by
  unfold State.present
  split
  · exact h.complete p tag _ _
  · next hr =>
    cases q with
    | attach => exact h.attach p tag
    | detach => exact h.detach p tag
    | read b c o => exact h.onRegion b _ fun r => h.dispatchRead p tag r c o
    | write b c o d => exact h.onRegion b _ fun r => h.writeIntake p tag r c o d
    | flush b =>
      simp only [State.dispatch]
      split
      · exact h.dispatchFlush p tag _
      · exact h
    | claim b => exact h.onRegion b _ fun r => h.claim p tag r (s.refusal_online p _ hr (by simp))
    | renew b => exact h.onRegion b _ fun r => h.renew p tag r
    | release b => exact h.onRegion b _ fun r => h.release p tag r
    | fix b =>
      simp only [State.dispatch, State.onRegion]
      split
      · next r hb => exact h.fix p tag r (s.refusal_defined p b r hb hr)
      · exact h
    | queryRegion b => exact h.onRegion b _ fun r => h.complete p tag _ _
    | propose f =>
      simp only [State.dispatch]
      split
      · next c hc =>
        refine h.propose p tag f c hc (s.refusal_loaded p _ hr rfl) fun k e => ?_
        have := hq k
        simp [asksReset, e] at this
      · exact h
    | answer id a => exact h.answer p tag id a
    | withdraw id => exact h.withdraw p tag id
    | inquire => exact h.complete p tag _ _
    | quiesce => exact h.quiesce p tag
    | resume => exact h.resume p tag
    | mediaRestart => exact h.mediaRestart p tag
    | unknown c => exact h.complete p tag _ _

theorem PortUnit.nextToPresent_mem (u : PortUnit) (r : Record) (h : u.nextToPresent = some r) : r ∈ u.requests := by
  unfold PortUnit.nextToPresent at h
  split at h
  · cases h
  · exact List.mem_of_find?_eq_some h

theorem Kept.presentNext (h : Kept D n s) (p : PortId) : Kept D n (s.presentNext p) := by
  unfold State.presentNext
  split
  · next r hr => exact h.present _ _ _ fun k => ((h.ports p).quiet k).1 r (PortUnit.nextToPresent_mem _ r hr)
  · exact h

theorem Kept.advance (m : Nat) : ∀ {s : State}, Kept D n s → Kept D n (s.advance m) := by
  induction m with
  | zero => exact fun h => h
  | succ m ih =>
    intro s h
    simp only [State.advance]
    split
    · split
      · exact ih (h.presentNext _)
      · exact ih h.endEntering
    · split
      · exact ih ((h.chose _).presentNext _)
      · exact h

theorem Kept.moveOn (h : Kept D n s) : Kept D n s.moveOn := Kept.advance _ h

theorem Kept.takeSubmit (h : Kept D n s) (p : PortId) (tag : Byte) (q : Request) (hq : n → asksReset q = false) :
    Kept D n (s.takeSubmit p tag q) := by
  unfold State.takeSubmit
  split
  · exact h.wires p _ rfl rfl rfl (h.notReceiving p)
  · next hlt =>
    split
    · exact h.wires p _ rfl rfl rfl (h.notReceiving p)
    · next hc =>
      refine Kept.moveOn (h.updPort p _ ((h.ports p).append tag q (by omega) (fun r hr e => hc ?_) hq) id)
      rw [List.any_eq_true]
      exact ⟨r, hr, by simpa using e⟩

/-! ### The steps of an event -/

theorem Kept.completeWrite (h : Kept D n s) (i : Nat) : Kept D n (s.completeWrite i) := by
  unfold State.completeWrite
  split
  · exact (h.setWaiters _).finish _ _ _ _ _
  · exact h

theorem Kept.completeFlush (h : Kept D n s) (i : Nat) : Kept D n (s.completeFlush i) := by
  unfold State.completeFlush
  split
  · exact (h.setWaiters _).finish _ _ _ _ _
  · exact h

theorem Kept.offerQuiesced (h : Kept D n s) (ws : List Waiter) (p : PortId) : Kept D n (s.offerQuiesced ws p) := by
  unfold State.offerQuiesced
  split
  · exact h
  · exact h.offer p _

theorem Kept.endQuiesce (h : Kept D n s) : Kept D n s.endQuiesce := by
  unfold State.endQuiesce
  split
  · split
    · exact (((h.finishWaiters _ _).setService _).offerQuiesced _ .A).offerQuiesced _ .B
    · exact h
  · exact h

theorem Kept.applyNow (h : Kept D n s) : Kept D n s.applyNow := by
  unfold State.applyNow
  split
  · next pr hd => exact h.applyProposal pr (s.applyDue_proposal pr hd)
  · exact h

theorem Kept.placeWaiting (h : Kept D n s) (p : PortId) : Kept D n (s.placeWaiting p) := by
  unfold State.placeWaiting
  split
  · split
    · exact (h.onRegion _ _ fun r => h.placeWrite _ _ _ _ _ _).moveOn
    · exact h
  · exact h

theorem Kept.expireLease (h : Kept D n s) (r : Fin 16) : Kept D n (s.expireLease r) := by
  have h1 : Kept D n (s.openEvent.leaseCounted r) := h.openEvent.frame
  unfold State.expireLease
  dsimp only
  split
  · split
    · exact (((h1.dropHold r).endNotStarted _ r).offer _ _).moveOn
    · exact h1.countLease r
  · exact h1

/-- A window that counts down keeps its range. -/
theorem Proposal.countDown_window (pr : Proposal) (hw : ∀ w, pr.state = .opened w → 1 ≤ w ∧ w ≤ 255) (w : Nat)
    (h : pr.countDown.state = .opened w) : 1 ≤ w ∧ w ≤ 255 := by
  unfold Proposal.countDown at h
  split at h
  · next v hv =>
    have k := hw v hv
    split at h
    · exact hw w h
    · next hl =>
      simp only [Proposal.lastTick, hv, decide_eq_true_eq] at hl
      simp only [ProposalState.opened.injEq] at h
      omega
  · exact hw w h

theorem Proposal.countDown_eq (pr : Proposal) : pr.countDown = { pr with state := pr.countDown.state } := by
  unfold Proposal.countDown
  split
  · split <;> rfl
  · rfl

theorem Kept.countWindow (h : Kept D n s) (pr : Proposal) (hp : s.agree.proposal = some pr) :
    Kept D n { s with agree := { s.agree with proposal := some pr.countDown } } := by
  rw [pr.countDown_eq]
  exact h.stateProposal pr hp _ s.agree.entering (pr.countDown_window (h.proposal pr hp).2.1)

theorem Kept.lapse (h : Kept D n s) : Kept D n s.lapse := by
  have h1 : Kept D n s.openEvent.windowCounted := h.openEvent.frame
  unfold State.lapse
  dsimp only
  split
  · next pr hp =>
    split
    · exact h1.endProposal _ _
    · exact h1.countWindow pr hp
  · exact h1

/-- A step that is due. -/
theorem Kept.perform (h : Kept D n s) (o : Owed) (hd : ∀ j, o = .job j → s.jobDue = some j) : Kept D n (s.perform o) := by
  cases o with
  | writeThrough i => exact h.completeWrite i
  | quiesceEnd => exact h.endQuiesce
  | flush i => exact h.completeFlush i
  | apply => exact h.applyNow
  | place p => exact h.placeWaiting p
  | job j => exact h.beginJob j (hd j rfl)
  | leaseExpiry r => exact h.expireLease r
  | lapse => exact h.lapse

/-- A job that is owed is the job that is due. -/
theorem State.owedAt_job (s : State) (k : Nat) (j : JobChoice) (h : Owed.job j ∈ s.owedAt k) : s.jobDue = some j := by
  match k with
  | 0 => simp [State.owedAt] at h
  | 1 =>
    simp only [State.owedAt] at h
    split at h <;> simp at h
  | 2 => simp [State.owedAt] at h
  | 3 =>
    simp only [State.owedAt] at h
    split at h <;> simp at h
  | 4 => simp [State.owedAt] at h
  | 5 =>
    simp only [State.owedAt] at h
    split at h
    · next x hx =>
      simp only [List.mem_singleton, Owed.job.injEq] at h
      rw [h]
      exact hx
    · simp at h
  | 6 =>
    simp only [State.owedAt, List.mem_append] at h
    rcases h with h | h
    · simp at h
    · split at h <;> simp at h
  | n + 7 => simp [State.owedAt] at h

theorem State.firstOwed_job (s : State) (b : Nat) (j : JobChoice) (h : Owed.job j ∈ s.firstOwed b) : s.jobDue = some j := by
  unfold State.firstOwed at h
  cases hf : ((List.range b).map s.owedAt).find? (fun xs => !xs.isEmpty) with
  | none => simp [hf] at h
  | some xs =>
    simp only [hf, Option.getD_some] at h
    have hm := List.mem_of_find?_eq_some hf
    simp only [List.mem_map] at hm
    obtain ⟨k, _, rfl⟩ := hm
    exact s.owedAt_job k j h

theorem State.chose_jobDue {α : Type} (s : State) (xs : List α) : (s.chose xs).jobDue = s.jobDue := by
  unfold State.chose
  split <;> rfl

theorem Kept.settleBelow (b m : Nat) : ∀ {s : State}, Kept D n s → Kept D n (State.settleBelow b m s) := by
  induction m with
  | zero => exact fun h => h
  | succ m ih =>
    intro s h
    simp only [State.settleBelow]
    split
    · next o ho =>
      refine ih ((h.chose _).perform o fun j hj => ?_)
      rw [State.chose_jobDue]
      refine s.firstOwed_job b j ?_
      rw [← hj]
      exact pick_mem _ _ _ ho
    · exact h

theorem Kept.settle (h : Kept D n s) : Kept D n s.settle := Kept.settleBelow 7 _ h

theorem Kept.ownStep (h : Kept D n s) (k : Nat) (test : Owed → Bool) : Kept D n (s.ownStep k test) := by
  have h1 := Kept.settleBelow k s.settleFuel h
  unfold State.ownStep
  dsimp only
  split
  · next o ho =>
    refine h1.perform o fun j hj => ?_
    refine State.owedAt_job _ k j ?_
    rw [← hj]
    exact List.mem_of_find?_eq_some ho
  · exact h1

/-- A command from outside; `E` are the slots that it leaves DIRTY or FLUSHING. -/
theorem Kept.fromOutside {E : SlotId → Nat → Prop} (h : Kept D n s) (f : State → State) (hE : ∀ i lbn, E i lbn → D i lbn)
    (hf : Kept D n s.settle.openEvent → Kept E n (f s.settle.openEvent)) : Kept E n (s.fromOutside f) := by
  unfold State.fromOutside
  split
  · exact h.mono hE
  · exact hf h.settle.openEvent

/-! ### The wires -/

theorem Kept.detachWork (h : Kept D n s) (p : PortId) : Kept D n (s.detachWork p) := by
  have job (x : Job) (hx : (s.detachWork p).sched.job = some x) : ∃ y, s.sched.job = some y ∧ detachJob p y = x := by
    have hx' : s.sched.job.map (detachJob p) = some x := by cases p <;> exact hx
    simpa using hx'
  refine ⟨h.regions, ?_, ?_, h.buffer.same, h.spares, h.candidates, fun c hc => ?_, h.counters, h.proposal, ⟨h.unloaded.1, fun bs a hc => ?_⟩,
    h.flushing.same.job fun k hk => ?_, h.unflushed, h.agreed⟩
  · exact h.holds
  · exact h.ports
  · obtain ⟨y, hy, e⟩ := job _ hc
    cases y <;> simp [detachJob] at e
    subst e
    exact h.checkpoint _ hy
  · obtain ⟨y, hy, e⟩ := job _ hc
    cases y <;> simp [detachJob] at e
    subst e
    exact h.unloaded.2 _ _ hy
  · obtain ⟨y, hy, e⟩ := job _ hk
    cases y <;> simp [detachJob] at e
    subst e
    exact ⟨_, hy, rfl, rfl, rfl⟩

theorem Kept.portReset (h : Kept D n s) (p : PortId) : Kept D n (s.portReset p) := by
  have h1 : Kept D n (((s.detachWork p).updPort p PortUnit.emptied).clearBase p) := by
    have k := (h.detachWork p).updPort p PortUnit.emptied (.empty n _ rfl rfl fun _ e => by cases e) id
    cases p <;> exact k.frame
  unfold State.portReset
  dsimp only
  split
  · exact h1.goOffline p
  · exact h1

theorem Kept.addSdo (h : Kept D n s) (p : PortId) (bits : List Bool) : Kept D n (s.addSdo p bits) :=
  h.wires p _ rfl rfl rfl (h.notReceiving p)

theorem Kept.setFlags (h : Kept D n s) (p : PortId) (f : Sticky → Sticky) :
    Kept D n (s.updPort p fun u => { u with flags := f u.flags }) := h.wires p _ rfl rfl rfl (h.notReceiving p)

theorem Kept.silent (h : Kept D n s) (p : PortId) (count : Nat) : Kept D n (s.silent p count) :=
  h.wires p _ rfl rfl rfl (h.notReceiving p)

theorem Kept.stray (h : Kept D n s) (p : PortId) (count : Nat) : Kept D n (s.stray p count) := (h.addSdo p _).frame

theorem Kept.clockData (h : Kept D n s) (p : PortId) (sdi : List Bool) : Kept D n (s.clockData p sdi) := by
  unfold State.clockData
  split
  · next bits hb => exact (h.addSdo p _).setReceiver p _ fun k => absurd hb (h.notReceiving p k bits)
  · next frame queued position _ =>
    have k := (h.addSdo p (shiftOut frame position sdi.length)).setReceiver p (.sending frame queued (position + sdi.length))
      fun _ _ e => by cases e
    unfold State.clockFetch
    dsimp only
    split
    · have k2 := k.updPort p PortUnit.removeHead (k.ports p).removeHead fun e => by rw [PortUnit.removeHead_online]; exact e
      cases p <;> exact k2.frame
    · exact k
  · next bytes position toClear _ =>
    unfold State.clockPeek
    dsimp only
    split
    · refine Kept.setFlags (Kept.setReceiver (h.addSdo p _) p _ ?_) p
        fun f => f.clearing ((s.port p).shown bytes (s.peekTaken p bytes (position + sdi.length)) toClear)
      exact fun _ _ e => by cases e
    · exact (h.addSdo p _).setReceiver p _ fun _ _ e => by cases e
  · split
    · exact h
    · exact (h.stray p _).setReceiver p _ fun _ _ e => by cases e
  · next why _ =>
    cases why with
    | unknownType => exact h.addSdo p _
    | clockedReset => exact h.stray p _
    | sinceColdReset => exact h.stray p _
  all_goals exact h

theorem Kept.typeByteSampled (h : Kept D n s) (p : PortId) (b : Byte) (hb : n → b ≠ 0xB1) : Kept D n (s.typeByteSampled p b) := by
  have k := h.silent p 8
  unfold State.typeByteSampled
  dsimp only
  split
  · next e => exact k.setReceiver p _ fun x => absurd e (hb x)
  · split
    · exact k.setReceiver p _ fun _ _ e => by cases e
    · split
      · exact k.setReceiver p _ fun _ _ e => by cases e
      · split
        · exact k.setReceiver p _ fun _ _ e => by cases e
        · exact (k.frameError p).setReceiver p _ fun _ _ e => by cases e

theorem Kept.selectRises (h : Kept D n s) (p : PortId) : Kept D n (s.selectRises p) := by
  have k := h.setReceiver p .idle fun _ _ e => by cases e
  unfold State.selectRises
  dsimp only
  split
  · exact h
  · split
    · exact k
    · exact k.frameError p
  · next bits hb =>
    unfold State.judgeFrame
    split
    · exact k.takeSubmit p _ _ fun x => absurd hb (h.notReceiving p x bits)
    · exact k.frameError p
  · exact k
  · exact k
  · exact k.portReset p
  · exact k.frameError p
  · exact k
  · exact k

theorem Kept.closeOpen (h : Kept D n s) (p : PortId) : Kept D n (s.closeOpen p) := by
  unfold State.closeOpen
  split
  · exact h
  · exact (h.selectRises p).settle.openEvent

theorem Kept.transact (h : Kept D n s) (p : PortId) (b : Byte) (io : Portion) (hb : n → b ≠ 0xB1) : Kept D n (s.transact p b io) := by
  have k1 : Kept D n (if io.opens = true then (s.closeOpen p).typeByteSampled p b else s) := by
    split
    · exact (h.closeOpen p).typeByteSampled p b hb
    · exact h
  unfold State.transact
  dsimp only
  split
  · exact (k1.clockData p _).selectRises p
  · exact k1.clockData p _

theorem Kept.transactBits (h : Kept D n s) (p : PortId) (bits : List Bool) (hb : n → bits.length < 8) :
    Kept D n (s.transactBits p bits) := by
  unfold State.transactBits State.openWith
  split
  · exact (((h.closeOpen p).silent p _).setReceiver p _ fun _ _ e => by cases e).selectRises p
  · next hl => exact (((h.closeOpen p).typeByteSampled p _ fun k => absurd (hb k) hl).clockData p _).selectRises p

theorem Kept.submit (h : Kept D n s) (p : PortId) (tag : Byte) (q : Request) (hq : n → asksReset q = false) :
    Kept D n (s.submit p tag q) := ((h.closeOpen p).silent p _).takeSubmit p tag q hq

/-! ### The medium -/

theorem Kept.takeReadJobAnswer (h : Kept D n s) (a : ReadAnswer) : Kept D n (s.takeReadJobAnswer a) := by
  unfold State.takeReadJobAnswer
  split
  · exact h.answered.readAnswered _ a s.answered_timeouts
  all_goals exact h

theorem Kept.takeFlushWriteAnswer (h : Kept D n s) (a : WriteAnswer)
    (hD : ∀ j, s.sched.job = some (.flush j) → ∀ lbn, ¬D j.slot lbn) : Kept D n (s.takeFlushWriteAnswer a) := by
  unfold State.takeFlushWriteAnswer
  split
  · split
    · split
      · exact h
      · exact h.answered.currentWriteAnswered _ (by assumption) (hD _ (by assumption)) a s.answered_timeouts
    · exact h
  all_goals exact h

theorem Kept.takeVerifyAnswer (h : Kept D n s) (a : ReadAnswer)
    (hD : ∀ j, s.sched.job = some (.flush j) → ∀ lbn, ¬D j.slot lbn) : Kept D n (s.takeVerifyAnswer a) := by
  unfold State.takeVerifyAnswer
  split
  · split
    · exact h.answered.verifyAnswered _ (by assumption) (hD _ (by assumption)) a s.answered_timeouts
    · exact h
  all_goals exact h

theorem Kept.takeSpareWriteAnswer (h : Kept D n s) (a : WriteAnswer)
    (hD : ∀ j, s.sched.job = some (.flush j) → ∀ lbn, ¬D j.slot lbn) : Kept D n (s.takeSpareWriteAnswer a) := by
  unfold State.takeSpareWriteAnswer
  split
  · split
    · exact h.answered.spareWriteAnswered _ (by assumption) (hD _ (by assumption)) _ a s.answered_timeouts
    · exact h
  all_goals exact h

theorem Kept.takeCheckpointAnswer (h : Kept D n s) (a : WriteAnswer) : Kept D n (s.takeCheckpointAnswer a) := by
  unfold State.takeCheckpointAnswer
  split
  · next c hc => exact h.answered.checkpointWriteAnswered c a hc s.answered_timeouts
  all_goals exact h

theorem Kept.takeIdentifyAnswer (h : Kept D n s) (count size : Nat) : Kept D n (s.takeIdentifyAnswer count size) := by
  unfold State.takeIdentifyAnswer
  split
  · exact h.answered.identifyAnswered count size s.answered_timeouts
  all_goals exact h

theorem Kept.takeLoadReadAnswer (h : Kept D n s) (a : ReadAnswer) : Kept D n (s.takeLoadReadAnswer a) := by
  unfold State.takeLoadReadAnswer
  split
  · next hj =>
    exact h.answered.loadReadAnswered _ _ a (h.unloaded.2 _ _ hj) s.answered_timeouts
  all_goals exact h

theorem Kept.takeReply (h : Kept D n s) (reply : List Byte)
    (hD : ∀ j, s.sched.job = some (.flush j) → ∀ lbn, ¬D j.slot lbn) : Kept D n (s.takeReply reply) := by
  unfold State.takeReply
  split
  · exact h
  · split
    · exact h.takeIdentifyAnswer _ _
    · split
      · exact h.takeReadJobAnswer _
      · exact h.takeVerifyAnswer _ hD
      · exact h.takeLoadReadAnswer _
      all_goals exact h
    · split
      · split
        · exact h.takeFlushWriteAnswer _ hD
        · exact h.takeSpareWriteAnswer _ hD
      · exact h.takeCheckpointAnswer _
      all_goals exact h
    · exact h

/-! ### The tick and the resets -/

theorem Kept.tick (h : Kept D n s) : Kept D n s.tick := by
  have h1 := h.countLeases
  have ha := s.mapRegions_agree fun _ x => x.countDown
  unfold State.tick
  generalize (s.mapRegions fun _ x => x.countDown) = t at h1 ha ⊢
  rw [← ha]
  cases hp : t.agree.proposal with
  | none => exact h1.frame (hq := hp.symm)
  | some pr => exact (h1.countWindow pr hp).frame

theorem Kept.reset (hD : ∀ i lbn, ¬D i lbn) (hn : ¬n) (l : List Instr) (c : Nat) :
    Kept D n { State.reset with pending := l, choices := c } := by
  have hreg (r : Fin 16) : ({ State.reset with pending := l, choices := c } : State).region r = Region.undefinedRecord := by
    simp [State.region, State.reset]
  have hslot (i : SlotId) : ({ State.reset with pending := l, choices := c } : State).staging.slots[i] = .free := by
    simp [State.reset, Staging.coldReset]
  refine ⟨⟨fun r k => ?_, fun q r _ k => ?_⟩, ⟨fun r x hx => ?_, fun r k => ?_⟩, fun p => ?_, ⟨fun i j lbn k => ?_, ⟨List.nodup_nil, fun i => ?_⟩,
    ⟨List.nodup_nil, fun i => ?_⟩⟩, ⟨rfl, fun i j lbn hi => ?_⟩, ⟨Nat.zero_le _, List.nodup_nil⟩, fun c hc => ?_, ?_, fun pr e => ?_,
    ⟨fun _ => ⟨rfl, rfl⟩, fun _ _ e => ?_⟩, ⟨fun i d hd => ?_, fun j e => (by cases e)⟩, fun i lbn k => absurd k (hD i lbn), fun k => absurd k hn⟩
  · rw [hreg] at k
    exact absurd rfl k
  · rw [hreg] at k
    exact absurd rfl k
  · rw [hreg] at hx
    cases hx
  · rw [hreg] at k
    cases k
  · cases p <;> exact .empty n _ rfl rfl fun _ e => by cases e
  · rw [hslot] at k
    cases k
  · rw [hslot]
    exact ⟨fun e => (by cases e), fun e => absurd rfl e⟩
  · rw [hslot]
    exact ⟨fun e => (by cases e), fun ⟨_, _, _, e⟩ => (by cases e)⟩
  · simp [State.reset, BlockMap.coldReset] at hi
  · cases hc
  · exact ⟨⟨Nat.le_refl 1, by change 1 ≤ 255; decide⟩, Nat.zero_le _, Nat.zero_le _, fun _ => noTimeouts⟩
  · cases e
  · cases e
  · rw [hslot] at hd
    cases hd

end Sys2Proof.Machine
end

