-- ==== Sys2Proof/Laws/ResetLow.lean ====
section
/-! SUPPORT. No event of the part changes RESET#: what finishes the event in hand leaves `resetLow` as it is. -/

namespace Sys2Proof.Machine

theorem foldl_resetLow {α : Type} (f : State → α → State) (h : ∀ s x, (f s x).resetLow = s.resetLow) (xs : List α) (s : State) :
    (xs.foldl f s).resetLow = s.resetLow := by
  induction xs generalizing s with
  | nil => rfl
  | cons x xs ih => exact (ih _).trans (h s x)

@[simp] theorem State.completeAll_resetLow (s : State) (p : PortId) (tags : List Byte) (status : Status) :
    (s.completeAll p tags status).resetLow = s.resetLow :=
  foldl_resetLow _ (fun t x => t.complete_resetLow p x status .blank) tags s

@[simp] theorem State.endWaitingWrite_resetLow (s : State) (p : PortId) (names : Fin 16 → Bool) (status : Status) :
    (s.endWaitingWrite p names status).resetLow = s.resetLow := by
  unfold State.endWaitingWrite
  repeat' split
  all_goals simp

@[simp] theorem State.endNotStarted_resetLow (s : State) (p : PortId) (r : Fin 16) : (s.endNotStarted p r).resetLow = s.resetLow := by
  unfold State.endNotStarted
  dsimp only
  simp

@[simp] theorem State.dropHold_resetLow (s : State) (r : Fin 16) : (s.dropHold r).resetLow = s.resetLow := by
  unfold State.dropHold
  dsimp only
  simp

@[simp] theorem State.dropHoldsOf_resetLow (s : State) (p : PortId) : (s.dropHoldsOf p).resetLow = s.resetLow := by
  unfold State.dropHoldsOf
  simp

@[simp] theorem State.placeWrite_resetLow (s : State) (p : PortId) (tag : Byte) (r : Fin 16) (count : Byte)
    (offset : Word24) (payload : List Byte) :
    (s.placeWrite p tag r count offset payload).resetLow = s.resetLow := by
  unfold State.placeWrite
  dsimp only
  repeat' split
  all_goals simp

@[simp] theorem State.dispatchRead_resetLow (s : State) (p : PortId) (tag : Byte) (r : Fin 16) (count : Byte) (offset : Word24) :
    (s.dispatchRead p tag r count offset).resetLow = s.resetLow := by
  unfold State.dispatchRead
  dsimp only
  repeat' split
  all_goals simp

@[simp] theorem State.dispatchFlush_resetLow (s : State) (p : PortId) (tag : Byte) (scope : FlushScope) :
    (s.dispatchFlush p tag scope).resetLow = s.resetLow := by
  unfold State.dispatchFlush
  dsimp only
  repeat' split
  all_goals simp

@[simp] theorem State.noteRest_resetLow (s : State) : (s.noteRest).resetLow = s.resetLow := by
  unfold State.noteRest
  dsimp only
  repeat' split
  all_goals simp

@[simp] theorem State.offerInAnyOrder_resetLow (s : State) (offers : List (PortId × Notice)) :
    (s.offerInAnyOrder offers).resetLow = s.resetLow :=
  foldl_resetLow _ (fun t _ => t.offer_resetLow _ _) _ s

@[simp] theorem State.applyTables_resetLow (s : State) (x : Change) : (s.applyTables x).resetLow = s.resetLow := by
  cases x <;> simp [State.applyTables]

@[simp] theorem State.endProposal_resetLow (s : State) (pr : Proposal) (reason : OutcomeReason) :
    (s.endProposal pr reason).resetLow = s.resetLow := by
  unfold State.endProposal
  dsimp only
  simp

@[simp] theorem State.applyProposal_resetLow (s : State) (pr : Proposal) : (s.applyProposal pr).resetLow = s.resetLow := by
  unfold State.applyProposal
  dsimp only
  repeat' split
  all_goals simp

@[simp] theorem State.enterApplying_resetLow (s : State) (p : PortId) (pr : Proposal) : (s.enterApplying p pr).resetLow = s.resetLow := by
  unfold State.enterApplying
  dsimp only
  simp

@[simp] theorem State.endEntering_resetLow (s : State) : (s.endEntering).resetLow = s.resetLow := by
  unfold State.endEntering
  dsimp only
  repeat' split
  all_goals simp

@[simp] theorem State.goOffline_resetLow (s : State) (p : PortId) : (s.goOffline p).resetLow = s.resetLow := by
  unfold State.goOffline
  dsimp only
  repeat' split
  all_goals simp

@[simp] theorem State.attach_resetLow (s : State) (p : PortId) (tag : Byte) : (s.attach p tag).resetLow = s.resetLow := by
  unfold State.attach
  dsimp only
  repeat' split
  all_goals simp

@[simp] theorem State.detach_resetLow (s : State) (p : PortId) (tag : Byte) : (s.detach p tag).resetLow = s.resetLow := by
  unfold State.detach
  repeat' split
  all_goals simp

@[simp] theorem State.hold_resetLow (s : State) (p : PortId) (r : Fin 16) : (s.hold p r).resetLow = s.resetLow := by
  unfold State.hold
  dsimp only
  simp

@[simp] theorem State.claim_resetLow (s : State) (p : PortId) (tag : Byte) (r : Fin 16) : (s.claim p tag r).resetLow = s.resetLow := by
  unfold State.claim
  dsimp only
  repeat' split
  all_goals simp

@[simp] theorem State.renew_resetLow (s : State) (p : PortId) (tag : Byte) (r : Fin 16) : (s.renew p tag r).resetLow = s.resetLow := by
  unfold State.renew
  repeat' split
  all_goals simp

@[simp] theorem State.release_resetLow (s : State) (p : PortId) (tag : Byte) (r : Fin 16) : (s.release p tag r).resetLow = s.resetLow := by
  unfold State.release
  repeat' split
  all_goals simp

@[simp] theorem State.lapseIfFixed_resetLow (s : State) (r : Fin 16) : (s.lapseIfFixed r).resetLow = s.resetLow := by
  unfold State.lapseIfFixed
  repeat' split
  all_goals simp

@[simp] theorem State.fix_resetLow (s : State) (p : PortId) (tag : Byte) (r : Fin 16) : (s.fix p tag r).resetLow = s.resetLow := by
  unfold State.fix
  dsimp only
  repeat' split
  all_goals simp

@[simp] theorem State.queryRegion_resetLow (s : State) (p : PortId) (tag : Byte) (r : Fin 16) :
    (s.queryRegion p tag r).resetLow = s.resetLow := by
  unfold State.queryRegion
  simp

@[simp] theorem State.takeProposal_resetLow (s : State) (pr : Proposal) : (s.takeProposal pr).resetLow = s.resetLow := by
  rfl

@[simp] theorem State.propose_resetLow (s : State) (p : PortId) (tag : Byte) (c : Change) (window : Nat) :
    (s.propose p tag c window).resetLow = s.resetLow := by
  unfold State.propose
  dsimp only
  repeat' split
  all_goals simp

@[simp] theorem State.answer_resetLow (s : State) (p : PortId) (tag id answer : Byte) :
    (s.answer p tag id answer).resetLow = s.resetLow := by
  unfold State.answer
  dsimp only
  repeat' split
  all_goals simp

@[simp] theorem State.withdraw_resetLow (s : State) (p : PortId) (tag id : Byte) : (s.withdraw p tag id).resetLow = s.resetLow := by
  unfold State.withdraw
  repeat' split
  all_goals simp

@[simp] theorem State.beginQuiesce_resetLow (s : State) (p : PortId) (tag : Byte) : (s.beginQuiesce p tag).resetLow = s.resetLow := by
  unfold State.beginQuiesce
  dsimp only
  repeat' split
  all_goals simp

@[simp] theorem State.joinQuiesce_resetLow (s : State) (p : PortId) (tag : Byte) : (s.joinQuiesce p tag).resetLow = s.resetLow := by
  unfold State.joinQuiesce
  dsimp only
  repeat' split
  all_goals simp

@[simp] theorem State.quiesce_resetLow (s : State) (p : PortId) (tag : Byte) : (s.quiesce p tag).resetLow = s.resetLow := by
  unfold State.quiesce
  repeat' split
  all_goals simp

@[simp] theorem State.resume_resetLow (s : State) (p : PortId) (tag : Byte) : (s.resume p tag).resetLow = s.resetLow := by
  unfold State.resume
  dsimp only
  repeat' split
  all_goals simp

@[simp] theorem State.beginIdentify_resetLow (s : State) : (s.beginIdentify).resetLow = s.resetLow := by
  unfold State.beginIdentify
  dsimp only
  simp

@[simp] theorem State.mediaRestart_resetLow (s : State) (p : PortId) (tag : Byte) : (s.mediaRestart p tag).resetLow = s.resetLow := by
  unfold State.mediaRestart
  dsimp only
  repeat' split
  all_goals simp

theorem State.onRegion_resetLow (s : State) (b : Byte) (f : Fin 16 → State) (h : ∀ r, (f r).resetLow = s.resetLow) :
    (s.onRegion b f).resetLow = s.resetLow := by
  unfold State.onRegion
  split
  · exact h _
  · rfl

@[simp] theorem State.writeIntake_resetLow (s : State) (p : PortId) (tag : Byte) (r : Fin 16) (count : Byte)
    (offset : Word24) (payload : List Byte) :
    (s.writeIntake p tag r count offset payload).resetLow = s.resetLow := by
  unfold State.writeIntake
  repeat' split
  all_goals simp

@[simp] theorem State.dispatch_resetLow (s : State) (p : PortId) (tag : Byte) (x : Request) :
    (s.dispatch p tag x).resetLow = s.resetLow := by
  cases x <;> simp only [State.dispatch]
  all_goals first
    | exact State.onRegion_resetLow s _ _ fun r => by simp
    | (repeat' split) <;> simp

@[simp] theorem State.present_resetLow (s : State) (p : PortId) (tag : Byte) (q : Request) :
    (s.present p tag q).resetLow = s.resetLow := by
  unfold State.present
  repeat' split
  all_goals simp

@[simp] theorem State.chose_resetLow {α : Type} (s : State) (xs : List α) : (s.chose xs).resetLow = s.resetLow := by
  unfold State.chose
  repeat' split
  all_goals simp

@[simp] theorem State.presentNext_resetLow (s : State) (p : PortId) : (s.presentNext p).resetLow = s.resetLow := by
  unfold State.presentNext
  split
  · simp
  · rfl

theorem State.advance_resetLow (n : Nat) (s : State) : (s.advance n).resetLow = s.resetLow := by
  induction n generalizing s with
  | zero => rfl
  | succ n ih =>
    unfold State.advance
    repeat' split
    all_goals simp [ih]

@[simp] theorem State.moveOn_resetLow (s : State) : s.moveOn.resetLow = s.resetLow := s.advance_resetLow _

@[simp] theorem State.issueReadBlock_resetLow (s : State) (r : WaitingRead) (block : Nat) :
    (s.issueReadBlock r block).resetLow = s.resetLow := by
  unfold State.issueReadBlock
  simp

@[simp] theorem State.beginRead_resetLow (s : State) (p : PortId) : (s.beginRead p).resetLow = s.resetLow := by
  unfold State.beginRead
  dsimp only
  repeat' split
  all_goals simp

@[simp] theorem State.watchIfNoSpare_resetLow (s : State) (d : Dirty) : (s.watchIfNoSpare d).resetLow = s.resetLow := by
  unfold State.watchIfNoSpare
  repeat' split
  all_goals simp

@[simp] theorem State.beginFlush_resetLow (s : State) (i : SlotId) : (s.beginFlush i).resetLow = s.resetLow := by
  unfold State.beginFlush
  dsimp only
  repeat' split
  all_goals simp

@[simp] theorem State.noteCheckpointBegun_resetLow (s : State) : (s.noteCheckpointBegun).resetLow = s.resetLow := by
  unfold State.noteCheckpointBegun
  dsimp only
  repeat' split
  all_goals simp

@[simp] theorem State.noteCheckpointEnded_resetLow (s : State) (good : Bool) : (s.noteCheckpointEnded good).resetLow = s.resetLow := by
  unfold State.noteCheckpointEnded
  dsimp only
  repeat' split
  all_goals simp

@[simp] theorem State.checkpointFailed_resetLow (s : State) (again : Bool) (generation : Nat) :
    (s.checkpointFailed again generation).resetLow = s.resetLow := by
  unfold State.checkpointFailed
  dsimp only
  simp

@[simp] theorem State.issueCheckpointBlock_resetLow (s : State) (c : CheckpointJob) (k : Nat) :
    (s.issueCheckpointBlock c k).resetLow = s.resetLow := by
  unfold State.issueCheckpointBlock
  simp

@[simp] theorem State.beginCheckpoint_resetLow (s : State) : (s.beginCheckpoint).resetLow = s.resetLow := by
  unfold State.beginCheckpoint
  dsimp only
  repeat' split
  all_goals simp

@[simp] theorem State.beginJob_resetLow (s : State) (x : JobChoice) : (s.beginJob x).resetLow = s.resetLow := by
  cases x <;> simp only [State.beginJob] <;> simp

@[simp] theorem State.finishWaiters_resetLow (s : State) (ws : List Waiter) (status : Status) :
    (s.finishWaiters ws status).resetLow = s.resetLow :=
  foldl_resetLow _ (fun t _ => t.finish_resetLow _ _ _ _ _) ws s

@[simp] theorem State.completeWrite_resetLow (s : State) (i : Nat) : (s.completeWrite i).resetLow = s.resetLow := by
  unfold State.completeWrite
  dsimp only
  repeat' split
  all_goals simp

@[simp] theorem State.completeFlush_resetLow (s : State) (i : Nat) : (s.completeFlush i).resetLow = s.resetLow := by
  unfold State.completeFlush
  dsimp only
  repeat' split
  all_goals simp

@[simp] theorem State.offerQuiesced_resetLow (s : State) (ws : List Waiter) (p : PortId) :
    (s.offerQuiesced ws p).resetLow = s.resetLow := by
  unfold State.offerQuiesced
  repeat' split
  all_goals simp

@[simp] theorem State.endQuiesce_resetLow (s : State) : (s.endQuiesce).resetLow = s.resetLow := by
  unfold State.endQuiesce
  dsimp only
  repeat' split
  all_goals simp

@[simp] theorem State.applyNow_resetLow (s : State) : (s.applyNow).resetLow = s.resetLow := by
  unfold State.applyNow
  repeat' split
  all_goals simp

@[simp] theorem State.placeWaiting_resetLow (s : State) (p : PortId) : (s.placeWaiting p).resetLow = s.resetLow := by
  unfold State.placeWaiting
  split
  · split
    · rw [State.moveOn_resetLow]
      exact s.onRegion_resetLow _ _ fun r => by simp
    · rfl
  · rfl

@[simp] theorem State.expireLease_resetLow (s : State) (r : Fin 16) : (s.expireLease r).resetLow = s.resetLow := by
  unfold State.expireLease
  dsimp only
  repeat' split
  all_goals simp

@[simp] theorem State.lapse_resetLow (s : State) : (s.lapse).resetLow = s.resetLow := by
  unfold State.lapse
  dsimp only
  repeat' split
  all_goals simp

@[simp] theorem State.perform_resetLow (s : State) (x : Owed) : (s.perform x).resetLow = s.resetLow := by
  cases x <;> simp only [State.perform] <;> simp

end Sys2Proof.Machine
end

