-- ==== Sys2Proof/Laws/Taken.lean ====
section
/-! SUPPORT. The request rows taken between two events: what is left to show of a row once its dispatch is known. -/

namespace Sys2Proof.Machine

theorem State.setRegion_self (s : State) (r : Fin 16) : s.setRegion r (s.region r) = s := by
  simp [State.setRegion, State.region]

theorem State.renewIfHolder_eq (s : State) (p : PortId) (r : Fin 16) :
    s.renewIfHolder p r = s.setRegion r ((s.region r).renewedFor p) := by
  unfold State.renewIfHolder Region.renewedFor
  dsimp only
  split
  · rfl
  · rw [State.setRegion_self]

/-- A state with the port units of `answering` has nothing to present. -/
theorem State.still_of_answering (s t : State) (p : PortId) (tag : Byte) (q : Request) (st : Status) (res : Result) (hq : Quiet s) (hc : CanTake s p tag)
    (hA : t.portA = (s.answering p tag q st res).portA) (hB : t.portB = (s.answering p tag q st res).portB)
    (he : t.agree.entering = none) : t.agree.entering = none ∧ t.readyPorts = [] := by
  have h := s.answering_still p tag q st res hq hc
  refine ⟨he, ?_⟩
  have h2 := h.2
  rw [State.readyPorts_nil] at h2 ⊢
  intro x
  have := h2 x
  cases x
  · simpa [State.port, hA] using this
  · simpa [State.port, hB] using this

/-- A state with the port units of `taking`, the request past its turn, has nothing to present. -/
theorem State.still_of_taking (s t : State) (p : PortId) (tag : Byte) (q : Request) (st : RecordState) (hq : Quiet s) (hc : CanTake s p tag)
    (hst : st ≠ .awaitingTurn)
    (hA : t.portA = (s.taking p tag q st).portA) (hB : t.portB = (s.taking p tag q st).portB)
    (he : t.agree.entering = none) : t.agree.entering = none ∧ t.readyPorts = [] := by
  refine ⟨he, ?_⟩
  rw [State.readyPorts_nil]
  intro x
  have hx : (t.port x) = (s.taking p tag q st).port x := by cases x <;> simp [State.port, hA, hB]
  rw [hx]
  by_cases h : x = p
  · subst h
    have : (s.taking x tag q st).port x = { s.port x with
        requests := (s.port x).requests ++ [⟨tag, q, st⟩], sdo := List.replicate (8 * (1 + frameLength q)) false } := by
      cases x <;> rfl
    rw [this]
    exact PortUnit.next_of_moved _ st _ ((s.readyPorts_nil.mp hq.2.2.2) x) hc.2.2.2 rfl hst
  · have : (s.taking p tag q st).port x = s.port x := by
      cases x <;> cases p <;> first | rfl | exact absurd rfl h
    rw [this]
    exact (s.readyPorts_nil.mp hq.2.2.2) x

theorem State.taking_agree (s : State) (p : PortId) (tag : Byte) (q : Request) (st : RecordState) : (s.taking p tag q st).agree = s.agree := by
  cases p <;> rfl
theorem State.answering_agree (s : State) (p : PortId) (tag : Byte) (q : Request) (st : Status) (res : Result) : (s.answering p tag q st res).agree = s.agree := by
  cases p <;> rfl

/-- A row whose dispatch leaves the port units of `answering`. -/
theorem exec_answered_like (s t : State) (p : PortId) (tag : Byte) (q : Request) (st : Status) (res : Result) (hk : keptWhole q = true)
    (hq : Quiet s) (hc : CanTake s p tag) (hn : s.refusal p q = none)
    (hd : (s.taking p tag q .awaitingTurn).dispatch p tag q = t)
    (hA : t.portA = (s.answering p tag q st res).portA) (hB : t.portB = (s.answering p tag q st res).portB)
    (he : t.agree.entering = s.agree.entering) : exec (rowOf p tag q) s = .next t := by
  have h := State.still_of_answering s t p tag q st res hq hc hA hB (by rw [he]; exact hq.2.2.1)
  exact exec_request s p tag q t hk hq hc hn hd h.1 h.2

/-- A row whose dispatch leaves the port units of `taking`. -/
theorem exec_taken_like (s t : State) (p : PortId) (tag : Byte) (q q' : Request) (st : RecordState) (hk : keptWhole q = true)
    (hq : Quiet s) (hc : CanTake s p tag) (hn : s.refusal p q = none) (hst : st ≠ .awaitingTurn)
    (hd : (s.taking p tag q .awaitingTurn).dispatch p tag q = t)
    (hA : t.portA = (s.taking p tag q' st).portA) (hB : t.portB = (s.taking p tag q' st).portB)
    (he : t.agree.entering = s.agree.entering) : exec (rowOf p tag q) s = .next t := by
  have h := State.still_of_taking s t p tag q' st hq hc hst hA hB (by rw [he]; exact hq.2.2.1)
  exact exec_request s p tag q t hk hq hc hn hd h.1 h.2

theorem State.taking_setRegion_complete (s : State) (p : PortId) (tag : Byte) (q : Request) (r : Fin 16) (y : Region) (st : Status) (res : Result)
    (hf : ∀ x ∈ (s.port p).requests, x.tag ≠ tag) :
      ((s.taking p tag q .awaitingTurn).setRegion r y).complete p tag st res = (s.answering p tag q st res).setRegion r y := by
    rw [← s.taking_complete p tag _ .awaitingTurn st res hf]
    cases p <;> rfl

/-- After the presentation of the request just taken, its port has nothing more to present. -/
theorem State.presented_still (s t : State) (p : PortId) (tag : Byte) (q : Request) (hq : Quiet s) (hc : CanTake s p tag)
    (ht : (s.taking p tag q .awaitingTurn).present p tag q = t) (ho : (t.port p.other).nextToPresent = none) : t.readyPorts = [] := by
  have hp := (s.taking p tag q .awaitingTurn).present_presents p tag q
  rw [ht] at hp
  have h1 := (s.port p).none_awaits ((s.readyPorts_nil.mp hq.2.2.2) p) hc.2.2.2
  have hport : (s.taking p tag q .awaitingTurn).port p = (s.port p).withRequest tag q .awaitingTurn := by cases p <;> rfl
  rw [State.readyPorts_nil]
  intro x
  by_cases hx : x = p
  · subst hx
    have hm := hp.1 x
    rw [hport] at hm
    have hpast := hp.2
    have : ∀ r ∈ (t.port x).requests, r.state ≠ .awaitingTurn := by
      intro r hr
      by_cases hrt : r.tag = tag
      · exact hpast r hr hrt
      · -- r comes from a record of s
        obtain ⟨y, hy, hyr⟩ : ∃ y ∈ ((s.port x).withRequest tag q .awaitingTurn).requests, Record.MovesTo y r := by
          clear hpast hp
          unfold ListMoved at hm
          generalize ((s.port x).withRequest tag q .awaitingTurn).requests = l1 at hm
          generalize (t.port x).requests = l2 at hm hr
          induction hm with
          | nil => cases hr
          | cons a _ ih =>
            cases hr with
            | head => exact ⟨_, List.mem_cons_self .., a⟩
            | tail _ h => obtain ⟨y, hy, k⟩ := ih h; exact ⟨y, List.mem_cons_of_mem _ hy, k⟩
        simp only [PortUnit.withRequest, List.mem_append, List.mem_singleton] at hy
        rcases hy with hy | rfl
        · rcases hyr.2 with k | k
          · rw [k]; exact h1 y hy
          · exact k
        · exact absurd hyr.1 hrt
    unfold PortUnit.nextToPresent
    split
    · rfl
    · rw [List.find?_eq_none]; intro r hr; simpa using this r hr
  · have : x = p.other := by cases x <;> cases p <;> simp_all [PortId.other]
    subst this
    exact ho

/-- A row whose dispatch leaves the other port with nothing to present. -/
theorem exec_presented (s t : State) (p : PortId) (tag : Byte) (q : Request) (hk : keptWhole q = true) (hq : Quiet s) (hc : CanTake s p tag)
    (hn : s.refusal p q = none) (ht : (s.taking p tag q .awaitingTurn).dispatch p tag q = t) (he : t.agree.entering = none)
    (ho : (t.port p.other).nextToPresent = none) : exec (rowOf p tag q) s = .next t :=
  exec_request s p tag q t hk hq hc hn ht he
    (State.presented_still s t p tag q hq hc ((s.present_passed p tag q hn).trans ht) ho)

theorem State.setWait_self (s : State) (p : PortId) : s.sched.setWait p (s.sched.wait p) = s.sched := by cases p <;> rfl

theorem PortUnit.complete_noSlots (u : PortUnit) (base : Nat) (tag : Byte) (st : Status) (res : Result)
    (h : ∀ x ∈ u.requests, x.state ≠ .awaitingSlots) : ∀ x ∈ (u.complete base tag st res).requests, x.state ≠ .awaitingSlots := by
  unfold PortUnit.complete
  split
  · exact h
  · intro x hx
    simp only [List.mem_map] at hx
    obtain ⟨y, hy, rfl⟩ := hx
    split
    · simp [Record.finished]
    · exact h y hy

theorem State.loseReads_fields (p : PortId) (ws : List WaitingRead) (s : State) (h : ∀ x ∈ (s.port p).requests, x.state ≠ .awaitingSlots) :
    let t := ws.foldl (fun t w => t.complete p w.tag .leaseLost .blank) s
    (∀ x ∈ (t.port p).requests, x.state ≠ .awaitingSlots) ∧ t.port p.other = s.port p.other ∧ t.agree = s.agree := by
  induction ws generalizing s with
  | nil => exact ⟨h, rfl, rfl⟩
  | cons w ws ih =>
    have h1 : ∀ x ∈ ((s.complete p w.tag .leaseLost .blank).port p).requests, x.state ≠ .awaitingSlots := by
      simp only [State.complete, State.updPort_port]
      exact PortUnit.complete_noSlots _ _ _ _ _ h
    have := ih _ h1
    refine ⟨this.1, this.2.1.trans ?_, this.2.2.trans ?_⟩
    · cases p <;> rfl
    · cases p <;> rfl

theorem needsMedia_iff (q : Request) (hk : keptWhole q = true) :
    needsMedia q = true ↔ (requestCode q ∈ ([0x10, 0x11, 0x12, 0x20, 0x30] : List Byte) ∨ ∃ id, q = .answer id 1) := by
  cases q with
  | unknown c =>
    have hc : requestCodes.contains c = false := by simpa [keptWhole] using hk
    have hc' : ¬ requestCodes.contains c = true := by rw [hc]; simp
    rw [mem_requestCodes] at hc'
    simp [needsMedia, requestCode]
    tauto
  | answer i a => simp [needsMedia, requestCode]
  | _ => simp [needsMedia, requestCode]

theorem needsService_iff (q : Request) (hk : keptWhole q = true) :
    needsService q = true ↔ requestCode q ∈ ([0x11, 0x30] : List Byte) := by
  cases q with
  | unknown c =>
    have hc : requestCodes.contains c = false := by simpa [keptWhole] using hk
    have hc' : ¬ requestCodes.contains c = true := by rw [hc]; simp
    rw [mem_requestCodes] at hc'
    simp [needsService, requestCode]
    tauto
  | _ => simp [needsService, requestCode]

theorem regionOf_isNone (b : Byte) : (regionOf b).isNone = true ↔ 15 < b.toNat := by
  unfold regionOf; split <;> simp <;> omega

/-- The header and payload of a request state it (R177, R186). -/
theorem requestOfHeader_back (tag : Byte) (q : Request) (h : keptWhole q = true) :
    requestOfHeader (headerOfRequest tag q) (payloadOfRequest q) = q := by
  cases q with
  | read r c o => 
    simp [requestOfHeader, headerOfRequest, requestCode, be24, word24_setWidth]
  | write r c o d => 
    simp only [keptWhole, Bool.and_eq_true, decide_eq_true_eq] at h
    simp [requestOfHeader, headerOfRequest, requestCode, be24, word24_setWidth, payloadOfRequest, h.1]
  | propose f => 
    simp [requestOfHeader, headerOfRequest, be24, word24_setWidth]
  | unknown c =>
    exact requestOfHeader_unknown c tag _ (by simpa [keptWhole] using h)
  | _ => rfl

/-! ### The record of the request just taken -/

theorem State.taking_port (s : State) (p : PortId) (tag : Byte) (q : Request) (st : RecordState) :
    (s.taking p tag q st).port p = (s.port p).withRequest tag q st := by cases p <;> rfl

theorem State.taking_other (s : State) (p : PortId) (tag : Byte) (q : Request) (st : RecordState) :
    (s.taking p tag q st).port p.other = s.port p.other := by cases p <;> rfl

theorem State.answering_other (s : State) (p : PortId) (tag : Byte) (q : Request) (st : Status) (res : Result) :
    (s.answering p tag q st res).port p.other = s.port p.other := by cases p <;> rfl

theorem State.taking_region (s : State) (p : PortId) (tag : Byte) (q : Request) (st : RecordState) (r : Fin 16) :
    (s.taking p tag q st).region r = s.region r := by cases p <;> rfl

theorem State.taking_staging (s : State) (p : PortId) (tag : Byte) (q : Request) (st : RecordState) :
    (s.taking p tag q st).staging = s.staging := by cases p <;> rfl

theorem State.taking_updPort (s : State) (p : PortId) (tag : Byte) (q : Request) (st : RecordState) (f : PortUnit → PortUnit) :
    (s.taking p tag q st).updPort p f = s.openEvent.setPort p (f ((s.port p).withRequest tag q st)) := by cases p <;> rfl

theorem State.taking_setRecord (s : State) (p : PortId) (tag : Byte) (q : Request) (st st' : RecordState)
    (hf : ∀ x ∈ (s.port p).requests, x.tag ≠ tag) (hst : st ≠ .complete := by decide) :
    (s.taking p tag q st).setRecord p tag st' = s.taking p tag q st' := by
  simp only [State.setRecord, State.taking_updPort, PortUnit.withRequest, (s.port p).map_new tag q st _ hf hst]
  simp [State.taking, PortUnit.withRequest]

theorem State.taking_startRecord (s : State) (p : PortId) (tag : Byte) (q : Request) (st : RecordState)
    (hf : ∀ x ∈ (s.port p).requests, x.tag ≠ tag) (hst : st ≠ .complete := by decide) :
    (s.taking p tag q st).startRecord p tag = s.taking p tag (withoutPayload q) .started := by
  simp only [State.startRecord, State.taking_updPort, PortUnit.withRequest, (s.port p).map_new tag q st _ hf hst]
  cases q <;> simp [State.taking, PortUnit.withRequest, withoutPayload, frameLength]

end Sys2Proof.Machine
end

