-- ==== Sys2Proof/Tests/Slice0.lean ====
section
/-! SUPPORT. The smoke test of WellFormed, worked figures of the spec, and for each statement a concrete state and operands that
meet its hypotheses, clause by clause. -/

namespace Sys2Proof.Tests

open Sys2Proof Sys2Proof.Machine

/-! ### Ill-formed commands are told apart -/

def io (opens : Bool) (sdi : List Bool) (closes : Bool) : Portion := { opens := opens, sdi := sdi, closes := closes }

theorem test_ill_formed_refused :
    (Instr.write .A 1 1 1 0 []).wellFormed = false ∧
    (Instr.unknownRequestCode .A 1 0x10).wellFormed = false ∧
    (Instr.unknownTypeByte .A 0xB2 (io true [] true)).wellFormed = false ∧
    (Instr.truncatedTypeByte .A []).wellFormed = false ∧
    (Instr.truncatedTypeByte .A (List.replicate 8 true)).wellFormed = false ∧
    (Instr.clockedPortReset .A (io true [] true)).wellFormed = false ∧
    (Instr.readJobAnswer 0 .unrecoverable).wellFormed = false ∧
    (Instr.readJobAnswer 1 (.good [])).wellFormed = false ∧
    (Instr.flushWriteAnswer 0 .good).wellFormed = false ∧
    (Instr.verifyAnswer 0 .unrecoverable).wellFormed = false ∧
    (Instr.verifyAnswer 1 (.corrected [0])).wellFormed = false ∧
    (Instr.spareWriteAnswer 0 .good).wellFormed = false ∧
    (Instr.checkpointWriteAnswer 0 .failed).wellFormed = false ∧
    (Instr.identifyAnswer 0 1024 512).wellFormed = false ∧
    (Instr.loadReadAnswer 0 .unrecoverable).wellFormed = false ∧
    (Instr.loadReadAnswer 1 (.good [])).wellFormed = false := by decide

theorem test_well_formed_accepted :
    (Instr.write .A 1 1 0 0 []).wellFormed = true ∧
    (Instr.unknownRequestCode .A 1 0x99).wellFormed = true ∧
    (Instr.truncatedTypeByte .B [true]).wellFormed = true ∧
    (Instr.readJobAnswer 1 .unrecoverable).wellFormed = true := by decide

/-! ### Figures of the spec -/

/-- R179: the check value of the CRC, and the CRC run on through a frame's own CRC bytes. -/
theorem test_crc16_check_value :
    crc16 [0x31, 0x32, 0x33, 0x34, 0x35, 0x36, 0x37, 0x38, 0x39] = 0x29B1 ∧
    crc16 [0x31, 0x32, 0x33, 0x34, 0x35, 0x36, 0x37, 0x38, 0x39, 0x29, 0xB1] = 0 := by decide +kernel

/-- R186: the header of a READ of region 2, count 8, offset 010203h, byte by byte. -/
theorem test_read_header :
    headerOfRequest 0x0A (.read 2 8 0x010203) = [0x10, 0x0A, 2, 8, 1, 2, 3, 0, 0, 0, 0, 0, 0, 0, 0, 0] ∧
    requestOfHeader [0x10, 0x0A, 2, 8, 1, 2, 3, 9, 9, 9, 9, 9, 9, 9, 9, 9] [] = .read 2 8 0x010203 := by decide +kernel

/-- R188: a READ_ERROR completion with good count 2 and failing offset 12; R190: an OUTCOME with the gap flag. -/
theorem test_response_headers :
    (completionBytes ⟨7, 0x10, .readError, .read 2 12 [[], []]⟩ true).take 16 =
      [1, 7, 0x14, 2, 0, 0, 2, 0, 0, 12, 0, 0, 0, 0, 2, 0x10] ∧
    noticeBytes (.outcome .applied 12 (.resize 1 8192)) true false = [2, 2, 1, 1, 0, 0, 0, 0, 0, 0, 0x30, 0, 0, 12, 1, 0] := by
  decide +kernel

/-- R141: the issue message of a READ of PBN 65,475 and the poll for it, with their check values. -/
theorem test_media_messages :
    (issueMessage (.read 65475) 26).take 6 = [0xA1, 2, 26, 0, 0xFF, 0xC3] ∧
    (issueMessage (.read 65475) 26).drop 6 = crc16Bytes [2, 26, 0, 0xFF, 0xC3] ∧
    pollMessage 26 = [0xA2, 26] ++ crc16Bytes [26] := by decide +kernel

/-! ### States -/

def region (base length : Nat) (exclusive peerRead : Bool) (hold : Option Hold) : Region :=
  { state := .defined, base := base, length := length, attrs := ⟨exclusive, peerRead, false, false⟩, leasePeriod := 5,
    hold := hold, changing := false }

/-- Region 0 UNDEFINED; 1 SHARED; 2 EXCLUSIVE, unheld; 3 held by A; 4 held by B, peer_read ALLOWED; 5 changing; 6 FIXED; 7 SHARED,
THROUGH, KEPT. -/
def regionsOf (n : Fin 16) : Region :=
  match n.val with
  | 1 => region 0 100 false false none
  | 2 => region 100 100 true false none
  | 3 => region 200 100 true false (some ⟨.A, 3⟩)
  | 4 => region 300 100 true true (some ⟨.B, 3⟩)
  | 5 => { region 400 100 false false none with changing := true }
  | 6 => { region 500 100 false false none with state := .fixed }
  | 7 => { region 600 100 false false none with attrs := ⟨false, false, true, true⟩ }
  | _ => Region.undefinedRecord

def online : PortUnit := { PortUnit.coldReset with online := true }

/-- Both ports ONLINE, READY, media ONLINE, table LOADED, P = 2,048, S = 16, AGREED, nothing under way. -/
def base : State :=
  { State.reset with
    resetLow := false, portA := online, portB := online, regions := Vector.ofFn regionsOf
    agree := { proposal := none, nextId := 255, phase := .agreed, entering := none }
    blockMap := { geometry := some ⟨2048, 16⟩, spares := List.replicate 16 .free, candidates := [] }
    link := { MediaLink.coldReset with media := .online, issueNo := 255 }
    store := { MetaStore.coldReset with loaded := true, newest := some .copy1, generation := 41 }
    service := { state := .ready, ticks := 0, quiesce := none } }

def zeros : Block := List.replicate 512 0
def dirt (lbn : Nat) (r : Fin 16) (position : Nat) : Dirty :=
  { lbn := lbn, region := r, firstDirty := position, lastWrite := position, relocate := false, data := zeros }
def record (tag : Byte) (q : Request) (st : RecordState) : Record := { tag := tag, request := q, state := st }
def starting (s : State) : State := { s with service := { s.service with state := .starting } }
def withQueueA (s : State) (rs : List Record) (fs : List Frame) : State :=
  { s with portA := { s.portA with requests := rs, queue := fs } }
def offlineA (s : State) : State := { s with portA := { s.portA with online := false } }
def offlineB (s : State) : State := { s with portB := { s.portB with online := false } }
def faulted (s : State) : State := { s with link := { s.link with media := .fault, timeouts := 3 } }
def inService (s : State) (st : ServiceState) (q : Option Quiesce) : State := { s with service := { s.service with state := st, quiesce := q } }
def proposing (s : State) (pr : Proposal) : State := { s with agree := { s.agree with proposal := some pr } }
def opened (proposer : PortId) (c : Change) (w : Nat) : Proposal := { id := 12, proposer := proposer, change := c, state := .opened w }
def provisioning (s : State) : State := { s with agree := { s.agree with phase := .provisioning } }
def working (s : State) (j : Job) (op : Op) : State :=
  { s with sched := { s.sched with job := some j }, link := { s.link with flight := some op, deadline := some 50 } }
def flushOf (i : SlotId) (lbn : Nat) : FlushJob :=
  { slot := i, lbn := lbn, data := zeros, relocate := false, target := .current, tried := 0, verify := false }
def readOf (tag : Byte) (area : List (Option Block)) : WaitingRead :=
  { tag := tag, region := 1, offset := 0, count := area.length, lbn := 0, area := area }
def readJob (attempt : Nat) : ReadJob :=
  { port := .A, detached := false, read := readOf 9 [none, none], todo := [0, 1], attempt := attempt }

/-- Slot 0 CLEAN with LBN 0 of region 1. -/
def oneClean : State :=
  { base with staging := { base.staging with slots := base.staging.slots.set 0 (.clean 0 1 zeros), cleanOrder := [0] } }

/-- Slot 0 DIRTY with LBN 0 of region 1; a job is in progress, so no other begins. -/
def oneDirty : State :=
  { working base (.read (readJob 1)) (.read 24) with
    staging := { base.staging with slots := base.staging.slots.set 0 (.dirty (dirt 0 1 1)), dirtyOrder := [0], writeOrder := 1 } }

/-- The same slot FLUSHING, its write in flight. -/
def oneFlushing : State :=
  { working base (.flush (flushOf 0 0)) (.write 24 zeros) with
    staging := { base.staging with slots := base.staging.slots.set 0 (.flushing (dirt 0 1 1) 1), dirtyOrder := [0], writeOrder := 1 } }

/-- Every slot DIRTY with LBN 300 and on of region 4, slot 0 FLUSHING: no slot can be had. -/
def allDirty : State :=
  { working base (.flush (flushOf 0 300)) (.write 324 zeros) with
    staging := { base.staging with
      slots := Vector.ofFn fun i => if i.val = 0 then .flushing (dirt 300 4 1) 1 else .dirty (dirt (300 + i.val) 4 1)
      dirtyOrder := allSlots, writeOrder := 1, pressure := true } }

/-- Port A's WRITE of one block of region 1 waits for slots. -/
def heldBack : State := withQueueA allDirty [record 7 (.write 1 1 0 zeros) .awaitingSlots] []

/-- A WRITE of port A waits in an event in which it can be placed. -/
def placeable (r : Byte) : State := withQueueA base [record 7 (.write r 1 0 zeros) .awaitingSlots] []

def waitingRead : State :=
  { withQueueA base [record 9 (.read 1 2 0) .dispatched] [] with sched := { base.sched with waitA := [readOf 9 [none, some zeros]] } }

def proposeFields (kind region window : Byte) : ProposeFields :=
  { region := region, base := BitVec.ofNatLT 700 (by decide +kernel), length := 1, attrs := 0, leasePeriod := 1, kind := kind, window := window }

/-- The last slot. -/
def lastSlot : SlotId := ⟨63, by decide +kernel⟩

/-! ### Witnesses: every statement's hypotheses, clause by clause

Lean goes on to the next theorem while the kernel still decides those before it, and each of these takes memory. A definition with a
decided bound (`pause1` and so on) waits for the theorems above it; it holds nothing else. -/

theorem witness_StepTakesTheFrontCommand : base.pending = [] := rfl

/-- RESET# low; nothing owed; one step owed, the placement of a WRITE on a slot that holds its block already. -/
theorem witness_OutsideCommandsFinishTheEvent :
    let owing := withQueueA oneDirty [record 7 (.write 1 1 0 zeros) .awaitingSlots] []
    (fromOutside .tick = true ∧ State.reset.resetLow = true) ∧ (base.resetLow = false ∧ SettlesIn 0 base base) ∧
    owing.resetLow = false ∧ ∃ t, SettlesIn 1 owing t :=
  ⟨by decide +kernel, ⟨by decide +kernel, by decide +kernel, rfl⟩, by decide +kernel, _, .place .A, by decide +kernel, by decide +kernel, rfl⟩

/-- Eight outstanding; seven outstanding with the tag in the list; none. -/
theorem witness_SubmitMeetsTheRequestList :
    let full := fun n => withQueueA base ((List.range n).map fun k => record (BitVec.ofNat 8 k) .attach .started) []
    keptWhole .attach = true ∧
    (Settled (full 8) ∧ (full 8).portA.receiver = .idle ∧ 8 ≤ (full 8).portA.requests.length) ∧
    (Settled (full 7) ∧ (full 7).portA.receiver = .idle ∧ (full 7).portA.requests.length < 8 ∧
      ∃ r ∈ (full 7).portA.requests, r.tag = 6) ∧
    ∀ r ∈ (full 7).portA.requests, r.tag ≠ 7 := by decide +kernel

theorem witness_PresentationGoesInOrder :
    (keptWhole .inquire = true ∧ Quiet base ∧ CanTake base .A 0) ∧
    Quiet heldBack ∧ heldBack.portA.receiver = .idle ∧ heldBack.portA.requests.length < 8 ∧
    (∀ r ∈ heldBack.portA.requests, r.tag ≠ 8) ∧ ∃ r ∈ heldBack.portA.requests, r.state = .awaitingSlots := by decide +kernel

/-- Two requests of a port wait; one of each port; none. An entry to APPLYING with a request of the other port, with the drain over, and
with a READ of the target unfinished. -/
theorem witness_PresentationGoesInOrder_next :
    let waits := fun (tag : Byte) => record tag .inquire .awaitingTurn
    let two := withQueueA base [waits 1, waits 2] []
    let entering := fun (s : State) => ({ s with agree := { s.agree with
      proposal := some { opened .A (.delete 1) 1 with state := .applying }, entering := some .B } } : State)
    (base.agree.entering = none ∧ (two.port .A).PresentsNext (waits 1) ∧ (two.port .B).PresentsNone ∧ base.portA.PresentsNone ∧
      ({ two with portB := two.portA } : State).portB.PresentsNext (waits 1)) ∧
    ((entering two).agree.entering = some .B ∧ ((entering two).port PortId.B.other).PresentsNext (waits 1)) ∧
    (((entering base).port PortId.B.other).PresentsNone ∧ DrainOver (entering base) (.delete 1)) ∧
    ((entering waitingRead).port PortId.B.other).PresentsNone ∧ ¬DrainOver (entering waitingRead) (.delete 1) := by
  have next : (withQueueA base [record 1 .inquire .awaitingTurn, record 2 .inquire .awaitingTurn] []).portA.PresentsNext
      (record 1 .inquire .awaitingTurn) := ⟨by decide +kernel, [], [record 2 .inquire .awaitingTurn], rfl, rfl, by decide +kernel⟩
  refine ⟨⟨rfl, next, .inr (by decide +kernel), .inr (by decide +kernel), next⟩, ⟨rfl, next⟩,
    ⟨.inr (by decide +kernel), fun p => (by cases p <;> decide +kernel), fun j h => absurd (show none = some (Job.read j) from h) (by simp), by decide +kernel, fun i d h => ?_⟩,
    .inr (by decide +kernel), fun h => ?_⟩
  · have h : (base.slot i).unflushed? = some d := h
    rw [(by decide +kernel : ∀ i : SlotId, (base.slot i).unflushed? = none) i] at h
    cases h
  · exact absurd (h.1 .A (readOf 9 [none, some zeros]) (by decide +kernel)) (by decide +kernel)

def pause1 : Fin 1001 := ⟨0, by decide +kernel⟩

theorem witness_GenericChecksGoInOrder :
    (∀ s ∈ [starting base, offlineA base, base, faulted base, inService base .quiesced none], Quiet s ∧ CanTake s .A 0) ∧
    keptWhole (.claim 16) = true ∧ badFields (.claim 16) = true ∧ badFields (.claim 15) = false ∧
    requestCode (.claim 15) ∈ [0x10, 0x11, 0x12, 0x20, 0x30] ∧
    keptWhole (.write 1 1 0 zeros) = true ∧ requestCode (.write 1 1 0 zeros) ∈ [0x11, 0x30] := by decide +kernel

/-- Regions 0 (UNDEFINED), 5 (changing) and 15 and 16 at the end of the range; a READ that just fits and one that just does not. -/
theorem witness_RegionChecksByCode :
    regionOf 15 = some 15 ∧ regionOf 16 = none ∧ (base.region 0).state = .undefined ∧
    ((base.region 5).state ≠ .undefined ∧ (base.region 5).changing = true) ∧
    ((base.region 1).state ≠ .undefined ∧ (base.region 1).changing = false ∧
      ¬(base.region 1).length < (92 : Word24).toNat + (8 : Byte).toNat ∧
      (base.region 1).length < (93 : Word24).toNat + (8 : Byte).toNat) ∧
    ((base.region 1).attrs.exclusive = false ∧ (base.region 3).heldBy .A = true ∧ (base.region 4).attrs.peerRead = true ∧
      (base.region 4).heldBy .A = false ∧ (base.region 2).attrs.exclusive = true ∧ (base.region 2).heldBy .A = false ∧
      (base.region 2).attrs.peerRead = false) := by decide +kernel

/-- The ends of the ranges of the field check; a code whose fields are never checked. -/
theorem witness_FieldChecksByCode :
    badFields (.read 15 8 0xFFFFFF) = false ∧ badFields (.read 16 8 0) = true ∧ badFields (.read 0 0 0) = true ∧
    badFields (.read 0 9 0) = true ∧ badFields (.flush 0xFF) = false ∧ badFields (.flush 0xFE) = true ∧
    requestCode (.withdraw 0) ∈ [0x01, 0x02, 0x32, 0x40, 0x41, 0x42, 0x43] := by decide +kernel

theorem witness_RefusedRequestsAreOnlyAnswered :
    (keptWhole .inquire = true ∧ Quiet (offlineA base) ∧ CanTake (offlineA base) .A 0 ∧
      (offlineA base).refusal .A .inquire = some .notOnline) ∧
    Quiet base ∧ CanTake base .A 0 ∧ base.service.state ≠ .starting ∧ base.portA.online = true ∧
    requestCodes.contains 0x44 = false ∧ (List.replicate 4608 (0 : Byte)).length = 512 * (9 : Byte).toNat ∧
    zeros.length ≠ 512 * (2 : Byte).toNat := by decide +kernel

/-- A request that awaits its turn behind a WRITE that waited and has been placed: the part presents it in this event, so that it is
not taken between two events. What is refused then, and what passes. -/
theorem witness_requests_presented_later :
    let later := fun (q : Request) => withQueueA base [record 7 (.write 7 1 0 zeros) .started, record 8 q .awaitingTurn] []
    (∀ q ∈ [Request.attach, .detach, .inquire, .quiesce, .resume, .mediaRestart, .read 1 1 0, .write 1 1 0 zeros, .flush 1, .flush 0xFF,
        .claim 2, .release 3, .renew 3, .fix 1, .queryRegion 0, .propose (proposeFields 2 1 1), .answer 0 1, .withdraw 0],
      (later q).refusal .A q = none ∧ (later q).portA.waitingWrite = none ∧
        (later q).portA.requests.find? (fun x => x.state == .awaitingTurn) = some (record 8 q .awaitingTurn)) ∧
    (later (.read 4 1 100)).refusal .A (.read 4 1 100) = some .outOfBounds ∧
    (faulted (later .inquire)).refusal .A (.renew 3) = none ∧ (faulted (later .inquire)).refusal .A (.flush 1) = some .mediaFault := by
  decide +kernel

theorem witness_AttachBringsThePortOnline :
    (∀ s ∈ [starting base, base, offlineA base, offlineA (offlineB base)], Quiet s ∧ CanTake s .A 0) ∧
    (starting base).service.state = .starting ∧ (offlineA base).portA.online = false ∧ (offlineA base).portB.online = true ∧
    (offlineA (offlineB base)).portB.online = false := by decide +kernel

def pause2 : Fin 1002 := ⟨0, by decide +kernel⟩

theorem witness_DetachTakesThePortOffline :
    let busy := waitingRead
    let done := withQueueA base [record 1 .inquire .complete] []
    (∀ s ∈ [busy, done], CanTake s .A 0 ∧ s.service.state ≠ .starting ∧ s.portA.online = true ∧ s.resetLow = false) ∧
    Quiet (working busy (.flush (flushOf 0 0)) (.write 24 zeros)) ∧ Quiet done ∧
    (∃ r ∈ busy.portA.requests, r.state ≠ .complete) ∧ ∀ r ∈ done.portA.requests, r.state = .complete := by decide +kernel

theorem witness_ReadLooksUpTheSlots :
    Passes oneClean .A 0 (.read 1 1 0) ∧ Passes oneClean .A 0 (.read 1 8 92) ∧ Passes base .A 0 (.read 4 8 92) ∧
    (oneClean.staging.find 0).bind (fun i => (oneClean.slot i).data?) ≠ none ∧
    (base.staging.find 392).isNone := by decide +kernel

/-- The last region. -/
def lastRegion : Fin 16 := ⟨15, by decide +kernel⟩

theorem witness_WriteIsPlacedOrWaits :
    (∀ s ∈ [base, allDirty], Passes s .A 0 (.write 1 1 0 zeros)) ∧ Passes base .A 0 (.write 7 1 99 zeros) ∧
    zeros.length = 512 * (1 : Byte).toNat ∧ 1 ≤ (base.staging.available []).length ∧
    (base.region 1).attrs.through = false ∧ base.staging.forced = false ∧ (base.region 7).attrs.through = true ∧
    (allDirty.staging.available []).length < 1 ∧ (allDirty.staging.find 0).isNone := by decide +kernel

theorem witness_BlocksFindTheirSlots :
    oneClean.staging.find 0 = some 0 ∧ oneClean.staging.find 1 = none ∧ base.staging.slots[lastSlot] = .free ∧
    oneClean.staging.slots[(0 : SlotId)] = .clean 0 1 zeros ∧ oneDirty.staging.slots[(0 : SlotId)] = .dirty (dirt 0 1 1) ∧
    oneFlushing.staging.slots[(0 : SlotId)] = .flushing (dirt 0 1 1) 1 ∧
    (oneClean.staging.slotsFor [0, 1]).map Prod.fst = [0, 1] ∧ (oneClean.staging.available [0]).length = 63 ∧
    (allDirty.staging.available []).length = 0 ∧ allDirty.staging.find 300 = some 0 := by decide +kernel

theorem witness_FlushWaitsForItsMark :
    (∀ b ∈ [(1 : Byte), 0xFF], Passes base .A 0 (.flush b) ∧ Passes oneDirty .A 0 (.flush b)) ∧ regionOf 1 = some 1 ∧
    (oneDirty.slot 0).unflushed? = some (dirt 0 1 1) ∧ (dirt 0 1 1).firstDirty ≤ oneDirty.staging.writeOrder ∧
    ∀ i ∈ allSlots, (base.slot i).unflushed? = none := by decide +kernel

theorem witness_ClaimAndReleaseByTheHolder_claim :
    (∀ b ∈ [(1 : Byte), 2, 3, 4], Passes base .A 0 (.claim b)) ∧ (base.region 1).attrs.exclusive = false ∧
    (base.region 2).hold = none ∧ (base.region 3).heldBy .A = true ∧ (base.region 4).hold = some ⟨PortId.A.other, 3⟩ := by
  decide +kernel

def pause3 : Fin 1003 := ⟨0, by decide +kernel⟩

theorem witness_ClaimAndReleaseByTheHolder_release :
    (∀ b ∈ [(1 : Byte), 3, 4, 5], Passes base .A 0 (.release b)) ∧ (base.region 3).heldBy .A = true ∧
    base.sched.waitA = [] ∧ (base.region 4).heldBy .A = false := by decide +kernel

theorem witness_RenewRestartsTheLease :
    (∀ b ∈ [(1 : Byte), 2, 3, 4], Passes (faulted base) .A 0 (.renew b)) ∧ (base.region 3).heldBy .A = true ∧
    (base.region 1).heldBy .A = false ∧ (base.region 2).heldBy .A = false ∧ (base.region 4).heldBy .A = false := by decide +kernel

theorem witness_FixFixesTheRegion :
    let targeting := proposing base (opened .A (.delete 1) 1)
    (∀ b ∈ [(1 : Byte), 3, 4, 6], Passes base .A 0 (.fix b)) ∧ (base.region 4).heldBy PortId.A.other = true ∧
    (base.region 1).heldBy PortId.A.other = false ∧ base.agree.openProposal = none ∧
    Passes targeting .A 0 (.fix 1) ∧ targeting.agree.openProposal = some (opened .A (.delete 1) 1) ∧
    (Change.delete 1).targets 1 = true ∧ (Change.delete 1).targets 2 = false := by decide +kernel

theorem witness_QueriesReportAndChangeNothing :
    (∀ b ∈ [(0 : Byte), 5, 15], Passes base .A 0 (.queryRegion b)) ∧ (base.region 5).state ≠ .undefined ∧
    (base.region lastRegion).state = .undefined ∧
    Quiet (faulted base) ∧ CanTake (faulted base) .A 0 ∧ (faulted base).service.state ≠ .starting ∧
    (faulted base).portA.online = true := by decide +kernel

/-- A DEFINE that just fits L = 2,008 and its neighbours; DELETE, RESIZE of UNDEFINED, FIXED and DEFINED; both phases; the ends
of the spare counts. -/
theorem witness_ValidationByKind :
    base.blockMap.l = 2008 ∧
    base.validate (.define 0 700 1308 ⟨false, false, false, false⟩ 1) = none ∧
    base.validate (.define 0 700 1309 ⟨false, false, false, false⟩ 1) = some .invalidChange ∧
    base.validate (.define 0 699 1 ⟨false, false, false, false⟩ 1) = some .invalidChange ∧
    base.validate (.define 0 700 0 ⟨false, false, false, false⟩ 1) = some .invalidChange ∧
    base.validate (.delete 0) = some .noRegion ∧ base.validate (.delete 6) = some .targetFixed ∧ base.validate (.delete 1) = none ∧
    base.validate (.resize 7 1408) = none ∧ base.validate (.resize 7 1409) = some .invalidChange ∧
    base.validate (.resize 1 101) = some .invalidChange ∧
    base.validate .resetTable = some .targetFixed ∧ base.validate .close = some .wrongPhase ∧
    base.validate (.setSpares 16) = some .wrongPhase ∧ (provisioning base).validate .resetTable = some .wrongPhase ∧
    (provisioning base).validate (.setSpares 15) = some .invalidChange ∧ (provisioning base).validate (.setSpares 16) = none ∧
    (provisioning base).validate (.setSpares 1024) = none ∧
    (provisioning base).validate (.setSpares 1025) = some .invalidChange := by decide +kernel

/-- Each kind of change, of the last region. -/
theorem witness_FieldChecksByCode_changes :
    ∀ k ∈ [(1 : Byte), 2, 3, 4, 5, 6, 7], (proposeFields k 15 255).window ≠ 0 ∧ (proposeFields k 15 255).leasePeriod ≠ 0 ∧
      (proposeFields k 15 255).region.toNat = lastRegion.val ∧ (changeOf (proposeFields k 15 255)).isSome = true := by decide +kernel

def pause4 : Fin 1004 := ⟨0, by decide +kernel⟩

theorem witness_ProposeIsRefusedOrTaken_refused :
    let pending := proposing base (opened .B (.delete 1) 1)
    let alone := offlineB { base with regions := base.regions.set 4 Region.undefinedRecord }
    changeOf (proposeFields 2 1 1) = some (.delete 1) ∧ changeOf (proposeFields 2 0 255) = some (.delete 0) ∧
    Passes pending .A 0 (.propose (proposeFields 2 1 1)) ∧ pending.agree.proposal ≠ none ∧
    Passes base .A 0 (.propose (proposeFields 2 0 255)) ∧ base.agree.proposal = none ∧
    base.validate (.delete 0) = some .noRegion ∧
    Passes alone .A 0 (.propose (proposeFields 2 1 1)) ∧ alone.agree.proposal = none ∧ alone.validate (.delete 1) = none ∧
    alone.agree.phase = .agreed ∧ (alone.port PortId.A.other).online = false := by decide +kernel

theorem witness_ProposeIsRefusedOrTaken_taken :
    (∀ s ∈ [base, provisioning base], Passes s .A 0 (.propose (proposeFields 2 1 255)) ∧ s.agree.proposal = none ∧
      s.validate (.delete 1) = none ∧ (s.port PortId.A.other).online = true) ∧
    changeOf (proposeFields 2 1 255) = some (.delete 1) ∧ base.agree.phase = .agreed ∧
    (provisioning base).agree.phase = .provisioning ∧ base.portA.waitingWrite = none ∧ base.portB.waitingWrite = none := by
  decide +kernel

theorem witness_AnswerDecidesAnOpenProposal :
    let s := proposing base (opened .B (.delete 1) 1)
    (∀ a ∈ [(1 : Byte), 2], Passes s .A 0 (.answer 12 a)) ∧ Passes base .A 0 (.answer 0 1) ∧ base.agree.proposal = none ∧
    s.agree.proposal = some (opened .B (.delete 1) 1) ∧ (12 : Byte).toNat = 12 ∧ PortId.A.other = .B ∧
    s.portA.waitingWrite = none ∧ s.portB.waitingWrite = none := by decide +kernel

theorem witness_WithdrawEndsAnOpenProposal :
    let s := proposing base (opened .A (.delete 1) 1)
    let t := proposing waitingRead { opened .A (.delete 1) 1 with state := .applying }
    Passes s .A 0 (.withdraw 12) ∧ Passes base .A 0 (.withdraw 0) ∧ base.agree.proposal = none ∧
    s.agree.proposal = some (opened .A (.delete 1) 1) ∧
    Passes (working t (.flush (flushOf 0 0)) (.write 24 zeros)) .A 0 (.withdraw 12) := by decide +kernel

/-- Port A's WRITE of region 1 waits, and port B proposes, answers or quiesces. -/
theorem witness_WaitingWritesEndAtEntry :
    let opening := proposing heldBack (opened .A (.delete 1) 1)
    (base.portA.waitingWrite = none ∧ heldBack.portA.waitingWrite = some (record 7 (.write 1 1 0 zeros) .awaitingSlots) ∧
      regionOf 1 = some 1 ∧ (Change.delete 1).targets 1 = true ∧ (Change.delete 2).targets 1 = false) ∧
    (Passes (provisioning heldBack) .B 0 (.propose (proposeFields 2 1 1)) ∧ changeOf (proposeFields 2 1 1) = some (.delete 1) ∧
      (provisioning heldBack).agree.proposal = none ∧ (provisioning heldBack).validate (.delete 1) = none) ∧
    (Passes opening .B 0 (.answer 12 1) ∧ (opened .A (.delete 1) 1).proposer = PortId.B.other) ∧
    Passes heldBack .B 0 .quiesce ∧ heldBack.service.state = .ready ∧ heldBack.agree.proposal = none ∧
    heldBack.link.media ≠ .fault ∧ heldBack.store.loaded = true := by decide +kernel

theorem witness_QuiesceAndResumeByTheServiceState :
    let quiescing := inService oneFlushing .quiescing (some ⟨[⟨.B, 3, false⟩], 0, false, none⟩)
    (∀ s ∈ [base, proposing base (opened .A .close 1), faulted base, quiescing, inService base .quiesced none],
      Passes s .A 0 .quiesce) ∧ base.agree.proposal = none ∧ base.link.media ≠ .fault ∧ base.store.loaded = true ∧
    (faulted base).link.media = .fault ∧ base.portA.waitingWrite = none ∧ base.portB.waitingWrite = none ∧
    ∀ s ∈ [base, quiescing, inService base .quiesced none], Passes s .A 0 .resume := by decide +kernel

def pause5 : Fin 1005 := ⟨0, by decide +kernel⟩

theorem witness_MediaRestartBeginsOrJoins :
    let restarting : State := { working (faulted base) (.identify .identifying) .identify with
      link := { (faulted base).link with restart := true, flight := some .identify, timeouts := 0 } }
    (∀ s ∈ [base, faulted base, restarting], Passes s .A 0 .mediaRestart) ∧ restarting.link.restart = true ∧
    base.link.restart = false ∧ base.link.media = .online ∧ (faulted base).link.media = .fault := by decide +kernel

/-- The longest payload, none, and a code next to the known ones. -/
theorem witness_RequestFramesReadBack :
    keptWhole (.write 255 8 0xFFFFFF (List.replicate 4096 255)) = true ∧ keptWhole (.write 0 0 0 []) = true ∧
    keptWhole (.unknown 0x44) = true ∧ keptWhole (.unknown 0x43) = false := by decide +kernel

theorem witness_RequestRowIsItsFrameOnTheWires :
    keptWhole .attach = true ∧ Settled (starting base) ∧ (starting base).portA.receiver = .idle := by decide +kernel

/-- Port A in mid-transaction, with what it has driven on SDO. -/
def inProgress (r : Receiver) (clocked : Nat) : State :=
  { base with portA := { base.portA with receiver := r, sdo := List.replicate (8 + clocked) false } }

/-- A frame of which no bit, half, and all but one has been clocked. -/
theorem witness_RequestRowIsItsFrameOnTheWires_portions :
    let frame := bitsOfBytes (requestFrame 1 .attach)
    frame.length = 144 ∧ ∀ n ∈ [0, 72, 143],
      let s := inProgress (.receiving (frame.take n)) n
      Settled s ∧ s.portA.receiver = .receiving (frame.take n) ∧ frame.take n ++ frame.drop n = frame ∧
        s.portA.sdo = List.replicate (8 + (frame.take n).length) false := by decide +kernel

/-- Bytes next to the known type bytes, 1 and 7 bits, one clock after B4h, frames one bit short, one bit long, and with a wrong
last bit. -/
theorem witness_DamagedTransactionSetsFrameErrorOnly :
    Settled base ∧ base.portA.receiver = .idle ∧ (0xB0 : Byte) ∉ [0xB1, 0xB2, 0xB3, 0xB4] ∧
    (0xB5 : Byte) ∉ [0xB1, 0xB2, 0xB3, 0xB4] ∧
    (let frame := bitsOfBytes (requestFrame 1 .attach)
     submitVerdict frame = some (1, .attach) ∧ submitVerdict frame.dropLast = none ∧ submitVerdict (frame ++ [false]) = none ∧
     submitVerdict (frame.dropLast ++ [!frame.getLast!]) = none) := by decide +kernel

/-- Every transaction that is ignored, B4h before its first clock, and a frame whose last bit comes out wrong. -/
theorem witness_DamagedTransactionSetsFrameErrorOnly_portions :
    (∀ r ∈ [Receiver.ignoring .unknownType, .ignoring .clockedReset, .ignoring .sinceColdReset, .resetArmed, .receiving []],
      Settled (inProgress r 0)) ∧
    (let frame := bitsOfBytes (requestFrame 1 .attach)
     let s := inProgress (.receiving frame.dropLast) 143
     Settled s ∧ s.portA.receiver = .receiving frame.dropLast ∧ submitVerdict (frame.dropLast ++ [!frame.getLast!]) = none ∧
     submitVerdict (frame.dropLast ++ []) = none) := by decide +kernel

def pause6 : Fin 1006 := ⟨0, by decide +kernel⟩

/-- A FETCH in progress: at its first, its last bit and past it; with the EMPTY frame. -/
theorem witness_FetchDeliversTheHeadFrame_portions :
    ∀ queued ∈ [true, false], ∀ n ∈ [0, 143, 144], Settled (inProgress (.sending emptyFrame queued n) n) ∧
      (bitsOfBytes emptyFrame).length = 144 := by decide +kernel

theorem witness_FetchDeliversTheHeadFrame :
    let c : Completion := ⟨1, 0x40, .ok, .blank⟩
    let s := withQueueA base [record 1 .inquire .complete] [.completion c, .notice .peerOnline true]
    let t := withQueueA base [] [.notice .peerOnline true]
    let frame := frameBytes (.completion c) true
    let u : State := { s with portA := { s.portA with receiver := .sending frame true 143 } }
    (∀ x ∈ [s, t, base], Settled x ∧ x.portA.receiver = .idle) ∧ (bitsOfBytes frame).length = 144 ∧ base.portA.queue = [] ∧
    Settled u ∧ 143 < 8 * frame.length ∧ 8 * frame.length ≤ 143 + 1 := by decide +kernel

theorem witness_PeekShowsAndClearsTheFlags :
    Settled (starting base) ∧ (starting base).portA.receiver = .idle ∧ (List.replicate 31 false).length < 32 ∧
    32 ≤ (List.replicate 32 false).length := by decide +kernel

/-- A PEEK in progress, on both sides of its third byte's and its last byte's end. -/
theorem witness_PeekShowsAndClearsTheFlags_portions :
    ∀ x ∈ [(1, 0), (3, 23), (4, 24), (4, 31), (4, 32)], (List.replicate x.1 (0 : Byte)).length = min 4 (x.2 / 8 + 1) ∧
      Settled (inProgress (.peeking (List.replicate x.1 0) x.2 Sticky.clear) x.2) := by decide +kernel

theorem witness_PortResetEmptiesThePort :
    (∀ s ∈ [offlineA heldBack, heldBack], Settled s ∧ s.portA.receiver = .idle) ∧ (offlineA heldBack).portA.online = false ∧
    heldBack.portA.online = true ∧ Settled (inProgress .resetArmed 0) ∧ (inProgress .resetArmed 0).portA.receiver = .resetArmed ∧
    (inProgress .resetArmed 0).portA.sdo = List.replicate 8 false := by decide +kernel

/-- The last bit of a frame and the clock after it; every receiver that gives SDO a level. -/
theorem witness_OutputsFollowTheState :
    let at143 := Receiver.sending emptyFrame false 143
    let wire := fun (r : Receiver) => base.setReceiver .A r
    State.reset.resetLow = true ∧ base.resetLow = false ∧ (base.port .A).receiver = .idle ∧
    (bitsOfBytes emptyFrame)[143]? = some ((crc16 (List.replicate 16 0)).getLsbD 0) ∧ (bitsOfBytes emptyFrame)[144]? = none ∧
    (∀ r ∈ [at143, .receiving [], .ignoring .unknownType, .typing [], .peeking [0] 7 Sticky.clear, .peeking [0, 0, 0, 0] 32 Sticky.clear],
      ((wire r).sdoLevel .A).isSome = true) ∧
    (wire at143).sdoLevel .A = (bitsOfBytes emptyFrame)[143]? ∧
    (withQueueA base [] [.notice .peerOnline false]).pins.attnA = true ∧ base.pins.attnA = false ∧ base.pins.sdoA = none := by
  decide +kernel

def pause7 : Fin 1007 := ⟨0, by decide +kernel⟩

theorem witness_StartUpBeginsIdentification : State.reset.resetLow = true ∧ base.resetLow = false := by decide +kernel

/-- A lease at 1 with a waiting WRITE of the region, of another region, and none; renewed since; gone since; not marked. A window at 1,
opened again since, gone since; not marked. -/
theorem witness_TickCountsDownAndExpires :
    let ran := fun (s : State) (n : Nat) =>
      { s.setRegion 3 { s.region 3 with hold := some ⟨.A, n⟩ } with ticking := ⟨[3, 2], true⟩ }
    let waits := fun (r : Byte) => ran (withQueueA allDirty [record 7 (.write r 1 0 zeros) .awaitingSlots] []) 1
    Settled base ∧ (∀ s ∈ [ran base 1, ran base 2, waits 1, waits 3], s.firstOwed 6 = [] ∧ 3 ∈ s.ticking.leases) ∧
    (base.firstOwed 6 = [] ∧ 3 ∉ base.ticking.leases ∧ base.ticking.window = false) ∧
    (2 ∈ (ran base 1).ticking.leases ∧ ((ran base 1).region 2).hold = none) ∧
    ((ran base 1).region 3).hold = some ⟨.A, 1⟩ ∧ ((ran base 2).region 3).hold = some ⟨.A, 2⟩ ∧
    (ran base 1).portA.waitingWrite = none ∧
    (waits 3).portA.waitingWrite = some (record 7 (.write 3 1 0 zeros) .awaitingSlots) ∧ (waits 3).sched.waitA = [] ∧
    (∀ w ∈ [1, 2], (ran (proposing base (opened .A .close w)) 1).firstOwed 6 = []) ∧ (ran base 1).ticking.window = true ∧
    (ran base 1).agree.proposal = none := by decide +kernel

theorem witness_WaitingWriteIsPlaced :
    (∀ s ∈ [placeable 1, placeable 7, heldBack], s.firstOwed 4 = []) ∧
    (∀ r ∈ [(1 : Byte), 7],
      (placeable r).portA.waitingWrite = some (record 7 (.write r 1 0 zeros) .awaitingSlots) ∧ (placeable r).placeDue .A = true) ∧
    heldBack.portA.waitingWrite = some (record 7 (.write 1 1 0 zeros) .awaitingSlots) ∧ heldBack.placeDue .A = false := by
  decide +kernel

/-- One slot can be had: for a WRITE of one block it is enough, for one of two it is not. -/
theorem witness_WaitingWriteIsPlaced_boundary :
    let s := fun (count : Byte) (data : List Byte) =>
      ({ withQueueA allDirty [record 7 (.write 1 count 0 data) .awaitingSlots] [] with
        staging := { allDirty.staging with slots := allDirty.staging.slots.set 63 .free, dirtyOrder := allSlots.dropLast } } : State)
    ((s 1 zeros).staging.available []).length = 1 ∧
    ((s 1 zeros).firstOwed 4 = [] ∧ (s 1 zeros).placeDue .A = true) ∧
    (s 2 (zeros ++ zeros)).firstOwed 4 = [] ∧ (s 2 (zeros ++ zeros)).placeDue .A = false := by decide +kernel

def throughWaiter (es : List EntryState) : State :=
  { oneDirty with staging := { oneDirty.staging with wtWaiters := [⟨.A, 5, false, 1, 1, es.map fun e => ⟨⟨0, by decide +kernel⟩, e⟩⟩] } }
def flushWaiterOf (s : State) (lost : Nat) : State :=
  { s with staging := { s.staging with flushWaiters := [⟨.A, 6, false, some 1, 1, lost⟩] } }

theorem witness_WaitersComplete :
    (∀ es ∈ [[EntryState.satisfied], [.satisfied, .lost], [.awaiting]], (throughWaiter es).staging.wtWaiters[0]?.isSome = true) ∧
    (∀ s ∈ [flushWaiterOf base 0, flushWaiterOf base 0xFFFFFF, flushWaiterOf oneDirty 0],
      s.firstOwed 2 = [] ∧ s.staging.flushWaiters[0]?.isSome = true) ∧
    (oneDirty.slot 0).unflushed? = some (dirt 0 1 1) ∧ (dirt 0 1 1).firstDirty ≤ 1 := by decide +kernel

theorem witness_ApplyWhenTheDrainIsOver :
    let applying := { opened .A (.delete 1) 1 with state := .applying }
    let ready := proposing base applying
    let drained := proposing waitingRead applying
    (∀ s ∈ [ready, drained], s.firstOwed 3 = [] ∧ s.agree.proposal = some applying ∧ s.agree.entering = none) ∧
    ready.sched.wait .A = [] ∧ ready.sched.wait .B = [] ∧ ready.sched.job = none ∧ ready.staging.wtWaiters = [] ∧
    (∀ i ∈ allSlots, (ready.slot i).unflushed? = none) ∧
    (∃ w ∈ drained.sched.wait .A, (Change.delete 1).targets w.region = true) ∧
    oneClean.staging.cleanOrder.Nodup ∧ ∀ i ∈ oneClean.staging.cleanOrder, i ∉ oneClean.staging.dirtyOrder := by decide +kernel

def pause8 : Fin 1008 := ⟨0, by decide +kernel⟩

/-- No end yet; an end with live waiters of both ports, of either, and of none. -/
theorem witness_QuiesceEndsWithItsCheckpoint :
    let q := fun (ws : List Waiter) (e : Option Bool) => inService base .quiescing (some ⟨ws, 0, true, e⟩)
    ∀ s ∈ [q [] none, q [⟨.A, 1, false⟩, ⟨.B, 1, false⟩] (some true), q [⟨.A, 1, false⟩] (some true),
      q [⟨.A, 1, true⟩, ⟨.B, 1, false⟩] (some false), q [⟨.A, 1, true⟩] (some false)], s.firstOwed 1 = [] := by decide +kernel

/-- The pressure marks, and a state for each step of the order of jobs. -/
theorem witness_JobsGoInOrder :
    let yielded : State := { base with store := { base.store with checkpointPending := true }, sched := { base.sched with yield := true } }
    let dirty : State := { oneDirty with sched := base.sched }
    pressureAfter false 47 = false ∧ pressureAfter false 48 = true ∧ pressureAfter true 41 = true ∧
    pressureAfter true 40 = false ∧
    ({ base with store := { base.store with checkpointPending := true } } : State).chooseJob = some .checkpoint ∧
    dirty.urgentOffer = none ∧ dirty.backgroundOffer = some 0 ∧ dirty.chooseJob = some (.flush 0) ∧
    ({ dirty with staging := { dirty.staging with forced := true } } : State).urgentOffer = some 0 ∧
    waitingRead.chooseJob = some (.read .A) ∧ yielded.chooseJob = some .checkpoint ∧ base.chooseJob = none := by decide +kernel

theorem witness_ReadJobBeginsForTheHead :
    CanBegin waitingRead ∧ waitingRead.chooseJob = some (.read .A) ∧
    waitingRead.sched.wait .A = [readOf 9 [none, some zeros]] := by decide +kernel

theorem witness_ReadJobGoesByItsAnswers :
    ∀ n ∈ [1, 2, 3], Expected (working base (.read (readJob n)) (.read 24)) 255 ∧ zeros.length = 512 := by decide +kernel

theorem witness_RelocationMarksOrTakesASlot :
    oneDirty.staging.find 0 = some 0 ∧ oneFlushing.staging.find 0 = some 0 ∧ oneClean.staging.find 0 = some 0 ∧
    base.staging.find 0 = none ∧ base.staging.available [] ≠ [] ∧ allDirty.staging.find 0 = none ∧
    allDirty.staging.available [] = [] := by decide +kernel

/-- LBN 5 on the last spare, and on none; a candidate list with 31 and with 32 entries. -/
theorem witness_BlockMapTranslatesAndWatches :
    let m : BlockMap := { base.blockMap with spares := List.replicate 15 .free ++ [.inUse 5] }
    let n := fun k => ({ base.blockMap with candidates := List.range k } : BlockMap)
    m.spares[15]? = some (.inUse 5) ∧ m.spares.length = m.s ∧ (∀ e ∈ m.spares, e ≠ .inUse 6) ∧ FirstFree m 0 ∧
    NoneFree { m with spares := [.retired] } ∧ 31 ∉ (n 31).candidates ∧ (n 31).candidates.length < 32 ∧
    32 ∉ (n 32).candidates ∧ 32 ≤ (n 32).candidates.length ∧ 31 ∈ (n 32).candidates := by decide +kernel

def pause9 : Fin 1009 := ⟨0, by decide +kernel⟩

theorem witness_FlushJobBeginsOnItsSlot :
    let flush := fun (relocate : Bool) (spares : List Spare) => ({ base with
      staging := { oneDirty.staging with slots := base.staging.slots.set 0 (.dirty { dirt 0 1 1 with relocate := relocate }) }
      blockMap := { base.blockMap with spares := spares } } : State)
    (∀ s ∈ [flush false base.blockMap.spares, flush true base.blockMap.spares, flush true (List.replicate 16 .retired)],
      CanBegin s ∧ s.chooseJob = some (.flush 0)) ∧
    FirstFree base.blockMap 0 ∧ NoneFree { base.blockMap with spares := List.replicate 16 .retired } := by decide +kernel

/-- The current mapping, its verify, a spare; three spares tried and none; a FREE spare and none. -/
theorem witness_FlushJobGoesByItsAnswers :
    let job := fun (j : FlushJob) => ({ oneFlushing with sched := { oneFlushing.sched with job := some (.flush j) } } : State)
    (∀ j ∈ [flushOf 0 0, { flushOf 0 0 with verify := true }, { flushOf 0 0 with target := .spare 0, tried := 1 },
      { flushOf 0 0 with target := .spare 2, tried := 3 }], Expected (job j) 255) ∧
    0 ∉ oneFlushing.blockMap.candidates ∧ FirstFree oneFlushing.blockMap 0 := by decide +kernel

/-- Written; rewritten; lost with a live write-through entry on the slot, and without; the last slot of a quiesce. -/
theorem witness_FlushOutcomesReachTheSlot :
    oneFlushing.slot 0 = .flushing (dirt 0 1 1) 1 ∧ (dirt 0 1 1).lastWrite = 1 ∧ (dirt 0 1 1).relocate = false ∧
    (dirt 0 1 2).lastWrite ≠ 1 ∧
    (∃ w ∈ (throughWaiter [.awaiting]).staging.wtWaiters, w.detached = false ∧ ∃ e ∈ w.entries, e.slot = 0 ∧ e.state = .awaiting) ∧
    oneFlushing.staging.wtWaiters = [] ∧
    (inService base .quiescing (some ⟨[], 0, true, none⟩)).staging.dirtyOrder = [] := by decide +kernel

theorem witness_CheckpointJobBegins :
    let pending := fun (g : Nat) => ({ base with store := { base.store with checkpointPending := true, generation := g } } : State)
    let newest := fun (c : Option CopyId) => ({ pending 0 with store := { (pending 0).store with newest := c } } : State)
    (∀ g ∈ [41, 0xFFFFFFFE, 0xFFFFFFFF], CanBegin (pending g) ∧ (pending g).chooseJob = some .checkpoint) ∧
    ∀ c ∈ [none, some .copy0], CanBegin (newest c) ∧ (newest c).chooseJob = some .checkpoint := by decide +kernel

theorem witness_CheckpointGoesByItsAnswers :
    ∀ n ∈ [0, 10, 11], Expected (working base (.checkpoint ⟨base.snapshot, .copy0, 42, n⟩) (.write n zeros)) 255 := by
  decide +kernel

/-- Geometry accepted with and without a load, refused; a load read before the last block, at the last, after two attempts. -/
theorem witness_IdentifyJobGoesByItsAnswers :
    let identifying := fun (loaded : Bool) => ({ working (starting base) (.identify .identifying) .identify with
      store := { base.store with loaded := loaded } } : State)
    (∀ b ∈ [true, false], Expected (identifying b) 255) ∧ (base.blockMap.p = 2048) ∧
    (∀ n ∈ [0, 22, 23], ∀ k ∈ [1, 2, 3],
      Expected (working (starting base) (.identify (.loading (List.replicate n none) k)) (.read n)) 255) := by decide +kernel

def pause10 : Fin 1010 := ⟨0, by decide +kernel⟩

theorem witness_TablesComeFromTheNewestCopy :
    ({ base with link := { base.link with identified := some 2048 } } : State).link.identified = some 2048 := rfl

def savedTables : Config.Snapshot :=
  { phase := .agreed, p := 2048, s := 16
    regions := [⟨0, 0, 100, false, false, false, 1⟩, ⟨15, 100, 1908, true, true, true, 255⟩]
    spares := List.replicate 15 .free ++ [.inUse 2007] }
/-- Two definitions that touch, a block on the last spare, both at the end of the logical space. -/
theorem witness_CopiesReadBackAsWritten : SnapshotLawful savedTables := by
  refine ⟨by decide +kernel, by decide +kernel, by decide +kernel, by decide +kernel, ?_, ?_, ?_⟩
  · refine List.pairwise_pair.2 ?_
    rintro ⟨n, h1, h2⟩
    simp only at h1 h2
    omega
  · intro lbn h
    have h : lbn = 2007 := by simpa [savedTables] using h
    rw [h]; decide +kernel
  · refine List.pairwise_append.2 ⟨List.pairwise_replicate.2 (.inr ?_), List.pairwise_singleton _ _, ?_⟩
    · intro lbn h; cases h
    · intro d hd e _ lbn h
      rw [List.eq_of_mem_replicate hd] at h
      cases h

theorem witness_TimeoutsRepeatThenFault :
    let s := fun (j : Job) (n : Nat) => ({ working base j (.read 24) with
      link := { (working base j (.read 24)).link with timeouts := n } } : State)
    (∀ n ∈ [0, 1, 2], Settled (s (.read (readJob 1)) n) ∧ Settled (s (.identify (.loading [] 1)) n)) ∧
    Settled base ∧ base.link.flight = none := by decide +kernel

theorem witness_MalformedAnswersAreDiscarded :
    let s := working base (.read (readJob 1)) (.read 24)
    Settled base ∧ base.link.flight = none ∧ Settled s ∧ (254 : Byte).toNat ≠ s.link.issueNo ∧
    s.link.flight = some (.read 24) ∧ ([0] : List Byte).head? ≠ some 1 := by decide +kernel

/-- OFFLINE; three notices queued; four. The request that arrived second completes between the first and the third, behind an
older frame and before a notice. -/
theorem witness_FramesJoinTheQueueInOrder :
    let s := fun n => withQueueA base [] (List.replicate n (.notice .peerOnline false))
    let c := fun (t : Byte) => (⟨t, 0x40, .ok, .blank⟩ : Completion)
    let r := record 2 .inquire .started
    let u : PortUnit := { online with
      requests := [record 1 .inquire .complete, r, record 3 .inquire .complete]
      queue := [.notice .peerOnline false] ++ ([c 1] ++ [c 3]).map .completion ++ [(Notice.peerOffline, false)].map fun n => .notice n.1 n.2 }
    (offlineA base).portA.online = false ∧ base.portA.online = true ∧
    ((s 3).portA.queue.filter Frame.isNotice).length < 4 ∧ 4 ≤ ((s 4).portA.queue.filter Frame.isNotice).length ∧
    u.requests.find? (fun x => x.tag == r.tag && x.state != .complete) = some r ∧
    (∀ x ∈ u.requests, x.tag = 1 → x.state = .complete) ∧ u.arrival 1 ≤ u.arrival r.tag ∧ u.arrival r.tag < u.arrival 3 := by
  decide +kernel

/-- Region 3 held by A, slot 0 DIRTY, a READ job in progress. -/
def lawful : State := { oneDirty with regions := State.reset.regions.set 3 (region 200 100 true false (some ⟨.A, 3⟩)) }

theorem lawful_region (r : Fin 16) :
    lawful.region r = if r = 3 then region 200 100 true false (some ⟨.A, 3⟩) else Region.undefinedRecord := by
  revert r; decide +kernel

def pause11 : Fin 1011 := ⟨0, by decide +kernel⟩

theorem lawful_free (i : SlotId) (h : i ≠ 0) : lawful.staging.slots[i] = .free := by revert i; decide +kernel

/-- A state other than the reset state that meets the laws, and whose step answers a next state; in AGREED, no RESET_TABLE about. -/
theorem witness_EveryStepKeepsTheLaws : Lawful { lawful with pending := [.tick] } ∧
    (∃ t, step { lawful with pending := [.tick] } = .next t) ∧ (lawful.slot 0).unflushed? = some (dirt 0 1 1) ∧
    lawful.agree.phase = .agreed ∧ NoReset lawful := by
  have only : ∀ q, (lawful.region q).state ≠ .undefined → q = 3 := by
    intro q h
    by_contra k
    rw [lawful_region, if_neg k] at h
    exact h rfl
  have zero : ∀ (i : SlotId) (x : Nat), lawful.staging.slots[i].lbn? = some x → i = 0 := by
    intro i x h
    by_contra k
    rw [lawful_free i k] at h
    cases h
  refine ⟨⟨⟨?_, ?_⟩, ⟨?_, ?_⟩, ?_, ?_, ⟨?_, ?_, ?_⟩, ⟨rfl, ?_⟩, ⟨by decide, by decide⟩, fun c h => (by cases h), ?_, fun pr h => (by cases h),
    ⟨fun h => (by cases h), fun b a h => (by cases h)⟩, ⟨fun i d h => ?_, fun j h => (by cases h)⟩⟩, ⟨_, rfl⟩,
    by decide +kernel, rfl, fun pr h => (by cases h), fun p => ?_⟩
  · intro r h
    rw [only r h]
    decide +kernel
  · exact fun q r h k l => absurd ((only q k).trans (only r l).symm) h
  · intro r h e
    have e : (lawful.region r).hold = some h := e
    show (lawful.region r).attrs.exclusive = true ∧ (lawful.port h.holder).online = true ∧ _
    rw [lawful_region] at e ⊢
    split at e
    · next k => subst k; cases e; decide +kernel
    · cases e
  · intro r h
    have h : (lawful.region r).attrs.exclusive = true := h
    show 1 ≤ (lawful.region r).leasePeriod ∧ (lawful.region r).leasePeriod ≤ 255
    rw [lawful_region] at h ⊢
    split at h
    · next k => subst k; decide
    · cases h
  · intro p; cases p <;> decide
  · intro p; cases p <;> decide
  · exact fun i j x h k => (zero i x h).trans (zero j x k).symm
  · exact ⟨by decide, by decide +kernel⟩
  · refine ⟨by decide, fun i => ⟨fun h => (by cases h), ?_⟩⟩
    rintro ⟨x, r, d, h⟩
    have h : lawful.staging.slots[i] = .clean x r d := h
    by_cases k : i = 0
    · subst k
      revert h
      exact fun h => by cases h
    · rw [lawful_free i k] at h
      cases h
  · intro i j lbn h
    have : ∀ e ∈ base.blockMap.spares, e ≠ .inUse lbn := by
      intro e he
      rw [List.eq_of_mem_replicate he]
      exact fun k => by cases k
    exact absurd rfl (this _ (List.mem_of_getElem? h))
  · exact ⟨by decide, by decide, by decide, by decide⟩
  · have h : lawful.staging.slots[i].unflushed? = some d := h
    by_cases k : i = 0
    · subst k
      have e : lawful.staging.slots[(0 : SlotId)].unflushed? = some (dirt 0 1 1) := by decide +kernel
      rw [e] at h
      cases h
      decide
    · rw [lawful_free i k] at h
      cases h
  · cases p <;> exact ⟨fun r h => (by cases h), fun bits h => (by cases h)⟩

end Sys2Proof.Tests
end

section
/-! PROOFS. The region checks with the rights table (R5, R6), and RENEW (R11). -/

namespace Sys2Proof.Machine

/-! ### The four region checks in their order (R6) -/

theorem regionCheck_undefined {x : Region} (h : x.state = .undefined) (changing : Bool) (bounds : Option (Nat × Nat))
    (right : Option Bool) : regionCheck x changing bounds right = some .noRegion := by
  simp [regionCheck, Region.isDefined, h]

theorem regionCheck_changing {x : Region} (hd : x.state ≠ .undefined) (hc : x.changing = true) (bounds : Option (Nat × Nat))
    (right : Option Bool) : regionCheck x true bounds right = some .regionChanging := by
  simp [regionCheck, Region.isDefined, hd, hc]

/-- A request without bounds and without a right to check passes in a defined region, unless it asks about a change under way. -/
theorem regionCheck_bare {x : Region} (hd : x.state ≠ .undefined) (changing : Bool) (hc : (changing && x.changing) = false) :
    regionCheck x changing none none = none := by
  simp [regionCheck, Region.isDefined, hd, hc]

/-- In a defined region that is not changing, the bounds come first and then the right. -/
theorem regionCheck_access {x : Region} (hd : x.state ≠ .undefined) (hc : x.changing = false) (offset count : Nat) (right : Bool) :
    regionCheck x true (some (offset, count)) (some right) =
      if x.length < offset + count then some .outOfBounds else if right = true then none else some .noRight := by
  cases right <;> simp [regionCheck, Region.isDefined, hd, hc]

/-- A region check refuses with one of its four codes only. -/
theorem regionCheck_code (x : Region) (changing : Bool) (bounds : Option (Nat × Nat)) (right : Option Bool) (st : Status)
    (h : regionCheck x changing bounds right = some st) :
    st ∈ [Status.noRegion, .regionChanging, .outOfBounds, .noRight] := by
  unfold regionCheck at h
  split_ifs at h <;> cases h <;> decide

/-! ### The rights table (R5) -/

theorem Region.mayRead_iff (x : Region) (p : PortId) :
    x.mayRead p = true ↔ x.attrs.exclusive = false ∨ x.heldBy p = true ∨ x.attrs.peerRead = true := by
  simp [Region.mayRead, or_assoc]

theorem Region.mayWrite_iff (x : Region) (p : PortId) :
    x.mayWrite p = true ↔ x.attrs.exclusive = false ∨ x.heldBy p = true := by
  simp [Region.mayWrite]

/-! ### Which checks each request takes (R6) -/

section
variable (s : State) (p : PortId) {b : Byte} {r : Fin 16} (hb : regionOf b = some r)
include hb

theorem State.regionRefusal_read (count : Byte) (offset : Word24) : s.regionRefusal p (.read b count offset) =
    regionCheck (s.region r) true (some (offset.toNat, count.toNat)) (some ((s.region r).mayRead p)) := by
  simp [State.regionRefusal, hb]

theorem State.regionRefusal_write (count : Byte) (offset : Word24) (d : List Byte) :
    s.regionRefusal p (.write b count offset d) =
      regionCheck (s.region r) true (some (offset.toNat, count.toNat)) (some ((s.region r).mayWrite p)) := by
  simp [State.regionRefusal, hb]

theorem State.regionRefusal_release : s.regionRefusal p (.release b) = regionCheck (s.region r) false none none := by
  simp [State.regionRefusal, hb]

/-- FLUSH of one region, CLAIM, RENEW and FIX ask for a defined region that is not changing, and for nothing else. -/
theorem State.regionRefusal_bare : ∀ q ∈ [Request.flush b, .claim b, .renew b, .fix b],
    s.regionRefusal p q = regionCheck (s.region r) true none none := by
  simp [State.regionRefusal, hb]

/-- The requests that ask for a region that is not changing. -/
theorem State.regionRefusal_asksChanging (count : Byte) (offset : Word24) (d : List Byte) :
    ∀ q ∈ [Request.read b count offset, .write b count offset d, .flush b, .claim b, .renew b, .fix b],
      ∃ bounds right, s.regionRefusal p q = regionCheck (s.region r) true bounds right := by
  rw [List.forall_mem_cons, List.forall_mem_cons]
  exact ⟨⟨_, _, s.regionRefusal_read p hb count offset⟩, ⟨_, _, s.regionRefusal_write p hb count offset d⟩,
    fun q hq => ⟨_, _, s.regionRefusal_bare p hb q hq⟩⟩

/-- The requests that ask for a defined region. -/
theorem State.regionRefusal_asksDefined (count : Byte) (offset : Word24) (d : List Byte) :
    ∀ q ∈ [Request.read b count offset, .write b count offset d, .flush b, .claim b, .renew b, .release b, .fix b],
      ∃ changing bounds right, s.regionRefusal p q = regionCheck (s.region r) changing bounds right := by
  intro q hq
  by_cases hrel : q = .release b
  · subst hrel
    exact ⟨_, _, _, s.regionRefusal_release p hb⟩
  · have hq' : q ∈ [Request.read b count offset, .write b count offset d, .flush b, .claim b, .renew b, .fix b] := by
      simp_all
    exact ⟨true, s.regionRefusal_asksChanging p hb count offset d q hq'⟩

end

/-- FLUSH of all regions and the requests that name no region, with QUERY_REGION, take no region check. -/
theorem State.regionRefusal_unchecked (s : State) (p : PortId) (b id a : Byte) (f : ProposeFields) :
    ∀ q ∈ [Request.flush 0xFF, .queryRegion b, .propose f, .answer id a, .withdraw id, .attach, .detach, .inquire, .quiesce,
        .resume, .mediaRestart],
      s.regionRefusal p q = none := by
  have hall : regionOf 255#8 = none := by decide
  simp [State.regionRefusal, hall]

/-- Settles O9: each request's check is named once (`regionRefusal_…`), and the clauses are the rows of `regionCheck`. -/
theorem regionChecksByCode : Obligations.RegionChecksByCode := by
  intro s p b c id a o d f r hb
  dsimp only
  rw [← Region.mayRead_iff, ← Region.mayWrite_iff]
  refine ⟨fun hu q hq => ?undefined, fun hd hc q hq => ?changing, fun hd => ?release, fun hd hc => ⟨fun q hq => ?bare, ?access⟩,
    s.regionRefusal_unchecked p b id a f⟩
  case undefined =>
    obtain ⟨changing, bounds, right, hcheck⟩ := s.regionRefusal_asksDefined p hb c o d q hq
    rw [hcheck, regionCheck_undefined hu]
  case changing =>
    obtain ⟨bounds, right, hcheck⟩ := s.regionRefusal_asksChanging p hb c o d q hq
    rw [hcheck, regionCheck_changing hd hc]
  case release => rw [s.regionRefusal_release p hb, regionCheck_bare hd false rfl]
  case bare => rw [s.regionRefusal_bare p hb q hq, regionCheck_bare hd true hc]
  case access =>
    have hread := (s.regionRefusal_read p hb c o).trans (regionCheck_access hd hc _ _ _)
    have hwrite := (s.regionRefusal_write p hb c o d).trans (regionCheck_access hd hc _ _ _)
    refine ⟨fun hout => ?outside, fun hin => ?inside⟩
    case outside => simp [hread, hwrite, hout]
    case inside => simp +contextual [hread, hwrite, hin]

/-! ### Which status a refusal can carry (R57, R59) -/

/-- The region checks refuse with their own four codes only. -/
theorem State.regionRefusal_code (s : State) (p : PortId) (q : Request) (st : Status) (h : s.regionRefusal p q = some st) :
    st ∈ [Status.noRegion, .regionChanging, .outOfBounds, .noRight] := by
  unfold State.regionRefusal at h
  cases q with
  | read | write | flush | claim | renew | release | fix =>
    dsimp only at h
    split at h
    · exact regionCheck_code _ _ _ _ st h
    · cases h
  | _ => cases h

/-- A refusal is one of the first three checks, of a media or service check that the request takes, or of the region checks. -/
theorem State.refusal_cases (s : State) (p : PortId) (q : Request) (st : Status) (h : s.refusal p q = some st) :
    st ∈ [Status.notReady, .notOnline, .badRequest] ∨ (st = .mediaFault ∧ needsMedia q = true) ∨
      (st = .quiesced ∧ needsService q = true) ∨ st ∈ [Status.noRegion, .regionChanging, .outOfBounds, .noRight] := by
  unfold State.refusal at h
  split_ifs at h with hstart honline hfields hmedia hservice
  · cases h; exact .inl (by decide)
  · cases h; exact .inl (by decide)
  · cases h; exact .inl (by decide)
  · cases h; exact .inr (.inl ⟨rfl, (Bool.and_eq_true_iff.mp hmedia).2⟩)
  · cases h; exact .inr (.inr (.inl ⟨rfl, (Bool.and_eq_true_iff.mp hservice).2⟩))
  · exact .inr (.inr (.inr (s.regionRefusal_code p q st h)))

theorem State.refusal_ne_mediaFault (s : State) (p : PortId) (q : Request) (hq : needsMedia q = false) :
    s.refusal p q ≠ some .mediaFault := fun h => by
  simpa [hq] using s.refusal_cases p q _ h

theorem State.refusal_ne_quiesced (s : State) (p : PortId) (q : Request) (hq : needsService q = false) :
    s.refusal p q ≠ some .quiesced := fun h => by
  simpa [hq] using s.refusal_cases p q _ h

/-! ### RENEW (R11) -/

theorem State.renew_of_holder (s : State) (p : PortId) (tag : Byte) (r : Fin 16) (h : (s.region r).heldBy p = true) :
    s.renew p tag r = (s.setRegion r { s.region r with hold := some ⟨p, (s.region r).leasePeriod⟩ }).complete p tag .ok
      (.lease (s.region r).leasePeriod) := by
  simp [State.renew, State.hold, h]

theorem State.renew_of_not_holder (s : State) (p : PortId) (tag : Byte) (r : Fin 16) (h : (s.region r).heldBy p = false) :
    s.renew p tag r = s.complete p tag .notHolder (.lease 0) := by
  simp [State.renew, h]

theorem State.dispatch_renew (s : State) (p : PortId) (tag : Byte) {b : Byte} {r : Fin 16} (hb : regionOf b = some r) :
    s.dispatch p tag (.renew b) = s.renew p tag r := by
  simp [State.dispatch, State.onRegion, hb]

/-- A request that passes its checks is dispatched, in whatever state it is presented (R60). -/
theorem State.present_of_passing (s : State) (p : PortId) (tag : Byte) (q : Request) (h : s.refusal p q = none) :
    s.present p tag q = s.dispatch p tag q := by
  simp [State.present, h]

/-- A RENEW of the holder, taken between two events. -/
theorem exec_renew_of_holder (s : State) (p : PortId) (tag b : Byte) (r : Fin 16) (hp : Passes s p tag (.renew b))
    (hb : regionOf b = some r) (hh : (s.region r).heldBy p = true) :
    exec (.renew p tag b) s = .next ((s.answering p tag (.renew b) .ok (.lease (s.region r).leasePeriod)).setRegion r
      { s.region r with hold := some ⟨p, (s.region r).leasePeriod⟩ }) := by
  obtain ⟨hquiet, hcan, hpass⟩ := hp
  have ⟨_, _, hfresh, _⟩ := hcan
  refine exec_answered_like s _ p tag (.renew b) .ok (.lease (s.region r).leasePeriod) rfl hquiet hcan hpass ?_ rfl rfl ?_
  · rw [State.dispatch_renew _ p tag hb, State.renew_of_holder _ p tag r (by rwa [State.taking_region]), State.taking_region,
      State.taking_setRegion_complete s p tag _ r _ _ _ hfresh]
  · rw [State.setRegion_agree, State.answering_agree]

/-- A RENEW of any other port, taken between two events. -/
theorem exec_renew_of_not_holder (s : State) (p : PortId) (tag b : Byte) (r : Fin 16) (hp : Passes s p tag (.renew b))
    (hb : regionOf b = some r) (hh : (s.region r).heldBy p = false) :
    exec (.renew p tag b) s = .next (s.answering p tag (.renew b) .notHolder (.lease 0)) := by
  obtain ⟨hquiet, hcan, hpass⟩ := hp
  have ⟨_, _, hfresh, _⟩ := hcan
  refine exec_request_answered s p tag (.renew b) .notHolder (.lease 0) rfl hquiet hcan hpass ?_
  rw [State.dispatch_renew _ p tag hb, State.renew_of_not_holder _ p tag r (by rwa [State.taking_region]),
    State.taking_complete s p tag _ .awaitingTurn _ _ hfresh]

/-- Settles O17: the row by `exec_renew_of_holder` and `exec_renew_of_not_holder`, the later presentation by the two rules of
`State.renew`, the two refusals by R59, since RENEW needs neither the media nor the service. -/
theorem renewRestartsTheLease : Obligations.RenewRestartsTheLease := by
  refine ⟨fun s p tag b r hp hb => ?taken, fun s p tag b r hpass hb => ?later, fun s p b => ?refusals⟩
  case taken => exact ⟨exec_renew_of_holder s p tag b r hp hb, exec_renew_of_not_holder s p tag b r hp hb⟩
  case later =>
    rw [s.present_of_passing p tag _ hpass, s.dispatch_renew p tag hb]
    exact ⟨s.renew_of_holder p tag r, s.renew_of_not_holder p tag r⟩
  case refusals => exact ⟨s.refusal_ne_mediaFault p _ rfl, s.refusal_ne_quiesced p _ rfl⟩

end Sys2Proof.Machine
end

section
/-! PROOFS. WITHDRAW (R33). -/

namespace Sys2Proof.Machine

/-! ### The end of a proposal -/

/-- The notices of a proposal's end give no port a request to present. -/
theorem State.endProposal_readyPorts (s : State) (pr : Proposal) (reason : OutcomeReason) :
    (s.endProposal pr reason).readyPorts = s.readyPorts := by
  unfold State.endProposal
  rw [State.offerBoth_readyPorts]
  rfl

/-- The end of a proposal after operations that left the agreement as `a`: the record is removed, then the ports are told. -/
theorem State.endProposal_of_agree {s : State} {a : Agreement} (h : s.agree = a) (pr : Proposal) (reason : OutcomeReason) :
    s.endProposal pr reason =
      ({ s with agree := { a with proposal := none } } : State).offerBoth (.outcome reason pr.id pr.change) := by
  rw [State.endProposal, h]

/-! ### WITHDRAW by the record -/

theorem State.dispatch_withdraw (s : State) (p : PortId) (tag id : Byte) :
    s.dispatch p tag (.withdraw id) = s.withdraw p tag id := rfl

section
variable (s : State) (p : PortId) (tag id : Byte)

/-- There is no record, or it has another id, or it is the other port's. -/
theorem State.withdraw_of_not_own (h : ∀ pr, s.agree.proposal = some pr → pr.id = id.toNat → pr.proposer ≠ p) :
    s.withdraw p tag id = s.complete p tag .noSuchProposal .blank := by
  unfold State.withdraw
  cases hrec : s.agree.proposal with
  | none => rfl
  | some pr => exact if_neg fun ⟨hid, hown⟩ => h pr hrec hid hown

section
variable {pr : Proposal} (hrec : s.agree.proposal = some pr) (hid : pr.id = id.toNat) (hown : pr.proposer = p)
include hrec hid hown

theorem State.withdraw_of_applying (hstate : pr.state = .applying) :
    s.withdraw p tag id = s.complete p tag .proposalPending .blank := by
  simp [State.withdraw, hrec, hid, hown, hstate]

theorem State.withdraw_of_opened {w : Nat} (hstate : pr.state = .opened w) :
    s.withdraw p tag id = (s.complete p tag .ok .blank).endProposal pr .withdrawnProposer := by
  simp [State.withdraw, hrec, hid, hown, hstate]

end

/-! ### WITHDRAW taken between two events -/

/-- A WITHDRAW that only completes is answered in its own event. -/
theorem exec_withdraw_completed (st : Status) (hp : Passes s p tag (.withdraw id))
    (h : (s.taking p tag (.withdraw id) .awaitingTurn).withdraw p tag id =
      (s.taking p tag (.withdraw id) .awaitingTurn).complete p tag st .blank) :
    exec (.withdraw p tag id) s = .next (s.answering p tag (.withdraw id) st .blank) := by
  obtain ⟨hquiet, hcan, hpass⟩ := hp
  have ⟨_, _, hfresh, _⟩ := hcan
  refine exec_request_answered s p tag (.withdraw id) st .blank rfl hquiet hcan hpass ?_
  rw [State.dispatch_withdraw, h, s.taking_complete p tag _ .awaitingTurn st .blank hfresh]

/-- A WITHDRAW of an OPEN proposal: the answer, then the end of the proposal, in one event. -/
theorem exec_withdraw_of_opened (hp : Passes s p tag (.withdraw id)) {pr : Proposal} (hrec : s.agree.proposal = some pr)
    (hid : pr.id = id.toNat) (hown : pr.proposer = p) {w : Nat} (hstate : pr.state = .opened w) :
    exec (.withdraw p tag id) s =
      .next ((s.answering p tag (.withdraw id) .ok .blank).endProposal pr .withdrawnProposer) := by
  obtain ⟨hquiet, hcan, hpass⟩ := hp
  have ⟨_, _, hfresh, _⟩ := hcan
  obtain ⟨hentering, hready⟩ := s.answering_still p tag (.withdraw id) .ok .blank hquiet hcan
  refine exec_request s p tag (.withdraw id) _ rfl hquiet hcan hpass ?_ ?_ ?_
  · rw [State.dispatch_withdraw, State.withdraw_of_opened _ p tag id (by rwa [State.taking_agree]) hid hown hstate,
      s.taking_complete p tag _ .awaitingTurn .ok .blank hfresh]
  · rwa [State.endProposal_entering]
  · rwa [State.endProposal_readyPorts]

end

/-- Settles O23: one rule of `State.withdraw` for each case of the record, read in the state in which the request is taken and in
the one in which it is presented later; the two refusals by R59, since WITHDRAW needs neither the media nor the service. -/
theorem withdrawEndsAnOpenProposal : Obligations.WithdrawEndsAnOpenProposal := by
  refine ⟨fun s p tag id hp => ⟨fun habsent => ?taken_absent, fun pr hrec hid hown =>
      ⟨fun hstate => ?taken_applying, fun w hstate => ?taken_opened⟩⟩,
    fun s p tag id hpass => ?later, fun s p id => ?refusals⟩
  case taken_absent =>
    exact exec_withdraw_completed s p tag id _ hp (State.withdraw_of_not_own _ p tag id (by rwa [State.taking_agree]))
  case taken_applying =>
    exact exec_withdraw_completed s p tag id _ hp
      (State.withdraw_of_applying _ p tag id (by rwa [State.taking_agree]) hid hown hstate)
  case taken_opened =>
    rw [exec_withdraw_of_opened s p tag id hp hrec hid hown hstate,
      State.endProposal_of_agree (s.answering_agree p tag _ _ _)]
  case later =>
    rw [s.present_of_passing p tag _ hpass, s.dispatch_withdraw]
    refine ⟨s.withdraw_of_not_own p tag id, fun pr hrec hid hown =>
      ⟨s.withdraw_of_applying p tag id hrec hid hown, fun w hstate => ?_⟩⟩
    rw [s.withdraw_of_opened p tag id hrec hid hown hstate, State.endProposal_of_agree (s.complete_agree p tag _ _)]
  case refusals => exact ⟨s.refusal_ne_mediaFault p _ rfl, s.refusal_ne_quiesced p _ rfl⟩

end Sys2Proof.Machine
end

section
/-! PROOFS. The generic checks in their order (R57, R59). -/

namespace Sys2Proof.Machine

theorem State.mediaDown_iff (s : State) : s.mediaDown = true ↔ s.link.media = .fault ∨ s.store.loaded = false := by
  simp [State.mediaDown]

theorem State.atRest_iff (s : State) :
    s.atRest = true ↔ s.service.state = .quiescing ∨ s.service.state = .quiesced := by
  simp [State.atRest]

/-! ### The status of each check -/

section
variable {s : State} {p : PortId} {q : Request}

theorem State.refusal_of_starting (h : s.service.state = .starting) : s.refusal p q = some .notReady := if_pos h

theorem State.refusal_of_offline (hstart : s.service.state ≠ .starting) (hoff : (s.port p).online = false)
    (hq : q ≠ .attach) : s.refusal p q = some .notOnline := by
  rw [State.refusal, if_neg hstart, if_pos ⟨hoff, hq⟩]

/-- Steps 1 and 2 pass: the service has started, and the port is ONLINE or asks to be. -/
def Attached (s : State) (p : PortId) (q : Request) : Prop :=
  s.service.state ≠ .starting ∧ ((s.port p).online = true ∨ q = .attach)

/-- Past the first two checks the other four decide, in their order. -/
theorem Attached.refusal (h : Attached s p q) : s.refusal p q =
    if badFields q then some .badRequest
    else if s.mediaDown && needsMedia q then some .mediaFault
    else if s.atRest && needsService q then some .quiesced
    else s.regionRefusal p q := by
  obtain ⟨hstart, hport⟩ := h
  have hon : ¬((s.port p).online = false ∧ q ≠ .attach) := fun ⟨hoff, hq⟩ =>
    hport.elim (fun hon => by simp [hon] at hoff) hq
  rw [State.refusal, if_neg hstart, if_neg hon]

end

/-- A request taken between two events and refused is answered with its status, and nothing else changes (R57, R62). -/
theorem exec_refused (s : State) (p : PortId) (tag : Byte) (q : Request) (st : Status) (hk : keptWhole q = true)
    (hquiet : Quiet s) (hcan : CanTake s p tag) (h : s.refusal p q = some st) :
    exec (rowOf p tag q) s = .next (s.answering p tag q st .blank) := by
  have ⟨hreset, howed, _, _⟩ := hquiet
  have ⟨_, _, hfresh, _⟩ := hcan
  obtain ⟨hentering, hready⟩ := s.answering_still p tag q st .blank hquiet hcan
  rw [exec_rowOf p tag q s hk, s.fromOutside_quiet _ hreset howed,
    s.submit_taken_still p tag q _ hquiet hcan (s.present_refused p tag q st hfresh h) hentering hready]

/-- Settles O7: one case for each check, which passes the checks before it; the requests of steps 4 and 5 are named by
`needsMedia_iff` and `needsService_iff`, and whatever the status, `exec_refused` gives the answer. -/
theorem genericChecksGoInOrder : Obligations.GenericChecksGoInOrder := by
  intro s p tag q hk
  dsimp only
  rw [← needsMedia_iff q hk, ← needsService_iff q hk, ← s.mediaDown_iff, ← s.atRest_iff]
  have answered : ∀ {st : Status}, s.refusal p q = some st → s.refusal p q = some st ∧
      (Quiet s → CanTake s p tag → exec (rowOf p tag q) s = .next (s.answering p tag q st .blank)) :=
    fun h => ⟨h, fun hquiet hcan => exec_refused s p tag q _ hk hquiet hcan h⟩
  refine ⟨fun hstart => answered (State.refusal_of_starting hstart),
    fun hstart hoff hq => answered (State.refusal_of_offline hstart hoff hq),
    fun hat hbad => answered ?fields, fun hat hgood hdown hneeds => answered ?media,
    fun hat hgood hmedia hrest hneeds => answered ?service, fun hat hgood hmedia hservice => ?regions⟩
  all_goals rw [Attached.refusal hat]
  case fields => simp [hbad]
  case media => simp [hgood, hdown, hneeds]
  case service => simp [hgood, hmedia, hrest, hneeds]
  case regions => simp [hgood, hmedia, hservice]

end Sys2Proof.Machine
end

section
/-! PROOFS. ATTACH (R50). -/

namespace Sys2Proof.Machine

/-- ATTACH is subject to the first check only (R50). -/
theorem State.refusal_attach (s : State) (p : PortId) (h : s.service.state ≠ .starting) : s.refusal p .attach = none := by
  rw [Attached.refusal ⟨h, .inr rfl⟩]
  simp [badFields, needsMedia, needsService, State.regionRefusal]

/-! ### A port made ONLINE -/

/-- The port is ONLINE, nothing else changes. -/
def State.broughtOnline (s : State) (p : PortId) : State := s.updPort p fun u => { u with online := true }

/-- What the completion of an ATTACH of the port carries (R50): the states of their owners. -/
def State.attachResult (s : State) (p : PortId) : Result :=
  .attach p s.service.state s.link.media s.store.loaded s.agree.phase (s.port p.other).online

/-- The place of a completion goes by the arrival of the requests, not by the port's being ONLINE. -/
theorem insertCompletion_online (u : PortUnit) (b : Bool) (c : Completion) (frames : List Frame) :
    insertCompletion { u with online := b } c frames = insertCompletion u c frames := by
  induction frames with
  | nil => rfl
  | cons f rest ih =>
    cases f with
    | completion d =>
      simp only [insertCompletion, ih]
      rfl
    | notice n gap => rfl

theorem PortUnit.complete_setOnline (u : PortUnit) (b : Bool) (base : Nat) (tag : Byte) (st : Status) (res : Result) :
    ({ u with online := b } : PortUnit).complete base tag st res = { u.complete base tag st res with online := b } := by
  unfold PortUnit.complete
  dsimp only
  cases u.requests.find? (Record.isOpen tag) with
  | none => rfl
  | some r => simp only [insertCompletion_online]

theorem State.complete_broughtOnline (s : State) (p : PortId) (tag : Byte) (st : Status) (res : Result) :
    (s.broughtOnline p).complete p tag st res = (s.complete p tag st res).broughtOnline p := by
  simp [State.complete, State.broughtOnline, State.updPort, State.base_setPort, PortUnit.complete_setOnline]

/-- An OFFLINE port takes no notice (R66). -/
theorem State.offer_of_offline (s : State) (p : PortId) (n : Notice) (h : (s.port p).online = false) : s.offer p n = s := by
  simp [State.offer, State.updPort, PortUnit.acceptNotice, h]

/-! ### ATTACH presented, and taken between two events -/

/-- The request completes, its port is ONLINE, and the notice finds a taker where the port was OFFLINE and its peer is ONLINE. -/
theorem State.attach_eq (s : State) (p : PortId) (tag : Byte) : s.attach p tag =
    if (s.port p).online = false ∧ (s.port p.other).online = true then
      ((s.complete p tag .ok (s.attachResult p)).broughtOnline p).offer p.other .peerOnline
    else (s.complete p tag .ok (s.attachResult p)).broughtOnline p := by
  have hdone := s.complete_broughtOnline p tag .ok (s.attachResult p)
  have hpeer : (((s.complete p tag .ok (s.attachResult p)).broughtOnline p).port p.other).online =
      (s.port p.other).online := by
    simp [State.broughtOnline, State.complete]
  change (if (s.port p).online then (s.broughtOnline p).complete p tag .ok (s.attachResult p)
    else ((s.broughtOnline p).complete p tag .ok (s.attachResult p)).offer p.other .peerOnline) = _
  rw [hdone]
  cases hown : (s.port p).online with
  | true => simp
  | false =>
    cases hother : (s.port p.other).online with
    | true => simp
    | false => simpa using State.offer_of_offline _ _ _ (hpeer.trans hother)

theorem State.taking_attachResult (s : State) (p : PortId) (tag : Byte) (q : Request) (st : RecordState) :
    (s.taking p tag q st).attachResult p = s.attachResult p := by
  cases p <;> rfl

theorem State.taking_online (s : State) (p : PortId) (tag : Byte) (q : Request) (st : RecordState) :
    ((s.taking p tag q st).port p).online = (s.port p).online := by
  rw [State.taking_port]
  rfl

/-- An ATTACH taken between two events, once the service has started. -/
theorem exec_attach (s : State) (p : PortId) (tag : Byte) (hquiet : Quiet s) (hcan : CanTake s p tag)
    (hstart : s.service.state ≠ .starting) : exec (.attach p tag) s = .next
      (if (s.port p).online = false ∧ (s.port p.other).online = true then
        ((s.answering p tag .attach .ok (s.attachResult p)).broughtOnline p).offer p.other .peerOnline
      else (s.answering p tag .attach .ok (s.attachResult p)).broughtOnline p) := by
  have ⟨_, _, hentering, _⟩ := hquiet
  have ⟨_, _, hfresh, _⟩ := hcan
  have hagree : ((s.answering p tag .attach .ok (s.attachResult p)).broughtOnline p).agree = s.agree := by
    rw [State.broughtOnline, State.updPort_agree, State.answering_agree]
  have hother : (((s.answering p tag .attach .ok (s.attachResult p)).broughtOnline p).port p.other).nextToPresent = none := by
    rw [State.broughtOnline, State.updPort_port_other, State.answering_other]
    exact s.other_next p hquiet
  refine exec_presented s _ p tag .attach rfl hquiet hcan (s.refusal_attach p hstart) ?dispatched ?entering ?peer
  case dispatched =>
    change (s.taking p tag .attach .awaitingTurn).attach p tag = _
    rw [State.attach_eq, s.taking_attachResult, s.taking_online, s.taking_other,
      s.taking_complete p tag .attach .awaitingTurn .ok (s.attachResult p) hfresh]
  case entering =>
    split
    · rwa [State.offer_agree, hagree]
    · rwa [hagree]
  case peer =>
    split
    · rw [State.offer_next, hother]
    · exact hother

/-- Settles O10: the refusal by `exec_refused`, the rest by `exec_attach` and, presented later, by `State.attach_eq`. -/
theorem attachBringsThePortOnline : Obligations.AttachBringsThePortOnline := by
  refine ⟨fun s p tag hquiet hcan => ⟨fun hstart => ?refused, fun hstart hon => ?again, fun hstart hoff hpeer => ?told,
    fun hstart hoff hpeer => ?alone⟩, fun s p tag hpass => ?later⟩
  case refused =>
    exact exec_refused s p tag .attach .notReady rfl hquiet hcan (State.refusal_of_starting hstart)
  case again =>
    rw [exec_attach s p tag hquiet hcan hstart, if_neg (by simp [hon])]
    rfl
  case told =>
    rw [exec_attach s p tag hquiet hcan hstart, if_pos ⟨hoff, hpeer⟩]
    rfl
  case alone =>
    rw [exec_attach s p tag hquiet hcan hstart, if_neg (by simp [hpeer])]
    rfl
  case later =>
    rw [s.present_of_passing p tag _ hpass]
    exact s.attach_eq p tag

end Sys2Proof.Machine
end

section
/-! PROOFS. The beginning of a flush job (R104). -/

namespace Sys2Proof.Machine

/-! ### Allocation (R102) -/

theorem BlockMap.allocate_of_firstFree {m : BlockMap} {k : Nat} (h : FirstFree m k) : m.allocate = some k := by
  obtain ⟨hfree, hbelow⟩ := h
  obtain ⟨hlt, hk⟩ := List.getElem?_eq_some_iff.mp hfree
  refine List.findIdx?_eq_some_iff_getElem.mpr ⟨hlt, by simp [hk], fun j hj => ?_⟩
  have hne := hbelow j hj
  rw [List.getElem?_eq_getElem (hj.trans hlt)] at hne
  simpa using hne

theorem BlockMap.allocate_of_noneFree {m : BlockMap} (h : NoneFree m) : m.allocate = none :=
  List.findIdx?_eq_none_iff.mpr fun e he => by simpa using h e he

/-! ### The first target and the candidate list (R104) -/

/-- The Block Map after a flush job has begun: only a relocation that finds no FREE spare changes it. -/
def BlockMap.watching (m : BlockMap) (d : Dirty) : BlockMap :=
  if d.relocate && m.allocate.isNone then m.addCandidate d.lbn else m

theorem State.watchIfNoSpare_eq (s : State) (d : Dirty) :
    s.watchIfNoSpare d = { s with blockMap := s.blockMap.watching d } := by
  unfold State.watchIfNoSpare BlockMap.watching
  split <;> rfl

section
variable {m : BlockMap} {d : Dirty}

theorem BlockMap.watching_of_clear (h : d.relocate = false) : m.watching d = m := by
  simp [BlockMap.watching, h]

theorem BlockMap.watching_of_allocated {k : Nat} (h : m.allocate = some k) : m.watching d = m := by
  simp [BlockMap.watching, h]

theorem BlockMap.watching_of_none (hr : d.relocate = true) (h : m.allocate = none) :
    m.watching d = m.addCandidate d.lbn := by
  simp [BlockMap.watching, hr, h]

end

theorem BlockMap.firstTarget_of_clear (m : BlockMap) : m.firstTarget false = (.current, 0) := rfl

theorem BlockMap.firstTarget_of_allocated {m : BlockMap} {k : Nat} (h : m.allocate = some k) :
    m.firstTarget true = (.spare k, 1) := by
  simp [BlockMap.firstTarget, h]

theorem BlockMap.firstTarget_of_none {m : BlockMap} (h : m.allocate = none) : m.firstTarget true = (.current, 0) := by
  simp [BlockMap.firstTarget, h]

/-! ### The step -/

/-- With the link idle, the media ONLINE and the table LOADED, the job owed is the one that the arbitration chooses (R122). -/
theorem State.owedAt_chosen {s : State} (hcan : CanBegin s) {c : JobChoice} (hchoice : s.chooseJob = some c) :
    s.owedAt 5 = [.job c] := by
  obtain ⟨_, hidle, honline, hloaded⟩ := hcan
  have hdue : s.jobDue = some c := by simp [State.jobDue, hidle, honline, hloaded, hchoice]
  simp [State.owedAt, hdue]

theorem exec_flushJobBegin {s : State} {i : SlotId} (hcan : CanBegin s) (hchoice : s.chooseJob = some (.flush i)) :
    exec .flushJobBegin s = .next (s.beginFlush i) := by
  have ⟨hnone, _, _, _⟩ := hcan
  have hstep : s.ownStep 5 Owed.isFlushJob = s.beginFlush i := by
    rw [s.ownStep_of_none 5 _ hnone, State.owedAt_chosen hcan hchoice]
    rfl
  exact congrArg Host.Outcome.next hstep

/-- A flush job with this first target has taken over the slot, and the Block Map is `m`; its write is not yet issued. -/
def State.flushBegun (s : State) (i : SlotId) (d : Dirty) (target : Target) (tried : Nat) (m : BlockMap) : State :=
  { s with
    staging := s.staging.setSlot i (.flushing { d with relocate := false } d.lastWrite)
    blockMap := m
    sched := { s.sched with yield := false, job := some (.flush
      { slot := i, lbn := d.lbn, data := d.data, relocate := d.relocate, target := target, tried := tried, verify := false }) } }

theorem State.beginFlush_of_dirty {s : State} {i : SlotId} {d : Dirty} {target : Target} {tried : Nat}
    (hslot : s.slot i = .dirty d) (hstart : s.blockMap.firstTarget d.relocate = (target, tried)) :
    s.beginFlush i = (s.flushBegun i d target tried (s.blockMap.watching d)).issue
      (.write (s.targetPbn d.lbn target) d.data) := by
  simp only [State.beginFlush, hslot, hstart, State.watchIfNoSpare_eq]
  rfl

/-- Settles O46: the job begins with the target and on the Block Map that R104 gives for the flag and the spares there are. -/
theorem flushJobBeginsOnItsSlot : Obligations.FlushJobBeginsOnItsSlot := by
  intro s i d hcan hchoice hslot
  have hbegin := exec_flushJobBegin hcan hchoice
  refine ⟨fun hclear => ?current, fun k hset hfree => ?spare, fun hset hnone => ?watched⟩
  case current =>
    rw [hbegin, State.beginFlush_of_dirty hslot (by rw [hclear, BlockMap.firstTarget_of_clear]),
      BlockMap.watching_of_clear hclear]
    rfl
  case spare =>
    have hallocate := BlockMap.allocate_of_firstFree hfree
    rw [hbegin, State.beginFlush_of_dirty hslot (by rw [hset, BlockMap.firstTarget_of_allocated hallocate]),
      BlockMap.watching_of_allocated hallocate]
    rfl
  case watched =>
    have hallocate := BlockMap.allocate_of_noneFree hnone
    rw [hbegin, State.beginFlush_of_dirty hslot (by rw [hset, BlockMap.firstTarget_of_none hallocate]),
      BlockMap.watching_of_none hset hallocate]
    rfl

end Sys2Proof.Machine
end

section
/-! PROOFS. The answers to the writes and verify reads of a flush job (R105 to R108). -/

namespace Sys2Proof.Machine

/-! ### An answer that is expected (R140) -/

theorem State.mediaAnswer_of_expected {s : State} {issue : Byte} (h : Expected s issue) (f : State → State) :
    s.mediaAnswer issue true f = f s.openEvent := by
  obtain ⟨⟨hhigh, hsettled⟩, hflight, hissue⟩ := h
  have hexpects : s.openEvent.expects issue = true := by
    simp [State.expects, Option.isSome_iff_ne_none, hflight, hissue]
  rw [State.mediaAnswer, s.fromOutside_quiet _ hhigh hsettled, hexpects]
  rfl

theorem dataFits_good {data : Block} (h : data.length = 512) : dataFits (.good data) = true := beq_iff_eq.mpr h

theorem dataFits_corrected {data : Block} (h : data.length = 512) : dataFits (.corrected data) = true := beq_iff_eq.mpr h

theorem State.answered_openEvent (s : State) : s.openEvent.answered = s.heard := rfl

section
variable {s : State} {issue : Byte} {j : FlushJob} (hexpected : Expected s issue) (hjob : s.sched.job = some (.flush j))
include hexpected hjob

theorem exec_flushWriteAnswer (htarget : j.target = .current) (hverify : j.verify = false) (a : WriteAnswer) :
    exec (.flushWriteAnswer issue a) s = .next (s.heard.currentWriteAnswered j a) := by
  have htake : s.openEvent.takeFlushWriteAnswer a = s.heard.currentWriteAnswered j a := by
    simp [State.takeFlushWriteAnswer, hjob, htarget, hverify, s.answered_openEvent]
  exact congrArg Host.Outcome.next ((State.mediaAnswer_of_expected hexpected _).trans htake)

theorem exec_verifyAnswer (hverify : j.verify = true) {a : ReadAnswer} (hfits : dataFits a = true) :
    exec (.verifyAnswer issue a) s = .next (s.heard.verifyAnswered j a) := by
  have htake : s.openEvent.takeVerifyAnswer a = s.heard.verifyAnswered j a := by
    simp [State.takeVerifyAnswer, hjob, hverify, s.answered_openEvent]
  have hmedia : s.mediaAnswer issue (dataFits a) (fun t => t.takeVerifyAnswer a) = s.openEvent.takeVerifyAnswer a := by
    rw [hfits]
    exact State.mediaAnswer_of_expected hexpected _
  exact congrArg Host.Outcome.next (hmedia.trans htake)

theorem exec_spareWriteAnswer {k : Nat} (htarget : j.target = .spare k) (a : WriteAnswer) :
    exec (.spareWriteAnswer issue a) s = .next (s.heard.spareWriteAnswered j k a) := by
  have htake : s.openEvent.takeSpareWriteAnswer a = s.heard.spareWriteAnswered j k a := by
    simp [State.takeSpareWriteAnswer, hjob, htarget, s.answered_openEvent]
  exact congrArg Host.Outcome.next ((State.mediaAnswer_of_expected hexpected _).trans htake)

end

/-! ### Spare entries that change state (R107, R108) -/

theorem State.sparesChanged_eq (s : State) (spares : List Spare) :
    s.sparesChanged { s.blockMap with spares := spares } = s.withSpares spares := rfl

theorem State.sparesChanged_dropCandidate (s : State) (m : BlockMap) (lbn : Nat) :
    s.sparesChanged (m.dropCandidate lbn) = { s.sparesChanged m with blockMap := m.dropCandidate lbn } := rfl

theorem BlockMap.succeedAt_eq (m : BlockMap) (lbn i : Nat) : m.succeedAt lbn i =
    { m with spares := (m.spares.map fun e => if e = .inUse lbn then .retired else e).set i (.inUse lbn) } := by
  simp [BlockMap.succeedAt]

/-! ### Reassignment (R107) -/

/-- Steps 2 to 4 of R107: lost after three spares, lost with none FREE, else the next spare. -/
theorem State.tryNextSpare_tried (s : State) (j : FlushJob) : NextSpareTried s (s.tryNextSpare j) j := by
  refine ⟨fun hover => ?lost, fun k hleft hfree => ?next⟩
  case lost =>
    by_cases hthree : Config.maxSparesTried ≤ j.tried
    · rw [State.tryNextSpare, if_pos hthree]
      rfl
    · have hallocate := BlockMap.allocate_of_noneFree (hover.resolve_left hthree)
      rw [State.tryNextSpare, if_neg hthree, hallocate]
      rfl
  case next =>
    have hthree : ¬ Config.maxSparesTried ≤ j.tried := Nat.not_le.mpr hleft
    rw [State.tryNextSpare, if_neg hthree, BlockMap.allocate_of_firstFree hfree]
    rfl

section
variable {s : State} {j : FlushJob}

theorem State.reassign_of_current (h : j.target = .current) : s.reassign j = s.tryNextSpare j := by
  simp [State.reassign, h]

/-- Step 1 of R107: the spare under trial is RETIRED first. -/
theorem State.reassign_of_spare {k : Nat} (h : j.target = .spare k) :
    s.reassign j = (s.withSpares (s.blockMap.spares.set k .retired)).tryNextSpare j := by
  simp only [State.reassign, h]
  rfl

/-! ### The answers, by target -/

theorem State.currentWriteAnswered_good_unwatched (h : j.lbn ∉ s.blockMap.candidates) :
    s.currentWriteAnswered j .good = s.endFlushWritten j := by
  simp [State.currentWriteAnswered, h]

theorem State.currentWriteAnswered_good_watched (h : j.lbn ∈ s.blockMap.candidates) : s.currentWriteAnswered j .good =
    (s.setJob (some (.flush { j with verify := true }))).issue (.read (s.blockMap.translate j.lbn)) := by
  simp [State.currentWriteAnswered, h]

theorem State.verifyAnswered_bad {a : ReadAnswer} (h : ∀ data, a ≠ .good data) : s.verifyAnswered j a = s.reassign j := by
  cases a with
  | good data => exact absurd rfl (h data)
  | corrected data => rfl
  | unrecoverable => rfl

end

theorem State.spareWriteAnswered_good (s : State) (j : FlushJob) (k : Nat) :
    let moved := s.withSpares
      ((s.blockMap.spares.map fun e => if e = .inUse j.lbn then .retired else e).set k (.inUse j.lbn))
    s.spareWriteAnswered j k .good =
      ({ moved with blockMap := moved.blockMap.dropCandidate j.lbn } : State).endFlushWritten j := by
  simp only [State.spareWriteAnswered, BlockMap.succeedAt_eq, State.sparesChanged_dropCandidate, State.sparesChanged_eq]
  rfl

/-- Settles O47: each answer is taken by the rule for the job's target; a failure goes on by `State.tryNextSpare_tried`. -/
theorem flushJobGoesByItsAnswers : Obligations.FlushJobGoesByItsAnswers := by
  intro s issue j hexpected hjob
  refine ⟨fun htarget hverify => ⟨fun hfree => ?written, fun hwatched => ?readBack, ?failed⟩,
    fun htarget hverify => ⟨fun data hlength => ?verified, fun a hbad => ?unverified⟩,
    fun k htarget => ⟨?moved, ?spareFailed⟩⟩
  case written =>
    rw [exec_flushWriteAnswer hexpected hjob htarget hverify, State.currentWriteAnswered_good_unwatched (s := s.heard) hfree]
    rfl
  case readBack =>
    rw [exec_flushWriteAnswer hexpected hjob htarget hverify, State.currentWriteAnswered_good_watched (s := s.heard) hwatched]
    rfl
  case failed =>
    refine ⟨_, exec_flushWriteAnswer hexpected hjob htarget hverify .failed, ?_⟩
    rw [State.currentWriteAnswered, State.reassign_of_current htarget]
    exact s.heard.tryNextSpare_tried j
  case verified =>
    rw [exec_verifyAnswer hexpected hjob hverify (dataFits_good hlength)]
    rfl
  case unverified =>
    have ⟨hfits, hnotGood⟩ : dataFits a = true ∧ ∀ data, a ≠ .good data := by
      obtain rfl | ⟨data, rfl, hlength⟩ := hbad
      · exact ⟨rfl, nofun⟩
      · exact ⟨dataFits_corrected hlength, nofun⟩
    refine ⟨_, exec_verifyAnswer hexpected hjob hverify hfits, ?_⟩
    rw [State.verifyAnswered_bad hnotGood, State.reassign_of_current htarget]
    exact s.heard.tryNextSpare_tried j
  case moved =>
    rw [exec_spareWriteAnswer hexpected hjob htarget, State.spareWriteAnswered_good]
    rfl
  case spareFailed =>
    refine ⟨_, exec_spareWriteAnswer hexpected hjob htarget .failed, ?_⟩
    rw [State.spareWriteAnswered, State.reassign_of_spare htarget]
    exact (s.heard.withSpares (s.blockMap.spares.set k .retired)).tryNextSpare_tried j

end Sys2Proof.Machine
end

section
/-! PROOFS. Every command keeps the laws of the device, an unflushed slot stays so until its flush ends, and AGREED stays. -/

namespace Sys2Proof.Machine

section
variable {D E : SlotId → Nat → Prop} {n : Prop} {s : State}

/-- The command is well formed and carries no bits that could bring a RESET_TABLE. -/
def BringsNoReset (c : Instr) : Prop :=
  c.wellFormed = true ∧ (∀ p tag f, c = .propose p tag f → f.kind ≠ 5) ∧ ∀ p io, c ≠ .submitFrameDiscarded p io

/-- A command from outside that ends no flush. -/
theorem Kept.fromOutsideAll (h : Kept D n s) (f : State → State) (hf : ∀ {t : State}, Kept D n t → Kept D n (f t)) :
    Kept D n (s.fromOutside f) := h.fromOutside f (fun _ _ k => k) hf

theorem Kept.submitRow (h : Kept D n s) (p : PortId) (tag : Byte) (q : Request) (hq : n → asksReset q = false) :
    Kept D n (s.fromOutside fun t => t.submit p tag q) := h.fromOutsideAll _ fun k => k.submit p tag q hq

theorem Kept.transactRow (h : Kept D n s) (p : PortId) (b : Byte) (io : Portion) (hb : n → b ≠ 0xB1) :
    Kept D n (s.fromOutside fun t => t.transact p b io) := h.fromOutsideAll _ fun k => k.transact p b io hb

/-- An answer of the medium; `E` are the slots that it leaves DIRTY or FLUSHING. -/
theorem Kept.mediaAnswer (h : Kept D n s) (hE : ∀ i lbn, E i lbn → D i lbn) (issue : Byte) (fits : Bool) (f : State → State)
    (hf : Kept E n s.settle.openEvent → Kept E n (f s.settle.openEvent)) : Kept E n (s.mediaAnswer issue fits f) := by
  refine h.fromOutside _ hE fun k => ?_

  split
  · exact hf (k.mono hE)
  · exact k.mono hE

theorem Kept.writeRow (h : Kept D n s) (p : PortId) (tag r c : Byte) (o : Word24) (d : List Byte) :
    ∀ t, exec (.write p tag r c o d) s = .next t → Kept D n t := by
  rintro t ⟨⟩
  refine h.fromOutsideAll _ fun k => ?_

  split
  · exact k.submit p tag _ fun _ => rfl
  · exact ((k.closeOpen p).silent p _).frameError p

theorem Kept.startUp (h : Kept D n s) (lowA lowB : Bool) : ∀ t, exec (.startUp lowA lowB) s = .next t → Kept D n t := by
  have waits (low : Bool) : n → ∀ bits, receiverAfterReset low ≠ .receiving bits := by cases low <;> nofun
  rintro t ⟨⟩
  split
  · have k : Kept D n { s with resetLow := false, service := { s.service with ticks := 0 } } := h.frame
    exact (((k.setReceiver .A _ (waits lowA)).setReceiver .B _ (waits lowB)).openEvent).beginIdentify
  · exact h

theorem Kept.timeout (h : Kept D n s) : ∀ t, exec .operationTimeout s = .next t → Kept D n t := by
  rintro t ⟨⟩
  refine h.fromOutsideAll _ fun k => ?_

  split
  · next op hop => exact k.timedOut op hop
  · exact k

theorem Kept.afterCommand (h : Kept D n s) (c : Instr) (hcold : c ≠ .coldReset) (hE : ∀ i lbn, E i lbn → D i lbn)
    (hends : flushOutcome c ≠ none → ∀ j, s.settle.sched.job = some (.flush j) → ∀ lbn, ¬E j.slot lbn)
    (hn : n → BringsNoReset c) : ∀ t, exec c s = .next t → Kept E n t := by
  have all : (∀ t, exec c s = .next t → Kept D n t) → ∀ t, exec c s = .next t → Kept E n t :=
    fun hall t ht => (hall t ht).mono hE
  cases c with
  | coldReset => exact absurd rfl hcold
  | startUp a b => exact all (h.startUp a b)
  | tick => exact all fun t ht => by cases ht; exact h.fromOutsideAll _ fun k => k.tick
  | operationTimeout => exact all h.timeout
  | write p tag r c o d => exact all (h.writeRow p tag r c o d)
  | propose p tag f =>
    refine all fun t ht => ?_
    cases ht
    exact h.submitRow p tag _ fun k => by simpa [asksReset] using (hn k).2.1 p tag f rfl
  | unknownRequestCode p tag code =>
    refine all fun t ht => ?_
    cases ht
    refine h.submitRow p tag _ fun k => ?_
    have hw := (hn k).1
    rw [requestOfHeader_unknown code tag _ (by simpa [Instr.wellFormed] using hw)]
    rfl
  | attach | detach | read | flush | claim | renew | release | fix | queryRegion | answer | withdraw | inquire | quiesce | resume
  | mediaRestart => exact all fun t ht => by cases ht; exact h.submitRow _ _ _ fun _ => rfl
  | fetch | peek | portReset | clockedPortReset => exact all fun t ht => by cases ht; exact h.transactRow _ _ _ fun _ => by decide
  | unknownTypeByte p b io =>
    refine all fun t ht => ?_
    cases ht
    refine h.transactRow p b io fun k e => ?_
    have hw := (hn k).1
    simp [Instr.wellFormed, typeBytes, e] at hw
  | truncatedTypeByte p bits =>
    refine all fun t ht => ?_
    cases ht
    refine h.fromOutsideAll _ fun k => k.transactBits p bits fun w => ?_
    have hw := (hn w).1
    simp only [Instr.wellFormed, Bool.and_eq_true, decide_eq_true_eq] at hw
    omega
  | submitFrameDiscarded p io =>
    refine all fun t ht => ?_
    cases ht
    exact h.transactRow p _ io fun k => absurd rfl ((hn k).2.2 p io)
  | leaseExpiry | lapsedDeadline | writePlacement | writeThroughCompletion | flushCompletion | apply | readJobBegin | flushJobBegin
  | checkpointJobBegin | quiesceEnd => exact all fun t ht => by cases ht; exact h.ownStep _ _
  | readJobAnswer issue a => exact fun t ht => by cases ht; exact h.mediaAnswer hE _ _ _ fun k => k.takeReadJobAnswer a
  | checkpointWriteAnswer issue a => exact fun t ht => by cases ht; exact h.mediaAnswer hE _ _ _ fun k => k.takeCheckpointAnswer a
  | identifyAnswer issue m size => exact fun t ht => by cases ht; exact h.mediaAnswer hE _ _ _ fun k => k.takeIdentifyAnswer _ _
  | loadReadAnswer issue a => exact fun t ht => by cases ht; exact h.mediaAnswer hE _ _ _ fun k => k.takeLoadReadAnswer a
  | flushWriteAnswer issue a =>
    exact fun t ht => by cases ht; exact h.mediaAnswer hE _ _ _ fun k => k.takeFlushWriteAnswer a (hends nofun)
  | verifyAnswer issue a =>
    exact fun t ht => by
      cases ht; exact h.mediaAnswer hE _ _ _ fun k => k.takeVerifyAnswer a (hends (by cases a <;> nofun))
  | spareWriteAnswer issue a =>
    exact fun t ht => by cases ht; exact h.mediaAnswer hE _ _ _ fun k => k.takeSpareWriteAnswer a (hends nofun)
  | malformedAnswer reply =>
    exact fun t ht => by
      cases ht; exact h.fromOutside _ hE fun k => (k.mono hE).takeReply reply (hends nofun)

/-! ### Commands from outside (log 1, log 5) -/

/-- The row of a command from outside is one function, run between two events. -/
theorem exec_eq_fromOutside {c : Instr} (hc : fromOutside c = true) :
    ∃ f : State → State, ∀ s, exec c s = .next (s.fromOutside f) := by
  cases c with
  | coldReset | startUp | leaseExpiry | lapsedDeadline | writePlacement | writeThroughCompletion | flushCompletion | apply
  | readJobBegin | flushJobBegin | checkpointJobBegin | quiesceEnd => exact absurd hc Bool.false_ne_true
  | _ => exact ⟨_, fun _ => rfl⟩

theorem exec_of_resetLow {c : Instr} (hc : fromOutside c = true) (h : s.resetLow = true) : exec c s = .next s := by
  obtain ⟨f, hf⟩ := exec_eq_fromOutside hc
  rw [hf, s.fromOutside_resetLow f h]

/-! ### The end of a flush (R88, R89, R107) -/

/-- What an answer with this outcome can make of the slot of a flush job, which was FLUSHING with `d` and `fw`. -/
def FlushGoes (good : Bool) (j : FlushJob) (d : Dirty) (fw : Nat) (t : State) : Prop :=
  (∃ e, (t.slot j.slot).unflushed? = some e ∧ e.lbn = d.lbn) ∨
  (good = true ∧ d.lastWrite = fw ∧ t.slot j.slot = .clean d.lbn d.region d.data) ∨
  (good = false ∧ t.slot j.slot = .free ∧ (3 ≤ j.tried ∨ NoneFree t.blockMap))

theorem State.noteRest_slot (s : State) (i : SlotId) : s.noteRest.slot i = s.slot i := by
  unfold State.noteRest
  split
  · split <;> rfl
  · rfl

theorem State.countQuiesceLoss_fields (s : State) :
    s.countQuiesceLoss.staging = s.staging ∧ s.countQuiesceLoss.blockMap = s.blockMap := by
  unfold State.countQuiesceLoss
  split <;> exact ⟨rfl, rfl⟩

theorem State.noteRest_blockMap (s : State) : s.noteRest.blockMap = s.blockMap := by
  unfold State.noteRest
  split
  · split <;> rfl
  · rfl

section
variable {j : FlushJob} {d : Dirty} {fw : Nat}

/-- While its slot is FLUSHING the job goes on, whatever the outcome. -/
theorem FlushGoes.of_slot {t : State} (good : Bool) (h : t.slot j.slot = .flushing d fw) : FlushGoes good j d fw t :=
  .inl ⟨d, by rw [h]; rfl, rfl⟩

theorem State.flushWritten_goes (h : s.slot j.slot = .flushing d fw) : FlushGoes true j d fw (s.flushWritten j.slot) := by
  simp only [State.flushWritten, h]
  split
  · next hnew =>
    refine .inr (.inl ⟨rfl, hnew.1, ?_⟩)
    rw [State.noteRest_slot]
    exact (Staging.makeClean_slot _ j.slot j.slot d).trans (if_pos rfl)
  · refine .inl ⟨d, ?_, rfl⟩
    have hslot := (Staging.setSlot_slot { s.staging with wtWaiters := s.staging.wtWaiters.map (WtWaiter.satisfy j.slot fw) }
      j.slot j.slot (.dirty d)).trans (if_pos rfl)
    exact congrArg Slot.unflushed? hslot

theorem State.flushLost_free (h : s.slot j.slot = .flushing d fw) :
    (s.flushLost j.slot).slot j.slot = .free ∧ (s.flushLost j.slot).blockMap = s.blockMap := by
  simp only [State.flushLost, h]
  rw [State.noteRest_slot, State.noteRest_blockMap]
  split
  all_goals
    simp only [State.slot, State.offerBoth_staging, State.offerBoth_blockMap, State.countQuiesceLoss_fields]
    exact ⟨(Staging.makeFree_slot _ j.slot j.slot).trans (if_pos rfl), trivial⟩

theorem State.tryNextSpare_goes (h : s.slot j.slot = .flushing d fw) : FlushGoes false j d fw (s.tryNextSpare j) := by
  have hlost := State.flushLost_free (s := s.setJob none) h
  unfold State.tryNextSpare
  split
  · next htried => exact .inr (.inr ⟨rfl, hlost.1, .inl htried⟩)
  · split
    · next hnone =>
      refine .inr (.inr ⟨rfl, hlost.1, .inr fun e he => ?_⟩)
      rw [State.endFlushLost, hlost.2] at he
      simpa using List.findIdx?_eq_none_iff.mp hnone e he
    · exact .of_slot false h

theorem State.reassign_goes (h : s.slot j.slot = .flushing d fw) : FlushGoes false j d fw (s.reassign j) := by
  unfold State.reassign
  split
  · exact State.tryNextSpare_goes h
  · exact State.tryNextSpare_goes (s := s.sparesChanged _) h

theorem State.currentWriteAnswered_goes (h : s.slot j.slot = .flushing d fw) (a : WriteAnswer) :
    FlushGoes (a == .good) j d fw (s.currentWriteAnswered j a) := by
  cases a with
  | good =>
    simp only [State.currentWriteAnswered]
    split
    · exact .of_slot _ h
    · exact State.flushWritten_goes (s := s.setJob none) h
  | failed => exact State.reassign_goes h

theorem State.spareWriteAnswered_goes (h : s.slot j.slot = .flushing d fw) (k : Nat) (a : WriteAnswer) :
    FlushGoes (a == .good) j d fw (s.spareWriteAnswered j k a) := by
  cases a with
  | good => exact State.flushWritten_goes (s := (s.sparesChanged ((s.blockMap.succeedAt j.lbn k).dropCandidate j.lbn)).setJob none) h
  | failed => exact State.reassign_goes h

/-- Whether a verify read has the outcome GOOD (R106). -/
def readIsGood : ReadAnswer → Bool
  | .good _ => true
  | .corrected _ => false
  | .unrecoverable => false

theorem State.verifyAnswered_goes (h : s.slot j.slot = .flushing d fw) (a : ReadAnswer) :
    FlushGoes (readIsGood a) j d fw (s.verifyAnswered j a) := by
  cases a with
  | good =>
    exact State.flushWritten_goes (s := ({ s with blockMap := s.blockMap.dropCandidate j.lbn } : State).setJob none) h
  | corrected => exact State.reassign_goes h
  | unrecoverable => exact State.reassign_goes h

/-! ### The answer rows, with a flush job in progress -/

section
variable (hj : s.sched.job = some (.flush j)) (h : s.slot j.slot = .flushing d fw)
include hj h

theorem State.takeFlushWriteAnswer_goes (a : WriteAnswer) : FlushGoes (a == .good) j d fw (s.takeFlushWriteAnswer a) := by
  simp only [State.takeFlushWriteAnswer, hj]
  split
  · split
    · exact .of_slot _ h
    · exact State.currentWriteAnswered_goes (s := s.answered) h a
  · exact .of_slot _ h

theorem State.takeVerifyAnswer_goes (a : ReadAnswer) : FlushGoes (readIsGood a) j d fw (s.takeVerifyAnswer a) := by
  simp only [State.takeVerifyAnswer, hj]
  split
  · exact State.verifyAnswered_goes (s := s.answered) h a
  · exact .of_slot _ h

theorem State.takeSpareWriteAnswer_goes (a : WriteAnswer) : FlushGoes (a == .good) j d fw (s.takeSpareWriteAnswer a) := by
  simp only [State.takeSpareWriteAnswer, hj]
  split
  · exact State.spareWriteAnswered_goes (s := s.answered) h _ a
  · exact .of_slot _ h

end

/-- A reply of another type or for another issue carries no answer (R141). -/
theorem answerOfReply_of_header {op : Op} {issueNo : Nat} {reply : List Byte}
    (h : reply.head? ≠ some 1 ∨ (reply.getD 1 0).toNat ≠ issueNo) : answerOfReply op issueNo reply = none := by
  by_cases htype : reply.head? = some 1
  · have hissue := h.resolve_left (not_not.mpr htype)
    exact (if_neg (not_not.mpr htype)).trans (if_pos hissue)
  · exact if_pos htype

/-- The outcome of an answer that a reply carries stands in its third byte (R141). -/
theorem answerOfReply_outcome {op : Op} {issueNo : Nat} {reply : List Byte} :
    (∀ a, answerOfReply op issueNo reply = some (.write a) → (reply.getD 2 0 == 1) = (a == .good)) ∧
    ∀ a, answerOfReply op issueNo reply = some (.read a) → (reply.getD 2 0 == 1) = readIsGood a := by
  by_cases hother : reply.head? ≠ some 1 ∨ (reply.getD 1 0).toNat ≠ issueNo
  · rw [answerOfReply_of_header hother]
    exact ⟨nofun, nofun⟩
  · obtain ⟨htype, hissue⟩ := not_or.mp hother
    simp only [answerOfReply, if_neg htype, if_neg hissue]
    cases op with
    | identify =>
      dsimp only
      split
      · exact ⟨nofun, nofun⟩
      · exact ⟨nofun, nofun⟩
    | read pbn =>
      refine ⟨fun a ha => ?_, fun a ha => ?_⟩
      all_goals
        dsimp only at ha
        split_ifs at ha
        all_goals cases ha
        all_goals simp_all [readIsGood]
    | write pbn data =>
      refine ⟨fun a ha => ?_, fun a ha => ?_⟩
      all_goals
        dsimp only at ha
        split_ifs at ha
        all_goals cases ha
        all_goals simp_all

theorem State.takeReply_goes (hj : s.sched.job = some (.flush j)) (h : s.slot j.slot = .flushing d fw) (reply : List Byte) :
    FlushGoes (reply.getD 2 0 == 1) j d fw (s.takeReply reply) := by
  unfold State.takeReply
  split
  · exact .of_slot _ h
  · next op _ =>
    have hout := answerOfReply_outcome (op := op) (issueNo := s.link.issueNo) (reply := reply)
    split
    · rw [State.takeIdentifyAnswer, hj]
      exact .of_slot _ h
    · next a ha =>
      rw [hj, hout.2 a ha]
      exact State.takeVerifyAnswer_goes hj h a
    · next a ha =>
      rw [hj, hout.1 a ha]
      dsimp only
      split
      · exact State.takeFlushWriteAnswer_goes hj h a
      · exact State.takeSpareWriteAnswer_goes hj h a
    · exact .of_slot _ h

/-- A command that can end a flush, with a flush job in progress between the events. -/
theorem exec_flushGoes {c : Instr} {good : Bool} {t : State} (hc : flushOutcome c = some good) (ht : exec c s = .next t)
    (hr : s.resetLow = false) (hj : s.settle.sched.job = some (.flush j)) (h : s.settle.slot j.slot = .flushing d fw) :
    FlushGoes good j d fw t := by
  have row (f : State → State) (hf : FlushGoes good j d fw (f s.settle.openEvent)) :
      FlushGoes good j d fw (s.fromOutside f) := by rwa [State.fromOutside, hr]
  have answer (issue : Byte) (fits : Bool) (f : State → State) (hf : FlushGoes good j d fw (f s.settle.openEvent)) :
      FlushGoes good j d fw (s.mediaAnswer issue fits f) := by
    refine row _ ?_
    split
    · exact hf
    · exact .of_slot _ h
  unfold flushOutcome at hc
  split at hc
  · next issue a =>
    cases hc; cases ht
    exact answer issue true (fun u => u.takeFlushWriteAnswer a) (State.takeFlushWriteAnswer_goes (s := s.settle.openEvent) hj h a)
  · next issue a =>
    cases hc; cases ht
    exact answer issue true (fun u => u.takeSpareWriteAnswer a) (State.takeSpareWriteAnswer_goes (s := s.settle.openEvent) hj h a)
  · next issue data =>
    cases hc; cases ht
    exact answer issue (dataFits (.good data)) (fun u => u.takeVerifyAnswer (.good data))
      (State.takeVerifyAnswer_goes (s := s.settle.openEvent) hj h (.good data))
  · next issue data =>
    cases hc; cases ht
    exact answer issue (dataFits (.corrected data)) (fun u => u.takeVerifyAnswer (.corrected data))
      (State.takeVerifyAnswer_goes (s := s.settle.openEvent) hj h (.corrected data))
  · next issue =>
    cases hc; cases ht
    exact answer issue true (fun u => u.takeVerifyAnswer .unrecoverable) (State.takeVerifyAnswer_goes (s := s.settle.openEvent) hj h .unrecoverable)
  · next reply =>
    cases hc; cases ht
    exact row (fun u => u.takeReply reply) (State.takeReply_goes (s := s.settle.openEvent) hj h reply)
  · cases hc

end

/-- A command that can end a flush comes from outside. -/
theorem fromOutside_of_flushOutcome {c : Instr} {good : Bool} (hc : flushOutcome c = some good) : fromOutside c = true := by
  unfold flushOutcome at hc
  split at hc
  all_goals cases hc
  all_goals rfl

/-- The eighth law (R74). -/
theorem exec_keeps_unflushed {c : Instr} {t : State} (hs : Lawful s) (ht : exec c s = .next t) (hcold : c ≠ .coldReset)
    (i : SlotId) (d : Dirty) (hd : (s.slot i).unflushed? = some d) :
    (∃ e, (t.slot i).unflushed? = some e ∧ e.lbn = d.lbn) ∨ FlushEnds c s t i d.lbn := by
  have k : Kept (fun x lbn => x = i ∧ lbn = d.lbn) False s := hs.kept (by rintro _ _ ⟨rfl, rfl⟩; exact ⟨d, hd, rfl⟩) nofun
  by_cases hend : ∃ good j, flushOutcome c = some good ∧ s.settle.sched.job = some (.flush j) ∧ j.slot = i
  case neg =>
    refine .inl ((k.afterCommand c hcold (fun _ _ => id) (fun hc j hj lbn hx => ?_) nofun t ht).unflushed i _ ⟨rfl, rfl⟩)
    obtain ⟨good, hgood⟩ := Option.ne_none_iff_exists'.mp hc
    exact hend ⟨good, j, hgood, hj, hx.1⟩
  case pos =>
    obtain ⟨good, j, hc, hj, rfl⟩ := hend
    obtain ⟨e, fw, hslot, -, hlbn, hdata⟩ := k.settle.flushing.carried j hj
    obtain ⟨e', he', heq⟩ := k.settle.unflushed j.slot _ ⟨rfl, rfl⟩
    have hslot' : s.settle.slot j.slot = .flushing e fw := hslot
    obtain rfl : e' = e := by rw [hslot'] at he'; exact (Option.some.inj he').symm
    by_cases hr : s.resetLow = true
    · rw [exec_of_resetLow (fromOutside_of_flushOutcome hc) hr] at ht
      cases ht
      exact .inl ⟨d, hd, rfl⟩
    · rcases exec_flushGoes hc ht (Bool.eq_false_of_not_eq_true hr) hj hslot' with hstays | ⟨rfl, hnew, hclean⟩ | ⟨rfl, hfree, hspares⟩
      · rw [← heq]; exact .inl hstays
      · rw [← heq]
        exact .inr ⟨j, _, fw, hj, rfl, hlbn.symm, hslot', rfl, .inl ⟨hc, hnew, (hdata hnew).symm, hclean⟩⟩
      · rw [← heq]
        exact .inr ⟨j, _, fw, hj, rfl, hlbn.symm, hslot', rfl, .inr ⟨hc, hfree, hspares⟩⟩

/-- The eleventh law (R25). -/
theorem exec_keeps_agreed {c : Instr} {t : State} (hs : Lawful s) (ht : exec c s = .next t) (hcold : c ≠ .coldReset)
    (hphase : s.agree.phase = .agreed) (hno : NoReset s) (hc : BringsNoReset c) : t.agree.phase = .agreed ∧ NoReset t := by
  have k : Kept (fun _ _ => False) True s := hs.kept nofun fun _ => ⟨hphase, hno⟩
  have kt := k.afterCommand c hcold (fun _ _ => id) (fun _ _ _ _ => id) (fun _ => hc) t ht
  exact ⟨(kt.agreed trivial).1, (kt.agreed trivial).2, fun p => (kt.ports p).quiet trivial⟩

end

/-- Settles O59: cold reset brings the reset state, and every other command keeps the laws by `Kept.afterCommand`. -/
theorem everyStepKeepsTheLaws : Obligations.EveryStepKeepsTheLaws := by
  intro s t hs hstep
  have kept (u : State) (hu : Lawful u) : Kept (fun _ _ => False) False u := hu.kept nofun nofun
  unfold step at hstep
  split at hstep
  · cases hstep; exact hs
  · next c rest _ =>
    have k : Kept (fun _ _ => False) False { s with pending := rest } := (kept s hs).frame
    by_cases hcold : c = .coldReset
    · subst hcold
      cases hstep
      exact (Kept.reset (fun _ _ => id) id rest s.choices).lawful
    · exact (k.afterCommand c hcold (fun _ _ => id) (fun _ _ _ _ => id) nofun t hstep).lawful

/-- Settles O60: the eighth law by what an answer makes of the slot of the flush job, the eleventh by `Kept` under `NoReset`. -/
theorem stepsKeepUnflushedSlotsAndThePhase : Obligations.StepsKeepUnflushedSlotsAndThePhase := fun _ _ _ hs ht hcold =>
  ⟨exec_keeps_unflushed hs ht hcold,
    fun hphase hno hwell hkind hopen => exec_keeps_agreed hs ht hcold hphase hno ⟨hwell, hkind, hopen⟩⟩

end Sys2Proof.Machine
end

section
/-! PROOFS. The queue, cold reset, start-up, and how a command from outside finishes the event in hand. -/

namespace Sys2Proof.Machine

/-! ### The queue (log 4, log 27) -/

theorem exec_next (c : Instr) (s : State) : ∃ t, exec c s = .next t := by
  cases c with
  | _ => exact ⟨_, rfl⟩

/-- Settles O1: `step` by its two branches, and no row of `exec` faults or is refused. -/
theorem stepTakesTheFrontCommand : Obligations.StepTakesTheFrontCommand :=
  ⟨fun _ _ _ => rfl, fun s hempty => by simp only [step, hempty], exec_next⟩

/-! ### Cold reset -/

theorem State.reset_slot (s : State) (i : SlotId) :
    ({ State.reset with pending := s.pending, choices := s.choices } : State).slot i = .free := by
  simp [State.slot, State.reset, Staging.coldReset]

theorem State.reset_region (s : State) (r : Fin 16) :
    ({ State.reset with pending := s.pending, choices := s.choices } : State).region r = Region.undefinedRecord := by
  simp [State.region, State.reset]

theorem State.reset_port (s : State) (p : PortId) :
    ({ State.reset with pending := s.pending, choices := s.choices } : State).port p = PortUnit.coldReset := by
  cases p <;> rfl

/-- Settles O3: the state after COLD_RESET is `State.reset` but for the model's own queue and counter. -/
theorem coldResetSetsEveryBlock : Obligations.ColdResetSetsEveryBlock := by
  refine fun s => ⟨_, rfl, rfl, rfl, rfl, fun p => ?ports, fun r => ?regions, rfl, rfl, rfl, rfl, s.reset_slot, ?rest⟩
  case ports => rw [s.reset_port p]; exact ⟨rfl, rfl, rfl, rfl, rfl, rfl, rfl⟩
  case regions => rw [s.reset_region r]; exact ⟨rfl, rfl, rfl⟩
  case rest => repeat' constructor

/-- Settles O58: the laws are what `Kept` says of the reset state, with no slot and no phase to keep. -/
theorem lawsHoldAtReset : Obligations.LawsHoldAtReset :=
  (Kept.reset (D := fun _ _ => False) (n := False) (fun _ _ => id) id [] 0).lawful

/-! ### START_UP (R165) -/

/-- Settles O35: the row by its two branches; the receivers are those of R176. -/
theorem startUpBeginsIdentification : Obligations.StartUpBeginsIdentification :=
  fun _ _ _ => ⟨fun hlow => congrArg Host.Outcome.next (if_pos hlow),
    fun hhigh => congrArg Host.Outcome.next (if_neg (by simp [hhigh]))⟩

/-! ### Finishing the event in hand (log 1) -/

theorem SettlesIn.settled {n : Nat} {s t : State} (h : SettlesIn n s t) : t.firstOwed 7 = [] ∧ t.resetLow = s.resetLow := by
  induction n generalizing s with
  | zero =>
    obtain ⟨hnone, rfl⟩ := h
    exact ⟨hnone, rfl⟩
  | succ n ih =>
    obtain ⟨o, -, hrest⟩ := h
    obtain ⟨hnone, hreset⟩ := ih hrest
    exact ⟨hnone, by rw [hreset, State.perform_resetLow, State.chose_resetLow]⟩

/-- Steps enough: the settling takes the owed steps one by one and stops where none is owed. -/
theorem SettlesIn.settleBelow {n : Nat} {s t : State} (h : SettlesIn n s t) {fuel : Nat} (hfuel : n ≤ fuel) :
    State.settleBelow 7 fuel s = t := by
  induction n generalizing s fuel with
  | zero =>
    obtain ⟨hnone, rfl⟩ := h
    exact t.settleBelow_of_none 7 fuel hnone
  | succ n ih =>
    obtain ⟨o, hpick, hrest⟩ := h
    obtain ⟨m, rfl⟩ := Nat.exists_eq_add_of_lt hfuel
    simp only [State.settleBelow, hpick]
    exact ih hrest (by omega)

theorem SettlesIn.settle {n : Nat} {s t : State} (h : SettlesIn n s t) (hn : n ≤ 256) : s.settle = t :=
  h.settleBelow (by unfold State.settleFuel; omega)

/-- Settles O2: both states settle to the same one, in which the row's own function runs. -/
theorem outsideCommandsFinishTheEvent : Obligations.OutsideCommandsFinishTheEvent := by
  refine fun c s hc => ⟨exec_of_resetLow hc, fun hhigh n t hn ht => ?_⟩
  obtain ⟨f, hf⟩ := exec_eq_fromOutside hc
  obtain ⟨hnone, hreset⟩ := ht.settled
  have hhigh' : t.resetLow = false := hreset.trans hhigh
  refine ⟨⟨hhigh', hnone⟩, ?_⟩
  rw [hf, hf, t.fromOutside_quiet f hhigh' hnone, State.fromOutside, hhigh, ht.settle hn]
  rfl

end Sys2Proof.Machine
end

section
/-! PROOFS. The apply of a proposal (R41, R43 to R46, R96). -/

namespace Sys2Proof.Machine

/-! ### Notices offered one after the other -/

/-- What a port unit makes of notices offered to both ports. -/
def PortUnit.takeNotices (u : PortUnit) (p : PortId) (xs : List (PortId × Notice)) : PortUnit :=
  xs.foldl (fun u x => if x.1 = p then u.acceptNotice x.2 else u) u

/-- Offered notices reach the two port units and nothing else. -/
theorem State.offers_eq (s : State) (xs : List (PortId × Notice)) : s.offers xs =
    { s with portA := s.portA.takeNotices .A xs, portB := s.portB.takeNotices .B xs } := by
  induction xs generalizing s with
  | nil => rfl
  | cons x xs ih =>
    obtain ⟨p, notice⟩ := x
    refine (ih _).trans ?_
    cases p <;> rfl

theorem inAnyOrder_perm {α : Type} (fuel : Nat) (xs : List α) (n : Nat) : (inAnyOrder fuel xs n).Perm xs := by
  induction fuel generalizing xs n with
  | zero =>
    match xs with
    | [] => exact .refl _
    | [_] => exact .refl _
    | _ :: _ :: _ => exact .refl _
  | succ fuel ih =>
    match xs with
    | [] => exact .refl _
    | [x] => exact .refl _
    | x :: y :: zs =>
      have hlt : Config.choice n % (x :: y :: zs).length < (x :: y :: zs).length := Nat.mod_lt _ (by simp)
      have hpick : pick (x :: y :: zs) n = some (x :: y :: zs)[Config.choice n % (x :: y :: zs).length] :=
        List.getElem?_eq_getElem hlt
      simp only [inAnyOrder, hpick]
      exact ((ih _ _).cons _).trans (List.getElem_cons_eraseIdx_perm hlt)

/-! ### The drain (R41) -/

theorem State.readsTarget_eq_false (s : State) (c : Change) : s.readsTarget c = false ↔
    (∀ p, ∀ w ∈ s.sched.wait p, c.targets w.region = false) ∧
      ∀ j, s.sched.job = some (.read j) → c.targets j.read.region = false := by
  have hwait : (∀ p, ∀ w ∈ s.sched.wait p, c.targets w.region = false) ↔
      (∀ w ∈ s.sched.waitA, c.targets w.region = false) ∧ ∀ w ∈ s.sched.waitB, c.targets w.region = false :=
    ⟨fun h => ⟨h .A, h .B⟩, fun h p => by cases p; exacts [h.1, h.2]⟩
  rw [hwait]
  unfold State.readsTarget
  cases hj : s.sched.job with
  | none => simp
  | some j => cases j <;> simp

theorem Staging.dirtyInScope_eq_false (b : Staging) : b.dirtyInScope = false ↔
    ∀ (i : SlotId) d, b.slots[i].unflushed? = some d → b.drain.contains d.lbn = false := by
  simp only [Staging.dirtyInScope, allSlots, List.any_eq_false, List.mem_finRange, true_implies]
  refine forall_congr' fun i => ?_
  cases b.slots[i].unflushed? with
  | none => simp
  | some d => simp

theorem State.drained_iff (s : State) (c : Change) : s.drained c = true ↔ DrainOver s c := by
  simp only [State.drained, Bool.and_eq_true, Bool.not_eq_true', s.readsTarget_eq_false, Staging.dirtyInScope_eq_false]
  unfold DrainOver State.slot
  simp only [List.any_eq_false, Bool.not_eq_true, and_assoc]

theorem State.applyDue_eq {s : State} {pr : Proposal} (hpr : s.agree.proposal = some pr) (hstate : pr.state = .applying)
    (hentering : s.agree.entering = none) : s.applyDue = if s.drained pr.change then some pr else none := by
  simp [State.applyDue, hpr, hstate, hentering]

/-! ### The tables after a change (R43, R44) -/

theorem Change.settledRecord_newRecord (c : Change) (r : Fin 16) (x : Region) :
    c.settledRecord r (c.newRecord r x) = recordAfter c r x := by
  cases c with
  | define q | delete q | resize q =>
    by_cases h : q = r <;> simp [Change.settledRecord, Change.newRecord, Change.holdLoss, Change.targets, recordAfter,
      Region.undefinedRecord, h]
  | reconfigure q attrs lease =>
    by_cases h : q = r <;> cases he : attrs.exclusive <;>
      simp [Change.settledRecord, Change.newRecord, Change.holdLoss, Change.targets, recordAfter, h, he]
  | resetTable | close | setSpares => rfl

theorem State.applyTables_eq (s : State) (c : Change) : s.applyTables c =
    { s with
      agree := { s.agree with phase := phaseAfter c s.agree.phase }
      blockMap := mapAfter c s.blockMap
      staging := (s.applyTables c).staging } := by
  cases c <;> rfl

/-! ### CLEAN slots freed (R96) -/

theorem Staging.foldl_makeFree_forced (gone : List SlotId) (b : Staging) (forced : Bool) :
    gone.foldl Staging.makeFree { b with forced := forced } = { gone.foldl Staging.makeFree b with forced := forced } := by
  induction gone generalizing b with
  | nil => rfl
  | cons i gone ih => exact ih (b.makeFree i)

theorem Staging.freeLeaving_forced (b : Staging) (forced : Bool) :
    ({ b with forced := forced } : Staging).freeLeaving = { b.freeLeaving with forced := forced } := by
  unfold Staging.freeLeaving
  dsimp only
  rw [Staging.foldl_makeFree_forced]

theorem State.applyTables_freeLeaving (s : State) (c : Change) :
    (s.applyTables c).staging.freeLeaving = bufferAfter c s.staging := by
  cases c with
  | setSpares count =>
    have hfree : forcedBy ((List.replicate count Spare.free).countP (· == .free)) = decide (count ≤ 8) := by
      rw [List.countP_replicate]
      rfl
    refine (Staging.freeLeaving_forced s.staging _).trans ?_
    rw [bufferAfter, ← hfree]
    rfl
  | _ => rfl

/-! ### The apply (R43 to R46) -/

theorem State.offerInAnyOrder_eq (s : State) (xs : List (PortId × Notice)) :
    s.offerInAnyOrder xs =
      { s.offers (inAnyOrder xs.length xs s.choices) with choices := s.choices + xs.length } := by
  have hchoices : (s.offers (inAnyOrder xs.length xs s.choices)).choices = s.choices := by rw [State.offers_eq]
  exact congrArg (fun k => ({ s.offers (inAnyOrder xs.length xs s.choices) with choices := k + xs.length } : State)) hchoices

theorem State.applyProposal_applied (s : State) (pr : Proposal) : Applied s (s.applyProposal pr) pr := by
  refine ⟨inAnyOrder (s.lostHolds pr.change).length (s.lostHolds pr.change) s.choices,
    s.choices + (s.lostHolds pr.change).length, inAnyOrder_perm _ _ _, ?_⟩
  have hregions : Vector.ofFn (fun r : Fin 16 => pr.change.settledRecord r
      (Vector.ofFn fun r : Fin 16 => pr.change.newRecord r s.regions[r])[r]) =
        Vector.ofFn fun r : Fin 16 => recordAfter pr.change r s.regions[r] := by
    simp [Change.settledRecord_newRecord]
  obtain ⟨b, htables, hfreed⟩ : ∃ b, s.applyTables pr.change =
      { s with
        agree := { s.agree with phase := phaseAfter pr.change s.agree.phase }
        blockMap := mapAfter pr.change s.blockMap
        staging := b } ∧ b.freeLeaving = bufferAfter pr.change s.staging :=
    ⟨_, s.applyTables_eq pr.change, s.applyTables_freeLeaving pr.change⟩
  simp only [State.applyProposal, htables, State.mapRegions, hfreed, State.offerInAnyOrder_eq, State.offers_eq]
  rw [hregions]
  rfl

theorem State.applyNow_of_drained {s : State} {pr : Proposal} (hpr : s.agree.proposal = some pr) (hstate : pr.state = .applying)
    (hentering : s.agree.entering = none) (hdrain : DrainOver s pr.change) :
    s.applyDue = some pr ∧ s.applyNow = s.applyProposal pr := by
  have hdue : s.applyDue = some pr := by
    rw [State.applyDue_eq hpr hstate hentering, if_pos ((s.drained_iff _).mpr hdrain)]
  exact ⟨hdue, by simp only [State.applyNow, hdue]⟩

theorem State.applyDue_of_undrained {s : State} {pr : Proposal} (hpr : s.agree.proposal = some pr) (hstate : pr.state = .applying)
    (hentering : s.agree.entering = none) (hdrain : ¬DrainOver s pr.change) : s.applyDue = none := by
  rw [State.applyDue_eq hpr hstate hentering, if_neg (mt (s.drained_iff _).mp hdrain)]

/-- APPLY where nothing of an earlier rank is owed. -/
theorem exec_apply {s : State} (hnone : s.firstOwed 3 = []) : exec .apply s = .next s.applyNow := by
  refine congrArg Host.Outcome.next ?_
  rw [s.ownStep_of_none 3 _ hnone]
  cases hdue : s.applyDue with
  | none => simp [State.owedAt, State.applyNow, hdue]
  | some pr => simp [State.owedAt, State.perform, hdue]

/-! ### The slots that an apply frees (R96) -/

theorem Staging.foldl_makeFree (gone : List SlotId) (b : Staging) :
    (∀ i : SlotId, (gone.foldl Staging.makeFree b).slots[i] = if i ∈ gone then .free else b.slots[i]) ∧
    gone.foldl Staging.makeFree b = { b with
      slots := (gone.foldl Staging.makeFree b).slots
      dirtyOrder := b.dirtyOrder.diff gone
      cleanOrder := b.cleanOrder.diff gone } := by
  induction gone generalizing b with
  | nil => exact ⟨fun i => by simp, by simp⟩
  | cons k gone ih =>
    obtain ⟨hslots, hrest⟩ := ih (b.makeFree k)
    refine ⟨fun i => ?_, ?_⟩
    · rw [List.foldl_cons, hslots, b.makeFree_slot]
      by_cases hi : i ∈ gone <;> by_cases hk : i = k <;> simp [hi, hk]
    · rw [List.foldl_cons, hrest]
      simp [List.diff_cons, Staging.makeFree, Staging.setSlot]

theorem diff_of_apart {xs gone : List SlotId} (h : ∀ i ∈ gone, i ∉ xs) : xs.diff gone = xs := by
  induction gone with
  | nil => rfl
  | cons i gone ih =>
    rw [List.diff_cons, List.erase_of_not_mem (h i List.mem_cons_self)]
    exact ih fun k hk => h k (List.mem_cons_of_mem i hk)

/-- The slots that an apply frees, as a list. -/
def Staging.leavingSlots (b : Staging) : List SlotId := b.cleanOrder.filter fun i =>
  match b.slots[i].lbn? with
  | some lbn => b.drain.contains lbn
  | none => false

theorem Staging.mem_leavingSlots (b : Staging) (i : SlotId) : i ∈ b.leavingSlots ↔ b.leaves i := by
  rw [Staging.leavingSlots, List.mem_filter, Staging.leaves]
  refine and_congr_right fun _ => ?_
  cases b.slots[i].lbn? with
  | none => simp
  | some lbn => simp

theorem Staging.freeLeaving_eq (b : Staging) :
    b.freeLeaving = { b.leavingSlots.foldl Staging.makeFree b with drain := .nothing } := rfl

/-- Settles O39: the row by whether the drain is over (`State.drained_iff`), the slots by those that leave. -/
theorem applyWhenTheDrainIsOver : Obligations.ApplyWhenTheDrainIsOver := by
  refine ⟨fun s pr hnone hpr hstate hentering => ⟨fun hdrain => ?applied, fun hdrain => ?waits⟩, fun b hnodup hapart => ?freed⟩
  case applied =>
    rw [exec_apply hnone, (State.applyNow_of_drained hpr hstate hentering hdrain).2]
    exact ⟨_, rfl, s.applyProposal_applied pr⟩
  case waits => rw [exec_apply hnone, State.applyNow, State.applyDue_of_undrained hpr hstate hentering hdrain]
  case freed =>
    obtain ⟨hslots, hrest⟩ := Staging.foldl_makeFree b.leavingSlots b
    have hdirty : b.dirtyOrder.diff b.leavingSlots = b.dirtyOrder :=
      diff_of_apart fun i hi => hapart i (List.mem_of_mem_filter hi)
    rw [hdirty] at hrest
    have hclean : b.freeLeaving.cleanOrder = b.cleanOrder.diff b.leavingSlots := by rw [Staging.freeLeaving_eq, hrest]
    refine ⟨fun i hi => ?_, fun i hi => ?_, ?_, fun i => ?_, ?_⟩
    · exact (hslots i).trans (if_pos ((b.mem_leavingSlots i).mpr hi))
    · exact (hslots i).trans (if_neg (mt (b.mem_leavingSlots i).mp hi))
    · rw [hclean]; exact List.diff_sublist _ _
    · rw [hclean, hnodup.mem_sdiff_iff, b.mem_leavingSlots]
    · rw [hclean, Staging.freeLeaving_eq, hrest]

end Sys2Proof.Machine
end

section
/-! PROOFS. A SUBMIT meets the request list, and presentation moves on (R54, R56, R57, R58). -/

namespace Sys2Proof.Machine

/-! ### The request list (R54) -/

theorem State.submit_of_idle (s : State) (p : PortId) (tag : Byte) (q : Request) (h : (s.port p).receiver = .idle) :
    s.submit p tag q = (s.silent p (8 * (1 + frameLength q))).takeSubmit p tag q := by
  simp [State.submit, State.closeOpen, h]

theorem State.silent_requests (s : State) (p : PortId) (count : Nat) :
    ((s.silent p count).port p).requests = (s.port p).requests := by
  simp [State.silent]

theorem State.takeSubmit_of_full (s : State) (p : PortId) (tag : Byte) (q : Request) (h : 8 ≤ (s.port p).requests.length) :
    s.takeSubmit p tag q = s.updPort p PortUnit.setOverrun := if_pos h

theorem State.takeSubmit_of_clash (s : State) (p : PortId) (tag : Byte) (q : Request) (hroom : (s.port p).requests.length < 8)
    (h : ∃ r ∈ (s.port p).requests, r.tag = tag) : s.takeSubmit p tag q = s.updPort p PortUnit.setTagClash := by
  have hany : ((s.port p).requests.any fun r => r.tag == tag) = true := by simpa using h
  rw [State.takeSubmit, if_neg (show ¬Config.maxOutstanding ≤ _ from Nat.not_le.mpr hroom), if_pos hany]

theorem State.takeSubmit_of_free (s : State) (p : PortId) (tag : Byte) (q : Request) (hroom : (s.port p).requests.length < 8)
    (h : ∀ r ∈ (s.port p).requests, r.tag ≠ tag) : s.takeSubmit p tag q =
      (s.updPort p fun u => { u with requests := u.requests ++ [⟨tag, q, .awaitingTurn⟩] }).moveOn := by
  have hany : ((s.port p).requests.any fun r => r.tag == tag) = false := by simpa using h
  rw [State.takeSubmit, if_neg (show ¬Config.maxOutstanding ≤ _ from Nat.not_le.mpr hroom), hany]
  rfl

/-- A row between two events with SEL# high is the taking of its request. -/
theorem exec_rowOf_settled (s : State) (p : PortId) (tag : Byte) (q : Request) (hk : keptWhole q = true) (hs : Settled s)
    (hidle : (s.port p).receiver = .idle) :
    exec (rowOf p tag q) s = .next ((s.openEvent.silent p (8 * (1 + frameLength q))).takeSubmit p tag q) := by
  rw [exec_rowOf p tag q s hk, s.fromOutside_quiet _ hs.1 hs.2, State.submit_of_idle _ p tag q (by rwa [State.openEvent_port])]

theorem exec_rowOf_taken (s : State) (p : PortId) (tag : Byte) (q : Request) (hk : keptWhole q = true) (hs : Settled s)
    (hidle : (s.port p).receiver = .idle) (hroom : (s.port p).requests.length < 8)
    (hfree : ∀ r ∈ (s.port p).requests, r.tag ≠ tag) :
    exec (rowOf p tag q) s = .next (s.taking p tag q .awaitingTurn).moveOn := by
  rw [exec_rowOf_settled s p tag q hk hs hidle,
    State.takeSubmit_of_free _ p tag q (by simpa [State.silent_requests] using hroom)
      (by simpa [State.silent_requests] using hfree)]
  cases p <;> rfl

/-- Settles O4: the three branches of `State.takeSubmit`. -/
theorem submitMeetsTheRequestList : Obligations.SubmitMeetsTheRequestList := by
  intro s p tag q hk hs hidle
  refine ⟨fun hfull => ?overrun, fun hroom hclash => ?clash, exec_rowOf_taken s p tag q hk hs hidle⟩
  case overrun =>
    rw [exec_rowOf_settled s p tag q hk hs hidle,
      State.takeSubmit_of_full _ p tag q (by simpa [State.silent_requests] using hfull)]
    cases p <;> rfl
  case clash =>
    rw [exec_rowOf_settled s p tag q hk hs hidle,
      State.takeSubmit_of_clash _ p tag q (by simpa [State.silent_requests] using hroom)
        (by simpa [State.silent_requests] using hclash)]
    cases p <;> rfl

/-! ### The order of presentation (R56) -/

theorem State.taking_waits (s : State) (p : PortId) (tag : Byte) (q : Request) (hq : Quiet s)
    (hw : ∃ r ∈ (s.port p).requests, r.state = .awaitingSlots) :
    (s.taking p tag q .awaitingTurn).moveOn = s.taking p tag q .awaitingTurn := by
  refine State.moveOn_of_still _ (by rw [State.taking_agree]; exact hq.2.2.1) ?_
  refine (State.readyPorts_nil _).mpr fun x => ?_
  rcases portEqOrOther p x with rfl | rfl
  · rw [State.taking_port, ← PortUnit.presentsNone_iff]
    obtain ⟨r, hr, hstate⟩ := hw
    exact .inl ⟨r, List.mem_append_left _ hr, hstate⟩
  · rw [State.taking_other]
    exact s.other_next p hq

theorem State.presentNext_of_next {s : State} {p : PortId} {r : Record} (h : (s.port p).nextToPresent = some r) :
    s.presentNext p = s.present p r.tag r.request := by
  simp [State.presentNext, h]

/-- Where a port alone has a request to present, moving on presents it and moves on. -/
theorem State.moveOn_of_next (s : State) (p : PortId) (r : Record) (hentering : s.agree.entering = none)
    (hr : (s.port p).PresentsNext r) (ho : (s.port p.other).PresentsNone) :
    s.moveOn = (s.present p r.tag r.request).moveOn := by
  rw [PortUnit.presentsNext_iff] at hr
  rw [PortUnit.presentsNone_iff] at ho
  have hready := s.readyPorts_one p (by rw [hr]; rfl) ho
  have hstep : s.advanceStep = some (s.present p r.tag r.request) := by
    simp [State.advanceStep, hentering, hready, pick, State.chose, State.presentNext_of_next hr]
  rw [s.moveOn_step, hstep]

/-- Where both ports can present, either goes first (log 2). -/
theorem State.moveOn_of_both (s : State) (r q : Record) (hentering : s.agree.entering = none)
    (hA : (s.port .A).PresentsNext r) (hB : (s.port .B).PresentsNext q) :
    s.moveOn = (s.bumpChoice.present .A r.tag r.request).moveOn ∨ s.moveOn = (s.bumpChoice.present .B q.tag q.request).moveOn := by
  rw [PortUnit.presentsNext_iff] at hA hB
  have hready : s.readyPorts = [.A, .B] := by simp [State.readyPorts, hA, hB]
  obtain ⟨x, hx⟩ : ∃ x, pick [PortId.A, .B] s.choices = some x :=
    Option.ne_none_iff_exists'.mp fun h => by simpa using pick_none _ _ h
  have hstep : s.advanceStep = some (s.bumpChoice.presentNext x) := by
    simp only [State.advanceStep, hentering, hready, hx]
    rfl
  rw [s.moveOn_step, hstep]
  cases x with
  | A => exact .inl (by rw [State.presentNext_of_next (r := r) (by rwa [State.bumpChoice_port])])
  | B => exact .inr (by rw [State.presentNext_of_next (r := q) (by rwa [State.bumpChoice_port])])

theorem State.moveOn_of_none (s : State) (hentering : s.agree.entering = none) (h : ∀ p, (s.port p).PresentsNone) :
    s.moveOn = s :=
  s.moveOn_of_still hentering (s.readyPorts_nil.mpr fun p => (PortUnit.presentsNone_iff _).mp (h p))

/-! ### While a proposal is entering APPLYING (R40, log 17) -/

section
variable {s : State} {p : PortId} (hentering : s.agree.entering = some p)
include hentering

theorem State.moveOn_of_entering_next (r : Record) (hr : (s.port p.other).PresentsNext r) :
    s.moveOn = (s.present p.other r.tag r.request).moveOn := by
  rw [PortUnit.presentsNext_iff] at hr
  have hstep : s.advanceStep = some (s.present p.other r.tag r.request) := by
    simp [State.advanceStep, hentering, hr, State.presentNext_of_next hr]
  rw [s.moveOn_step, hstep]

theorem State.moveOn_of_entering_none (ho : (s.port p.other).PresentsNone) : s.moveOn = s.endEntering.moveOn := by
  rw [PortUnit.presentsNone_iff] at ho
  have hstep : s.advanceStep = some s.endEntering := by simp [State.advanceStep, hentering, ho]
  rw [s.moveOn_step, hstep]

end

/-- The entry to APPLYING is over. -/
def State.entryClosed (s : State) : State := { s with agree := { s.agree with entering := none } }

theorem State.endEntering_of_drained (s : State) (pr : Proposal) (hpr : s.agree.proposal = some pr) (hstate : pr.state = .applying)
    (hdrain : DrainOver s pr.change) : s.endEntering = s.entryClosed.applyProposal pr := by
  have hdue := (State.applyNow_of_drained (s := s.entryClosed) hpr hstate rfl hdrain).1
  change (match s.entryClosed.applyDue with
    | some pr => s.entryClosed.applyProposal pr
    | none => s.entryClosed) = _
  rw [hdue]

theorem State.endEntering_of_undrained (s : State)
    (h : ∀ pr, s.agree.proposal = some pr → pr.state = .applying → ¬DrainOver s pr.change) : s.endEntering = s.entryClosed := by
  have hdue : s.entryClosed.applyDue = none := by
    refine Option.eq_none_iff_forall_not_mem.mpr fun pr hpr => ?_
    have hrec : s.agree.proposal = some pr := s.entryClosed.applyDue_proposal pr hpr
    have happly : pr.state = .applying ∧ s.entryClosed.drained pr.change = true := by
      simpa [State.applyDue, State.entryClosed, hrec] using hpr
    exact h pr hrec happly.1 ((s.entryClosed.drained_iff _).mp happly.2)
  change (match s.entryClosed.applyDue with
    | some pr => s.entryClosed.applyProposal pr
    | none => s.entryClosed) = _
  rw [hdue]

/-- Settles O5: a row by `State.submit_moves_on`, and each move by the branch of `State.advanceStep` that it takes. -/
theorem presentationGoesInOrder : Obligations.PresentationGoesInOrder := by
  refine ⟨fun s p tag q hk hq hc => ?presented, fun s p tag q hk hq hidle hroom hfree hw => ?behind, fun s => ?moved,
    fun s hentering => ⟨fun p r hr ho => s.moveOn_of_next p r hentering hr ho, fun r q hA hB => s.moveOn_of_both r q hentering hA hB,
      s.moveOn_of_none hentering⟩,
    fun s p hentering => ⟨s.moveOn_of_entering_next hentering, fun ho => ⟨fun pr hpr hstate hdrain => ?applied, fun h => ?waits⟩⟩⟩
  case presented => rw [exec_rowOf p tag q s hk, s.fromOutside_quiet _ hq.1 hq.2.1, s.submit_moves_on p tag q hq hc]
  case behind => rw [exec_rowOf_taken s p tag q hk ⟨hq.1, hq.2.1⟩ hidle hroom hfree, s.taking_waits p tag q hq hw]
  case moved =>
    exact ⟨s.moveOn_still.1, fun p => (PortUnit.presentsNone_iff _).mpr ((State.readyPorts_nil _).mp s.moveOn_still.2 p)⟩
  case applied =>
    refine ⟨_, s.entryClosed.applyProposal_applied pr, ?_⟩
    rw [s.moveOn_of_entering_none hentering ho, s.endEntering_of_drained pr hpr hstate hdrain]
  case waits =>
    rw [s.moveOn_of_entering_none hentering ho, s.endEntering_of_undrained h]
    rfl

/-! ### Field checks (R27, R58) -/

theorem countOk_eq_false (c : Byte) : countOk c = false ↔ c.toNat = 0 ∨ 8 < c.toNat := by
  simp only [countOk, Bool.and_eq_false_iff, decide_eq_false_iff_not, Nat.not_le, Nat.lt_one_iff]
  rfl

theorem badFields_read (r c : Byte) (o : Word24) :
    badFields (.read r c o) = true ↔ 15 < r.toNat ∨ c.toNat = 0 ∨ 8 < c.toNat := by
  simp only [badFields, Bool.or_eq_true, regionOf_isNone, Bool.not_eq_true', countOk_eq_false]

theorem badFields_write (r c : Byte) (o : Word24) (d : List Byte) :
    badFields (.write r c o d) = true ↔ 15 < r.toNat ∨ c.toNat = 0 ∨ 8 < c.toNat := badFields_read r c o

theorem flushScopeOf_isNone (r : Byte) : (flushScopeOf r).isNone = true ↔ 15 < r.toNat ∧ r ≠ 0xFF := by
  unfold flushScopeOf
  split
  · next hall => simp [hall]
  · next hone => rw [Option.isNone_map, regionOf_isNone]; exact (and_iff_left hone).symm

theorem regionOf_of_val {b : Byte} {r : Fin 16} (h : b.toNat = r.val) : regionOf b = some r := by
  have hlt : b.toNat < 16 := h ▸ r.isLt
  simp [regionOf, h]

/-! ### The change that a PROPOSE asks for, kind by kind (R27) -/

section
variable {f : ProposeFields} (hw : f.window ≠ 0)
include hw

theorem changeOf_define (hk : f.kind = 1) : changeOf f = if f.leasePeriod = 0 then none else
    (regionOf f.region).map fun r => .define r f.base.toNat f.length.toNat (attrsOf f.attrs) f.leasePeriod.toNat := by
  rw [changeOf, if_neg hw]
  simp [hk]

theorem changeOf_delete (hk : f.kind = 2) : changeOf f = (regionOf f.region).map .delete := by
  rw [changeOf, if_neg hw]
  simp [hk]

theorem changeOf_resize (hk : f.kind = 3) : changeOf f = (regionOf f.region).map fun r => .resize r f.length.toNat := by
  rw [changeOf, if_neg hw]
  simp [hk]

theorem changeOf_reconfigure (hk : f.kind = 4) : changeOf f = if f.leasePeriod = 0 then none else
    (regionOf f.region).map fun r => .reconfigure r (attrsOf f.attrs) f.leasePeriod.toNat := by
  rw [changeOf, if_neg hw]
  simp [hk]

theorem changeOf_resetTable (hk : f.kind = 5) : changeOf f = some .resetTable := by
  rw [changeOf, if_neg hw]
  simp [hk]

theorem changeOf_close (hk : f.kind = 6) : changeOf f = some .close := by
  rw [changeOf, if_neg hw]
  simp [hk]

theorem changeOf_setSpares (hk : f.kind = 7) : changeOf f = some (.setSpares f.length.toNat) := by
  rw [changeOf, if_neg hw]
  simp [hk]

theorem changeOf_unknown (hk : f.kind ∉ [1, 2, 3, 4, 5, 6, 7]) : changeOf f = none := by
  simp only [List.mem_cons, List.not_mem_nil, or_false, not_or] at hk
  obtain ⟨h1, h2, h3, h4, h5, h6, h7⟩ := hk
  rw [changeOf, if_neg hw, if_neg h1, if_neg h2, if_neg h3, if_neg h4, if_neg h5, if_neg h6, if_neg h7]

end

theorem kind_outside (k : Byte) : k ∉ ([1, 2, 3, 4, 5, 6, 7] : List Byte) ↔ k.toNat = 0 ∨ 7 < k.toNat := by
  revert k
  decide

theorem byte_eq_zero (b : Byte) : b.toNat = 0 ↔ b = 0 := by
  constructor <;> intro h <;> bv_omega

/-- The field check of a PROPOSE: one case for each kind, and one for a kind that is none of the seven. -/
theorem badFields_propose (f : ProposeFields) : badFields (.propose f) = true ↔
    f.kind.toNat = 0 ∨ 7 < f.kind.toNat ∨ f.window.toNat = 0 ∨ (f.kind ∈ [1, 2, 3, 4] ∧ 15 < f.region.toNat) ∨
      (f.kind ∈ [1, 4] ∧ f.leasePeriod.toNat = 0) := by
  rw [badFields, ← or_assoc, ← kind_outside, byte_eq_zero, byte_eq_zero]
  by_cases hw : f.window = 0#8
  · simp [changeOf, hw]
  by_cases hk : f.kind ∈ ([1, 2, 3, 4, 5, 6, 7] : List Byte)
  case neg => exact iff_of_true (by rw [changeOf_unknown hw hk]; rfl) (.inl hk)
  case pos =>
    have hregion := regionOf_isNone f.region
    simp only [List.mem_cons, List.not_mem_nil, or_false] at hk
    obtain hk | hk | hk | hk | hk | hk | hk := hk
    · rw [changeOf_define hw hk]; by_cases hl : f.leasePeriod = 0#8 <;> simp [hk, hw, hl, hregion]
    · rw [changeOf_delete hw hk]; simp [hk, hw, hregion]
    · rw [changeOf_resize hw hk]; simp [hk, hw, hregion]
    · rw [changeOf_reconfigure hw hk]; by_cases hl : f.leasePeriod = 0#8 <;> simp [hk, hw, hl, hregion]
    · rw [changeOf_resetTable hw hk]; simp [hk, hw]
    · rw [changeOf_close hw hk]; simp [hk, hw]
    · rw [changeOf_setSpares hw hk]; simp [hk, hw]

/-- The codes whose requests have no field to check (R58). -/
theorem badFields_unchecked (q : Request) (hq : requestCode q ∈ ([0x01, 0x02, 0x32, 0x40, 0x41, 0x42, 0x43] : List Byte))
    (hu : ∀ code, q ≠ .unknown code) : badFields q = false := by
  cases q with
  | unknown code => exact absurd rfl (hu code)
  | attach | detach | withdraw | inquire | quiesce | resume | mediaRestart => rfl
  | _ => exact absurd hq (by simp [requestCode])

/-- Settles O8: the field checks by the region byte, the count and the kind. -/
theorem fieldChecksByCode : Obligations.FieldChecksByCode := by
  refine ⟨fun r c o d => ⟨badFields_read r c o, badFields_write r c o d⟩, fun r => ⟨flushScopeOf_isNone r, regionOf_isNone r,
    regionOf_isNone r, regionOf_isNone r, regionOf_isNone r, regionOf_isNone r⟩, badFields_propose, fun id a => ?answer,
    fun _ => rfl, badFields_unchecked, fun f r hw => ⟨fun hr => ?named, changeOf_resetTable hw, changeOf_close hw, changeOf_setSpares hw⟩⟩
  case answer => simp [badFields]
  case named =>
    have hregion := regionOf_of_val hr
    refine ⟨fun hk hl => ?_, fun hk => ?_, fun hk => ?_, fun hk hl => ?_⟩
    · rw [changeOf_define hw hk, if_neg hl, hregion]; rfl
    · rw [changeOf_delete hw hk, hregion]; rfl
    · rw [changeOf_resize hw hk, hregion]; rfl
    · rw [changeOf_reconfigure hw hk, if_neg hl, hregion]; rfl

/-! ### Requests refused (R57, R58, R62) -/

theorem State.refusal_of_badFields (s : State) (p : PortId) (q : Request) (hstart : s.service.state ≠ .starting)
    (honline : (s.port p).online = true) (h : badFields q = true) : s.refusal p q = some .badRequest := by
  rw [Attached.refusal ⟨hstart, .inl honline⟩, if_pos h]

/-- A WRITE of a count above 8 is answered BAD_REQUEST, its payload not kept (R58, R177). -/
theorem exec_write_overlong (s : State) (p : PortId) (tag b c : Byte) (o : Word24) (d : List Byte) (hq : Quiet s)
    (hc : CanTake s p tag) (hstart : s.service.state ≠ .starting) (honline : (s.port p).online = true)
    (hlength : d.length = 512 * c.toNat) (hcount : 8 < c.toNat) :
    exec (.write p tag b c o d) s = .next (s.answering p tag (.write b c o []) .badRequest .blank) := by
  have hbad : badFields (.write b c o []) = true := (badFields_write b c o []).mpr (.inr (.inr hcount))
  have hrefused := s.present_refused p tag (.write b c o []) .badRequest hc.2.2.1
    (s.refusal_of_badFields p _ hstart honline hbad)
  obtain ⟨hentering, hready⟩ := s.answering_still p tag (.write b c o []) .badRequest .blank hq hc
  refine congrArg Host.Outcome.next ((s.fromOutside_quiet _ hq.1 hq.2.1).trans ?_)
  rw [if_pos (show _ = Config.blockSize * _ from hlength), if_neg (show ¬_ ≤ Config.maxCount from Nat.not_le.mpr hcount),
    s.submit_taken_still p tag _ _ hq hc hrefused hentering hready]

/-- A WRITE whose payload is not count blocks long is a frame of the wrong length (R178, log 12). -/
theorem exec_write_wrongLength (s : State) (p : PortId) (tag b c : Byte) (o : Word24) (d : List Byte) (hs : Settled s)
    (hidle : (s.port p).receiver = .idle) (hlength : d.length ≠ 512 * c.toNat) :
    exec (.write p tag b c o d) s = .next (s.openEvent.updPort p fun u =>
      { u with flags := { u.flags with frameError := true }, sdo := List.replicate (8 * (1 + 18 + d.length)) false }) := by
  refine congrArg Host.Outcome.next ((s.fromOutside_quiet _ hs.1 hs.2).trans ?_)
  rw [if_neg (show ¬_ = Config.blockSize * _ from hlength), State.closeOpen, if_pos (by rwa [State.openEvent_port])]
  cases p <;> rfl

/-- Settles O6: a refused request by `exec_refused`, the two BAD_REQUESTs by the field check. -/
theorem refusedRequestsAreOnlyAnswered : Obligations.RefusedRequestsAreOnlyAnswered := by
  refine ⟨exec_refused, fun s p tag hq hc hstart honline => ⟨fun code hcode => ?unknown, fun b c o d hlength hcount => ?overlong⟩,
    exec_write_wrongLength, fun s p tag q st h => ?later⟩
  case unknown =>
    exact exec_refused s p tag (.unknown code) .badRequest (by simpa [keptWhole] using hcode) hq hc
      (s.refusal_of_badFields p _ hstart honline rfl)
  case overlong => exact exec_write_overlong s p tag b c o d hq hc hstart honline hlength hcount
  case later => simp only [State.present, h]

end Sys2Proof.Machine
end

section
/-! PROOFS. A request row by what its presentation does in any state; DETACH and the departure of a port (R51, R20, R36, R52). -/

namespace Sys2Proof.Machine

/-! ### A row is the presentation of its request (R56) -/

/-- A row whose presentation leaves the other port with nothing to present. -/
theorem exec_of_present {s t : State} {p : PortId} {tag : Byte} {q : Request} (hk : keptWhole q = true) (hq : Quiet s)
    (hc : CanTake s p tag) (hn : s.refusal p q = none) (ht : (s.taking p tag q .awaitingTurn).present p tag q = t)
    (he : t.agree.entering = none) (ho : (t.port p.other).nextToPresent = none) : exec (rowOf p tag q) s = .next t :=
  exec_presented s t p tag q hk hq hc hn ((s.present_passed p tag q hn).symm.trans ht) he ho

/-- A row whose presentation completes the request at once. -/
theorem exec_of_present_complete {s : State} {p : PortId} {tag : Byte} {q : Request} {st : Status} {res : Result}
    (hk : keptWhole q = true) (hq : Quiet s) (hc : CanTake s p tag) (hn : s.refusal p q = none)
    (ht : (s.taking p tag q .awaitingTurn).present p tag q = (s.taking p tag q .awaitingTurn).complete p tag st res) :
    exec (rowOf p tag q) s = .next (s.answering p tag q st res) := by
  rw [s.taking_complete p tag q .awaitingTurn st res hc.2.2.1] at ht
  exact exec_of_present hk hq hc hn ht (by rw [State.answering_agree]; exact hq.2.2.1)
    (by rw [State.answering_other]; exact s.other_next p hq)

/-! ### The departure of a port (R20, R36, R52) -/

/-- Two notices for one port go in one order or the other (log 2). -/
theorem State.offerInAnyOrder_pair (s : State) (x y : PortId × Notice) : ∃ n,
    s.offerInAnyOrder [x, y] = { (s.offer x.1 x.2).offer y.1 y.2 with choices := n } ∨
      s.offerInAnyOrder [x, y] = { (s.offer y.1 y.2).offer x.1 x.2 with choices := n } := by
  refine ⟨s.choices + 2, ?_⟩
  rw [State.offerInAnyOrder_eq]
  rcases List.perm_pair.mp (inAnyOrder_perm [x, y].length [x, y] s.choices) with h | h
  · exact .inl (by rw [h]; rfl)
  · exact .inr (by rw [h]; rfl)

theorem State.goOffline_departed (s : State) (p : PortId) : Departed s (s.goOffline p) p := by
  unfold Departed State.goOffline
  cases s.agree.openProposal with
  | none => rfl
  | some pr =>
    have hnotice : pr.departureNotice p =
        .outcome (if pr.proposer = p then .withdrawnProposerOffline else .lapsedPeerAbsent) pr.id pr.change := by
      simp [Proposal.departureNotice]
    dsimp only
    rw [← hnotice]
    exact State.offerInAnyOrder_pair _ _ _

theorem State.offers_next (xs : List (PortId × Notice)) (s : State) (x : PortId) :
    ((s.offers xs).port x).nextToPresent = (s.port x).nextToPresent := by
  induction xs generalizing s with
  | nil => rfl
  | cons y ys ih => exact (ih _).trans (s.offer_next y.1 x y.2)

theorem State.offerInAnyOrder_next (s : State) (xs : List (PortId × Notice)) (x : PortId) :
    ((s.offerInAnyOrder xs).port x).nextToPresent = (s.port x).nextToPresent := by
  rw [State.offerInAnyOrder_eq, ← State.offers_next (inAnyOrder xs.length xs s.choices) s x]
  cases x <;> rfl

/-- The departure of a port leaves the requests of the other, and an entry to APPLYING, as they are. -/
theorem State.goOffline_frame (s : State) (p : PortId) :
    ((s.goOffline p).port p.other).nextToPresent = (s.port p.other).nextToPresent ∧
      (s.goOffline p).agree.entering = s.agree.entering := by
  have hgone : ((s.updPort p fun u => { u with online := false }).dropHoldsOf p).port p.other = s.port p.other := by
    cases p <;> rfl
  have hagree : ((s.updPort p fun u => { u with online := false }).dropHoldsOf p).agree = s.agree := by
    cases p <;> rfl
  unfold State.goOffline
  split
  · refine ⟨(State.offerInAnyOrder_next _ _ _).trans ?_, ?_⟩
    · rw [← hgone]
      cases p <;> rfl
    · rw [State.offerInAnyOrder_agree]
      have hentering := congrArg Agreement.entering hagree
      exact hentering
  · exact ⟨by rw [State.offer_next, hgone], by rw [State.offer_agree, hagree]⟩

/-! ### DETACH (R51) -/

theorem PortUnit.busyBeside_iff (u : PortUnit) (tag : Byte) :
    u.busyBeside tag = true ↔ ∃ r ∈ u.requests, r.tag ≠ tag ∧ r.state ≠ .complete := by
  simp [PortUnit.busyBeside]

theorem State.present_detach_busy (s : State) (p : PortId) (tag : Byte) (hpass : s.refusal p .detach = none)
    (h : ∃ r ∈ (s.port p).requests, r.tag ≠ tag ∧ r.state ≠ .complete) :
    s.present p tag .detach = s.complete p tag .portBusy .blank := by
  rw [s.present_of_passing p tag _ hpass]
  exact if_pos ((PortUnit.busyBeside_iff _ _).mpr h)

theorem State.present_detach_free (s : State) (p : PortId) (tag : Byte) (hpass : s.refusal p .detach = none)
    (h : ∀ r ∈ (s.port p).requests, r.tag ≠ tag → r.state = .complete) :
    s.present p tag .detach = (s.complete p tag .ok .blank).goOffline p := by
  rw [s.present_of_passing p tag _ hpass]
  exact if_neg fun hbusy => by
    obtain ⟨r, hr, htag, hstate⟩ := (PortUnit.busyBeside_iff _ _).mp hbusy
    exact hstate (h r hr htag)

theorem State.refusal_detach (s : State) (p : PortId) (hstart : s.service.state ≠ .starting) (honline : (s.port p).online = true) :
    s.refusal p .detach = none := by
  rw [Attached.refusal ⟨hstart, .inl honline⟩]
  simp [badFields, needsMedia, needsService, State.regionRefusal]

/-- Settles O11: `PortUnit.busyBeside` decides, and the departure is that of `State.goOffline_departed`. -/
theorem detachTakesThePortOffline : Obligations.DetachTakesThePortOffline := by
  refine ⟨fun s p tag hq hc hstart honline => ⟨fun hbusy => ?busy, fun hfree => ?taken⟩,
    fun s p tag hpass => ⟨s.present_detach_busy p tag hpass, fun hfree => ?later⟩⟩
  case busy =>
    have hpass := s.refusal_detach p hstart honline
    obtain ⟨r, hr, hstate⟩ := hbusy
    refine exec_of_present_complete rfl hq hc hpass (State.present_detach_busy _ p tag (by rwa [State.refusal_taking]) ⟨r, ?_, ?_⟩)
    · rw [State.taking_port]
      exact List.mem_append_left _ hr
    · exact ⟨hc.2.2.1 r hr, hstate⟩
  case taken =>
    have hpass := s.refusal_detach p hstart honline
    refine ⟨_, exec_of_present rfl hq hc hpass (State.present_detach_free _ p tag (by rwa [State.refusal_taking]) fun r hr htag => ?_)
      ?_ ?_, ?_⟩
    · rw [State.taking_port] at hr
      rcases List.mem_append.mp hr with hr | hr
      · exact hfree r hr
      · rw [List.mem_singleton.mp hr] at htag
        exact absurd rfl htag
    · rw [(State.goOffline_frame _ p).2, s.taking_complete p tag _ .awaitingTurn _ _ hc.2.2.1, State.answering_agree]
      exact hq.2.2.1
    · rw [(State.goOffline_frame _ p).1, s.taking_complete p tag _ .awaitingTurn _ _ hc.2.2.1, State.answering_other]
      exact s.other_next p hq
    · rw [s.taking_complete p tag _ .awaitingTurn _ _ hc.2.2.1]
      exact State.goOffline_departed _ p
  case later =>
    rw [s.present_detach_free p tag hpass hfree]
    exact State.goOffline_departed _ p

end Sys2Proof.Machine
end

section
/-! PROOFS. READ and WRITE: the lookup of slots, placement, and the WRITE that waits (R13, R77 to R83). -/

namespace Sys2Proof.Machine

/-! ### READ (R83) -/

/-- The data area of a READ after lookup, block by block. -/
def State.readArea (s : State) (r : Fin 16) (count : Byte) (offset : Word24) : List (Option Block) :=
  (List.range count.toNat).map fun k => (s.staging.find ((s.region r).base + offset.toNat + k)).bind fun i => (s.slot i).data?

theorem State.lookup_eq_readArea (s : State) (r : Fin 16) (count : Byte) (offset : Word24) :
    s.staging.lookup (blockLbns (s.lbnAt r offset) count.toNat) = s.readArea r count offset := by
  simp only [Staging.lookup, blockLbns, List.map_map]
  rfl

/-- The wait list entry of a READ. -/
def State.waitingRead (s : State) (tag : Byte) (r : Fin 16) (count : Byte) (offset : Word24) : WaitingRead :=
  { tag := tag, region := r, offset := offset.toNat, count := count.toNat, lbn := (s.region r).base + offset.toNat,
    area := s.readArea r count offset }

/-- The lease of a holder is set back (R13). -/
def State.renewed (s : State) (p : PortId) (r : Fin 16) : State := s.setRegion r ((s.region r).renewedFor p)

section
variable (s : State) (p : PortId) (tag : Byte) {b : Byte} (c : Byte) (o : Word24) {r : Fin 16}
  (hpass : s.refusal p (.read b c o) = none) (hb : regionOf b = some r)
include hpass hb

theorem State.present_read : s.present p tag (.read b c o) = s.dispatchRead p tag r c o := by
  simp [s.present_of_passing p tag _ hpass, State.dispatch, State.onRegion, hb]

theorem State.present_read_found (h : ∀ x ∈ s.readArea r c o, x ≠ none) : s.present p tag (.read b c o) =
    (s.renewed p r).complete p tag .ok (.read c.toNat 0 ((s.readArea r c o).filterMap id)) := by
  have hall : (s.readArea r c o).all Option.isSome = true := by
    simpa [List.all_eq_true, Option.isSome_iff_ne_none] using h
  rw [s.present_read p tag c o hpass hb, State.dispatchRead, State.lookup_eq_readArea, s.renewIfHolder_eq]
  exact if_pos hall

theorem State.present_read_missed (h : none ∈ s.readArea r c o) : s.present p tag (.read b c o) =
    { (s.renewed p r).setRecord p tag .dispatched with
      sched := s.sched.setWait p (s.sched.wait p ++ [s.waitingRead tag r c o]) } := by
  have hall : ¬(s.readArea r c o).all Option.isSome = true := fun hall => by
    simpa using List.all_eq_true.mp hall none h
  rw [s.present_read p tag c o hpass hb, State.dispatchRead, State.lookup_eq_readArea, s.renewIfHolder_eq]
  refine (if_neg hall).trans ?_
  simp only [State.setRecord_sched, State.setRegion_sched]
  rfl

end

theorem State.setRegion_setRecord (s : State) (p : PortId) (tag : Byte) (st : RecordState) (r : Fin 16) (x : Region) :
    (s.setRegion r x).setRecord p tag st = (s.setRecord p tag st).setRegion r x := by
  cases p <;> rfl

theorem State.taking_readArea (s : State) (p : PortId) (tag : Byte) (q : Request) (st : RecordState) (r : Fin 16) (c : Byte)
    (o : Word24) : (s.taking p tag q st).readArea r c o = s.readArea r c o := by
  simp only [State.readArea, State.slot, State.taking_region, State.taking_staging]

theorem State.taking_sched (s : State) (p : PortId) (tag : Byte) (q : Request) (st : RecordState) :
    (s.taking p tag q st).sched = s.sched := by cases p <;> rfl

section
variable (s : State) (p : PortId) (tag b c : Byte) (o : Word24) (r : Fin 16) (hp : Passes s p tag (.read b c o))
  (hb : regionOf b = some r)
include hp hb

theorem exec_read_found (h : ∀ x ∈ s.readArea r c o, x ≠ none) : exec (.read p tag b c o) s =
    .next ((s.answering p tag (.read b c o) .ok (.read c.toNat 0 ((s.readArea r c o).filterMap id))).setRegion r ((s.region r).renewedFor p)) := by
  obtain ⟨hquiet, hcan, hpass⟩ := hp
  refine exec_of_present rfl hquiet hcan hpass
    (t := (s.answering p tag (.read b c o) .ok (.read c.toNat 0 ((s.readArea r c o).filterMap id))).setRegion r ((s.region r).renewedFor p)) ?_ ?_ ?_
  · rw [State.present_read_found _ p tag c o (by rwa [State.refusal_taking]) hb (by rwa [State.taking_readArea]),
      State.renewed, State.taking_setRegion_complete s p tag _ r _ _ _ hcan.2.2.1, State.taking_region, State.taking_readArea]
  · exact (congrArg Agreement.entering (s.answering_agree p tag _ _ _)).trans hquiet.2.2.1
  · rw [State.setRegion_port, State.answering_other]
    exact s.other_next p hquiet

theorem exec_read_missed (h : none ∈ s.readArea r c o) : exec (.read p tag b c o) s =
    .next { (s.taking p tag (.read b c o) .dispatched).setRegion r ((s.region r).renewedFor p) with
      sched := s.sched.setWait p (s.sched.wait p ++ [s.waitingRead tag r c o]) } := by
  obtain ⟨hquiet, hcan, hpass⟩ := hp
  refine exec_of_present rfl hquiet hcan hpass (t := { (s.taking p tag (.read b c o) .dispatched).setRegion r ((s.region r).renewedFor p) with
      sched := s.sched.setWait p (s.sched.wait p ++ [s.waitingRead tag r c o]) }) ?_ ?_ ?_
  · rw [State.present_read_missed _ p tag c o (by rwa [State.refusal_taking]) hb (by rwa [State.taking_readArea]),
      State.renewed, State.setRegion_setRecord, State.taking_setRecord s p tag _ _ _ hcan.2.2.1, State.waitingRead,
      State.taking_readArea, State.taking_region, State.taking_sched, ← State.waitingRead]
  · exact (congrArg Agreement.entering (s.taking_agree p tag _ _)).trans hquiet.2.2.1
  · exact (congrArg PortUnit.nextToPresent (s.taking_other p tag (.read b c o) .dispatched)).trans (s.other_next p hquiet)

end

/-- Settles O12: the two outcomes of the lookup, for a READ just taken and for one presented later. -/
theorem readLooksUpTheSlots : Obligations.ReadLooksUpTheSlots :=
  ⟨fun s p tag b c o r hp hb => ⟨exec_read_found s p tag b c o r hp hb, exec_read_missed s p tag b c o r hp hb⟩,
    fun s p tag _ c o _ hpass hb => ⟨s.present_read_found p tag c o hpass hb, s.present_read_missed p tag c o hpass hb⟩⟩

/-! ### WRITE (R77 to R82) -/

theorem Staging.putBlocks_wtWaiters (r : Fin 16) (position : Nat) (payload : List Byte) (pairs : List (Nat × SlotId)) (k : Nat)
    (b : Staging) : (b.putBlocks r position payload k pairs).wtWaiters = b.wtWaiters := by
  induction pairs generalizing k b with
  | nil => rfl
  | cons x pairs ih =>
    refine (ih _ _).trans ?_
    unfold Staging.putBlock
    split <;> rfl

theorem Staging.place_wtWaiters (b : Staging) (lbns : List Nat) (r : Fin 16) (payload : List Byte) :
    (b.place lbns r payload).wtWaiters = b.wtWaiters := Staging.putBlocks_wtWaiters ..

/-- The blocks of a WRITE. -/
def State.writeLbns (s : State) (r : Fin 16) (count : Byte) (offset : Word24) : List Nat :=
  (List.range count.toNat).map ((s.region r).base + offset.toNat + ·)

/-- A WRITE has been placed and its lease set back; it is not yet completed and no waiter is made for it. -/
def State.writePlaced (s : State) (p : PortId) (tag : Byte) (r : Fin 16) (count : Byte) (offset : Word24) (d : List Byte) : State :=
  { (s.startRecord p tag).setRegion r ((s.region r).renewedFor p) with staging := s.staging.place (s.writeLbns r count offset) r d }

section
variable (s : State) (p : PortId) (tag : Byte) (c : Byte) (o : Word24) (d : List Byte) (r : Fin 16)

theorem State.canPlaceWrite_iff : s.canPlaceWrite r c o = true ↔
    ((s.writeLbns r c o).filter fun n => (s.staging.find n).isNone).length ≤
      (s.staging.available ((s.writeLbns r c o).filterMap s.staging.find)).length := decide_eq_true_iff

theorem State.writesThrough_iff : s.writesThrough r = true ↔ (s.region r).attrs.through = true ∨ s.staging.forced = true :=
  Bool.or_eq_true_iff

theorem State.placeWrite_started : (({ s with staging := s.staging.place (s.writeLbns r c o) r d } : State).startRecord p
    tag).renewIfHolder p r = s.writePlaced p tag r c o d := by
  rw [State.renewIfHolder_eq]
  cases p <;> rfl

/-- Write-back: the WRITE completes as it is placed (R81). -/
theorem State.placeWrite_back (h : ¬((s.region r).attrs.through = true ∨ s.staging.forced = true)) :
    s.placeWrite p tag r c o d = (s.writePlaced p tag r c o d).complete p tag .ok .blank := by
  rw [← s.placeWrite_started p tag c o d r]
  exact if_neg (mt (s.writesThrough_iff r).mp h)

/-- Write-through: a waiter is made (R82). -/
theorem State.placeWrite_through (h : (s.region r).attrs.through = true ∨ s.staging.forced = true) :
    s.placeWrite p tag r c o d = { s.writePlaced p tag r c o d with
      staging := { s.staging.place (s.writeLbns r c o) r d with
        wtWaiters := s.staging.wtWaiters ++ [wtWaiterFor s.staging p tag r (s.writeLbns r c o)] } } := by
  have hwaiters : (s.staging.place (s.writeLbns r c o) r d).wtWaiters = s.staging.wtWaiters :=
    Staging.place_wtWaiters ..
  refine (if_pos ((s.writesThrough_iff r).mpr h)).trans ?_
  rw [← hwaiters]
  refine Eq.trans ?_ (congrArg (fun t : State => ({ t with staging := { t.staging with
    wtWaiters := t.staging.wtWaiters ++ [wtWaiterFor s.staging p tag r (s.writeLbns r c o)] } } : State))
      (s.placeWrite_started p tag c o d r))
  rfl

section
variable {b : Byte} (hpass : s.refusal p (.write b c o d) = none) (hb : regionOf b = some r)
include hpass hb

theorem State.present_write : s.present p tag (.write b c o d) = s.writeIntake p tag r c o d := by
  simp [s.present_of_passing p tag _ hpass, State.dispatch, State.onRegion, hb]

theorem State.present_write_placed (h : s.canPlaceWrite r c o = true) :
    s.present p tag (.write b c o d) = s.placeWrite p tag r c o d := by
  rw [s.present_write p tag c o d r hpass hb, State.writeIntake, if_pos h]

theorem State.present_write_waits (h : ¬s.canPlaceWrite r c o = true) :
    s.present p tag (.write b c o d) = s.setRecord p tag .awaitingSlots := by
  rw [s.present_write p tag c o d r hpass hb, State.writeIntake, if_neg h]

end

end

/-- A WRITE that passes its checks, its payload as long as its count says, is kept whole (R177). -/
theorem keptWhole_write {s : State} {p : PortId} {b c : Byte} {o : Word24} {d : List Byte}
    (hpass : s.refusal p (.write b c o d) = none) (hlength : d.length = 512 * c.toNat) : keptWhole (.write b c o d) = true := by
  have hcount : c.toNat ≤ 8 := by
    by_contra hover
    have hbad := (badFields_write b c o d).mpr (.inr (.inr (Nat.not_le.mp hover)))
    unfold State.refusal at hpass
    simp only [hbad] at hpass
    split_ifs at hpass
  simp only [keptWhole, Bool.and_eq_true, decide_eq_true_eq]
  exact ⟨hcount, hlength⟩

section
variable (s : State) (p : PortId) (tag b c : Byte) (o : Word24) (d : List Byte) (r : Fin 16)

theorem State.taking_writeLbns (q : Request) (st : RecordState) :
    (s.taking p tag q st).writeLbns r c o = s.writeLbns r c o := by
  simp only [State.writeLbns, State.taking_region]

theorem State.taking_canPlaceWrite (q : Request) (st : RecordState) :
    (s.taking p tag q st).canPlaceWrite r c o = s.canPlaceWrite r c o := by
  simp only [State.canPlaceWrite, State.lbnAt, State.taking_region, State.taking_staging]

theorem State.taking_writePlaced (hfree : ∀ x ∈ (s.port p).requests, x.tag ≠ tag) :
    (s.taking p tag (.write b c o d) .awaitingTurn).writePlaced p tag r c o d =
      { (s.taking p tag (.write b c o []) .started).setRegion r ((s.region r).renewedFor p) with
        staging := s.staging.place (s.writeLbns r c o) r d } := by
  rw [State.writePlaced, State.taking_startRecord s p tag _ _ hfree, State.taking_region, State.taking_staging,
    State.taking_writeLbns]
  rfl

variable (hp : Passes s p tag (.write b c o d)) (hlength : d.length = 512 * c.toNat) (hb : regionOf b = some r)
include hp hlength hb

theorem exec_write_placed {t : State} (hroom : s.canPlaceWrite r c o = true)
    (ht : (s.taking p tag (.write b c o d) .awaitingTurn).placeWrite p tag r c o d = t) (he : t.agree.entering = none)
    (ho : t.port p.other = s.port p.other) : exec (.write p tag b c o d) s = .next t := by
  obtain ⟨hquiet, hcan, hpass⟩ := hp
  refine exec_of_present (keptWhole_write hpass hlength) hquiet hcan hpass ?_ he (by rw [ho]; exact s.other_next p hquiet)
  rw [State.present_write_placed _ p tag c o d r (by rwa [State.refusal_taking]) hb (by rwa [State.taking_canPlaceWrite]), ht]

theorem exec_write_back (hroom : s.canPlaceWrite r c o = true)
    (h : ¬((s.region r).attrs.through = true ∨ s.staging.forced = true)) : exec (.write p tag b c o d) s =
      .next { (s.answering p tag (.write b c o d) .ok .blank).setRegion r ((s.region r).renewedFor p) with
        staging := s.staging.place (s.writeLbns r c o) r d } := by
  have hentering := (congrArg Agreement.entering (s.answering_agree p tag (.write b c o d) .ok .blank)).trans hp.1.2.2.1
  refine exec_write_placed s p tag b c o d r hp hlength hb hroom ?_ hentering (s.answering_other p tag (.write b c o d) .ok .blank)
  have hfree := hp.2.1.2.2.1
  rw [State.placeWrite_back _ p tag c o d r (by rwa [State.taking_region, State.taking_staging]),
    s.taking_writePlaced p tag b c o d r hfree]
  have hdone : (s.taking p tag (.write b c o []) .started).complete p tag .ok .blank =
      s.answering p tag (.write b c o d) .ok .blank := s.taking_complete p tag _ _ _ _ hfree
  rw [← hdone]
  cases p <;> rfl

theorem exec_write_through (hroom : s.canPlaceWrite r c o = true)
    (h : (s.region r).attrs.through = true ∨ s.staging.forced = true) : exec (.write p tag b c o d) s =
      .next { (s.taking p tag (.write b c o []) .started).setRegion r ((s.region r).renewedFor p) with
        staging := { s.staging.place (s.writeLbns r c o) r d with
          wtWaiters := s.staging.wtWaiters ++ [wtWaiterFor s.staging p tag r (s.writeLbns r c o)] } } := by
  have hentering := (congrArg Agreement.entering (s.taking_agree p tag (.write b c o []) .started)).trans hp.1.2.2.1
  refine exec_write_placed s p tag b c o d r hp hlength hb hroom ?_ hentering (s.taking_other p tag (.write b c o []) .started)
  rw [State.placeWrite_through _ p tag c o d r (by rwa [State.taking_region, State.taking_staging]),
    s.taking_writePlaced p tag b c o d r hp.2.1.2.2.1, State.taking_staging, State.taking_writeLbns]

theorem exec_write_waits (hroom : ¬s.canPlaceWrite r c o = true) :
    exec (.write p tag b c o d) s = .next (s.taking p tag (.write b c o d) .awaitingSlots) := by
  obtain ⟨hquiet, hcan, hpass⟩ := hp
  refine exec_of_present (keptWhole_write hpass hlength) hquiet hcan hpass ?_ ?_ ?_
  · rw [State.present_write_waits _ p tag c o d r (by rwa [State.refusal_taking]) hb (by rwa [State.taking_canPlaceWrite]),
      State.taking_setRecord s p tag _ _ _ hcan.2.2.1]
  · rw [State.taking_agree]; exact hquiet.2.2.1
  · rw [State.taking_other]; exact s.other_next p hquiet

end

/-- Settles O13: whether slots can be had (R77) and whether the WRITE is write-through (R81) give the three cases. -/
theorem writeIsPlacedOrWaits : Obligations.WriteIsPlacedOrWaits := by
  refine ⟨fun s p tag b c o d r hp hlength hb => ⟨fun hroom => ?back, fun hroom => ?through, fun hover => ?waits⟩,
    fun s p tag b c o d r hpass hb => ⟨fun hroom hback => ?laterBack, fun hroom hthrough => ?laterThrough, fun hover => ?laterWaits⟩⟩
  case back => exact exec_write_back s p tag b c o d r hp hlength hb ((s.canPlaceWrite_iff c o r).mpr hroom)
  case through => exact exec_write_through s p tag b c o d r hp hlength hb ((s.canPlaceWrite_iff c o r).mpr hroom)
  case waits =>
    exact exec_write_waits s p tag b c o d r hp hlength hb (mt (s.canPlaceWrite_iff c o r).mp (Nat.not_le.mpr hover))
  case laterBack =>
    rw [s.present_write_placed p tag c o d r hpass hb ((s.canPlaceWrite_iff c o r).mpr hroom), s.placeWrite_back p tag c o d r hback]
    rfl
  case laterThrough =>
    rw [s.present_write_placed p tag c o d r hpass hb ((s.canPlaceWrite_iff c o r).mpr hroom),
      s.placeWrite_through p tag c o d r hthrough]
    rfl
  case laterWaits =>
    exact s.present_write_waits p tag c o d r hpass hb (mt (s.canPlaceWrite_iff c o r).mp (Nat.not_le.mpr hover))

/-! ### The waiting WRITE (R79) -/

section
variable {s : State} {p : PortId} {rec : Record} {b c : Byte} {o : Word24} {d : List Byte} {r : Fin 16}
  (hwaits : (s.port p).waitingWrite = some rec) (hwrite : rec.request = .write b c o d) (hb : regionOf b = some r)
include hwaits hwrite hb

theorem State.placeDue_eq : s.placeDue p = s.canPlaceWrite r c o := by
  simp [State.placeDue, hwaits, hwrite, hb]

theorem State.placeWaiting_eq : s.placeWaiting p = (s.placeWrite p rec.tag r c o d).moveOn := by
  simp [State.placeWaiting, hwaits, hwrite, State.onRegion, hb]

end

/-- WRITE_PLACEMENT where nothing of an earlier rank is owed. -/
theorem exec_writePlacement {s : State} {p : PortId} (hnone : s.firstOwed 4 = []) :
    exec (.writePlacement p) s = .next (if s.placeDue p then s.placeWaiting p else s) := by
  refine congrArg Host.Outcome.next ?_
  rw [s.ownStep_of_none 4 _ hnone]
  cases hA : s.placeDue .A <;> cases hB : s.placeDue .B <;> cases p <;> simp [State.owedAt, State.perform, hA, hB]

/-- Settles O37: the waiting WRITE is due as soon as slots can be had, and its placement is that of O13. -/
theorem waitingWriteIsPlaced : Obligations.WaitingWriteIsPlaced := by
  intro s p rec b c o d r hnone hwaits hwrite hb
  have hrow := exec_writePlacement (p := p) hnone
  rw [State.placeDue_eq hwaits hwrite hb, State.placeWaiting_eq hwaits hwrite hb] at hrow
  refine ⟨fun hroom hback => ?back, fun hroom hthrough => ?through, fun hover => ?waits⟩
  case back =>
    rw [hrow, if_pos ((s.canPlaceWrite_iff c o r).mpr hroom), s.placeWrite_back p rec.tag c o d r hback]
    rfl
  case through =>
    rw [hrow, if_pos ((s.canPlaceWrite_iff c o r).mpr hroom), s.placeWrite_through p rec.tag c o d r hthrough]
    rfl
  case waits => rw [hrow, if_neg (mt (s.canPlaceWrite_iff c o r).mp (Nat.not_le.mpr hover))]

end Sys2Proof.Machine
end

section
/-! PROOFS. How blocks find their slots (R77, R78), and FLUSH (R93, R94). -/

namespace Sys2Proof.Machine

/-! ### The slots that can be had (R77) -/

theorem Slot.isFree_iff (x : Slot) : x.isFree = true ↔ x = .free := by cases x <;> simp [Slot.isFree]

theorem Staging.available_eq (b : Staging) (hits : List SlotId) : ∃ frees : List SlotId, frees.Nodup ∧
    (∀ i : SlotId, i ∈ frees ↔ b.slots[i] = .free) ∧
    b.available hits = frees ++ b.cleanOrder.filter fun i => decide (i ∉ hits) := by
  refine ⟨allSlots.filter fun i => b.slots[i].isFree, (List.nodup_finRange 64).filter _, fun i => ?_, ?_⟩
  · simp [allSlots, Slot.isFree_iff]
  · simp [Staging.available]

/-- Each block gets its own slot, or the next of those that can be had. -/
theorem Staging.assign_spec (b : Staging) (lbns : List Nat) (had : List SlotId)
    (hroom : (lbns.filter fun n => (b.find n).isNone).length ≤ had.length) :
    (b.assign lbns had).map Prod.fst = lbns ∧ (∀ x ∈ b.assign lbns had, ∀ i, b.find x.1 = some i → x.2 = i) ∧
    ((b.assign lbns had).filter fun x => (b.find x.1).isNone).map Prod.snd =
      had.take (lbns.filter fun n => (b.find n).isNone).length := by
  induction lbns generalizing had with
  | nil => exact ⟨rfl, nofun, rfl⟩
  | cons n lbns ih =>
    cases hfind : b.find n with
    | some i =>
      obtain ⟨hblocks, hhits, hmisses⟩ := ih had (by simpa [hfind] using hroom)
      refine ⟨by simp [Staging.assign, hfind, hblocks], ?_, by simpa [Staging.assign, hfind] using hmisses⟩
      simpa [Staging.assign, hfind] using hhits
    | none =>
      cases had with
      | nil => simp [hfind] at hroom
      | cons k had =>
        obtain ⟨hblocks, hhits, hmisses⟩ := ih had (by simpa [hfind] using hroom)
        refine ⟨by simp [Staging.assign, hfind, hblocks], ?_, by simpa [Staging.assign, hfind] using hmisses⟩
        simpa [Staging.assign, hfind] using hhits

/-! ### The blocks of a WRITE go into their slots (R78) -/

theorem Staging.putBlocks_eq_foldl (r : Fin 16) (position : Nat) (payload : List Byte) (pairs : List (Nat × SlotId)) (k : Nat)
    (b : Staging) : b.putBlocks r position payload k pairs = (pairs.zipIdx k).foldl
      (fun (t : Staging) x => t.putBlock x.1.2 x.1.1 r position ((payload.drop (512 * x.2)).take 512)) b := by
  induction pairs generalizing k b with
  | nil => rfl
  | cons x pairs ih => exact ih (k + 1) _

section
variable (b : Staging) (i : SlotId) (lbn : Nat) (r : Fin 16) (position : Nat) (data : Block)

/-- What a block makes of a FREE or CLEAN slot. -/
def freshDirty : Dirty :=
  { lbn := lbn, region := r, firstDirty := position, lastWrite := position, relocate := false, data := data }

theorem Staging.setSlot_same (x : Slot) : (b.setSlot i x).slots[i] = x := (b.setSlot_slot i i x).trans (if_pos rfl)

theorem Staging.putBlock_of_idle (h : b.slots[i].unflushed? = none) :
    b.putBlock i lbn r position data = b.makeDirty i (freshDirty lbn r position data) := by
  unfold Staging.putBlock
  cases hs : b.slots[i] with
  | free | clean => rfl
  | dirty | flushing => simp [hs, Slot.unflushed?] at h

theorem Staging.putBlock_of_dirty (e : Dirty) (h : b.slots[i] = .dirty e) : b.putBlock i lbn r position data =
    b.setSlot i (.dirty { freshDirty lbn r position data with firstDirty := e.firstDirty, relocate := e.relocate }) := by
  simp only [Staging.putBlock, h]
  rfl

theorem Staging.putBlock_of_flushing (e : Dirty) (w : Nat) (h : b.slots[i] = .flushing e w) : b.putBlock i lbn r position data =
    b.setSlot i (.flushing { freshDirty lbn r position data with firstDirty := e.firstDirty, relocate := e.relocate } w) := by
  simp only [Staging.putBlock, h]
  rfl

theorem Staging.putBlock_slot_other (j : SlotId) (hj : j ≠ i) : (b.putBlock i lbn r position data).slots[j] = b.slots[j] := by
  unfold Staging.putBlock
  split
  · exact (b.makeDirty_slot i j _).trans (if_neg hj)
  · exact (b.makeDirty_slot i j _).trans (if_neg hj)
  · exact (b.setSlot_slot i j _).trans (if_neg hj)
  · exact (b.setSlot_slot i j _).trans (if_neg hj)

end

/-- Settles O14: the lookup by `Staging.find_some` and `Staging.find_none`, the assignment by induction on the blocks, one block by the
state of its slot. -/
theorem blocksFindTheirSlots : Obligations.BlocksFindTheirSlots := by
  refine ⟨fun b lbn => ⟨b.find_some lbn, b.find_none lbn⟩, fun b hits => b.available_eq hits, fun b lbns => b.assign_spec lbns _,
    fun b lbns r payload => ?placed, fun b i lbn r position data => ⟨fun h => ?free, fun l q x h => ?clean, fun e h => ?dirty,
      fun e w h => ?flushing, b.putBlock_slot_other i lbn r position data, b.putBlock_writeOrder i lbn r position data⟩⟩
  case placed => rw [Staging.place, Staging.putBlocks_eq_foldl]
  case free =>
    rw [b.putBlock_of_idle i lbn r position data (by rw [h]; rfl)]
    exact ⟨b.setSlot_same i _, rfl⟩
  case clean =>
    rw [b.putBlock_of_idle i lbn r position data (by rw [h]; rfl)]
    exact ⟨b.setSlot_same i _, rfl, rfl⟩
  case dirty =>
    rw [b.putBlock_of_dirty i lbn r position data e h]
    exact ⟨b.setSlot_same i _, rfl, rfl⟩
  case flushing =>
    rw [b.putBlock_of_flushing i lbn r position data e w h]
    exact ⟨b.setSlot_same i _, rfl, rfl⟩

/-! ### FLUSH (R93, R94) -/

theorem FlushWaiter.covers_iff (w : FlushWaiter) (d : Dirty) :
    w.covers d = true ↔ (w.scope = none ∨ w.scope = some d.region) ∧ d.firstDirty ≤ w.mark := by
  unfold FlushWaiter.covers
  cases w.scope with
  | none => simp
  | some r => simp [Bool.and_eq_true, eq_comm (a := r)]

/-- A FLUSH is done where no slot that it covers is DIRTY or FLUSHING. -/
theorem State.flushDone_iff (s : State) (w : FlushWaiter) : s.staging.flushDone w = true ↔
    ¬∃ i d, (s.slot i).unflushed? = some d ∧ (w.scope = none ∨ w.scope = some d.region) ∧ d.firstDirty ≤ w.mark := by
  simp only [Staging.flushDone, allSlots, List.all_eq_true, List.mem_finRange, true_implies, not_exists, not_and,
    ← FlushWaiter.covers_iff]
  refine forall_congr' fun i => ?_
  change _ ↔ ∀ d, s.staging.slots[i].unflushed? = some d → _
  cases s.staging.slots[i].unflushed? with
  | none => simp
  | some d => simp

/-- The waiter of a FLUSH of this scope, with the mark at the current write order. -/
def State.flushWaiterFor (s : State) (p : PortId) (tag : Byte) (scope : Option (Fin 16)) : FlushWaiter :=
  { port := p, tag := tag, detached := false, scope := scope, mark := s.staging.writeOrder, lost := 0 }

/-- The FLUSH is done, or it is started and its waiter is made; `t` has the lease set back. -/
def State.flushStarted (t : State) (p : PortId) (tag : Byte) (w : FlushWaiter) : State :=
  { t.startRecord p tag with staging := { t.staging with flushWaiters := t.staging.flushWaiters ++ [w] } }

theorem State.present_flush_one (s : State) (p : PortId) (tag : Byte) {b : Byte} {r : Fin 16}
    (hpass : s.refusal p (.flush b) = none) (hb : regionOf b = some r) : s.present p tag (.flush b) =
      if s.staging.flushDone (s.flushWaiterFor p tag (some r)) then (s.renewed p r).complete p tag .ok (.lost 0)
      else (s.renewed p r).flushStarted p tag (s.flushWaiterFor p tag (some r)) := by
  have hnot : b ≠ 0xFF := fun h => by
    have hnone : regionOf 0xFF = none := by decide
    rw [h, hnone] at hb
    cases hb
  have hscope : flushScopeOf b = some (.one r) := by rw [flushScopeOf, if_neg hnot, hb]; rfl
  simp only [s.present_of_passing p tag _ hpass, State.dispatch, hscope, State.dispatchFlush, s.renewIfHolder_eq]
  simp only [State.startRecord, State.updPort_staging]
  rfl

theorem State.present_flush_all (s : State) (p : PortId) (tag : Byte) (hpass : s.refusal p (.flush 0xFF) = none) :
    s.present p tag (.flush 0xFF) =
      if s.staging.flushDone (s.flushWaiterFor p tag none) then s.complete p tag .ok (.lost 0)
      else s.flushStarted p tag (s.flushWaiterFor p tag none) := by
  rw [s.present_of_passing p tag _ hpass]
  simp only [State.dispatch, flushScopeOf, if_pos, State.dispatchFlush, State.startRecord, State.updPort_staging]
  rfl

theorem State.setRegion_startRecord (s : State) (p : PortId) (tag : Byte) (r : Fin 16) (x : Region) :
    (s.setRegion r x).startRecord p tag = (s.startRecord p tag).setRegion r x := by
  cases p <;> rfl

theorem State.taking_flushDone (s : State) (p : PortId) (tag : Byte) (q : Request) (st : RecordState) (w : FlushWaiter) :
    (s.taking p tag q st).staging.flushDone w = s.staging.flushDone w := by rw [State.taking_staging]

theorem State.taking_flushWaiterFor (s : State) (p : PortId) (tag : Byte) (q : Request) (st : RecordState)
    (scope : Option (Fin 16)) : (s.taking p tag q st).flushWaiterFor p tag scope = s.flushWaiterFor p tag scope := by
  rw [State.flushWaiterFor, State.taking_staging, State.flushWaiterFor]

section
variable (s : State) (p : PortId) (tag b : Byte) (r : Fin 16) (hp : Passes s p tag (.flush b)) (hb : regionOf b = some r)
include hp hb

theorem exec_flush_one_done (h : s.staging.flushDone (s.flushWaiterFor p tag (some r)) = true) :
    exec (.flush p tag b) s =
      .next ((s.answering p tag (.flush b) .ok (.lost 0)).setRegion r ((s.region r).renewedFor p)) := by
  obtain ⟨hquiet, hcan, hpass⟩ := hp
  refine exec_of_present rfl hquiet hcan hpass ?_
    ((congrArg Agreement.entering (s.answering_agree p tag (.flush b) .ok (.lost 0))).trans hquiet.2.2.1)
    (by rw [State.setRegion_port, State.answering_other]; exact s.other_next p hquiet)
  rw [State.present_flush_one _ p tag (by rwa [State.refusal_taking]) hb, State.taking_flushDone, State.taking_flushWaiterFor,
    if_pos h, State.renewed, State.taking_setRegion_complete s p tag _ r _ _ _ hcan.2.2.1, State.taking_region]

theorem exec_flush_one_waits (h : ¬s.staging.flushDone (s.flushWaiterFor p tag (some r)) = true) :
    exec (.flush p tag b) s =
      .next { (s.taking p tag (.flush b) .started).setRegion r ((s.region r).renewedFor p) with
        staging := { s.staging with flushWaiters := s.staging.flushWaiters ++ [s.flushWaiterFor p tag (some r)] } } := by
  obtain ⟨hquiet, hcan, hpass⟩ := hp
  refine exec_of_present rfl hquiet hcan hpass ?_
    ((congrArg Agreement.entering (s.taking_agree p tag (.flush b) .started)).trans hquiet.2.2.1)
    ((congrArg PortUnit.nextToPresent (s.taking_other p tag (.flush b) .started)).trans (s.other_next p hquiet))
  rw [State.present_flush_one _ p tag (by rwa [State.refusal_taking]) hb, State.taking_flushDone, State.taking_flushWaiterFor,
    if_neg h, State.flushStarted, State.renewed, State.setRegion_startRecord, State.taking_startRecord s p tag _ _ hcan.2.2.1,
    State.taking_region, State.setRegion_staging, State.taking_staging]
  rfl

end

section
variable (s : State) (p : PortId) (tag : Byte) (hp : Passes s p tag (.flush 0xFF))
include hp

theorem exec_flush_all_done (h : s.staging.flushDone (s.flushWaiterFor p tag none) = true) :
    exec (.flush p tag 0xFF) s = .next (s.answering p tag (.flush 0xFF) .ok (.lost 0)) := by
  obtain ⟨hquiet, hcan, hpass⟩ := hp
  refine exec_of_present_complete rfl hquiet hcan hpass ?_
  rw [State.present_flush_all _ p tag (by rwa [State.refusal_taking]), State.taking_flushDone, State.taking_flushWaiterFor,
    if_pos h]

theorem exec_flush_all_waits (h : ¬s.staging.flushDone (s.flushWaiterFor p tag none) = true) :
    exec (.flush p tag 0xFF) s = .next { s.taking p tag (.flush 0xFF) .started with
      staging := { s.staging with flushWaiters := s.staging.flushWaiters ++ [s.flushWaiterFor p tag none] } } := by
  obtain ⟨hquiet, hcan, hpass⟩ := hp
  refine exec_of_present rfl hquiet hcan hpass ?_
    ((congrArg Agreement.entering (s.taking_agree p tag (.flush 0xFF) .started)).trans hquiet.2.2.1)
    ((congrArg PortUnit.nextToPresent (s.taking_other p tag (.flush 0xFF) .started)).trans (s.other_next p hquiet))
  rw [State.present_flush_all _ p tag (by rwa [State.refusal_taking]), State.taking_flushDone, State.taking_flushWaiterFor,
    if_neg h, State.flushStarted, State.taking_startRecord s p tag _ _ hcan.2.2.1, State.taking_staging]
  rfl

end

/-- The slots covered by a FLUSH of one region (R93). -/
theorem State.flushDone_one (s : State) (p : PortId) (tag : Byte) (r : Fin 16) :
    s.staging.flushDone (s.flushWaiterFor p tag (some r)) = true ↔
      ¬∃ i d, (s.slot i).unflushed? = some d ∧ d.region = r ∧ d.firstDirty ≤ s.staging.writeOrder := by
  rw [s.flushDone_iff]
  simp [State.flushWaiterFor, eq_comm]

/-- The slots covered by a FLUSH of all regions (R93). -/
theorem State.flushDone_all (s : State) (p : PortId) (tag : Byte) :
    s.staging.flushDone (s.flushWaiterFor p tag none) = true ↔
      ¬∃ i d, (s.slot i).unflushed? = some d ∧ d.firstDirty ≤ s.staging.writeOrder := by
  rw [s.flushDone_iff]
  simp [State.flushWaiterFor]

/-- Settles O15: the two outcomes of `Staging.flushDone` for one region and for all, taken between two events and presented later. -/
theorem flushWaitsForItsMark : Obligations.FlushWaitsForItsMark := by
  refine ⟨fun s p tag b r hp hb => ⟨fun h => ?one, fun h => ?oneWaits⟩, fun s p tag hp => ⟨fun h => ?all, fun h => ?allWaits⟩,
    fun s p tag b r hpass hb => ⟨fun h => ?laterOne, fun h => ?laterOneWaits⟩,
    fun s p tag hpass => ⟨fun h => ?laterAll, fun h => ?laterAllWaits⟩⟩
  case one => exact exec_flush_one_done s p tag b r hp hb ((s.flushDone_one p tag r).mpr h)
  case oneWaits => exact exec_flush_one_waits s p tag b r hp hb fun hdone => (s.flushDone_one p tag r).mp hdone h
  case all => exact exec_flush_all_done s p tag hp ((s.flushDone_all p tag).mpr h)
  case allWaits => exact exec_flush_all_waits s p tag hp fun hdone => (s.flushDone_all p tag).mp hdone h
  case laterOne =>
    rw [s.present_flush_one p tag hpass hb, if_pos ((s.flushDone_one p tag r).mpr h)]
    rfl
  case laterOneWaits =>
    rw [s.present_flush_one p tag hpass hb, if_neg fun hdone => (s.flushDone_one p tag r).mp hdone h]
    rfl
  case laterAll => rw [s.present_flush_all p tag hpass, if_pos ((s.flushDone_all p tag).mpr h)]
  case laterAllWaits =>
    rw [s.present_flush_all p tag hpass, if_neg fun hdone => (s.flushDone_all p tag).mp hdone h]
    rfl

end Sys2Proof.Machine
end

section
/-! PROOFS. CLAIM, RELEASE, FIX, QUERY_REGION and INQUIRE (R10, R12, R16, R18, R19, R37, R70). -/

namespace Sys2Proof.Machine

/-- A row whose presentation sets a region record and completes the request. -/
theorem exec_of_present_setRegion {s : State} {p : PortId} {tag : Byte} {q : Request} {st : Status} {res : Result}
    (hk : keptWhole q = true) (hq : Quiet s) (hc : CanTake s p tag) (hn : s.refusal p q = none) (r : Fin 16) (x : Region)
    (ht : (s.taking p tag q .awaitingTurn).present p tag q =
      ((s.taking p tag q .awaitingTurn).setRegion r x).complete p tag st res) :
    exec (rowOf p tag q) s = .next ((s.answering p tag q st res).setRegion r x) := by
  rw [s.taking_setRegion_complete p tag q r x st res hc.2.2.1] at ht
  exact exec_of_present hk hq hc hn ht ((congrArg Agreement.entering (s.answering_agree p tag q st res)).trans hq.2.2.1)
    (by rw [State.setRegion_port, State.answering_other]; exact s.other_next p hq)

/-! ### CLAIM (R10) -/

section
variable (s : State) (p : PortId) (tag : Byte) {b : Byte} {r : Fin 16} (hpass : s.refusal p (.claim b) = none)
  (hb : regionOf b = some r)
include hpass hb

theorem State.present_claim : s.present p tag (.claim b) = s.claim p tag r := by
  simp [s.present_of_passing p tag _ hpass, State.dispatch, State.onRegion, hb]

theorem State.present_claim_shared (h : (s.region r).attrs.exclusive = false) :
    s.present p tag (.claim b) = s.complete p tag .noRight (.lease 0) := by
  rw [s.present_claim p tag hpass hb]
  exact if_pos h

theorem State.present_claim_taken (h : (s.region r).attrs.exclusive = true)
    (hold : (s.region r).hold = none ∨ (s.region r).heldBy p = true) : s.present p tag (.claim b) =
      (s.setRegion r { s.region r with hold := some ⟨p, (s.region r).leasePeriod⟩ }).complete p tag .ok
        (.lease (s.region r).leasePeriod) := by
  rw [s.present_claim p tag hpass hb, State.claim]
  dsimp only
  rw [if_neg (by simp [h])]
  cases hh : (s.region r).hold with
  | none => rfl
  | some k =>
    have hown : k.holder = p := by simpa [Region.heldBy, hh] using hold
    exact if_pos hown

theorem State.present_claim_held (h : (s.region r).attrs.exclusive = true) (k : Hold) (hold : (s.region r).hold = some k)
    (hother : k.holder = p.other) : s.present p tag (.claim b) = s.complete p tag .held (.lease k.remaining) := by
  rw [s.present_claim p tag hpass hb, State.claim]
  rw [if_neg (by simp [h]), hold]
  exact if_neg (by rw [hother]; exact PortId.other_ne p)

end

/-! ### RELEASE (R12, R16) -/

theorem PortUnit.waitingWrite_none (u : PortUnit) : u.waitingWrite = none ↔ ∀ x ∈ u.requests, x.state ≠ .awaitingSlots := by
  simp [PortUnit.waitingWrite]

theorem State.endWaitingWrite_of_none (s : State) (p : PortId) (names : Fin 16 → Bool) (st : Status)
    (h : (s.port p).waitingWrite = none) : s.endWaitingWrite p names st = s := by
  simp [State.endWaitingWrite, h]

/-- The not-started READs of a port on a region leave its wait list and complete LEASE_LOST, one after the other. -/
def State.loseReads (s : State) (p : PortId) (r : Fin 16) : State :=
  ((s.sched.wait p).filter (·.region == r)).foldl (fun t w => t.complete p w.tag .leaseLost .blank)
    { s with sched := s.sched.setWait p ((s.sched.wait p).filter (·.region != r)) }

theorem State.endNotStarted_eq (s : State) (p : PortId) (r : Fin 16) :
    s.endNotStarted p r = (s.loseReads p r).endWaitingWrite p (· == r) .leaseLost := by
  unfold State.endNotStarted State.completeAll State.loseReads
  dsimp only
  rw [List.foldl_map]

theorem State.loseReads_frame (s : State) (p : PortId) (r : Fin 16) (h : (s.port p).waitingWrite = none) :
    ((s.loseReads p r).port p).waitingWrite = none ∧ (s.loseReads p r).port p.other = s.port p.other ∧
      (s.loseReads p r).agree = s.agree := by
  obtain ⟨hwaits, hother, hagree⟩ := State.loseReads_fields p ((s.sched.wait p).filter (·.region == r))
    { s with sched := s.sched.setWait p ((s.sched.wait p).filter (·.region != r)) }
    (show ∀ x ∈ (State.port _ p).requests, _ by cases p <;> exact (PortUnit.waitingWrite_none _).mp h)
  refine ⟨(PortUnit.waitingWrite_none _).mpr hwaits, hother.trans ?_, hagree⟩
  cases p <;> rfl

theorem State.endNotStarted_of_none (s : State) (p : PortId) (r : Fin 16) (h : (s.port p).waitingWrite = none) :
    s.endNotStarted p r = s.loseReads p r := by
  rw [s.endNotStarted_eq p r, State.endWaitingWrite_of_none _ p _ _ (s.loseReads_frame p r h).1]

section
variable (s : State) (p : PortId) (tag : Byte) {b : Byte} {r : Fin 16} (hpass : s.refusal p (.release b) = none)
  (hb : regionOf b = some r)
include hpass hb

theorem State.present_release : s.present p tag (.release b) = s.release p tag r := by
  simp [s.present_of_passing p tag _ hpass, State.dispatch, State.onRegion, hb]

theorem State.present_release_holder (hw : (s.port p).waitingWrite = none) (h : (s.region r).heldBy p = true) :
    s.present p tag (.release b) =
      ((s.setRegion r { s.region r with hold := none }).loseReads p r).complete p tag .ok .blank := by
  rw [s.present_release p tag hpass hb, State.release, if_pos h, State.dropHold,
    State.endNotStarted_of_none _ p r (by rwa [State.setRegion_port])]

theorem State.present_release_other (h : (s.region r).heldBy p = false) :
    s.present p tag (.release b) = s.complete p tag .notHolder .blank := by
  rw [s.present_release p tag hpass hb, State.release, if_neg (by simp [h])]

end

section
variable (s : State) (p : PortId) (tag b : Byte) (r : Fin 16) (hp : Passes s p tag (.release b)) (hb : regionOf b = some r)
include hp hb

theorem exec_release_holder (h : (s.region r).heldBy p = true) : exec (.release p tag b) s =
    .next ((((s.taking p tag (.release b) .awaitingTurn).setRegion r { s.region r with hold := none }).loseReads p r).complete
      p tag .ok .blank) := by
  obtain ⟨hquiet, hcan, hpass⟩ := hp
  have hw : ((s.taking p tag (.release b) .awaitingTurn).port p).waitingWrite = none := by
    rw [State.taking_port, PortUnit.waitingWrite_none]
    intro x hx
    rcases List.mem_append.mp hx with hx | hx
    · exact hcan.2.2.2 x hx
    · rw [List.mem_singleton.mp hx]; nofun
  obtain ⟨-, hother, hagree⟩ := State.loseReads_frame
    ((s.taking p tag (.release b) .awaitingTurn).setRegion r { s.region r with hold := none }) p r (by rwa [State.setRegion_port])
  refine exec_of_present rfl hquiet hcan hpass ?_ ?_ ?_
  · rw [State.present_release_holder _ p tag (by rwa [State.refusal_taking]) hb hw (by rwa [State.taking_region]),
      State.taking_region]
  · rw [State.complete_agree, hagree, State.setRegion_agree, State.taking_agree]
    exact hquiet.2.2.1
  · rw [State.complete, State.updPort_port_other, hother, State.setRegion_port, State.taking_other]
    exact s.other_next p hquiet

theorem exec_release_unread (h : (s.region r).heldBy p = true) (hgone : (s.sched.wait p).filter (·.region == r) = []) :
    exec (.release p tag b) s =
      .next ((s.answering p tag (.release b) .ok .blank).setRegion r { s.region r with hold := none }) := by
  have hfree := hp.2.1.2.2.1
  rw [exec_release_holder s p tag b r hp hb h, ← s.taking_setRegion_complete p tag (.release b) r _ .ok .blank hfree]
  have hkept : (s.sched.wait p).filter (·.region != r) = s.sched.wait p := by
    refine List.filter_eq_self.mpr fun w hw => ?_
    have hne := List.filter_eq_nil_iff.mp hgone w hw
    simpa using hne
  have hlose : ((s.taking p tag (.release b) .awaitingTurn).setRegion r { s.region r with hold := none }).loseReads p r =
      (s.taking p tag (.release b) .awaitingTurn).setRegion r { s.region r with hold := none } := by
    rw [State.loseReads, State.setRegion_sched, State.taking_sched, hgone, hkept]
    cases p <;> rfl
  rw [hlose]

end

/-- Settles O16: CLAIM by the mode and the holder, RELEASE by the holder. -/
theorem claimAndReleaseByTheHolder : Obligations.ClaimAndReleaseByTheHolder := by
  refine ⟨fun s p tag b r ⟨hq, hc, hpass⟩ hb => ⟨fun h => ?shared, fun h hold => ?taken, fun k h hold hother => ?held⟩,
    fun s p tag b r hp hb => ⟨fun h => ?released, exec_release_unread s p tag b r hp hb, fun h => ?notHolder⟩,
    fun s p tag b r hpass hb => ⟨s.present_claim_shared p tag hpass hb, s.present_claim_taken p tag hpass hb,
      fun k h => s.present_claim_held p tag hpass hb h k⟩,
    fun s p tag b r hpass hb hw => ⟨s.present_release_holder p tag hpass hb hw, s.present_release_other p tag hpass hb⟩⟩
  case shared =>
    exact exec_of_present_complete rfl hq hc hpass
      (State.present_claim_shared _ p tag (by rwa [State.refusal_taking]) hb (by rwa [State.taking_region]))
  case taken =>
    refine exec_of_present_setRegion rfl hq hc hpass r _ ?_
    rw [State.present_claim_taken _ p tag (by rwa [State.refusal_taking]) hb (by rwa [State.taking_region])
      (by rwa [State.taking_region]), State.taking_region]
  case held =>
    exact exec_of_present_complete rfl hq hc hpass (State.present_claim_held _ p tag (by rwa [State.refusal_taking]) hb
      (by rwa [State.taking_region]) k (by rwa [State.taking_region]) hother)
  case released =>
    have hrow := exec_release_holder s p tag b r hp hb h
    rw [State.loseReads, State.setRegion_sched, State.taking_sched] at hrow
    exact hrow
  case notHolder =>
    obtain ⟨hq, hc, hpass⟩ := hp
    exact exec_of_present_complete rfl hq hc hpass
      (State.present_release_other _ p tag (by rwa [State.refusal_taking]) hb (by rwa [State.taking_region]))

/-! ### FIX (R18, R37) -/

theorem State.endProposal_next (s : State) (pr : Proposal) (reason : OutcomeReason) (x : PortId) :
    ((s.endProposal pr reason).port x).nextToPresent = (s.port x).nextToPresent := by
  refine (State.offer_next _ .B x _).trans ((State.offer_next _ .A x _).trans ?_)
  cases x <;> rfl

section
variable (s : State) (p : PortId) (tag : Byte) {b : Byte} {r : Fin 16} (hpass : s.refusal p (.fix b) = none)
  (hb : regionOf b = some r)
include hpass hb

theorem State.present_fix : s.present p tag (.fix b) = s.fix p tag r := by
  simp [s.present_of_passing p tag _ hpass, State.dispatch, State.onRegion, hb]

theorem State.present_fix_held (h : (s.region r).heldBy p.other = true) :
    s.present p tag (.fix b) = s.complete p tag .noRight .blank := by
  rw [s.present_fix p tag hpass hb]
  exact if_pos h

theorem State.present_fix_free (h : (s.region r).heldBy p.other = false) : s.present p tag (.fix b) =
    ((s.setRegion r { s.region r with state := .fixed }).complete p tag .ok .blank).lapseIfFixed r := by
  rw [s.present_fix p tag hpass hb]
  exact if_neg (by simp [Region.heldByOther, h])

end

theorem State.lapseIfFixed_of_untargeted (s : State) (r : Fin 16)
    (h : ∀ pr, s.agree.openProposal = some pr → pr.change.targets r = false) : s.lapseIfFixed r = s := by
  unfold State.lapseIfFixed
  cases hopen : s.agree.openProposal with
  | none => rfl
  | some pr => exact if_neg (by simp [h pr hopen])

theorem State.lapseIfFixed_of_targeted (s : State) (r : Fin 16) (pr : Proposal) (hopen : s.agree.openProposal = some pr)
    (h : pr.change.targets r = true) : s.lapseIfFixed r = s.endProposal pr .lapsedTargetFixed := by
  simp [State.lapseIfFixed, hopen, h]

/-- Settles O18: the hold check, then whether an OPEN proposal targets the region. -/
theorem fixFixesTheRegion : Obligations.FixFixesTheRegion := by
  refine ⟨fun s p tag b r ⟨hq, hc, hpass⟩ hb => ⟨fun h => ?held, fun h htargets => ?fixed, fun pr h hopen htarget => ?lapsed⟩,
    fun s p tag b r hpass hb => ⟨s.present_fix_held p tag hpass hb, fun h htargets => ?laterFixed,
      fun pr h hopen htarget => ?laterLapsed⟩⟩
  case held =>
    exact exec_of_present_complete rfl hq hc hpass
      (State.present_fix_held _ p tag (by rwa [State.refusal_taking]) hb (by rwa [State.taking_region]))
  case fixed =>
    refine exec_of_present_setRegion rfl hq hc hpass r _ ?_
    rw [State.present_fix_free _ p tag (by rwa [State.refusal_taking]) hb (by rwa [State.taking_region]), State.taking_region,
      State.lapseIfFixed_of_untargeted]
    rwa [State.complete_agree, State.setRegion_agree, State.taking_agree]
  case lapsed =>
    have hagree := s.answering_agree p tag (.fix b) .ok .blank
    rw [← State.endProposal_of_agree (by rw [State.setRegion_agree, hagree])]
    refine exec_of_present rfl hq hc hpass ?_ ?_ ?_
    · rw [State.present_fix_free _ p tag (by rwa [State.refusal_taking]) hb (by rwa [State.taking_region]), State.taking_region,
        State.lapseIfFixed_of_targeted _ r pr _ htarget, s.taking_setRegion_complete p tag _ r _ _ _ hc.2.2.1]
      rwa [State.complete_agree, State.setRegion_agree, State.taking_agree]
    · rw [State.endProposal_entering, State.setRegion_agree, hagree]
      exact hq.2.2.1
    · rw [State.endProposal_next, State.setRegion_port, State.answering_other]
      exact s.other_next p hq
  case laterFixed =>
    rw [s.present_fix_free p tag hpass hb h, State.lapseIfFixed_of_untargeted]
    rwa [State.complete_agree, State.setRegion_agree]
  case laterLapsed =>
    have hagree : ((s.setRegion r { s.region r with state := .fixed }).complete p tag .ok .blank).agree = s.agree := by
      rw [State.complete_agree, State.setRegion_agree]
    rw [s.present_fix_free p tag hpass hb h, State.lapseIfFixed_of_targeted _ r pr (by rwa [hagree]) htarget,
      State.endProposal_of_agree hagree]

/-! ### QUERY_REGION and INQUIRE (R19, R70) -/

theorem Region.reported_of_defined (x : Region) (h : x.state ≠ .undefined) : x.reported = x := by
  simp [Region.reported, Region.isDefined, h]

theorem Region.reported_of_undefined (x : Region) (h : x.state = .undefined) :
    x.reported = { Region.undefinedRecord with changing := x.changing } := by
  simp [Region.reported, Region.isDefined, h]

theorem State.present_queryRegion (s : State) (p : PortId) (tag : Byte) {b : Byte} {r : Fin 16}
    (hpass : s.refusal p (.queryRegion b) = none) (hb : regionOf b = some r) :
    s.present p tag (.queryRegion b) = s.complete p tag .ok (.region (s.region r).reported) := by
  simp [s.present_of_passing p tag _ hpass, State.dispatch, State.onRegion, hb, State.queryRegion]

theorem State.refusal_inquire (s : State) (p : PortId) (hstart : s.service.state ≠ .starting) (honline : (s.port p).online = true) :
    s.refusal p .inquire = none := by
  rw [Attached.refusal ⟨hstart, .inl honline⟩]
  simp [badFields, needsMedia, needsService, State.regionRefusal]

theorem State.taking_inquiry (s : State) (p : PortId) (tag : Byte) (q : Request) (st : RecordState) :
    (s.taking p tag q st).inquiry = s.inquiry := by cases p <;> rfl

/-- Settles O19: both complete OK with what `Region.reported` and `State.inquiry` say. -/
theorem queriesReportAndChangeNothing : Obligations.QueriesReportAndChangeNothing := by
  have query (s : State) (p : PortId) (tag b : Byte) (r : Fin 16) (hp : Passes s p tag (.queryRegion b))
      (hb : regionOf b = some r) :
      exec (.queryRegion p tag b) s = .next (s.answering p tag (.queryRegion b) .ok (.region (s.region r).reported)) := by
    obtain ⟨hq, hc, hpass⟩ := hp
    refine exec_of_present_complete rfl hq hc hpass ?_
    rw [State.present_queryRegion _ p tag (by rwa [State.refusal_taking]) hb, State.taking_region]
  refine ⟨fun s p tag b r hp hb => ⟨fun h => ?defined, fun h => ?undefined⟩,
    fun s p tag => ⟨fun hq hc hstart honline => ?inquire, fun hpass => ?later⟩,
    fun s p tag b r hpass hb => ⟨fun h => ?laterDefined, fun h => ?laterUndefined⟩⟩
  case defined => rw [query s p tag b r hp hb, Region.reported_of_defined _ h]
  case undefined => rw [query s p tag b r hp hb, Region.reported_of_undefined _ h]; rfl
  case inquire =>
    have hpass := s.refusal_inquire p hstart honline
    refine exec_of_present_complete rfl hq hc hpass (res := .inquire s.inquiry) ?_
    rw [State.present_of_passing _ p tag _ (by rwa [State.refusal_taking]), State.dispatch, State.taking_inquiry]
  case later => exact s.present_of_passing p tag _ hpass
  case laterDefined => rw [s.present_queryRegion p tag hpass hb, Region.reported_of_defined _ h]
  case laterUndefined => rw [s.present_queryRegion p tag hpass hb, Region.reported_of_undefined _ h]; rfl

end Sys2Proof.Machine
end

section
/-! PROOFS. Validation of a change (R28, R102) and PROPOSE, ANSWER, QUIESCE, RESUME, MEDIA_RESTART. -/

namespace Sys2Proof.Machine

/-! ### Validation (R28) -/

theorem extentsOverlap_iff (b l b' l' : Nat) : extentsOverlap b l b' l' = true ↔ Shares b l b' l' := by
  simp only [extentsOverlap, decide_eq_true_eq]
  constructor
  · intro h
    exact ⟨max b b', by omega, by omega⟩
  · rintro ⟨n, hn⟩
    omega

theorem Region.isDefined_iff (x : Region) : x.isDefined = true ↔ x.state ≠ .undefined := by simp [Region.isDefined]

theorem State.overlapsDefined_iff (s : State) (base length : Nat) (x : Option (Fin 16)) :
    s.overlapsDefined base length x = true ↔
      ∃ q, x ≠ some q ∧ (s.region q).state ≠ .undefined ∧ Shares base length (s.region q).base (s.region q).length := by
  simp only [State.overlapsDefined, List.any_eq_true, Bool.and_eq_true, extentsOverlap_iff, Region.isDefined_iff, bne_iff_ne]
  constructor
  · rintro ⟨q, -, ⟨hdef, hx⟩, hshares⟩
    exact ⟨q, hx, hdef, hshares⟩
  · rintro ⟨q, hx, hdef, hshares⟩
    exact ⟨q, by simp [allRegions], ⟨hdef, hx⟩, hshares⟩

theorem State.spareUnderTrial_iff (s : State) :
    s.spareUnderTrial = true ↔ ∃ j, s.sched.job = some (.flush j) ∧ j.target ≠ .current := by
  unfold State.spareUnderTrial
  constructor
  · intro h
    split at h
    case h_1 j hj => exact ⟨j, hj, by simpa using h⟩
    all_goals cases h
  · rintro ⟨j, hj, htrial⟩
    simpa [hj] using htrial

/-- What refuses a SET_SPARES in PROVISIONING (R28, R102). -/
theorem State.badSpareCount_iff (s : State) (count : Nat) : s.badSpareCount count = true ↔
    count < 16 ∨ 1024 < count ∨ (∃ e ∈ s.blockMap.spares, e ≠ .free) ∨
      (∃ j, s.sched.job = some (.flush j) ∧ j.target ≠ .current) ∨ s.blockMap.p < 24 + count + 256 ∨
      ∃ q, (s.region q).state ≠ .undefined ∧ s.blockMap.p - 24 - count < (s.region q).base + (s.region q).length := by
  simp only [State.badSpareCount, Bool.or_eq_true, or_assoc, State.spareUnderTrial_iff, List.any_eq_true, Bool.and_eq_true,
    Region.isDefined_iff, bne_iff_ne, decide_eq_true_eq, allRegions, List.mem_finRange, true_and]
  rfl

theorem Region.targetRefusal_eq (x : Region) :
    (x.state = .undefined → x.targetRefusal = some .noRegion) ∧ (x.state = .fixed → x.targetRefusal = some .targetFixed) ∧
      (x.state = .defined → x.targetRefusal = none) := by
  refine ⟨fun h => ?_, fun h => ?_, fun h => ?_⟩ <;> rw [Region.targetRefusal, h]

section
variable (s : State)

theorem State.validate_define (r : Fin 16) (base length : Nat) (attrs : Attrs) (lease : Nat) :
    let bad := (s.region r).state ≠ .undefined ∨ length = 0 ∨ s.blockMap.l < base + length ∨
      ∃ q, (s.region q).state ≠ .undefined ∧ Shares base length (s.region q).base (s.region q).length
    (bad → s.validate (.define r base length attrs lease) = some .invalidChange) ∧
      (¬bad → s.validate (.define r base length attrs lease) = none) := by
  intro bad
  have hbad : ((s.region r).isDefined || length == 0 || decide (s.blockMap.l < base + length) ||
      s.overlapsDefined base length none) = true ↔ bad := by
    simp [bad, State.overlapsDefined_iff, Region.isDefined_iff, or_assoc]
  exact ⟨fun h => if_pos (hbad.mpr h), fun h => if_neg (mt hbad.mp h)⟩

theorem State.validate_resize (r : Fin 16) (length : Nat) (hdef : (s.region r).state = .defined) :
    let bad := length = 0 ∨ s.blockMap.l < (s.region r).base + length ∨
      ∃ q, q ≠ r ∧ (s.region q).state ≠ .undefined ∧ Shares (s.region r).base length (s.region q).base (s.region q).length
    (bad → s.validate (.resize r length) = some .invalidChange) ∧ (¬bad → s.validate (.resize r length) = none) := by
  intro bad
  have hbad : (length == 0 || decide (s.blockMap.l < (s.region r).base + length) ||
      s.overlapsDefined (s.region r).base length (some r)) = true ↔ bad := by
    simp [bad, State.overlapsDefined_iff, or_assoc, eq_comm (a := r)]
  rw [State.validate, (s.region r).targetRefusal_eq.2.2 hdef]
  exact ⟨fun h => if_pos (hbad.mpr h), fun h => if_neg (mt hbad.mp h)⟩

theorem State.validate_resize_target (r : Fin 16) (length : Nat) {st : Status} (h : (s.region r).targetRefusal = some st) :
    s.validate (.resize r length) = some st := by
  rw [State.validate, h]

theorem State.validate_resetTable (h : s.agree.phase = .agreed) :
    ((∃ r, (s.region r).state = .fixed) → s.validate .resetTable = some .targetFixed) ∧
      ((∀ r, (s.region r).state ≠ .fixed) → s.validate .resetTable = none) := by
  have hfixed : (allRegions.any fun r => (s.region r).state == .fixed) = true ↔ ∃ r, (s.region r).state = .fixed := by
    simp [allRegions]
  rw [State.validate, if_neg (by simp [h])]
  exact ⟨fun hr => if_pos (hfixed.mpr hr), fun hr => if_neg (mt hfixed.mp fun ⟨r, hx⟩ => hr r hx)⟩

theorem State.validate_setSpares (count : Nat) (h : s.agree.phase = .provisioning) :
    s.validate (.setSpares count) = if s.badSpareCount count = true then some .invalidChange else none := by
  rw [State.validate, if_neg (by simp [h])]

end

/-- Settles O20: the table of R28, a kind at a time. -/
theorem validationByKind : Obligations.ValidationByKind := by
  intro s defined shares target
  have target_refused (c : Change) (r : Fin 16)
      (h : ∀ st, (s.region r).targetRefusal = some st → s.validate c = some st) : target c r :=
    ⟨fun hx => h _ ((s.region r).targetRefusal_eq.1 hx), fun hx => h _ ((s.region r).targetRefusal_eq.2.1 hx)⟩
  refine ⟨s.validate_define, fun r => ⟨?delete, (s.region r).targetRefusal_eq.2.2⟩,
    fun r length => ⟨?resize, fun h => (s.validate_resize r length h).1, fun h => (s.validate_resize r length h).2⟩,
    fun r attrs lease => ⟨?reconfigure, (s.region r).targetRefusal_eq.2.2⟩, fun h => if_pos (by simp [h]),
    fun h => (s.validate_resetTable h).1, fun h => (s.validate_resetTable h).2, fun h => if_pos (by simp [h]),
    fun h => if_neg (by simp [h]), fun count => ⟨fun h => if_pos (by simp [h]), fun h hbad => ?badCount, fun h hgood => ?goodCount⟩⟩
  case delete => exact target_refused _ r fun st h => h
  case resize => exact target_refused _ r fun st h => s.validate_resize_target r length h
  case reconfigure => exact target_refused _ r fun st h => h
  case badCount => rw [s.validate_setSpares count h, if_pos ((s.badSpareCount_iff count).mpr hbad)]
  case goodCount => rw [s.validate_setSpares count h, if_neg (mt (s.badSpareCount_iff count).mp hgood)]

end Sys2Proof.Machine
end

section
/-! PROOFS. PROPOSE, ANSWER and the entry to APPLYING (R26, R29 to R32, R40, R61). -/

namespace Sys2Proof.Machine

/-- A row that is presented at once, and whatever its presentation lets be presented after it. -/
theorem exec_moves_on {s t : State} {p : PortId} {tag : Byte} {q : Request} (hk : keptWhole q = true) (hq : Quiet s)
    (hc : CanTake s p tag) (ht : (s.taking p tag q .awaitingTurn).present p tag q = t) : exec (rowOf p tag q) s = .next t.moveOn := by
  rw [exec_rowOf p tag q s hk, s.fromOutside_quiet _ hq.1 hq.2.1, s.submit_moves_on p tag q hq hc, ht]

/-! ### The WRITEs that wait for slots (R61) -/

theorem State.endWaitingWrite_of_some (s : State) (p : PortId) (names : Fin 16 → Bool) (st : Status) {rec : Record} {b c : Byte}
    {o : Word24} {d : List Byte} {r : Fin 16} (hrec : (s.port p).waitingWrite = some rec) (hw : rec.request = .write b c o d)
    (hb : regionOf b = some r) :
    s.endWaitingWrite p names st = if names r then s.complete p rec.tag st .blank else s := by
  simp [State.endWaitingWrite, hrec, hw, writeRegion, hb]

/-- The drain scope of the buffer is set (R40 step 4). -/
def State.withDrain (s : State) (d : DrainScope) : State := { s with staging := { s.staging with drain := d } }

/-- What leaves the ports, and goes past a completion, goes past the end of a waiting WRITE. -/
theorem State.endWaitingWrite_past (f : State → State) (s : State) (p : PortId) (names : Fin 16 → Bool) (st : Status)
    (hport : (f s).port p = s.port p) (hpast : ∀ tag, (f s).complete p tag st .blank = f (s.complete p tag st .blank)) :
    (f s).endWaitingWrite p names st = f (s.endWaitingWrite p names st) := by
  unfold State.endWaitingWrite
  rw [hport]
  cases (s.port p).waitingWrite with
  | none => rfl
  | some rec =>
    cases hr : writeRegion rec.request with
    | none => simp only [hr]
    | some r => cases hn : names r <;> simp [hr, hn, hpast]

theorem State.endWaitingWrite_withDrain (s : State) (p : PortId) (names : Fin 16 → Bool) (st : Status) (d : DrainScope) :
    (s.withDrain d).endWaitingWrite p names st = (s.endWaitingWrite p names st).withDrain d :=
  State.endWaitingWrite_past (·.withDrain d) s p names st (by cases p <;> rfl) fun tag => by cases p <;> rfl

/-! ### The entry to APPLYING (R40) -/

/-- The proposal has entered APPLYING; the requests of the other port are presented before the entry ends (log 17). -/
def State.entering (s : State) (p : PortId) (pr : Proposal) : State :=
  { s.entered pr with agree := { (s.entered pr).agree with entering := some p } }

/-- Steps 1 and 2 of R40. -/
def State.flagged (s : State) (p : PortId) (pr : Proposal) : State :=
  ({ s with agree := { s.agree with proposal := some { pr with state := .applying }, entering := some p } } : State).mapRegions
    pr.change.flagChanging

theorem State.entering_eq (s : State) (p : PortId) (pr : Proposal) :
    s.entering p pr = (s.flagged p pr).withDrain (s.leaving pr.change) := rfl

theorem State.enterApplying_eq (s : State) (p : PortId) (pr : Proposal) :
    s.enterApplying p pr = ((s.entering p pr).endWaitingWrite .A pr.change.targets .regionChanging).endWaitingWrite .B
      pr.change.targets .regionChanging := by
  rw [s.entering_eq, State.endWaitingWrite_withDrain, State.endWaitingWrite_withDrain]
  rfl

theorem State.entered_port (s : State) (pr : Proposal) (x : PortId) : (s.entered pr).port x = s.port x := by
  cases x <;> simp [State.entered, State.port]

theorem State.entering_port (s : State) (p : PortId) (pr : Proposal) (x : PortId) : (s.entering p pr).port x = s.port x := by
  cases x <;> simp [State.entering, State.entered, State.port]

theorem State.enterApplying_of_none (s : State) (p : PortId) (pr : Proposal) (h : NoWriteWaits s) :
    s.enterApplying p pr = s.entering p pr := by
  rw [s.enterApplying_eq p pr, State.endWaitingWrite_of_none (s.entering p pr) .A _ _ (by rw [State.entering_port]; exact h .A),
    State.endWaitingWrite_of_none (s.entering p pr) .B _ _ (by rw [State.entering_port]; exact h .B)]

theorem State.setStaging_port (s : State) (b : Staging) (x : PortId) : ({ s with staging := b } : State).port x = s.port x := by
  cases x <;> rfl

theorem State.requestCheckpoint_port (s : State) (x : PortId) : s.requestCheckpoint.port x = s.port x := by cases x <;> rfl

theorem State.applyProposal_next (s : State) (pr : Proposal) (x : PortId) :
    ((s.applyProposal pr).port x).nextToPresent = (s.port x).nextToPresent := by
  unfold State.applyProposal
  dsimp only
  split <;> simp only [State.requestCheckpoint_port, State.endProposal_next, State.mapRegions_port, State.offerInAnyOrder_next,
    State.setStaging_port, State.applyTables_port]

theorem drainOver_entering (s : State) (p : PortId) (pr : Proposal) (c : Change) :
    DrainOver (s.entering p pr) c ↔ DrainOver (s.entered pr) c := by
  simp only [DrainOver, State.slot, State.entering]

theorem State.enterApplying_enters (s : State) (p : PortId) (pr : Proposal) (hentering : s.agree.entering = none)
    (hready : s.readyPorts = []) (hw : NoWriteWaits s) : EntersApplying s (s.enterApplying p pr).moveOn pr := by
  have hnext (x : PortId) : (s.port x).nextToPresent = none := s.readyPorts_nil.mp hready x
  have hclosed : (s.entering p pr).entryClosed = s.entered pr := by
    have hagree : ({ (s.entered pr).agree with entering := none } : Agreement) = (s.entered pr).agree := by
      simp [State.entered, hentering]
    exact congrArg (fun a => ({ s.entered pr with agree := a } : State)) hagree
  have hmove : (s.enterApplying p pr).moveOn = (s.entering p pr).endEntering.moveOn := by
    rw [s.enterApplying_of_none p pr hw]
    refine State.moveOn_of_entering_none (s := s.entering p pr) (p := p) rfl ((PortUnit.presentsNone_iff _).mpr ?_)
    rw [State.entering_port]
    exact hnext p.other
  refine ⟨fun hdrain => ?applied, fun hdrain => ?waits⟩
  case applied =>
    rw [hmove, State.endEntering_of_drained (s.entering p pr) { pr with state := .applying } rfl rfl
      ((drainOver_entering s p pr pr.change).mpr hdrain), hclosed,
      State.moveOn_of_still]
    · exact (s.entered pr).applyProposal_applied { pr with state := .applying }
    · rw [State.applyProposal_entering]; exact hentering
    · refine (State.readyPorts_nil _).mpr fun x => ((s.entered pr).applyProposal_next _ x).trans ?_
      rw [State.entered_port, hnext x]
  case waits =>
    rw [hmove, State.endEntering_of_undrained (s.entering p pr), hclosed, State.moveOn_of_still (s.entered pr) hentering]
    · exact (State.readyPorts_nil _).mpr fun x => by rw [State.entered_port, hnext x]
    · intro pr' hpr' _
      cases hpr'
      exact mt (drainOver_entering s p pr pr.change).mp hdrain

/-! ### PROPOSE (R26, R29 to R31) -/

theorem Proposal.report_eq (pr : Proposal) : pr.report = if pr.state = .applying then .applying else .opened := by
  unfold Proposal.report
  cases pr.state <;> rfl

theorem State.taking_validate (s : State) (p : PortId) (tag : Byte) (q : Request) (st : RecordState) (c : Change) :
    (s.taking p tag q st).validate c = s.validate c := by
  cases p <;> rfl

/-- The record is taken, and the id is used (R26). -/
def Agreement.taken (a : Agreement) (pr : Option Proposal) : Agreement :=
  { a with nextId := nextProposalId a.nextId, proposal := pr }

section
variable (s : State) (p : PortId) (tag : Byte) {f : ProposeFields} {c : Change} (hpass : s.refusal p (.propose f) = none)
  (hc : changeOf f = some c)
include hpass hc

theorem State.present_propose : s.present p tag (.propose f) = s.propose p tag c f.window.toNat := by
  simp [s.present_of_passing p tag _ hpass, State.dispatch, hc]

theorem State.present_propose_pending {pr : Proposal} (hrec : s.agree.proposal = some pr) : s.present p tag (.propose f) =
    s.complete p tag .proposalPending (.proposal pr.id (if pr.state = .applying then .applying else .opened)) := by
  rw [s.present_propose p tag hpass hc, State.propose, hrec, ← pr.report_eq]

section
variable (hrec : s.agree.proposal = none)
include hrec

theorem State.present_propose_invalid {st : Status} (hv : s.validate c = some st) :
    s.present p tag (.propose f) = s.complete p tag st (.proposal 0 .none) := by
  rw [s.present_propose p tag hpass hc, State.propose, hrec, hv]

variable (hv : s.validate c = none)
include hv

theorem State.present_propose_alone (hphase : s.agree.phase = .agreed) (hpeer : (s.port p.other).online = false) :
    s.present p tag (.propose f) = s.complete p tag .peerAbsent (.proposal 0 .none) := by
  simp [s.present_propose p tag hpass hc, State.propose, hrec, hv, hphase, hpeer]

theorem State.present_propose_opened (hphase : s.agree.phase = .agreed) (hpeer : (s.port p.other).online = true) :
    s.present p tag (.propose f) =
      ({ s.complete p tag .ok (.proposal s.agree.nextId .opened) with
        agree := s.agree.taken (some ⟨s.agree.nextId, p, c, .opened f.window.toNat⟩) } : State).offer p.other
          (.proposal s.agree.nextId c f.window.toNat) := by
  simp only [s.present_propose p tag hpass hc, State.propose, hrec, hv, hphase, hpeer, State.newProposal, if_true]
  cases p <;> rfl

theorem State.present_propose_applying (hphase : s.agree.phase = .provisioning) :
    s.present p tag (.propose f) =
      ({ s.complete p tag .ok (.proposal s.agree.nextId .applying) with agree := s.agree.taken none } : State).enterApplying p
        ⟨s.agree.nextId, p, c, .applying⟩ := by
  simp only [s.present_propose p tag hpass hc, State.propose, hrec, hv, hphase, State.newProposal]
  cases p <;> rfl

end
end

/-! ### A PROPOSE taken between two events -/

theorem PortUnit.answered_waitingWrite (u : PortUnit) (tag : Byte) (q : Request) (st : Status) (res : Result)
    (h : u.waitingWrite = none) : (u.answered tag q st res).waitingWrite = none := by
  rw [PortUnit.waitingWrite_none] at h ⊢
  intro x hx
  rcases List.mem_append.mp hx with hx | hx
  · exact h x hx
  · rw [List.mem_singleton.mp hx]; nofun

theorem NoWriteWaits.answering {s : State} (h : NoWriteWaits s) (p : PortId) (tag : Byte) (q : Request) (st : Status) (res : Result) :
    NoWriteWaits (s.answering p tag q st res) := by
  intro x
  rcases portEqOrOther p x with rfl | rfl
  · rw [State.answering, State.setPort_port]
    exact PortUnit.answered_waitingWrite _ tag q st res (h x)
  · rw [State.answering_other]
    exact h p.other

/-- A request that is answered and then enters APPLYING, where no WRITE waits for slots. -/
theorem State.answering_enters (s : State) (p : PortId) (tag : Byte) (q : Request) (st : Status) (res : Result) (a : Agreement)
    (pr : Proposal) (hq : Quiet s) (hc : CanTake s p tag) (ha : a.entering = none) (hw : NoWriteWaits s) :
    EntersApplying { s.answering p tag q st res with agree := a }
      (({ s.answering p tag q st res with agree := a } : State).enterApplying p pr).moveOn pr :=
  State.enterApplying_enters _ p pr ha (s.answering_still p tag q st res hq hc).2 (hw.answering p tag q st res)

section
variable (s : State) (p : PortId) (tag : Byte) {f : ProposeFields} {c : Change} (hp : Passes s p tag (.propose f))
  (hc : changeOf f = some c)
include hp hc

theorem exec_propose_pending {pr : Proposal} (hrec : s.agree.proposal = some pr) :
    exec (.propose p tag f) s = .next (s.answering p tag (.propose f) .proposalPending
      (.proposal pr.id (if pr.state = .applying then .applying else .opened))) := by
  obtain ⟨hq, hcan, hpass⟩ := hp
  exact exec_of_present_complete rfl hq hcan hpass
    (State.present_propose_pending _ p tag (by rwa [State.refusal_taking]) hc (by rwa [State.taking_agree]))

variable (hrec : s.agree.proposal = none)
include hrec

theorem exec_propose_invalid {st : Status} (hv : s.validate c = some st) :
    exec (.propose p tag f) s = .next (s.answering p tag (.propose f) st (.proposal 0 .none)) := by
  obtain ⟨hq, hcan, hpass⟩ := hp
  exact exec_of_present_complete rfl hq hcan hpass (State.present_propose_invalid _ p tag (by rwa [State.refusal_taking]) hc
    (by rwa [State.taking_agree]) (by rwa [State.taking_validate]))

variable (hv : s.validate c = none)
include hv

theorem exec_propose_alone (hphase : s.agree.phase = .agreed) (hpeer : (s.port p.other).online = false) :
    exec (.propose p tag f) s = .next (s.answering p tag (.propose f) .peerAbsent (.proposal 0 .none)) := by
  obtain ⟨hq, hcan, hpass⟩ := hp
  exact exec_of_present_complete rfl hq hcan hpass (State.present_propose_alone _ p tag (by rwa [State.refusal_taking]) hc
    (by rwa [State.taking_agree]) (by rwa [State.taking_validate]) (by rwa [State.taking_agree]) (by rwa [State.taking_other]))

theorem exec_propose_opened (hphase : s.agree.phase = .agreed) (hpeer : (s.port p.other).online = true) :
    exec (.propose p tag f) s = .next
      (({ s.answering p tag (.propose f) .ok (.proposal s.agree.nextId .opened) with
        agree := s.agree.taken (some ⟨s.agree.nextId, p, c, .opened f.window.toNat⟩) } : State).offer p.other
          (.proposal s.agree.nextId c f.window.toNat)) := by
  obtain ⟨hq, hcan, hpass⟩ := hp
  refine exec_of_present rfl hq hcan hpass ?_ ?_ ?_
  · rw [State.present_propose_opened _ p tag (by rwa [State.refusal_taking]) hc (by rwa [State.taking_agree])
      (by rwa [State.taking_validate]) (by rwa [State.taking_agree]) (by rwa [State.taking_other]),
      s.taking_complete p tag _ _ _ _ hcan.2.2.1, State.taking_agree]
  · rw [State.offer_agree]
    exact hq.2.2.1
  · rw [State.offer_next]
    have hother := s.answering_other p tag (.propose f) .ok (.proposal s.agree.nextId .opened)
    have hnext := (congrArg PortUnit.nextToPresent hother).trans (s.other_next p hq)
    cases p <;> exact hnext

theorem exec_propose_applying (hphase : s.agree.phase = .provisioning) :
    exec (.propose p tag f) s = .next
      (({ s.answering p tag (.propose f) .ok (.proposal s.agree.nextId .applying) with
        agree := s.agree.taken none } : State).enterApplying p ⟨s.agree.nextId, p, c, .applying⟩).moveOn := by
  obtain ⟨hq, hcan, hpass⟩ := hp
  refine exec_moves_on (q := .propose f) rfl hq hcan ?_
  rw [State.present_propose_applying _ p tag (by rwa [State.refusal_taking]) hc (by rwa [State.taking_agree])
      (by rwa [State.taking_validate]) (by rwa [State.taking_agree]), s.taking_complete p tag _ _ _ _ hcan.2.2.1, State.taking_agree]

end

theorem Agreement.taken_none (a : Agreement) (h : a.proposal = none) : a.taken none = { a with nextId := nextProposalId a.nextId } := by
  cases a
  cases h
  rfl

/-- Settles O21: the refusals in their order, then by the phase. -/
theorem proposeIsRefusedOrTaken : Obligations.ProposeIsRefusedOrTaken := by
  refine ⟨fun s p tag f c hp hc => ⟨fun pr hrec => exec_propose_pending s p tag hp hc hrec,
      fun st hrec hv => exec_propose_invalid s p tag hp hc hrec hv, fun hrec hv => exec_propose_alone s p tag hp hc hrec hv⟩,
    fun s p tag f c hp hc hrec hv => ⟨exec_propose_opened s p tag hp hc hrec hv, fun hphase hw => ?applying⟩,
    fun s p tag f c hpass hc => ⟨fun pr hrec => s.present_propose_pending p tag hpass hc hrec, fun hrec =>
      ⟨fun st hv => s.present_propose_invalid p tag hpass hc hrec hv, s.present_propose_alone p tag hpass hc hrec,
        s.present_propose_opened p tag hpass hc hrec, s.present_propose_applying p tag hpass hc hrec⟩⟩⟩
  case applying =>
    refine ⟨_, exec_propose_applying s p tag hp hc hrec hv hphase, ?_⟩
    obtain ⟨hq, hcan, hpass⟩ := hp
    rw [s.agree.taken_none hrec]
    exact s.answering_enters p tag _ _ _ _ _ hq hcan hq.2.2.1 hw

end Sys2Proof.Machine
end

section
/-! PROOFS. ANSWER (R32), and the WRITEs that end at an entry (R40, R61, R170). -/

namespace Sys2Proof.Machine

/-! ### ANSWER (R32) -/

theorem PortId.eq_other_of_ne {p q : PortId} (h : q ≠ p) : q = p.other := (portEqOrOther p q).resolve_left h

theorem Agreement.openProposal_of_opened {a : Agreement} {pr : Proposal} {w : Nat} (hrec : a.proposal = some pr)
    (hstate : pr.state = .opened w) : a.openProposal = some pr := by
  simp [Agreement.openProposal, hrec, hstate]

/-- There is no OPEN proposal, or it has another id, or it is the port's own. -/
def NotToAnswer (s : State) (p : PortId) (id : Byte) : Prop :=
  ∀ pr w, s.agree.proposal = some pr → pr.state = .opened w → pr.id = id.toNat → pr.proposer = p

section
variable (s : State) (p : PortId) (tag id a : Byte) (hpass : s.refusal p (.answer id a) = none)
include hpass

theorem State.present_answer : s.present p tag (.answer id a) = s.answer p tag id a := s.present_of_passing p tag _ hpass

theorem State.present_answer_none (h : NotToAnswer s p id) :
    s.present p tag (.answer id a) = s.complete p tag .noSuchProposal .blank := by
  rw [s.present_answer p tag id a hpass, State.answer]
  cases hopen : s.agree.openProposal with
  | none => rfl
  | some pr =>
    obtain ⟨hrec, w, hstate⟩ := Agreement.openProposal_some _ pr hopen
    exact if_neg fun ⟨hid, hother⟩ => hother (h pr w hrec hstate hid)

section
variable {pr : Proposal} {w : Nat} (hrec : s.agree.proposal = some pr) (hstate : pr.state = .opened w) (hid : pr.id = id.toNat)
  (hother : pr.proposer = p.other)
include hrec hstate hid hother

theorem State.present_answer_open : s.present p tag (.answer id a) =
    if a = 1 then (s.complete p tag .ok .blank).enterApplying p pr else (s.complete p tag .ok .blank).endProposal pr .declined := by
  have hne : pr.proposer ≠ p := hother ▸ PortId.other_ne p
  rw [s.present_answer p tag id a hpass, State.answer, Agreement.openProposal_of_opened hrec hstate]
  exact if_pos ⟨hid, hne⟩

theorem State.present_answer_declined (ha : a = 2) : s.present p tag (.answer id a) =
    ({ s.complete p tag .ok .blank with agree := { s.agree with proposal := none } } : State).offerBoth
      (.outcome .declined pr.id pr.change) := by
  rw [s.present_answer_open p tag id a hpass hrec hstate hid hother, if_neg (by rw [ha]; decide),
    State.endProposal_of_agree (s.complete_agree p tag _ _)]

theorem State.present_answer_accepted (ha : a = 1) :
    s.present p tag (.answer id a) = (s.complete p tag .ok .blank).enterApplying p pr := by
  rw [s.present_answer_open p tag id a hpass hrec hstate hid hother, if_pos ha]

end
end

section
variable (s : State) (p : PortId) (tag id a : Byte) (hp : Passes s p tag (.answer id a))
include hp

theorem exec_answer_none (h : NotToAnswer s p id) :
    exec (.answer p tag id a) s = .next (s.answering p tag (.answer id a) .noSuchProposal .blank) := by
  obtain ⟨hq, hcan, hpass⟩ := hp
  exact exec_of_present_complete rfl hq hcan hpass
    (State.present_answer_none _ p tag id a (by rwa [State.refusal_taking]) (by rwa [NotToAnswer, State.taking_agree]))

variable {pr : Proposal} {w : Nat} (hrec : s.agree.proposal = some pr) (hstate : pr.state = .opened w) (hid : pr.id = id.toNat)
  (hother : pr.proposer = p.other)
include hrec hstate hid hother

theorem exec_answer_declined (ha : a = 2) : exec (.answer p tag id a) s =
    .next (({ s.answering p tag (.answer id a) .ok .blank with agree := { s.agree with proposal := none } } : State).offerBoth
      (.outcome .declined pr.id pr.change)) := by
  obtain ⟨hq, hcan, hpass⟩ := hp
  have hagree := s.answering_agree p tag (.answer id a) .ok .blank
  rw [← State.endProposal_of_agree hagree]
  refine exec_of_present rfl hq hcan hpass ?_ ?_ ?_
  · rw [State.present_answer_open _ p tag id a (by rwa [State.refusal_taking]) (by rwa [State.taking_agree]) hstate hid hother,
      if_neg (by rw [ha]; decide), s.taking_complete p tag _ _ _ _ hcan.2.2.1]
  · rw [State.endProposal_entering, hagree]
    exact hq.2.2.1
  · rw [State.endProposal_next, State.answering_other]
    exact s.other_next p hq

theorem exec_answer_accepted (ha : a = 1) :
    exec (.answer p tag id a) s = .next ((s.answering p tag (.answer id a) .ok .blank).enterApplying p pr).moveOn := by
  obtain ⟨hq, hcan, hpass⟩ := hp
  refine exec_moves_on (q := .answer id a) rfl hq hcan ?_
  rw [State.present_answer_accepted _ p tag id a (by rwa [State.refusal_taking]) (by rwa [State.taking_agree]) hstate hid hother ha,
    s.taking_complete p tag _ _ _ _ hcan.2.2.1]

end

/-- Settles O22: by whether there is an OPEN proposal of the other port with this id. -/
theorem answerDecidesAnOpenProposal : Obligations.AnswerDecidesAnOpenProposal := by
  refine ⟨fun s p tag id a hp => ⟨exec_answer_none s p tag id a hp, fun pr w hrec hstate hid hother =>
      ⟨exec_answer_declined s p tag id a hp hrec hstate hid hother, fun ha hw => ?accepted⟩⟩,
    fun s p tag id a hpass => ⟨s.present_answer_none p tag id a hpass, fun pr w hrec hstate hid hother =>
      ⟨s.present_answer_declined p tag id a hpass hrec hstate hid hother,
        s.present_answer_accepted p tag id a hpass hrec hstate hid hother⟩⟩⟩
  case accepted =>
    refine ⟨_, exec_answer_accepted s p tag id a hp hrec hstate hid hother ha, ?_⟩
    obtain ⟨hq, hcan, hpass⟩ := hp
    have hentering := (congrArg Agreement.entering (s.answering_agree p tag (.answer id a) .ok .blank)).trans hq.2.2.1
    exact State.enterApplying_enters _ p pr hentering (s.answering_still p tag _ _ _ hq hcan).2 (hw.answering p tag _ _ _)

/-! ### QUIESCE taken in READY (R170) -/

/-- The service enters QUIESCING with this request as its one waiter. -/
def State.quiescing (t : State) (service : ServiceControl) (p : PortId) (tag : Byte) : State :=
  { t with service := { service with state := .quiescing, quiesce := some ⟨[⟨p, tag, false⟩], 0, false, none⟩ } }

/-- A buffer with nothing DIRTY asks for the checkpoint at once. -/
def State.askIfClean (t : State) : State := if t.staging.dirtyOrder = [] then t.requestCheckpoint else t

theorem State.requestCheckpoint_endWaitingWrite (s : State) (p : PortId) (names : Fin 16 → Bool) (st : Status) :
    s.requestCheckpoint.endWaitingWrite p names st = (s.endWaitingWrite p names st).requestCheckpoint :=
  State.endWaitingWrite_past State.requestCheckpoint s p names st (by cases p <;> rfl) fun tag => by cases p <;> rfl

theorem State.endWaitingWrite_other (s : State) (p : PortId) (names : Fin 16 → Bool) (st : Status) :
    (s.endWaitingWrite p names st).port p.other = s.port p.other := by
  unfold State.endWaitingWrite
  split
  · rfl
  · split
    · split
      · exact s.updPort_port_other p _
      · rfl
    · rfl

theorem State.endWaitingWrite_both_of_none (s : State) (p : PortId) (names : Fin 16 → Bool) (st : Status)
    (h : (s.port p).waitingWrite = none) :
    (s.endWaitingWrite .A names st).endWaitingWrite .B names st = s.endWaitingWrite p.other names st := by
  cases p with
  | A => rw [s.endWaitingWrite_of_none .A names st h]; rfl
  | B => exact State.endWaitingWrite_of_none _ .B names st ((congrArg PortUnit.waitingWrite (s.endWaitingWrite_other .A names st)).trans h)

theorem State.present_quiesce (s : State) (p : PortId) (tag : Byte) (hpass : s.refusal p .quiesce = none) :
    s.present p tag .quiesce = s.quiesce p tag := s.present_of_passing p tag _ hpass

theorem State.mediaDown_of_up (s : State) (hmedia : s.link.media ≠ .fault) (hloaded : s.store.loaded = true) :
    s.mediaDown = false := by
  simp [State.mediaDown, hmedia, hloaded]

section
variable (s : State) (p : PortId) (tag : Byte) (hpass : s.refusal p .quiesce = none) (hready : s.service.state = .ready)
  (hrec : s.agree.proposal = none) (hmedia : s.link.media ≠ .fault) (hloaded : s.store.loaded = true)
include hpass hready hrec hmedia hloaded

theorem State.present_quiesce_taken : s.present p tag .quiesce =
    ((((s.startRecord p tag).quiescing s.service p tag).askIfClean).endWaitingWrite .A (fun _ => true) .quiesced).endWaitingWrite
      .B (fun _ => true) .quiesced := by
  have hstaging : ((s.startRecord p tag).quiescing s.service p tag).staging = s.staging := by cases p <;> rfl
  have htaken : s.quiesce p tag = s.beginQuiesce p tag := by
    simp [State.quiesce, hready, hrec, s.mediaDown_of_up hmedia hloaded]
  rw [s.present_quiesce p tag hpass, htaken, State.beginQuiesce, State.askIfClean, hstaging]
  by_cases hclean : s.staging.dirtyOrder = []
  · rw [if_pos hclean, if_pos (by simp [hclean]), State.requestCheckpoint_endWaitingWrite, State.requestCheckpoint_endWaitingWrite]
    rfl
  · rw [if_neg hclean, if_neg (by simpa using hclean)]
    rfl

end

theorem State.quiescing_askIfClean (s t : State) (p : PortId) (tag : Byte) (hstaging : t.staging = s.staging)
    (hstore : t.store = s.store) : (t.quiescing s.service p tag).askIfClean =
      { t with
        service := { s.service with state := .quiescing, quiesce := some ⟨[⟨p, tag, false⟩], 0, false, none⟩ }
        store := if s.staging.dirtyOrder = [] then { s.store with checkpointPending := true } else s.store } := by
  have hdirty : (t.quiescing s.service p tag).staging = s.staging := hstaging
  rw [State.askIfClean, hdirty]
  by_cases hclean : s.staging.dirtyOrder = []
  · rw [if_pos hclean, if_pos hclean, ← hstore]
    rfl
  · rw [if_neg hclean, if_neg hclean, ← hstore]
    rfl

theorem State.taking_store (s : State) (p : PortId) (tag : Byte) (q : Request) (st : RecordState) :
    (s.taking p tag q st).store = s.store := by cases p <;> rfl

theorem State.taking_service (s : State) (p : PortId) (tag : Byte) (q : Request) (st : RecordState) :
    (s.taking p tag q st).service = s.service := by cases p <;> rfl

theorem State.taking_link (s : State) (p : PortId) (tag : Byte) (q : Request) (st : RecordState) :
    (s.taking p tag q st).link = s.link := by cases p <;> rfl

theorem State.taking_waitingWrite (s : State) (p : PortId) (tag : Byte) (q : Request) (hc : CanTake s p tag) (st : RecordState)
    (hst : st ≠ .awaitingSlots) : ((s.taking p tag q st).port p).waitingWrite = none := by
  rw [State.taking_port, PortUnit.waitingWrite_none]
  intro x hx
  rcases List.mem_append.mp hx with hx | hx
  · exact hc.2.2.2 x hx
  · rw [List.mem_singleton.mp hx]; exact hst

theorem exec_quiesce_taken (s : State) (p : PortId) (tag : Byte) (hp : Passes s p tag .quiesce)
    (hready : s.service.state = .ready) (hrec : s.agree.proposal = none) (hmedia : s.link.media ≠ .fault)
    (hloaded : s.store.loaded = true) : exec (.quiesce p tag) s =
      .next ((((s.taking p tag .quiesce .started).quiescing s.service p tag).askIfClean).endWaitingWrite p.other (fun _ => true)
        .quiesced).moveOn := by
  obtain ⟨hq, hcan, hpass⟩ := hp
  refine exec_moves_on (q := .quiesce) rfl hq hcan ?_
  rw [State.present_quiesce_taken _ p tag (by rwa [State.refusal_taking]) (by rwa [State.taking_service])
    (by rwa [State.taking_agree]) (by rwa [State.taking_link]) (by rwa [State.taking_store]),
    s.taking_startRecord p tag _ _ hcan.2.2.1, State.taking_service, State.endWaitingWrite_both_of_none]
  · rfl
  · have hport (t : State) : (t.quiescing s.service p tag).askIfClean.port p = t.port p := by
      unfold State.askIfClean
      split <;> cases p <;> rfl
    rw [hport]
    exact s.taking_waitingWrite p tag _ hcan .started (by decide)

/-- Settles O24: the waiting WRITE by its region, then the three entries. -/
theorem waitingWritesEndAtEntry : Obligations.WaitingWritesEndAtEntry := by
  refine ⟨fun s p names st => ⟨s.endWaitingWrite_of_none p names st, fun rec b c o d r hrec hw hb => ?waiting⟩,
    fun s p pr => s.enterApplying_eq p pr, fun s p tag f c hp hc hrec hv hphase => ?propose,
    fun s p tag id pr w hp hrec hstate hid hother => exec_answer_accepted s p tag id 1 hp hrec hstate hid hother rfl,
    fun s p tag hp hready hrec hmedia hloaded => ?quiesce, fun s p tag hpass hready hrec hmedia hloaded => ?later⟩
  case waiting =>
    rw [s.endWaitingWrite_of_some p names st hrec hw hb]
    exact ⟨fun h => if_pos h, fun h => if_neg (by simp [h])⟩
  case propose =>
    rw [exec_propose_applying s p tag hp hc hrec hv hphase, s.agree.taken_none hrec]
    rfl
  case quiesce =>
    rw [exec_quiesce_taken s p tag hp hready hrec hmedia hloaded,
      s.quiescing_askIfClean _ p tag (s.taking_staging p tag _ _) (s.taking_store p tag _ _)]
  case later =>
    rw [s.present_quiesce_taken p tag hpass hready hrec hmedia hloaded,
      s.quiescing_askIfClean _ p tag (by cases p <;> rfl) (by cases p <;> rfl)]

end Sys2Proof.Machine
end

section
/-! PROOFS. QUIESCE, RESUME and MEDIA_RESTART by the service state and the media (R148, R169, R170, R174). -/

namespace Sys2Proof.Machine

/-! ### QUIESCE (R169) -/

/-- A QUIESCE joins the waiters. -/
def State.joined (s t : State) (q : Quiesce) (p : PortId) (tag : Byte) : State :=
  { t with service := { s.service with quiesce := some { q with waiters := q.waiters ++ [⟨p, tag, false⟩] } } }

section
variable (s : State) (p : PortId) (tag : Byte) (hpass : s.refusal p .quiesce = none)
include hpass

theorem State.present_quiesce_pending (hready : s.service.state = .ready) (hrec : s.agree.proposal ≠ none) :
    s.present p tag .quiesce = s.complete p tag .proposalPending .blank := by
  simp [s.present_quiesce p tag hpass, State.quiesce, hready, Option.isSome_iff_ne_none, hrec]

theorem State.present_quiesce_fault (hready : s.service.state = .ready) (hrec : s.agree.proposal = none)
    (hdown : s.link.media = .fault ∨ s.store.loaded = false) :
    s.present p tag .quiesce = s.complete p tag .mediaFault .blank := by
  simp [s.present_quiesce p tag hpass, State.quiesce, hready, hrec, s.mediaDown_iff.mpr hdown]

theorem State.present_quiesce_joins {q : Quiesce} (hstate : s.service.state = .quiescing) (hq : s.service.quiesce = some q) :
    s.present p tag .quiesce = s.joined (s.startRecord p tag) q p tag := by
  simp only [s.present_quiesce p tag hpass, State.quiesce, hstate, State.joinQuiesce, hq, State.joined]

theorem State.present_quiesce_rested (hstate : s.service.state = .quiesced) :
    s.present p tag .quiesce = s.complete p tag .ok .blank := by
  simp only [s.present_quiesce p tag hpass, State.quiesce, hstate]

end

/-- A started request that has changed nothing its port or the agreement shows. -/
theorem exec_started {s t : State} {p : PortId} {tag : Byte} {q : Request} (hk : keptWhole q = true) (hq : Quiet s)
    (hc : CanTake s p tag) (hn : s.refusal p q = none) (ht : (s.taking p tag q .awaitingTurn).present p tag q = t)
    (hagree : t.agree = s.agree) (hother : t.port p.other = s.port p.other) : exec (rowOf p tag q) s = .next t :=
  exec_of_present hk hq hc hn ht (by rw [hagree]; exact hq.2.2.1) (by rw [hother]; exact s.other_next p hq)

section
variable (s : State) (p : PortId) (tag : Byte) (hp : Passes s p tag .quiesce)
include hp

theorem exec_quiesce_alone (hready : s.service.state = .ready) (hrec : s.agree.proposal = none) (hmedia : s.link.media ≠ .fault)
    (hloaded : s.store.loaded = true) (hw : NoWriteWaits s) : exec (.quiesce p tag) s =
      .next ((s.taking p tag .quiesce .started).quiescing s.service p tag).askIfClean := by
  obtain ⟨hq, hcan, hpass⟩ := hp
  have hport (t : State) (x : PortId) : (t.quiescing s.service p tag).askIfClean.port x = t.port x := by
    unfold State.askIfClean
    split <;> cases x <;> rfl
  refine exec_started (q := .quiesce) rfl hq hcan hpass ?_ ?_ ?_
  · rw [State.present_quiesce_taken _ p tag (by rwa [State.refusal_taking]) (by rwa [State.taking_service])
      (by rwa [State.taking_agree]) (by rwa [State.taking_link]) (by rwa [State.taking_store]),
      s.taking_startRecord p tag _ _ hcan.2.2.1, State.taking_service, State.endWaitingWrite_both_of_none _ p,
      State.endWaitingWrite_of_none]
    · rfl
    · rw [hport, State.taking_other]
      exact hw p.other
    · rw [hport]
      exact s.taking_waitingWrite p tag _ hcan .started (by decide)
  · unfold State.askIfClean
    split <;> exact s.taking_agree p tag _ _
  · rw [hport, State.taking_other]

theorem exec_quiesce_joins {q : Quiesce} (hstate : s.service.state = .quiescing) (hq : s.service.quiesce = some q) :
    exec (.quiesce p tag) s = .next (s.joined (s.taking p tag .quiesce .started) q p tag) := by
  obtain ⟨hquiet, hcan, hpass⟩ := hp
  refine exec_started (q := .quiesce) rfl hquiet hcan hpass ?_ (s.taking_agree p tag _ _) ?_
  · rw [State.present_quiesce_joins _ p tag (by rwa [State.refusal_taking]) (by rwa [State.taking_service])
      (by rwa [State.taking_service]), s.taking_startRecord p tag _ _ hcan.2.2.1, State.joined, State.taking_service]
    rfl
  · have hport : (s.joined (s.taking p tag .quiesce .started) q p tag).port p.other =
        (s.taking p tag .quiesce .started).port p.other := by cases p <;> rfl
    rw [hport, State.taking_other]

end

/-! ### RESUME (R174) -/

section
variable (s : State) (p : PortId) (tag : Byte) (hpass : s.refusal p .resume = none)
include hpass

theorem State.present_resume : s.present p tag .resume = s.resume p tag := s.present_of_passing p tag _ hpass

theorem State.present_resume_ready (h : s.service.state = .ready) : s.present p tag .resume = s.complete p tag .ok .blank := by
  simp only [s.present_resume p tag hpass, State.resume, h]

theorem State.present_resume_quiescing (h : s.service.state = .quiescing) :
    s.present p tag .resume = s.complete p tag .quiesced .blank := by
  simp only [s.present_resume p tag hpass, State.resume, h]

theorem State.present_resume_quiesced (h : s.service.state = .quiesced) : s.present p tag .resume =
    ({ s.complete p tag .ok .blank with service := { s.service with state := .ready } } : State).offer p.other .serviceResumed := by
  simp only [s.present_resume p tag hpass, State.resume, h]
  cases p <;> rfl

end

theorem exec_resume_quiesced (s : State) (p : PortId) (tag : Byte) (hp : Passes s p tag .resume)
    (h : s.service.state = .quiesced) : exec (.resume p tag) s =
      .next (({ s.answering p tag .resume .ok .blank with service := { s.service with state := .ready } } : State).offer
        p.other .serviceResumed) := by
  obtain ⟨hq, hcan, hpass⟩ := hp
  refine exec_of_present (q := .resume) rfl hq hcan hpass ?_ ?_ ?_
  · rw [State.present_resume_quiesced _ p tag (by rwa [State.refusal_taking]) (by rwa [State.taking_service]),
      s.taking_complete p tag _ _ _ _ hcan.2.2.1, State.taking_service]
  · rw [State.offer_agree]
    exact (congrArg Agreement.entering (s.answering_agree p tag _ _ _)).trans hq.2.2.1
  · rw [State.offer_next]
    have hnext := (congrArg PortUnit.nextToPresent (s.answering_other p tag .resume .ok .blank)).trans (s.other_next p hq)
    cases p <;> exact hnext

/-- Settles O25: QUIESCE and RESUME by the service state. -/
theorem quiesceAndResumeByTheServiceState : Obligations.QuiesceAndResumeByTheServiceState := by
  refine ⟨fun s p tag hp => ⟨fun hready hrec => ?pending, fun hready hrec hdown => ?fault,
      fun hready hrec hmedia hloaded hw => ?taken, fun q hstate hq => exec_quiesce_joins s p tag hp hstate hq, fun hstate => ?rested⟩,
    fun s p tag hp => ⟨fun h => ?resumeReady, fun h => ?resumeQuiescing, exec_resume_quiesced s p tag hp⟩,
    fun s p tag hpass => ⟨s.present_quiesce_pending p tag hpass, s.present_quiesce_fault p tag hpass,
      fun q => s.present_quiesce_joins p tag hpass, s.present_quiesce_rested p tag hpass⟩,
    fun s p tag hpass => ⟨s.present_resume_ready p tag hpass, s.present_resume_quiescing p tag hpass,
      s.present_resume_quiesced p tag hpass⟩⟩
  case taken =>
    rw [exec_quiesce_alone s p tag hp hready hrec hmedia hloaded hw,
      s.quiescing_askIfClean _ p tag (s.taking_staging p tag _ _) (s.taking_store p tag _ _)]
  all_goals obtain ⟨hq, hcan, hpass⟩ := hp
  case pending =>
    exact exec_of_present_complete (q := .quiesce) rfl hq hcan hpass (State.present_quiesce_pending _ p tag
      (by rwa [State.refusal_taking]) (by rwa [State.taking_service]) (by rwa [State.taking_agree]))
  case fault =>
    exact exec_of_present_complete (q := .quiesce) rfl hq hcan hpass (State.present_quiesce_fault _ p tag
      (by rwa [State.refusal_taking]) (by rwa [State.taking_service]) (by rwa [State.taking_agree])
      (by rwa [State.taking_link, State.taking_store]))
  case rested =>
    exact exec_of_present_complete (q := .quiesce) rfl hq hcan hpass
      (State.present_quiesce_rested _ p tag (by rwa [State.refusal_taking]) (by rwa [State.taking_service]))
  case resumeReady =>
    exact exec_of_present_complete (q := .resume) rfl hq hcan hpass
      (State.present_resume_ready _ p tag (by rwa [State.refusal_taking]) (by rwa [State.taking_service]))
  case resumeQuiescing =>
    exact exec_of_present_complete (q := .resume) rfl hq hcan hpass
      (State.present_resume_quiescing _ p tag (by rwa [State.refusal_taking]) (by rwa [State.taking_service]))

/-! ### MEDIA_RESTART (R148) -/

section
variable (s : State) (p : PortId) (tag : Byte) (hpass : s.refusal p .mediaRestart = none)
include hpass

theorem State.present_mediaRestart : s.present p tag .mediaRestart = s.mediaRestart p tag := s.present_of_passing p tag _ hpass

theorem State.present_mediaRestart_joins (h : s.link.restart = true) : s.present p tag .mediaRestart =
    { s.startRecord p tag with link := { s.link with restartWaiters := s.link.restartWaiters ++ [⟨p, tag, false⟩] } } := by
  rw [s.present_mediaRestart p tag hpass, State.mediaRestart]
  dsimp only
  rw [if_pos h, h]

theorem State.present_mediaRestart_online (h : s.link.restart = false) (hmedia : s.link.media = .online) :
    s.present p tag .mediaRestart = s.complete p tag .ok .blank := by
  simp [s.present_mediaRestart p tag hpass, State.mediaRestart, h, hmedia]

theorem State.present_mediaRestart_begins (h : s.link.restart = false) (hmedia : s.link.media = .fault) :
    s.present p tag .mediaRestart = { s.startRecord p tag with
      sched := { s.sched with job := some (.identify .identifying) }
      link := { s.link with restart := true, restartWaiters := s.link.restartWaiters ++ [⟨p, tag, false⟩], timeouts := 0,
                            flight := some .identify, issueNo := nextIssueNo s.link.issueNo, deadline := some 50 } } := by
  have hbegins : s.mediaRestart p tag = ({ s.startRecord p tag with link := { s.link with
      restart := true, restartWaiters := s.link.restartWaiters ++ [⟨p, tag, false⟩] } } : State).beginIdentify := by
    simp [State.mediaRestart, h, hmedia]
  rw [s.present_mediaRestart p tag hpass, hbegins]
  cases p <;> rfl

end

section
variable (s : State) (p : PortId) (tag : Byte) (hp : Passes s p tag .mediaRestart)
include hp

theorem exec_mediaRestart_joins (h : s.link.restart = true) : exec (.mediaRestart p tag) s = .next
    { s.taking p tag .mediaRestart .started with
      link := { s.link with restartWaiters := s.link.restartWaiters ++ [⟨p, tag, false⟩] } } := by
  obtain ⟨hq, hcan, hpass⟩ := hp
  refine exec_started (q := .mediaRestart) rfl hq hcan hpass ?_ (s.taking_agree p tag _ _) ?_
  · rw [State.present_mediaRestart_joins _ p tag (by rwa [State.refusal_taking]) (by rwa [State.taking_link]),
      s.taking_startRecord p tag _ _ hcan.2.2.1, State.taking_link]
    rfl
  · refine Eq.trans ?_ (s.taking_other p tag .mediaRestart .started)
    cases p <;> rfl

theorem exec_mediaRestart_begins (h : s.link.restart = false) (hmedia : s.link.media = .fault) :
    exec (.mediaRestart p tag) s = .next { s.taking p tag .mediaRestart .started with
      sched := { s.sched with job := some (.identify .identifying) }
      link := { s.link with restart := true, restartWaiters := s.link.restartWaiters ++ [⟨p, tag, false⟩], timeouts := 0,
                            flight := some .identify, issueNo := nextIssueNo s.link.issueNo, deadline := some 50 } } := by
  obtain ⟨hq, hcan, hpass⟩ := hp
  refine exec_started (q := .mediaRestart) rfl hq hcan hpass ?_ (s.taking_agree p tag _ _) ?_
  · rw [State.present_mediaRestart_begins _ p tag (by rwa [State.refusal_taking]) (by rwa [State.taking_link])
      (by rwa [State.taking_link]), s.taking_startRecord p tag _ _ hcan.2.2.1, State.taking_link, State.taking_sched]
    rfl
  · refine Eq.trans ?_ (s.taking_other p tag .mediaRestart .started)
    cases p <;> rfl

end

/-- Settles O26: by the restart in progress and the media state. -/
theorem mediaRestartBeginsOrJoins : Obligations.MediaRestartBeginsOrJoins := by
  refine ⟨fun s p tag hp => ⟨exec_mediaRestart_joins s p tag hp, fun h hmedia => ?online, exec_mediaRestart_begins s p tag hp⟩,
    fun s p tag hpass => ⟨s.present_mediaRestart_joins p tag hpass, s.present_mediaRestart_online p tag hpass,
      s.present_mediaRestart_begins p tag hpass⟩⟩
  case online =>
    obtain ⟨hq, hcan, hpass⟩ := hp
    exact exec_of_present_complete (q := .mediaRestart) rfl hq hcan hpass (State.present_mediaRestart_online _ p tag
      (by rwa [State.refusal_taking]) (by rwa [State.taking_link]) (by rwa [State.taking_link]))

end Sys2Proof.Machine
end

section
/-! PROOFS. The read job (R124, R127 to R129), relocation (R95), translation and the candidate list (R100, R102, R112). -/

namespace Sys2Proof.Machine

/-! ### The beginning of a read job (R124, R127) -/

theorem exec_readJobBegin {s : State} {p : PortId} (hcan : CanBegin s) (hchoice : s.chooseJob = some (.read p)) :
    exec .readJobBegin s = .next (s.beginRead p) := by
  refine congrArg Host.Outcome.next ?_
  rw [s.ownStep_of_none 5 _ hcan.1, State.owedAt_chosen hcan hchoice]
  cases p <;> rfl

theorem missedBlocks_eq (area : List (Option Block)) :
    missedBlocks area = (List.range area.length).filter fun k => area[k]? == some none := by
  refine List.filter_congr fun k hk => ?_
  have hk : k < area.length := List.mem_range.mp hk
  simp [List.getD_eq_getElem?_getD, List.getElem?_eq_getElem hk]

/-- Settles O42: the head of the waiting READs becomes the job. -/
theorem readJobBeginsForTheHead : Obligations.ReadJobBeginsForTheHead := by
  intro s p w rest hcan hchoice hwait
  simp only [exec_readJobBegin hcan hchoice, State.beginRead, hwait, ← missedBlocks_eq]
  cases p <;> rfl

/-! ### The answers of a read job (R127 to R129) -/

theorem exec_readJobAnswer {s : State} {issue : Byte} {j : ReadJob} (h : Expected s issue) (hjob : s.sched.job = some (.read j))
    {a : ReadAnswer} (hfits : dataFits a = true) : exec (.readJobAnswer issue a) s = .next (s.heard.readAnswered j a) := by
  have htake : s.openEvent.takeReadJobAnswer a = s.heard.readAnswered j a := by
    simp [State.takeReadJobAnswer, hjob, s.answered_openEvent]
  have hmedia : s.mediaAnswer issue (dataFits a) (fun t => t.takeReadJobAnswer a) = s.openEvent.takeReadJobAnswer a := by
    rw [hfits]
    exact State.mediaAnswer_of_expected h _
  exact congrArg Host.Outcome.next (hmedia.trans htake)

section
variable (s : State) {j : ReadJob} {n : Nat} {rest : List Nat} (htodo : j.todo = n :: rest)
include htodo

theorem State.readAnswered_good (data : Block) :
    s.readAnswered j (.good data) = s.readBlockEnded j n rest data (decide (2 ≤ j.attempt)) := by
  simp only [State.readAnswered, htodo]

theorem State.readAnswered_corrected (data : Block) :
    s.readAnswered j (.corrected data) = s.readBlockEnded j n rest data true := by
  simp only [State.readAnswered, htodo]

theorem State.readAnswered_unrecoverable : s.readAnswered j .unrecoverable =
    if j.attempt < 3 then (s.setJob (some (.read { j with attempt := j.attempt + 1 }))).issueReadBlock j.read n
    else s.endReadBad j n := by
  simp only [State.readAnswered, htodo]
  rfl

end

/-- Settles O43: each answer by the attempt count. -/
theorem readJobGoesByItsAnswers : Obligations.ReadJobGoesByItsAnswers := by
  intro s issue j n rest hexpected hjob htodo lbn going ended
  have hended (t : State) (data : Block) (corrected : Bool) :
      t.readBlockEnded j n rest data corrected = ended (if corrected then t.relocate lbn j.read.region data else t) data := by
    cases rest with
    | nil => rfl
    | cons m rest => rfl
  refine ⟨fun data hdata => ⟨fun hfirst => ?good, fun hlater => ?goodLater, ?corrected⟩, fun h => ?again, fun h => ?bad⟩
  case good =>
    rw [exec_readJobAnswer hexpected hjob (dataFits_good hdata), State.readAnswered_good _ htodo, hended,
      if_neg (by simp [hfirst])]
  case goodLater =>
    rw [exec_readJobAnswer hexpected hjob (dataFits_good hdata), State.readAnswered_good _ htodo, hended,
      if_pos (by simp [hlater])]
  case corrected =>
    rw [exec_readJobAnswer hexpected hjob (dataFits_corrected hdata), State.readAnswered_corrected _ htodo, hended]
    rfl
  case again =>
    rw [exec_readJobAnswer hexpected hjob rfl, State.readAnswered_unrecoverable _ htodo, if_pos h]
    rfl
  case bad =>
    rw [exec_readJobAnswer hexpected hjob rfl, State.readAnswered_unrecoverable _ htodo, if_neg (Nat.not_lt.mpr h)]
    rfl

/-! ### Relocation (R95) -/

/-- Settles O44: by the slot that holds the block, or by the slots that can be had. -/
theorem relocationMarksOrTakesASlot : Obligations.RelocationMarksOrTakesASlot := by
  intro s lbn r data b filled
  refine ⟨fun i d hfind hslot => ?dirty, fun i d fw hfind hslot => ?flushing, fun i l q x hfind hslot => ?clean,
    fun i rest hfind hhad => ?taken, fun hfind hnone => ?watched⟩
  case dirty => simp only [State.relocate, b, hfind, hslot] ; rfl
  case flushing => simp only [State.relocate, b, hfind, hslot]; rfl
  case clean => simp only [State.relocate, b, hfind, hslot]; rfl
  case taken => simp only [State.relocate, b, hfind, hhad]; rfl
  case watched => simp only [State.relocate, b, hfind, hnone]; rfl

/-! ### Translation, allocation and the candidate list (R100, R102, R112) -/

theorem SparesLawful.findIdx {m : BlockMap} (h : SparesLawful m) {i lbn : Nat} (hi : m.spares[i]? = some (.inUse lbn)) :
    m.spares.findIdx? (· == .inUse lbn) = some i := by
  obtain ⟨hlt, hget⟩ := List.getElem?_eq_some_iff.mp hi
  rw [List.findIdx?_eq_some_iff_getElem]
  refine ⟨hlt, by simp [hget], fun j hj hother => ?_⟩
  have hsame : m.spares[j]? = some (.inUse lbn) := by
    rw [List.getElem?_eq_getElem (hj.trans hlt), beq_iff_eq.mp hother]
  exact absurd (h.2 j i lbn hsame hi) (Nat.ne_of_lt hj)

theorem BlockMap.translate_home (m : BlockMap) (lbn : Nat) (h : ∀ e ∈ m.spares, e ≠ .inUse lbn) : m.translate lbn = 24 + lbn := by
  have hnone : m.spares.findIdx? (· == .inUse lbn) = none := by simpa [List.findIdx?_eq_none_iff] using h
  rw [BlockMap.translate, hnone]
  rfl

/-- Settles O45: the spare that holds a block, the first free one, and room among the candidates. -/
theorem blockMapTranslatesAndWatches : Obligations.BlockMapTranslatesAndWatches := by
  intro m lbn
  refine ⟨fun hlawful i hi => ?spare, m.translate_home lbn, fun k => BlockMap.allocate_of_firstFree,
    BlockMap.allocate_of_noneFree, fun hin => if_pos (by simpa using hin), fun hout hfull => ?full, fun hout hroom => ?room⟩
  case spare => rw [BlockMap.translate, hlawful.findIdx hi]; rfl
  case full => rw [BlockMap.addCandidate, if_neg (by simpa using hout), if_pos (show Config.maxCandidates ≤ _ from hfull)]
  case room =>
    rw [BlockMap.addCandidate, if_neg (by simpa using hout),
      if_neg (show ¬Config.maxCandidates ≤ _ from Nat.not_le.mpr hroom)]

end Sys2Proof.Machine
end

section
/-! PROOFS. Which job is next (R84, R85, R123, R124). -/

namespace Sys2Proof.Machine

/-! ### Urgent slots (R84) and pressure (R85) -/

theorem WtWaiter.awaits_iff (w : WtWaiter) (i : SlotId) :
    w.awaits i = true ↔ ∃ e ∈ w.entries, e.slot = i ∧ e.state = .awaiting := by
  simp [WtWaiter.awaits]

theorem State.urgent_iff (s : State) (i : SlotId) (d : Dirty) : s.urgent i d = true ↔
    (∃ w ∈ s.staging.wtWaiters, ∃ e ∈ w.entries, e.slot = i ∧ e.state = .awaiting) ∨ s.staging.drain.contains d.lbn = true ∨
    (∃ w ∈ s.staging.flushWaiters, (w.scope = none ∨ w.scope = some d.region) ∧ d.firstDirty ≤ w.mark) ∨
    s.service.state = .quiescing ∨ s.staging.pressure = true ∨ s.staging.forced = true := by
  simp only [State.urgent, Bool.or_eq_true, or_assoc, List.any_eq_true, WtWaiter.awaits_iff, FlushWaiter.covers_iff, beq_iff_eq]

/-! ### The slots that are offered (R84) -/

theorem Slot.dirty?_iff (x : Slot) (d : Dirty) : x.dirty? = some d ↔ x = .dirty d := by cases x <;> simp [Slot.dirty?]

theorem Staging.mem_dirtySlots (b : Staging) (i : SlotId) (d : Dirty) :
    (i, d) ∈ b.dirtySlots ↔ i ∈ b.dirtyOrder ∧ b.slots[i] = .dirty d := by
  simp only [Staging.dirtySlots, List.mem_filterMap, Option.map_eq_some_iff, Slot.dirty?_iff, Prod.mk.injEq]
  constructor
  · rintro ⟨j, hj, e, hslot, rfl, rfl⟩
    exact ⟨hj, hslot⟩
  · rintro ⟨hi, hslot⟩
    exact ⟨i, hi, d, hslot, rfl, rfl⟩

/-- The oldest DIRTY slot that passes a test. -/
def Staging.oldest (b : Staging) (test : SlotId → Dirty → Bool) : Option SlotId :=
  (b.dirtySlots.find? fun x => test x.1 x.2).map Prod.fst

theorem State.urgentOffer_eq (s : State) : s.urgentOffer = s.staging.oldest s.urgent := rfl

theorem State.backgroundOffer_eq (s : State) : s.backgroundOffer = s.staging.oldest fun _ _ => true := by
  rw [State.backgroundOffer, Staging.oldest]
  cases s.staging.dirtySlots <;> rfl

theorem Staging.oldest_none (b : Staging) (test : SlotId → Dirty → Bool)
    (h : ∀ i ∈ b.dirtyOrder, ¬∃ d, b.slots[i] = .dirty d ∧ test i d = true) : b.oldest test = none := by
  rw [Staging.oldest, Option.map_eq_none_iff, List.find?_eq_none]
  rintro ⟨i, d⟩ hmem htest
  obtain ⟨hi, hslot⟩ := (b.mem_dirtySlots i d).mp hmem
  exact h i hi ⟨d, hslot, htest⟩

theorem Staging.oldest_some (b : Staging) (test : SlotId → Dirty → Bool) {i : SlotId} {before after : List SlotId}
    (horder : b.dirtyOrder = before ++ i :: after) (hi : ∃ d, b.slots[i] = .dirty d ∧ test i d = true)
    (hbefore : ∀ j ∈ before, ¬∃ d, b.slots[j] = .dirty d ∧ test j d = true) : b.oldest test = some i := by
  obtain ⟨d, hslot, htest⟩ := hi
  have hfirst : ({ b with dirtyOrder := before } : Staging).dirtySlots.find? (fun x => test x.1 x.2) = none := by
    have hnone := ({ b with dirtyOrder := before } : Staging).oldest_none test hbefore
    rwa [Staging.oldest, Option.map_eq_none_iff] at hnone
  have hsplit : b.dirtySlots = ({ b with dirtyOrder := before } : Staging).dirtySlots ++
      (i, d) :: ({ b with dirtyOrder := after } : Staging).dirtySlots := by
    have hdirty : (b.slots[i].dirty?.map fun e => (i, e)) = some (i, d) := by rw [(Slot.dirty?_iff _ d).mpr hslot]; rfl
    simp only [Staging.dirtySlots, horder, List.filterMap_append, List.filterMap_cons]
    rw [hdirty]
  rw [Staging.oldest, hsplit, List.find?_append, hfirst, Option.none_or, List.find?_cons_of_pos (p := fun x : SlotId × Dirty => test x.1 x.2) htest]
  rfl

/-! ### The order of the jobs (R123, R124) -/

theorem State.chooseJob_checkpoint (s : State) (hpending : s.store.checkpointPending = true) (hyield : s.sched.yield = false) :
    s.chooseJob = some .checkpoint := if_pos (by simp [hpending, hyield])

section
variable (s : State) (hno : ¬(s.store.checkpointPending = true ∧ s.sched.yield = false))
include hno

theorem State.chooseJob_urgent {i : SlotId} (h : s.urgentOffer = some i) : s.chooseJob = some (.flush i) := by
  rw [State.chooseJob, if_neg (by simpa using hno), h]

theorem State.chooseJob_lesser (h : s.urgentOffer = none) : s.chooseJob = s.lesserWork := by
  rw [State.chooseJob, if_neg (by simpa using hno), h]

end

theorem Scheduler.nextReader_eq (c : Scheduler) :
    (c.wait c.lastServed.other ≠ [] → c.nextReader = some c.lastServed.other) ∧
    (c.wait c.lastServed.other = [] → c.wait c.lastServed ≠ [] → c.nextReader = some c.lastServed) ∧
    (c.wait c.lastServed.other = [] → c.wait c.lastServed = [] → c.nextReader = none) := by
  refine ⟨fun h => ?_, fun ho h => ?_, fun ho h => ?_⟩ <;> simp [Scheduler.nextReader, *]

/-- Settles O41: the oldest slot for each test, then the order in which the jobs are chosen. -/
theorem jobsGoInOrder : Obligations.JobsGoInOrder := by
  refine ⟨State.urgent_iff, fun b => ?pressure, fun s => ⟨fun i before after horder => ⟨fun hi hbefore => ?background,
      fun hi hbefore => s.staging.oldest_some s.urgent horder hi hbefore⟩, fun h => ?noneDirty, s.staging.oldest_none s.urgent⟩,
    fun s => ⟨s.chooseJob_checkpoint, fun hno => ⟨fun i => s.chooseJob_urgent hno, fun hnone => ?lesser⟩⟩⟩
  case pressure =>
    refine ⟨fun h => ?_, fun h => ?_⟩ <;> simp only [Staging.judgePressure, pressureAfter, h]
    · exact decide_eq_true_iff
    · exact decide_eq_true_iff
  case background =>
    rw [s.backgroundOffer_eq]
    exact s.staging.oldest_some _ horder (by simpa [State.slot] using hi) (by simpa [State.slot] using hbefore)
  case noneDirty =>
    rw [s.backgroundOffer_eq]
    exact s.staging.oldest_none _ (by simpa [State.slot] using h)
  case lesser =>
    obtain ⟨hother, hlast, hnoReader⟩ := s.sched.nextReader_eq
    rw [s.chooseJob_lesser hno hnone]
    refine ⟨fun h => ?_, fun ho h => ?_, fun ho h => ⟨fun i hi => ?_, fun hi => ?_⟩⟩
    · simp only [State.lesserWork, hother h]
    · simp only [State.lesserWork, hlast ho h]
    · simp only [State.lesserWork, hnoReader ho h, hi]
    · simp only [State.lesserWork, hnoReader ho h, hi]

end Sys2Proof.Machine
end

section
/-! PROOFS. The outcomes of a flush at its slot (R88 to R90, R171). -/

namespace Sys2Proof.Machine

/-! ### Written (R88) -/

theorem WtWaiter.satisfy_eq (w : WtWaiter) (i : SlotId) (fw : Nat) : w.satisfy i fw = { w with entries := w.entries.map fun e =>
    if e.slot = i ∧ e.state = .awaiting ∧ (decide (w.position ≤ fw)) = true then { e with state := .satisfied } else e } := by
  simp [WtWaiter.satisfy, and_assoc]

theorem WtWaiter.lose_eq (w : WtWaiter) (i : SlotId) : w.lose i = { w with entries := w.entries.map fun e =>
    if e.slot = i ∧ e.state = .awaiting ∧ true = true then { e with state := .lost } else e } := by
  simp [WtWaiter.lose]

theorem FlushWaiter.countLoss_eq (w : FlushWaiter) (d : Dirty) : w.countLoss d =
    if (w.scope = none ∨ w.scope = some d.region) ∧ d.firstDirty ≤ w.mark then { w with lost := min (w.lost + 1) 0xFFFFFF } else w := by
  rw [FlushWaiter.countLoss]
  exact if_congr (w.covers_iff d) rfl rfl

section
variable {s : State} {i : SlotId} {d : Dirty} {fw : Nat} (hslot : s.slot i = .flushing d fw)
include hslot

theorem State.flushWritten_clean (hlast : d.lastWrite = fw) (hkept : d.relocate = false) : s.flushWritten i =
    ({ s with staging := (({ s.staging with wtWaiters := s.staging.wtWaiters.map (WtWaiter.satisfy i fw) } : Staging).makeClean
      i d).judgePressure } : State).noteRest := by
  simp only [State.flushWritten, hslot, if_pos (show d.lastWrite = fw ∧ d.relocate = false from ⟨hlast, hkept⟩)]

theorem State.flushWritten_dirty (h : d.lastWrite ≠ fw ∨ d.relocate = true) : s.flushWritten i =
    { s with staging := (({ s.staging with wtWaiters := s.staging.wtWaiters.map (WtWaiter.satisfy i fw) } : Staging).setSlot
      i (.dirty d)).judgePressure } := by
  have hnot : ¬(d.lastWrite = fw ∧ d.relocate = false) := fun ⟨hlast, hkept⟩ => h.elim (· hlast) fun hset => by simp [hset] at hkept
  simp only [State.flushWritten, hslot, if_neg hnot]

end

/-! ### Lost (R89, R90) -/

theorem State.lossCovered_iff (s : State) (i : SlotId) : s.lossCovered i = true ↔
    ∃ w ∈ s.staging.wtWaiters, w.detached = false ∧ ∃ e ∈ w.entries, e.slot = i ∧ e.state = .awaiting := by
  simp [State.lossCovered, WtWaiter.awaits_iff]

/-- The record of a quiesce in progress is changed. -/
def State.mapQuiesce (s : State) (f : Quiesce → Quiesce) : State :=
  { s with service := { s.service with quiesce := s.service.quiesce.map f } }

theorem State.mapQuiesce_of_some {s : State} {q : Quiesce} (h : s.service.quiesce = some q) (f : Quiesce → Quiesce) :
    s.mapQuiesce f = { s with service := { s.service with quiesce := some (f q) } } := by
  rw [State.mapQuiesce, h, Option.map_some]

theorem State.mapQuiesce_of_none {s : State} (h : s.service.quiesce = none) (f : Quiesce → Quiesce) : s.mapQuiesce f = s := by
  have hservice : { s.service with quiesce := none } = s.service := by rw [← h]
  rw [State.mapQuiesce, h, Option.map_none, hservice]

theorem State.countQuiesceLoss_eq (s : State) :
    s.countQuiesceLoss = s.mapQuiesce fun q => { q with lost := min (q.lost + 1) 255 } := by
  unfold State.countQuiesceLoss
  cases hq : s.service.quiesce with
  | none => exact (State.mapQuiesce_of_none hq _).symm
  | some q =>
    rw [State.mapQuiesce_of_some hq]
    rfl

/-- The slot is FREE, the waiters know of the loss, and a quiesce counts it. -/
def State.slotLost (s : State) (i : SlotId) (d : Dirty) : State :=
  ({ s with staging := (({ s.staging with
      wtWaiters := s.staging.wtWaiters.map (WtWaiter.lose i)
      flushWaiters := s.staging.flushWaiters.map (FlushWaiter.countLoss d) } : Staging).makeFree i).judgePressure } : State).countQuiesceLoss

theorem State.flushLost_eq {s : State} {i : SlotId} {d : Dirty} {fw : Nat} (hslot : s.slot i = .flushing d fw) :
    s.flushLost i = (if s.lossCovered i then s.slotLost i d else
      (s.slotLost i d).offerBoth (.writeLost d.region (d.lbn - (s.region d.region).base))).noteRest := by
  simp only [State.flushLost, hslot]
  rfl

/-! ### The last slot of a quiesce (R171) -/

theorem State.noteRest_of_clean {s : State} {q : Quiesce} (hq : s.service.quiesce = some q) (hclean : s.staging.dirtyOrder = []) :
    s.noteRest = { s with
      store := { s.store with checkpointPending := true }
      service := { s.service with quiesce := some { q with begun := false } } } := by
  simp [State.noteRest, hq, hclean, State.requestCheckpoint]

theorem State.noteRest_of_other {s : State} (h : s.service.quiesce = none ∨ s.staging.dirtyOrder ≠ []) : s.noteRest = s := by
  unfold State.noteRest
  cases hq : s.service.quiesce with
  | none => rfl
  | some q => exact if_neg (by simpa [hq] using h)

/-- Settles O48: the block is written, the slot CLEAN or DIRTY after it, or it is lost, with or without a request that covers it. -/
theorem flushOutcomesReachTheSlot : Obligations.FlushOutcomesReachTheSlot := by
  refine ⟨fun s i d fw hslot => ?outcomes, fun s => ⟨fun q => State.noteRest_of_clean, State.noteRest_of_other⟩⟩
  case outcomes =>
    have hsatisfy : s.staging.wtWaiters.map (WtWaiter.satisfy i fw) = _ := List.map_congr_left fun w _ => w.satisfy_eq i fw
    have hlose : s.staging.wtWaiters.map (WtWaiter.lose i) = _ := List.map_congr_left fun w _ => w.lose_eq i
    have hcount : s.staging.flushWaiters.map (FlushWaiter.countLoss d) = _ := List.map_congr_left fun w _ => w.countLoss_eq d
    refine ⟨fun hlast hkept => ?clean, fun h => ?dirty, fun h => ?covered, fun h => ?reported⟩
    case clean =>
      rw [State.flushWritten_clean hslot hlast hkept, hsatisfy]
      rfl
    case dirty =>
      rw [State.flushWritten_dirty hslot h, hsatisfy]
      rfl
    case covered =>
      rw [State.flushLost_eq hslot, if_pos ((s.lossCovered_iff i).mpr h), State.slotLost, State.countQuiesceLoss_eq, hlose, hcount]
      rfl
    case reported =>
      rw [State.flushLost_eq hslot, if_neg (mt (s.lossCovered_iff i).mp h), State.slotLost, State.countQuiesceLoss_eq, hlose, hcount]
      rfl

end Sys2Proof.Machine
end

section
/-! PROOFS. The checkpoint job (R132, R157 to R161, R171, R172), the identify job (R133, R144) and the deadline (R142, R143). -/

namespace Sys2Proof.Machine

/-! ### A quiesce beside the checkpoint job (R171, R172) -/

theorem State.noteCheckpointBegun_eq (s : State) : s.noteCheckpointBegun = s.mapQuiesce fun q => { q with begun := true } := by
  unfold State.noteCheckpointBegun
  cases hq : s.service.quiesce with
  | none => exact (State.mapQuiesce_of_none hq _).symm
  | some q => rw [State.mapQuiesce_of_some hq]

theorem State.noteCheckpointEnded_eq (s : State) (good : Bool) : s.noteCheckpointEnded good = s.mapQuiesce fun q =>
    { q with ended := if q.begun = true ∧ s.staging.dirtyOrder = [] then some good else q.ended } := by
  unfold State.noteCheckpointEnded
  cases hq : s.service.quiesce with
  | none => exact (State.mapQuiesce_of_none hq _).symm
  | some q =>
    rw [State.mapQuiesce_of_some hq]
    by_cases h : q.begun = true ∧ s.staging.dirtyOrder = []
    · rw [if_pos h]
      exact if_pos (by simpa using h)
    · have hservice : { s.service with quiesce := some { q with ended := q.ended } } = s.service := by rw [← hq]
      rw [if_neg h, hservice]
      exact if_neg (by simpa using h)

/-! ### The beginning (R132, R157, R159) -/

theorem exec_checkpointJobBegin {s : State} (hcan : CanBegin s) (hchoice : s.chooseJob = some .checkpoint) :
    exec .checkpointJobBegin s = .next s.beginCheckpoint := by
  refine congrArg Host.Outcome.next ?_
  rw [s.ownStep_of_none 5 _ hcan.1, State.owedAt_chosen hcan hchoice]
  rfl

theorem CopyId.firstPbn_eq (c : CopyId) : c.firstPbn = if c = .copy0 then 0 else 12 := by cases c <;> rfl

/-- The pending flag and the yield flag are cleared, and a quiesce notes the begin. -/
def State.checkpointTaken (s : State) : State :=
  (({ s with store := { s.store with checkpointPending := false } } : State).setYield false).mapQuiesce fun q => { q with begun := true }

theorem State.beginCheckpoint_issued (s : State) (hleft : s.store.generation ≠ 0xFFFFFFFF) {copy : CopyId} {generation : Nat}
    (htarget : s.store.target = (copy, generation)) : s.beginCheckpoint =
      (s.checkpointTaken.setJob (some (.checkpoint ⟨s.snapshot, copy, generation, 0⟩))).issueCheckpointBlock
        ⟨s.snapshot, copy, generation, 0⟩ 0 := by
  simp only [State.beginCheckpoint, State.noteCheckpointBegun_eq, if_neg (show ¬s.store.generation = Config.maxGeneration from hleft),
    htarget]
  rfl

theorem State.beginCheckpoint_exhausted (s : State) (hfull : s.store.generation = 0xFFFFFFFF) :
    s.beginCheckpoint = ((s.checkpointTaken.checkpointFailed false 0).setYield true).noteCheckpointEnded false := by
  simp only [State.beginCheckpoint, State.noteCheckpointBegun_eq, if_pos (show s.store.generation = Config.maxGeneration from hfull)]
  rfl

theorem State.mem_savedRegions (s : State) (d : Config.SavedRegion) : d ∈ s.savedRegions ↔ ∃ r,
    (s.region r).state ≠ .undefined ∧ (s.region r).attrs.kept = true ∧
      d = ⟨r.val, (s.region r).base, (s.region r).length, (s.region r).attrs.exclusive, (s.region r).attrs.peerRead,
        (s.region r).attrs.through, (s.region r).leasePeriod⟩ := by
  simp only [State.savedRegions, allRegions, List.mem_map, List.mem_filter, List.mem_finRange, true_and, Bool.and_eq_true,
    Region.isDefined_iff, and_assoc, eq_comm (a := d)]

theorem State.savedRegions_ids (s : State) : (s.savedRegions.map (·.id)).Pairwise (· < ·) := by
  rw [State.savedRegions, List.map_map, List.pairwise_map]
  exact (List.pairwise_lt_finRange 16).filter _

/-- Settles O49: by whether the generation is exhausted; the snapshot is that of the tables. -/
theorem checkpointJobBegins : Obligations.CheckpointJobBegins := by
  refine ⟨fun s hcan hchoice => ⟨fun hleft copy generation htarget => ?issued, fun hfull => ?exhausted⟩,
    fun s => ⟨rfl, rfl, rfl, rfl, s.savedRegions_ids, s.mem_savedRegions⟩⟩
  case issued =>
    have hcopy : s.store.target = (copy, generation) := by
      refine Eq.trans ?_ htarget.symm
      unfold MetaStore.target
      cases s.store.newest with
      | none => rfl
      | some c => cases c <;> rfl
    intro job
    rw [exec_checkpointJobBegin hcan hchoice, s.beginCheckpoint_issued hleft hcopy, ← copy.firstPbn_eq]
    rfl
  case exhausted =>
    have hended : (s.service.quiesce.map fun q => { q with begun := true }).map
          (fun q => { q with ended := if q.begun = true ∧ s.staging.dirtyOrder = [] then some false else q.ended }) =
        s.service.quiesce.map fun q => { q with
          begun := true, ended := if s.staging.dirtyOrder = [] then some false else q.ended } := by
      cases s.service.quiesce <;> simp
    rw [exec_checkpointJobBegin hcan hchoice, s.beginCheckpoint_exhausted hfull, State.noteCheckpointEnded_eq, ← hended]
    rfl

/-! ### The answers (R132, R160, R161) -/

theorem exec_checkpointWriteAnswer {s : State} {issue : Byte} {c : CheckpointJob} (h : Expected s issue)
    (hjob : s.sched.job = some (.checkpoint c)) (a : WriteAnswer) :
    exec (.checkpointWriteAnswer issue a) s = .next (s.heard.checkpointWriteAnswered c a) := by
  have htake : s.openEvent.takeCheckpointAnswer a = s.heard.checkpointWriteAnswered c a := by
    simp [State.takeCheckpointAnswer, hjob, s.answered_openEvent]
  exact congrArg Host.Outcome.next ((State.mediaAnswer_of_expected h _).trans htake)

/-- Settles O50: by whether the last block is written, or a write has failed. -/
theorem checkpointGoesByItsAnswers : Obligations.CheckpointGoesByItsAnswers := by
  intro s issue c hexpected hjob quiesce
  refine ⟨fun hmore => ?next, fun hlast => ?good, ?failed⟩
  case next =>
    rw [exec_checkpointWriteAnswer hexpected hjob, State.checkpointWriteAnswered,
      if_pos (show c.written + 1 < Config.copyBlocks from hmore), ← c.copy.firstPbn_eq]
    rfl
  case good =>
    rw [exec_checkpointWriteAnswer hexpected hjob, State.checkpointWriteAnswered,
      if_neg (show ¬c.written + 1 < Config.copyBlocks from Nat.not_lt.mpr hlast), State.endCheckpointGood,
      State.noteCheckpointEnded_eq]
    rfl
  case failed =>
    rw [exec_checkpointWriteAnswer hexpected hjob, State.checkpointWriteAnswered, State.endCheckpointFailed,
      State.noteCheckpointEnded_eq]
    rfl

/-! ### The identify job (R133, R144) -/

theorem exec_identifyAnswer {s : State} {issue : Byte} (h : Expected s issue) (hjob : s.sched.job = some (.identify .identifying))
    (n : BitVec 32) (size : BitVec 16) :
    exec (.identifyAnswer issue n size) s = .next (s.heard.identifyAnswered n.toNat size.toNat) := by
  have htake : s.openEvent.takeIdentifyAnswer n.toNat size.toNat = s.heard.identifyAnswered n.toNat size.toNat := by
    simp [State.takeIdentifyAnswer, hjob, s.answered_openEvent]
  exact congrArg Host.Outcome.next ((State.mediaAnswer_of_expected h _).trans htake)

theorem exec_loadReadAnswer {s : State} {issue : Byte} {blocks : List (Option Block)} {attempt : Nat} (h : Expected s issue)
    (hjob : s.sched.job = some (.identify (.loading blocks attempt))) {a : ReadAnswer} (hfits : dataFits a = true) :
    exec (.loadReadAnswer issue a) s = .next (s.heard.loadReadAnswered blocks attempt a) := by
  have htake : s.openEvent.takeLoadReadAnswer a = s.heard.loadReadAnswered blocks attempt a := by
    simp [State.takeLoadReadAnswer, hjob, s.answered_openEvent]
  have hmedia : s.mediaAnswer issue (dataFits a) (fun t => t.takeLoadReadAnswer a) = s.openEvent.takeLoadReadAnswer a := by
    rw [hfits]
    exact State.mediaAnswer_of_expected h _
  exact congrArg Host.Outcome.next (hmedia.trans htake)

/-- The end of an identify job, with the media state that it leaves. -/
theorem State.endIdentify_eq (s : State) (success : Bool) : s.endIdentify success = s.identifyEnded s.link.media success := rfl

theorem State.setMedia_endIdentify (s : State) (media : MediaState) (success : Bool) :
    (s.setMedia media).endIdentify success = s.identifyEnded media success := rfl

theorem State.geometryOk_iff (s : State) (count size : Nat) : s.geometryOk count size = true ↔
    size = 512 ∧ 1024 ≤ count ∧ count ≤ 1048576 ∧ (s.store.loaded = true → count = s.blockMap.p) := by
  simp only [State.geometryOk, Bool.and_eq_true, Bool.or_eq_true, Bool.not_eq_true', decide_eq_true_eq, and_assoc]
  refine and_congr_right fun _ => and_congr_right fun _ => and_congr_right fun _ => ?_
  cases s.store.loaded <;> simp

theorem State.loadTables_media (s : State) (blocks : List (Option Block)) : (s.loadTables blocks).link.media = s.link.media := by
  unfold State.loadTables
  dsimp only
  split <;> rfl

/-- A block of the load has ended. -/
theorem State.loadBlockEnded_eq (s : State) (blocks : List (Option Block)) (x : Option Block) :
    s.loadBlockEnded (blocks ++ [x]) =
      if blocks.length + 1 < 24 then (s.setJob (some (.identify (.loading (blocks ++ [x]) 1)))).issue (.read (blocks ++ [x]).length)
      else (s.loadTables (blocks ++ [x])).identifyEnded s.link.media true := by
  rw [State.loadBlockEnded, State.endIdentify_eq, State.loadTables_media, List.length_append]
  rfl

/-- Settles O51: by the geometry and whether the table is loaded, then by each load-read answer. -/
theorem identifyJobGoesByItsAnswers : Obligations.IdentifyJobGoesByItsAnswers := by
  refine ⟨fun s issue n size hexpected hjob => ⟨fun hgood hfirst => ?loads, fun hgood hloaded => ?kept, fun hbad => ?refused⟩,
    fun s issue blocks attempt hexpected hjob => ⟨fun data hdata => ⟨?good, ?corrected⟩, fun h => ?again, fun h => ?lost⟩⟩
  case loads =>
    have hok : s.heard.geometryOk n.toNat size.toNat = true := (State.geometryOk_iff _ _ _).mpr hgood
    rw [exec_identifyAnswer hexpected hjob, State.identifyAnswered, if_pos hok,
      if_neg (show ¬s.heard.store.loaded = true from ne_true_of_eq_false hfirst)]
    rfl
  case kept =>
    have hok : s.heard.geometryOk n.toNat size.toNat = true := (State.geometryOk_iff _ _ _).mpr hgood
    rw [exec_identifyAnswer hexpected hjob, State.identifyAnswered, if_pos hok,
      if_pos (show s.heard.store.loaded = true from hloaded), State.setMedia_endIdentify]
  case refused =>
    have hok : ¬s.heard.geometryOk n.toNat size.toNat = true := mt (State.geometryOk_iff _ _ _).mp hbad
    rw [exec_identifyAnswer hexpected hjob, State.identifyAnswered, if_neg hok, State.setMedia_endIdentify]
  case good =>
    rw [exec_loadReadAnswer hexpected hjob (dataFits_good hdata), State.loadReadAnswered, State.loadBlockEnded_eq]
    rfl
  case corrected =>
    rw [exec_loadReadAnswer hexpected hjob (dataFits_corrected hdata), State.loadReadAnswered, State.loadBlockEnded_eq]
    rfl
  case again =>
    rw [exec_loadReadAnswer hexpected hjob rfl, State.loadReadAnswered, if_pos (show attempt < Config.maxAttempts from h)]
    rfl
  case lost =>
    rw [exec_loadReadAnswer hexpected hjob rfl, State.loadReadAnswered,
      if_neg (show ¬attempt < Config.maxAttempts from Nat.not_lt.mpr h), State.loadBlockEnded_eq]
    rfl

/-! ### The deadline (R142, R143) -/

theorem exec_operationTimeout_idle {s : State} (hs : Settled s) (h : s.link.flight = none) :
    exec .operationTimeout s = .next s.openEvent := by
  refine congrArg Host.Outcome.next ?_
  rw [s.fromOutside_quiet _ hs.1 hs.2]
  simp [h]

theorem exec_operationTimeout {s : State} {op : Op} (hs : Settled s) (h : s.link.flight = some op) :
    exec .operationTimeout s = .next (s.openEvent.timedOut op) := by
  refine congrArg Host.Outcome.next ?_
  rw [s.fromOutside_quiet _ hs.1 hs.2]
  simp [h]

/-- A timeout is counted. -/
def State.timeoutCounted (s : State) : State := { s with link := { s.link with timeouts := s.link.timeouts + 1 } }

section
variable {s : State} (op : Op) (hover : 3 ≤ s.link.timeouts + 1)
include hover

theorem State.timedOut_identify {step : IdentifyStep} (hjob : s.sched.job = some (.identify step)) :
    s.timedOut op = (s.timeoutCounted.dropOperation).identifyEnded .fault false := by
  refine (if_neg (Nat.not_lt.mpr hover)).trans ?_
  rw [hjob]
  rfl

theorem State.timedOut_fault (hno : ∀ step, s.sched.job ≠ some (.identify step)) :
    s.timedOut op = s.timeoutCounted.enterFault := by
  refine (if_neg (Nat.not_lt.mpr hover)).trans ?_
  cases hjob : s.sched.job with
  | none => rfl
  | some j =>
    cases j with
    | identify step => exact absurd hjob (hno step)
    | read | flush | checkpoint => rfl

end

/-- Settles O54: by the number of timeouts and the kind of job. -/
theorem timeoutsRepeatThenFault : Obligations.TimeoutsRepeatThenFault := by
  refine ⟨fun s op hs hop => ⟨fun hleft => ?again, fun hover => ⟨fun step hjob => ?identify, fun hno => ?fault⟩⟩,
    fun s hs => exec_operationTimeout_idle hs⟩
  all_goals rw [exec_operationTimeout hs hop]
  case again => exact congrArg _ (if_pos hleft)
  case identify => exact congrArg _ (State.timedOut_identify (s := s.openEvent) op hover hjob)
  case fault => exact congrArg _ (State.timedOut_fault (s := s.openEvent) op hover hno)

end Sys2Proof.Machine
end

section
/-! PROOFS. The part's own steps: waiters that complete (R82, R94), the end of a quiesce (R172). -/

namespace Sys2Proof.Machine

/-! ### A step of the part's own, by its name -/

theorem State.ownStep_named (s : State) (k : Nat) (o : Owed) (hnone : s.firstOwed k = []) :
    s.ownStep k (fun x => x == o) = if o ∈ s.owedAt k then s.perform o else s := by
  rw [s.ownStep_of_none k _ hnone]
  by_cases h : o ∈ s.owedAt k
  · have hfind : (s.owedAt k).find? (fun x => x == o) = some o := by
      obtain ⟨x, hx⟩ := Option.isSome_iff_exists.mp ((List.find?_isSome (p := fun x => x == o)).mpr ⟨o, h, beq_self_eq_true o⟩)
      have hname : (x == o) = true := List.find?_some (p := fun x => x == o) hx
      rw [hx, beq_iff_eq.mp hname]
    rw [hfind, if_pos h]
  · have hfind : (s.owedAt k).find? (fun x => x == o) = none :=
      List.find?_eq_none.mpr fun x hx hxo => h (beq_iff_eq.mp hxo ▸ hx)
    rw [hfind, if_neg h]

theorem mem_indicesOf {α : Type} (test : α → Bool) (xs : List α) (i : Nat) :
    i ∈ indicesOf test xs ↔ ∃ x, xs[i]? = some x ∧ test x = true := by
  simp only [indicesOf, List.mem_filter, List.mem_range]
  cases hx : xs[i]? with
  | none => simp
  | some x => simpa using fun _ => (List.getElem?_eq_some_iff.mp hx).1

/-! ### Write-through waiters (R82) -/

theorem WtWaiter.done_iff (w : WtWaiter) : w.done = true ↔ ∀ e ∈ w.entries, e.state ≠ .awaiting := by
  simp [WtWaiter.done]

theorem State.firstOwed_zero (s : State) : s.firstOwed 0 = [] := rfl

theorem exec_writeThroughCompletion {s : State} {i : Nat} {w : WtWaiter} (hw : s.staging.wtWaiters[i]? = some w) :
    exec (.writeThroughCompletion i) s = .next (if w.done then s.completeWrite i else s) := by
  refine congrArg Host.Outcome.next ((s.ownStep_named 0 (.writeThrough i) s.firstOwed_zero).trans (if_congr ?_ rfl rfl))
  simp [State.owedAt, mem_indicesOf, hw]

theorem State.completeWrite_eq {s : State} {i : Nat} {w : WtWaiter} (hw : s.staging.wtWaiters[i]? = some w) :
    s.completeWrite i = ({ s with staging := { s.staging with wtWaiters := s.staging.wtWaiters.eraseIdx i } } : State).finish
      w.port w.tag w.detached (if w.entries.any fun e => e.state == .lost then .writeError else .ok) .blank := by
  simp only [State.completeWrite, hw]

/-! ### FLUSH waiters (R94) -/

theorem exec_flushCompletion {s : State} {i : Nat} {w : FlushWaiter} (hnone : s.firstOwed 2 = [])
    (hw : s.staging.flushWaiters[i]? = some w) :
    exec (.flushCompletion i) s = .next (if s.staging.flushDone w then s.completeFlush i else s) := by
  refine congrArg Host.Outcome.next ((s.ownStep_named 2 (.flush i) hnone).trans (if_congr ?_ rfl rfl))
  simp [State.owedAt, mem_indicesOf, hw]

theorem State.completeFlush_eq {s : State} {i : Nat} {w : FlushWaiter} (hw : s.staging.flushWaiters[i]? = some w) :
    s.completeFlush i = ({ s with staging := { s.staging with flushWaiters := s.staging.flushWaiters.eraseIdx i } } : State).finish
      w.port w.tag w.detached (flushStatus w.lost) (.lost w.lost) := by
  simp only [State.completeFlush, hw]

/-- Settles O38: by the state of the entries of the waiter, written through or flushed. -/
theorem waitersComplete : Obligations.WaitersComplete := by
  refine ⟨fun s i w hw => ⟨fun hall => ?satisfied, fun hnone hlost => ?lost, fun hwaits => ?waits⟩,
    fun s i w hnone hw => ⟨fun hclear hzero => ?flushed, fun hclear hsome => ?partly, fun hcovered => ?covered⟩⟩
  case satisfied =>
    have hdone : w.done = true := w.done_iff.mpr fun e he => by rw [hall e he]; decide
    have hgood : ¬(w.entries.any fun e => e.state == .lost) = true := by
      simp only [List.any_eq_true, not_exists, not_and]
      exact fun e he => by rw [hall e he]; decide
    rw [exec_writeThroughCompletion hw, if_pos hdone, State.completeWrite_eq hw, if_neg hgood]
  case lost =>
    have hlost : (w.entries.any fun e => e.state == .lost) = true := by simpa using hlost
    rw [exec_writeThroughCompletion hw, if_pos (w.done_iff.mpr hnone), State.completeWrite_eq hw, if_pos hlost]
  case waits =>
    obtain ⟨e, he, hstate⟩ := hwaits
    rw [exec_writeThroughCompletion hw, if_neg fun hdone => w.done_iff.mp hdone e he hstate]
  case flushed =>
    rw [exec_flushCompletion hnone hw, if_pos ((s.flushDone_iff w).mpr hclear), State.completeFlush_eq hw, hzero]
    rfl
  case partly =>
    rw [exec_flushCompletion hnone hw, if_pos ((s.flushDone_iff w).mpr hclear), State.completeFlush_eq hw, flushStatus, if_neg hsome]
  case covered => rw [exec_flushCompletion hnone hw, if_neg fun hdone => (s.flushDone_iff w).mp hdone hcovered]

/-! ### The end of a quiesce (R172) -/

theorem State.finishWaiters_eq_finishAll (s : State) (ws : List Waiter) (st : Status) : s.finishWaiters ws st = s.finishAll ws st :=
  rfl

theorem liveWaiter_iff (ws : List Waiter) (p : PortId) : liveWaiter ws p = true ↔ ∃ w ∈ ws, w.port = p ∧ w.detached = false := by
  simp [liveWaiter]

theorem State.finishAll_service (s : State) (ws : List Waiter) (st : Status) : (s.finishAll ws st).service = s.service := by
  induction ws generalizing s with
  | nil => rfl
  | cons w ws ih => exact (ih _).trans (s.finish_service w.port w.tag w.detached st .blank)

theorem exec_quiesceEnd {s : State} (hnone : s.firstOwed 1 = []) :
    exec .quiesceEnd s = .next (if s.quiesceEnded.isSome then s.endQuiesce else s) := by
  refine congrArg Host.Outcome.next ((s.ownStep_named 1 .quiesceEnd hnone).trans (if_congr ?_ rfl rfl))
  cases h : s.quiesceEnded.isSome <;> simp [State.owedAt, h]

/-- Every waiter has completed, and the service is QUIESCED. -/
def State.rested (s : State) (q : Quiesce) (good : Bool) : State :=
  { s.finishAll q.waiters (if good = true ∧ q.lost = 0 then .ok else .partialOk) with
    service := { s.service with state := .quiesced, quiesce := none } }

theorem State.endQuiesce_eq {s : State} {q : Quiesce} {good : Bool} (hq : s.service.quiesce = some q) (hended : q.ended = some good) :
    s.endQuiesce = ((s.rested q good).offerQuiesced q.waiters .A).offerQuiesced q.waiters .B := by
  have hstatus : quiesceStatus good q.lost = if good = true ∧ q.lost = 0 then .ok else .partialOk := by
    simp [quiesceStatus]
  simp only [State.endQuiesce, hq, hended, hstatus, State.finishWaiters_eq_finishAll, State.finishAll_service]
  rfl

/-- Settles O40: by whether the checkpoint of the QUIESCE has ended, then by the ports that still wait. -/
theorem quiesceEndsWithItsCheckpoint : Obligations.QuiesceEndsWithItsCheckpoint := by
  intro s q hnone hq
  refine ⟨fun hended => ?goesOn, fun good hended => ?ends⟩
  case goesOn =>
    have hnot : ¬s.quiesceEnded.isSome = true := by simp [State.quiesceEnded, hq, hended]
    rw [exec_quiesceEnd hnone, if_neg hnot]
  case ends =>
    have hends : s.quiesceEnded.isSome = true := by simp [State.quiesceEnded, hq, hended]
    simp only [exec_quiesceEnd hnone, if_pos hends, State.endQuiesce_eq hq hended, State.offerQuiesced, liveWaiter_iff]
    refine ⟨fun hA hB => ?_, fun hA hB => ?_, fun hA hB => ?_, fun hA hB => ?_⟩
    · rw [if_pos hA, if_pos hB]; rfl
    · rw [if_pos hA, if_neg hB]; rfl
    · rw [if_neg hA, if_pos hB]; rfl
    · rw [if_neg hA, if_neg hB]; rfl

end Sys2Proof.Machine
end

section
/-! PROOFS. The tick, and what it brings to 0 (R14 to R16, R34). -/

namespace Sys2Proof.Machine

/-! ### The tick (R14, R34) -/

theorem exec_tick {s : State} (h : Settled s) : exec .tick s = .next s.openEvent.tick :=
  congrArg Host.Outcome.next (s.fromOutside_quiet _ h.1 h.2)

/-- The tick, by any way of saying what it counts down and what it brings to 0. -/
theorem State.tick_eq (s : State) (count : Region → Region) (window : Proposal → Proposal) (out : Fin 16 → Bool) (lapses : Bool)
    (hcount : ∀ x, Region.countDown x = count x) (hwindow : ∀ pr, Proposal.countDown pr = window pr)
    (hout : ∀ r, (s.region r).lastTick = out r) (hover : s.agree.proposal.any Proposal.lastTick = lapses) : s.tick =
      { s.mapRegions fun _ x => count x with
        agree := { s.agree with proposal := s.agree.proposal.map window }
        service := { s.service with ticks := s.service.ticks + 1 }
        ticking := { leases := (List.finRange 16).filter out, window := lapses } } := by
  obtain rfl : Region.countDown = count := funext hcount
  obtain rfl : Proposal.countDown = window := funext hwindow
  obtain rfl : (fun r => (s.region r).lastTick) = out := funext hout
  rw [← hover]
  rfl

section
variable {x : Region} {h : Hold} (hold : x.hold = some h)
include hold

theorem Region.lastTick_of_some : x.lastTick = decide (h.remaining ≤ 1) := by rw [Region.lastTick, hold]

theorem Region.countDown_of_some :
    x.countDown = if 2 ≤ h.remaining then { x with hold := some { h with remaining := h.remaining - 1 } } else x := by
  rw [Region.countDown, Region.lastTick_of_some hold, hold]
  by_cases hleft : 2 ≤ h.remaining
  · rw [if_pos hleft, if_neg (by simpa using Nat.lt_of_succ_le hleft)]; rfl
  · rw [if_neg hleft, if_pos (by simpa using Nat.not_le.mp hleft)]

end

theorem Region.countDown_of_none {x : Region} (hold : x.hold = none) : x.countDown = x := by
  have hsame : { x with hold := none } = x := by rw [← hold]
  rw [Region.countDown, Region.lastTick, hold]
  exact hsame

section
variable {pr : Proposal} {w : Nat} (hstate : pr.state = .opened w)
include hstate

theorem Proposal.lastTick_of_opened : pr.lastTick = decide (w ≤ 1) := by rw [Proposal.lastTick, hstate]

theorem Proposal.countDown_of_opened :
    pr.countDown = if 2 ≤ w then { pr with state := .opened (w - 1) } else pr := by
  simp only [Proposal.countDown, hstate, Proposal.lastTick_of_opened hstate]
  by_cases hleft : 2 ≤ w
  · rw [if_pos hleft, if_neg (by simpa using Nat.lt_of_succ_le hleft)]
  · rw [if_neg hleft, if_pos (by simpa using Nat.not_le.mp hleft)]

end

section
variable {pr : Proposal} (hstate : pr.state = .applying)
include hstate

theorem Proposal.lastTick_of_applying : pr.lastTick = false := by rw [Proposal.lastTick, hstate]

theorem Proposal.countDown_of_applying : pr.countDown = pr := by simp only [Proposal.countDown, hstate]

end

/-! ### LEASE_EXPIRY (R15, R16) -/

theorem exec_leaseExpiry {s : State} {r : Fin 16} (hnone : s.firstOwed 6 = []) :
    exec (.leaseExpiry r) s = .next (if r ∈ s.ticking.leases then s.expireLease r else s) := by
  refine congrArg Host.Outcome.next ((s.ownStep_named 6 (.leaseExpiry r) hnone).trans (if_congr ?_ rfl rfl))
  cases s.ticking.window <;> simp [State.owedAt]

theorem exec_lapsedDeadline {s : State} (hnone : s.firstOwed 6 = []) :
    exec .lapsedDeadline s = .next (if s.ticking.window = true then s.lapse else s) := by
  refine congrArg Host.Outcome.next ((s.ownStep_named 6 .lapse hnone).trans (if_congr ?_ rfl rfl))
  cases h : s.ticking.window <;> simp [State.owedAt, h]

theorem List.find?_map_of_kept {α : Type} {f : α → α} {test : α → Bool} {xs : List α} {a : α} (hfind : xs.find? test = some a)
    (hback : ∀ x, test (f x) = true → test x = true) (hkept : f a = a) : (xs.map f).find? test = some a := by
  induction xs with
  | nil => simp at hfind
  | cons x xs ih =>
    cases hx : test x with
    | true =>
      rw [List.find?_cons_of_pos hx, Option.some.injEq] at hfind
      subst hfind
      rw [List.map_cons, hkept, List.find?_cons_of_pos hx]
    | false =>
      have hfx : ¬test (f x) = true := fun h => by simp [hback x h] at hx
      rw [List.find?_cons_of_neg (by simp [hx])] at hfind
      rw [List.map_cons, List.find?_cons_of_neg hfx, ih hfind]

/-- A completion of another request leaves the WRITE that waits for slots. -/
theorem PortUnit.complete_waitingWrite (u : PortUnit) (base : Nat) (tag : Byte) (st : Status) (res : Result) {rec : Record}
    (hrec : u.waitingWrite = some rec) (htag : tag ≠ rec.tag) : (u.complete base tag st res).waitingWrite = some rec := by
  unfold PortUnit.complete
  split
  · exact hrec
  · refine List.find?_map_of_kept hrec (fun x hx => ?_) (if_neg (by simp [Record.isOpen, Ne.symm htag]))
    by_cases hopen : x.isOpen tag = true
    · simp [hopen, Record.finished] at hx
    · simpa [hopen] using hx

theorem State.complete_waitingWrite (s : State) (p : PortId) (tag : Byte) (st : Status) (res : Result) {rec : Record}
    (hrec : (s.port p).waitingWrite = some rec) (htag : tag ≠ rec.tag) :
    ((s.complete p tag st res).port p).waitingWrite = some rec := by
  rw [State.complete, State.updPort, State.setPort_port]
  exact PortUnit.complete_waitingWrite _ _ tag st res hrec htag

theorem State.loseReads_waitingWrite (s : State) (p : PortId) (r : Fin 16) {rec : Record}
    (hrec : (s.port p).waitingWrite = some rec) (htags : ∀ w ∈ s.sched.wait p, w.tag ≠ rec.tag) :
    ((s.loseReads p r).port p).waitingWrite = some rec := by
  have hfold (gone : List WaitingRead) (hgone : ∀ w ∈ gone, w.tag ≠ rec.tag) (t : State)
      (ht : (t.port p).waitingWrite = some rec) :
      ((gone.foldl (fun t w => t.complete p w.tag .leaseLost .blank) t).port p).waitingWrite = some rec := by
    induction gone generalizing t with
    | nil => exact ht
    | cons w gone ih =>
      exact ih (fun x hx => hgone x (List.mem_cons_of_mem _ hx)) _
        (t.complete_waitingWrite p w.tag _ _ ht (hgone w List.mem_cons_self))
  refine hfold _ (fun w hw => htags w (List.mem_of_mem_filter hw)) _ ?_
  cases p <;> exact hrec

/-- The lease of a region has run out: the hold and the not-started READs of its holder go. -/
def State.leaseOver (s : State) (r : Fin 16) (p : PortId) : State := ((s.openEvent.leaseCounted r).dropHold r).loseReads p r

section
variable {s : State} {r : Fin 16} {h : Hold} (hold : (s.region r).hold = some h)
include hold

theorem State.expireLease_counted (hleft : 2 ≤ h.remaining) : s.expireLease r =
    (s.openEvent.leaseCounted r).setRegion r { s.region r with hold := some { h with remaining := h.remaining - 1 } } := by
  have hlast : ¬(s.region r).lastTick = true := by rw [Region.lastTick_of_some hold]; simpa using Nat.lt_of_succ_le hleft
  simp only [State.expireLease, hold, if_neg hlast, Region.countDown_of_some hold, if_pos hleft]

theorem State.expireLease_over (hout : h.remaining ≤ 1) : s.expireLease r =
    (((s.leaseOver r h.holder).endWaitingWrite h.holder (· == r) .leaseLost).offer h.holder (.holdLost .expired r)).moveOn := by
  have hlast : (s.region r).lastTick = true := by rw [Region.lastTick_of_some hold]; simpa using hout
  simp only [State.expireLease, hold, if_pos hlast, State.endNotStarted_eq]
  rfl

end

theorem State.leaseOver_waits (s : State) (r : Fin 16) (p : PortId) {rec : Record} (hrec : (s.port p).waitingWrite = some rec)
    (htags : ∀ w ∈ s.sched.wait p, w.tag ≠ rec.tag) : ((s.leaseOver r p).port p).waitingWrite = some rec := by
  refine State.loseReads_waitingWrite _ p r ?_ htags
  cases p <;> exact hrec

theorem State.leaseOver_waits_none (s : State) (r : Fin 16) (p : PortId) (hw : (s.port p).waitingWrite = none) :
    ((s.leaseOver r p).port p).waitingWrite = none := by
  refine (State.loseReads_frame _ p r ?_).1
  cases p <;> exact hw

/-! ### LAPSED_DEADLINE (R34) -/

theorem State.lapse_of_none_open {s : State} (h : ∀ pr, s.agree.proposal = some pr → pr.state = .applying) :
    s.lapse = s.openEvent.windowCounted := by
  unfold State.lapse
  cases hrec : s.agree.proposal with
  | none => rfl
  | some pr =>
    have happlying := h pr hrec
    simp only [Proposal.lastTick_of_applying happlying, Proposal.countDown_of_applying happlying]
    have hagree : { s.agree with proposal := some pr } = s.agree := by rw [← hrec]
    exact congrArg (fun a => ({ s.openEvent.windowCounted with agree := a } : State)) hagree

section
variable {s : State} {pr : Proposal} {w : Nat} (hrec : s.agree.proposal = some pr) (hstate : pr.state = .opened w)
include hrec hstate

theorem State.lapse_over (hout : w ≤ 1) : s.lapse = s.openEvent.windowCounted.endProposal pr .lapsedDeadline := by
  simp only [State.lapse, hrec, Proposal.lastTick_of_opened hstate, decide_eq_true hout, if_true]

theorem State.lapse_counted (hleft : 2 ≤ w) : s.lapse = { s.openEvent.windowCounted with
    agree := { s.agree with proposal := some { pr with state := .opened (w - 1) } } } := by
  have hlast : ¬pr.lastTick = true := by rw [Proposal.lastTick_of_opened hstate]; simpa using Nat.lt_of_succ_le hleft
  simp only [State.lapse, hrec, if_neg hlast, Proposal.countDown_of_opened hstate, if_pos hleft]
  rfl

end

/-- Settles O36: the tick, and the expiry and the lapse by what is left to count. -/
theorem tickCountsDownAndExpires : Obligations.TickCountsDownAndExpires := by
  refine ⟨fun s hs => ?tick, fun s r hnone => ⟨fun hout => ?notOwed, fun hin hold => ?noHold, fun h hin hold => ?hold⟩,
    fun s hnone => ⟨fun hwindow => ?noWindow, fun hwindow happlying => ?noneOpen, fun pr w hwindow hrec hstate =>
      ⟨fun hout => ?lapsed, fun hleft => ?windowCounted⟩⟩⟩
  case tick =>
    refine (exec_tick hs).trans (congrArg Host.Outcome.next (s.openEvent.tick_eq _ _ _ _ (fun x => ?_) (fun pr => ?_) (fun r => ?_) ?_))
    · cases hold : x.hold with
      | none => exact Region.countDown_of_none hold
      | some h => exact Region.countDown_of_some hold
    · cases hstate : pr.state with
      | opened w => exact Proposal.countDown_of_opened hstate
      | applying => exact Proposal.countDown_of_applying hstate
    · rfl
    · rw [State.openEvent_agree]
      cases s.agree.proposal <;> rfl
  case notOwed => rw [exec_leaseExpiry hnone, if_neg hout]
  case noHold =>
    rw [exec_leaseExpiry hnone, if_pos hin]
    simp only [State.expireLease, hold]
    rfl
  case hold =>
    simp only [exec_leaseExpiry hnone, if_pos hin]
    refine ⟨fun hleft => ?counted, fun hover hw => ?expired, fun rec b c o d q hover hrec htags hwrite hb => ?waiting⟩
    case counted => rw [State.expireLease_counted hold hleft]; rfl
    case expired =>
      rw [State.expireLease_over hold hover, State.endWaitingWrite_of_none _ _ _ _ (s.leaseOver_waits_none r _ hw)]
      rfl
    case waiting =>
      rw [State.expireLease_over hold hover, State.endWaitingWrite_of_some _ _ _ _ (s.leaseOver_waits r _ hrec htags) hwrite hb]
      refine ⟨fun hne => ?_, fun heq => ?_⟩
      · rw [if_neg (by simpa using hne)]; rfl
      · rw [if_pos (by simpa using heq)]; rfl
  case noWindow => rw [exec_lapsedDeadline hnone, if_neg (by simp [hwindow])]
  case noneOpen => rw [exec_lapsedDeadline hnone, if_pos hwindow, State.lapse_of_none_open happlying]; rfl
  case lapsed => rw [exec_lapsedDeadline hnone, if_pos hwindow, State.lapse_over hrec hstate hout]; rfl
  case windowCounted => rw [exec_lapsedDeadline hnone, if_pos hwindow, State.lapse_counted hrec hstate hleft]; rfl

end Sys2Proof.Machine
end

section
/-! PROOFS. Malformed answers (R140, R141) and entry to FAULT (R91, R110, R135, R145, R146, R161, R173). -/

namespace Sys2Proof.Machine

/-! ### Malformed answers (R140, R141) -/

theorem State.mediaAnswer_of_unexpected {s : State} {issue : Byte} (hs : Settled s)
    (h : s.link.flight = none ∨ issue.toNat ≠ s.link.issueNo) (fits : Bool) (f : State → State) :
    s.mediaAnswer issue fits f = s.openEvent := by
  have hno : s.openEvent.expects issue = false := by
    rcases h with h | h <;> simp [State.expects, h]
  rw [State.mediaAnswer, s.fromOutside_quiet _ hs.1 hs.2, hno, Bool.and_false]
  rfl

theorem replyChecked_of_wrong {reply : List Byte} {n : Nat}
    (h : ¬(reply.drop (1 + n)).take 2 = crc16Bytes ((reply.drop 1).take n)) : replyChecked reply n = false := by
  have hwrong : ((reply.drop (1 + n)).take 2 == crc16Bytes ((reply.drop 1).take n)) = false := beq_false_of_ne h
  rw [replyChecked, hwrong, Bool.and_false]

section
variable {issueNo : Nat} {reply : List Byte}

theorem answerOfReply_identify_misfit (h : reply.getD 2 0 ≠ 1 ∨ replyChecked reply 8 = false) :
    answerOfReply .identify issueNo reply = none := by
  rcases h with h | h <;> simp only [answerOfReply, h] <;> simp

theorem answerOfReply_write_misfit (pbn : Nat) (data : Block)
    (h : ¬(reply.getD 2 0 = 1 ∨ reply.getD 2 0 = 4) ∨ replyChecked reply 2 = false) :
    answerOfReply (.write pbn data) issueNo reply = none := by
  rcases h with h | h
  · obtain ⟨hgood, hfailed⟩ := not_or.mp h
    simp only [answerOfReply, hgood, hfailed]
    simp
  · simp only [answerOfReply, h]
    simp

theorem answerOfReply_read_misfit (pbn : Nat)
    (h : ¬(reply.getD 2 0 = 1 ∨ reply.getD 2 0 = 2 ∨ reply.getD 2 0 = 3) ∨
      replyChecked reply (2 + if reply.getD 2 0 = 3 then 0 else 512) = false) :
    answerOfReply (.read pbn) issueNo reply = none := by
  rcases h with h | h
  · obtain ⟨hgood, h⟩ := not_or.mp h
    obtain ⟨hcorrected, hlost⟩ := not_or.mp h
    simp only [answerOfReply, hgood, hcorrected, hlost]
    simp
  · by_cases hlost : reply.getD 2 0 = 3
    · rw [if_pos hlost] at h
      simp only [answerOfReply, hlost, h]
      simp
    · rw [if_neg hlost] at h
      have hdata : replyChecked reply (2 + Config.blockSize) = false := h
      simp only [answerOfReply, hlost, hdata]
      simp

end

theorem exec_malformedAnswer {s : State} {op : Op} {reply : List Byte} (hs : Settled s) (hop : s.link.flight = some op)
    (hnone : answerOfReply op s.link.issueNo reply = none) : exec (.malformedAnswer reply) s = .next s.openEvent := by
  refine congrArg Host.Outcome.next ((s.fromOutside_quiet _ hs.1 hs.2).trans ?_)
  simp only [State.takeReply, State.openEvent_link, hop, hnone]

/-- Settles O56: the rows by the issue number, a reply by its header, its outcome or its check value. -/
theorem malformedAnswersAreDiscarded : Obligations.MalformedAnswersAreDiscarded := by
  refine ⟨fun s issue a w n size hs h c hc => ?rows, fun s op reply hs hop => ?reply⟩
  case rows =>
    have discarded (fits : Bool) (f : State → State) := State.mediaAnswer_of_unexpected hs h fits f
    simp only [List.mem_cons, List.not_mem_nil, or_false] at hc
    rcases hc with rfl | rfl | rfl | rfl | rfl | rfl | rfl <;> exact congrArg Host.Outcome.next (discarded _ _)
  case reply =>
    intro outcome length fits checked h
    refine exec_malformedAnswer hs hop ?_
    by_cases hheader : reply.head? ≠ some 1 ∨ (reply.getD 1 0).toNat ≠ s.link.issueNo
    · exact answerOfReply_of_header hheader
    · have hmisfit : ¬fits ∨ ¬checked := by tauto
      cases op with
      | identify => exact answerOfReply_identify_misfit (hmisfit.imp id replyChecked_of_wrong)
      | read pbn => exact answerOfReply_read_misfit pbn (hmisfit.imp id replyChecked_of_wrong)
      | write pbn data => exact answerOfReply_write_misfit pbn data (hmisfit.imp id replyChecked_of_wrong)

end Sys2Proof.Machine
end

section
/-! PROOFS. Entry to FAULT (R91, R110, R135, R145, R146, R161, R173). -/

namespace Sys2Proof.Machine

/-! ### Several completions MEDIA_FAULT, one after the other -/

/-- Each request completes MEDIA_FAULT with its result fields. -/
def State.faultAll (s : State) (xs : List (PortId × Byte × Result)) : State :=
  xs.foldl (fun t x => t.complete x.1 x.2.1 .mediaFault x.2.2) s

/-- The completions of a list that are one port's. -/
def ofPort (p : PortId) (xs : List (PortId × Byte × Result)) : List (Byte × Result) := (xs.filter (·.1 = p)).map Prod.snd

/-- What the completions make of a port unit, `base` of whose frames are older than the event. -/
def PortUnit.faultAll (u : PortUnit) (base : Nat) (xs : List (Byte × Result)) : PortUnit :=
  xs.foldl (fun u x => u.complete base x.1 .mediaFault x.2) u

theorem State.faultAll_append (s : State) (xs ys : List (PortId × Byte × Result)) :
    (s.faultAll xs).faultAll ys = s.faultAll (xs ++ ys) := List.foldl_append.symm

theorem ofPort_append (p : PortId) (xs ys : List (PortId × Byte × Result)) : ofPort p (xs ++ ys) = ofPort p xs ++ ofPort p ys := by
  simp [ofPort]

/-- Completions change the port units only. -/
theorem State.faultAll_eq (s : State) (xs : List (PortId × Byte × Result)) : s.faultAll xs =
    { s with portA := s.portA.faultAll (s.base .A) (ofPort .A xs), portB := s.portB.faultAll (s.base .B) (ofPort .B xs) } := by
  induction xs generalizing s with
  | nil => rfl
  | cons x xs ih =>
    obtain ⟨p, tag, res⟩ := x
    refine (ih (s.complete p tag .mediaFault res)).trans ?_
    cases p <;> rfl

theorem State.faultAll_port (s : State) (xs : List (PortId × Byte × Result)) (p : PortId) :
    (s.faultAll xs).port p = (s.port p).faultAll (s.base p) (ofPort p xs) := by
  rw [State.faultAll_eq]
  cases p <;> rfl

/-- The completions of the work of a list, a detached one's discarded (R71). -/
theorem State.foldl_finish {α : Type} (port : α → PortId) (tag : α → Byte) (detached : α → Bool) (res : α → Result) (ws : List α)
    (s : State) : ws.foldl (fun t w => t.finish (port w) (tag w) (detached w) .mediaFault (res w)) s =
      s.faultAll ((ws.filter fun w => !detached w).map fun w => (port w, tag w, res w)) := by
  induction ws generalizing s with
  | nil => rfl
  | cons w ws ih =>
    refine (ih _).trans ?_
    cases hd : detached w <;> simp [State.finish, hd, State.faultAll]

theorem ofPort_map {α : Type} (p : PortId) (port : α → PortId) (tag : α → Byte) (detached : α → Bool) (res : α → Result)
    (ws : List α) : ofPort p ((ws.filter fun w => !detached w).map fun w => (port w, tag w, res w)) =
      (ws.filter fun w => port w = p ∧ detached w = false).map fun w => (tag w, res w) := by
  rw [ofPort, List.filter_map, List.map_map, List.filter_filter]
  refine congrArg _ (List.filter_congr fun w _ => ?_)
  simp

/-! ### The steps of R145 -/

/-- The completion that abandoning the job in progress makes (R135). -/
def State.jobFaulted (s : State) : List (PortId × Byte × Result) :=
  match s.sched.job with
  | some (.read j) => if j.detached then [] else [(j.port, j.read.tag, .blank)]
  | some (.flush _) | some (.checkpoint _) | some (.identify _) | none => []

/-- The slot of an abandoned flush job is DIRTY again (R91). -/
def State.takenBack (s : State) : Staging :=
  match s.sched.job with
  | some (.flush j) => s.staging.takeBack j.slot j.relocate
  | some (.read _) | some (.checkpoint _) | some (.identify _) | none => s.staging

theorem State.abandonJob_eq (s : State) :
    s.abandonJob = ({ s.setJob none with staging := s.takenBack } : State).faultAll s.jobFaulted := by
  unfold State.abandonJob State.takenBack State.jobFaulted
  cases s.sched.job with
  | none => rfl
  | some j =>
    cases j with
    | read j => cases hd : j.detached <;> simp only [State.finish, hd] <;> rfl
    | flush | checkpoint | identify => rfl

/-! Completions go past a change of the scheduler, the buffer or Service Control. -/

section
variable {s t : State} {xs : List (PortId × Byte × Result)} (ht : t = s.faultAll xs)
include ht

theorem State.faultAll_setSched (c : Scheduler) :
    ({ t with sched := c } : State) = ({ s with sched := c } : State).faultAll xs := by
  rw [ht, State.faultAll_eq, State.faultAll_eq]
  rfl

theorem State.faultAll_setStaging (b : Staging) :
    ({ t with staging := b } : State) = ({ s with staging := b } : State).faultAll xs := by
  rw [ht, State.faultAll_eq, State.faultAll_eq]
  rfl

theorem State.faultAll_setService (c : ServiceControl) :
    ({ t with service := c } : State) = ({ s with service := c } : State).faultAll xs := by
  rw [ht, State.faultAll_eq, State.faultAll_eq]
  rfl

end

theorem State.faultAll_sched (s : State) (xs : List (PortId × Byte × Result)) : (s.faultAll xs).sched = s.sched := by
  rw [State.faultAll_eq]

theorem State.faultAll_staging (s : State) (xs : List (PortId × Byte × Result)) : (s.faultAll xs).staging = s.staging := by
  rw [State.faultAll_eq]

theorem State.faultAll_service (s : State) (xs : List (PortId × Byte × Result)) : (s.faultAll xs).service = s.service := by
  rw [State.faultAll_eq]

theorem State.faultWaitList_eq (s : State) (p : PortId) : s.faultWaitList p =
    ({ s with sched := s.sched.setWait p [] } : State).faultAll ((s.sched.wait p).map fun w => (p, w.tag, .blank)) := by
  simp only [State.faultWaitList, State.completeAll, State.faultAll, List.foldl_map]

theorem State.faultAll_faultWaitList (s : State) (xs : List (PortId × Byte × Result)) (p : PortId) :
    (s.faultAll xs).faultWaitList p =
      ({ s with sched := s.sched.setWait p [] } : State).faultAll (xs ++ (s.sched.wait p).map fun w => (p, w.tag, .blank)) := by
  rw [State.faultWaitList_eq, State.faultAll_sched, State.faultAll_setSched rfl, State.faultAll_append]

/-- The completions of the write-through and FLUSH waiters (R91, R94). -/
def Staging.waitersFaulted (b : Staging) : List (PortId × Byte × Result) :=
  (b.wtWaiters.filter fun w => !w.detached).map (fun w => (w.port, w.tag, .blank)) ++
    (b.flushWaiters.filter fun w => !w.detached).map fun w => (w.port, w.tag, .lost w.lost)

theorem State.faultBuffer_eq (s : State) : s.faultBuffer =
    ({ s with staging := { s.staging with wtWaiters := [], flushWaiters := [] } } : State).faultAll s.staging.waitersFaulted := by
  rw [Staging.waitersFaulted, ← State.faultAll_append, ← State.foldl_finish (α := WtWaiter), ← State.foldl_finish (α := FlushWaiter)]
  rfl

theorem State.faultAll_faultBuffer (s : State) (xs : List (PortId × Byte × Result)) : (s.faultAll xs).faultBuffer =
    ({ s with staging := { s.staging with wtWaiters := [], flushWaiters := [] } } : State).faultAll
      (xs ++ s.staging.waitersFaulted) := by
  rw [State.faultBuffer_eq, State.faultAll_staging, State.faultAll_setStaging rfl, State.faultAll_append]

/-- The completions of the waiters of a quiesce (R173). -/
def State.quiesceFaulted (s : State) : List (PortId × Byte × Result) :=
  match s.service.quiesce with
  | some q => (q.waiters.filter fun w => !w.detached).map fun w => (w.port, w.tag, .blank)
  | none => []

/-- The service is READY again where it was on the way to rest (R173). -/
def ServiceControl.faulted (c : ServiceControl) : ServiceControl :=
  if c.quiesce = none then c else { c with state := .ready, quiesce := none }

theorem State.faultQuiesce_eq (s : State) :
    s.faultQuiesce = ({ s with service := s.service.faulted } : State).faultAll s.quiesceFaulted := by
  unfold State.faultQuiesce State.quiesceFaulted ServiceControl.faulted
  cases s.service.quiesce with
  | none => rfl
  | some q => exact State.foldl_finish (α := Waiter) _ _ _ (fun _ => .blank) q.waiters _

theorem State.faultAll_faultQuiesce (s : State) (xs : List (PortId × Byte × Result)) : (s.faultAll xs).faultQuiesce =
    ({ s with service := s.service.faulted } : State).faultAll (xs ++ s.quiesceFaulted) := by
  have hlist : (s.faultAll xs).quiesceFaulted = s.quiesceFaulted := by
    rw [State.quiesceFaulted, State.faultAll_service]
    rfl
  rw [State.faultQuiesce_eq, hlist, State.faultAll_service, State.faultAll_setService rfl, State.faultAll_append]

/-- The requests that entry to FAULT ends, block by block (R145). -/
def State.workFaulted (s : State) : List (PortId × Byte × Result) :=
  s.jobFaulted ++ (s.sched.waitA.map fun w => (.A, w.tag, .blank)) ++ (s.sched.waitB.map fun w => (.B, w.tag, .blank)) ++
    s.staging.waitersFaulted ++ s.quiesceFaulted

/-- The tables after entry to FAULT, the ports as before. -/
def State.tablesFaulted (s : State) : State :=
  { s with
    link := { s.link with media := .fault, flight := none, deadline := none }
    sched := { s.sched with job := none, waitA := [], waitB := [] }
    staging := { s.takenBack with wtWaiters := [], flushWaiters := [] }
    service := s.service.faulted }

theorem Staging.takeBack_waiters (b : Staging) (i : SlotId) (relocate : Bool) :
    (b.takeBack i relocate).waitersFaulted = b.waitersFaulted := by
  unfold Staging.takeBack
  split <;> rfl

theorem State.takenBack_waiters (s : State) : s.takenBack.waitersFaulted = s.staging.waitersFaulted := by
  unfold State.takenBack
  split
  · exact Staging.takeBack_waiters ..
  all_goals rfl

/-- The work ended, before the notices of R146. -/
def State.workEnded (s : State) : State :=
  (((((s.setMedia .fault).dropOperation.abandonJob).faultWaitList .A).faultWaitList .B).faultBuffer).faultQuiesce

theorem State.workEnded_eq (s : State) : s.workEnded = s.tablesFaulted.faultAll s.workFaulted := by
  have hwaiters := s.takenBack_waiters
  rw [State.workEnded, State.abandonJob_eq, State.faultAll_faultWaitList, State.faultAll_faultWaitList, State.faultAll_faultBuffer,
    State.faultAll_faultQuiesce, State.workFaulted, ← hwaiters]
  rfl

/-! ### What one port sees of it -/

theorem ofPort_own (p : PortId) (xs : List (Byte × Result)) : ofPort p (xs.map fun x => (p, x)) = xs := by
  simp [ofPort, List.filter_map]

theorem ofPort_other (p q : PortId) (hne : q ≠ p) (xs : List (Byte × Result)) : ofPort p (xs.map fun x => (q, x)) = [] := by
  have hnone : (xs.map fun x => (q, x)).filter (·.1 = p) = [] := by
    refine List.filter_eq_nil_iff.mpr fun y hy => ?_
    obtain ⟨x, -, rfl⟩ := List.mem_map.mp hy
    simpa using hne
  rw [ofPort, hnone, List.map_nil]

theorem State.ofPort_wait (s : State) (p : PortId) :
    ofPort p (s.sched.waitA.map fun w => (.A, w.tag, .blank)) ++ ofPort p (s.sched.waitB.map fun w => (.B, w.tag, .blank)) =
      (s.sched.wait p).map fun w => (w.tag, .blank) := by
  have hlist (q : PortId) (ws : List WaitingRead) : (ws.map fun w => (q, w.tag, Result.blank)) =
      (ws.map fun w => (w.tag, Result.blank)).map fun x => (q, x) := by simp
  rw [hlist, hlist]
  cases p with
  | A => rw [ofPort_own, ofPort_other .A .B (by decide), List.append_nil]; rfl
  | B => rw [ofPort_own, ofPort_other .B .A (by decide), List.nil_append]; rfl

theorem State.ofPort_jobFaulted (s : State) (p : PortId) : ofPort p s.jobFaulted = (match s.sched.job with
    | some (.read j) => if j.port = p ∧ j.detached = false then [(j.read.tag, Result.blank)] else []
    | _ => []) := by
  unfold State.jobFaulted
  cases s.sched.job with
  | none => rfl
  | some j =>
    cases j with
    | read j => cases hd : j.detached <;> by_cases hp : j.port = p <;> simp [ofPort, hd, hp]
    | flush | checkpoint | identify => rfl

theorem State.ofPort_workFaulted (s : State) (p : PortId) : ofPort p s.workFaulted = s.endedByFault p := by
  simp only [State.workFaulted, ofPort_append, Staging.waitersFaulted, List.append_assoc]
  rw [← List.append_assoc (ofPort p (s.sched.waitA.map _)), s.ofPort_wait, s.ofPort_jobFaulted, ofPort_map (α := WtWaiter),
    ofPort_map (α := FlushWaiter)]
  have hquiesce : ofPort p s.quiesceFaulted = (match s.service.quiesce with
      | some q => (q.waiters.filter fun w => w.port = p ∧ w.detached = false).map fun w => (w.tag, Result.blank)
      | none => []) := by
    unfold State.quiesceFaulted
    cases s.service.quiesce with
    | none => rfl
    | some q => exact ofPort_map (α := Waiter) p _ _ _ (fun _ => .blank) q.waiters
  rw [hquiesce, State.endedByFault]
  simp only [List.append_assoc] <;> rfl

/-! ### Entry to FAULT (R145, R146, R161) -/

/-- The work ended and MEDIA (FAULT) offered. -/
def State.faultTold (s : State) : State := (s.tablesFaulted.faultAll s.workFaulted).offerBoth .mediaFault

theorem State.enterFault_of_checkpoint {s : State} {c : CheckpointJob} (hjob : s.sched.job = some (.checkpoint c)) :
    s.enterFault = s.faultTold.checkpointFailed true c.generation := by
  rw [State.faultTold, ← s.workEnded_eq, State.enterFault, hjob]
  rfl

theorem State.enterFault_of_other {s : State} (h : ∀ c, s.sched.job ≠ some (.checkpoint c)) : s.enterFault = s.faultTold := by
  rw [State.faultTold, ← s.workEnded_eq, State.enterFault]
  cases hjob : s.sched.job with
  | none => rfl
  | some j =>
    cases j with
    | checkpoint c => exact absurd hjob (h c)
    | read | flush | identify => rfl

theorem State.faultTold_tables (s : State) : s.faultTold.link = s.tablesFaulted.link ∧ s.faultTold.sched = s.tablesFaulted.sched ∧
    s.faultTold.staging = s.tablesFaulted.staging ∧ s.faultTold.service = s.tablesFaulted.service ∧
    s.faultTold.blockMap = s.blockMap ∧ s.faultTold.regions = s.regions ∧ s.faultTold.agree = s.agree ∧
    s.faultTold.store = s.store := by
  rw [State.faultTold, State.faultAll_eq]
  exact ⟨rfl, rfl, rfl, rfl, rfl, rfl, rfl, rfl⟩

theorem State.offerBoth_port (s : State) (n : Notice) (p : PortId) : (s.offerBoth n).port p = (s.port p).acceptNotice n := by
  cases p <;> rfl

theorem State.faultTold_port (s : State) (p : PortId) :
    s.faultTold.port p = ((s.port p).faultAll (s.base p) (s.endedByFault p)).acceptNotice .mediaFault := by
  have hbase : s.tablesFaulted.base p = s.base p := by cases p <;> rfl
  have hport : s.tablesFaulted.port p = s.port p := by cases p <;> rfl
  rw [State.faultTold, State.offerBoth_port, State.faultAll_port, s.ofPort_workFaulted, hbase, hport]

theorem State.checkpointFailed_port (s : State) (again : Bool) (generation : Nat) (p : PortId) :
    (s.checkpointFailed again generation).port p = (s.port p).acceptNotice (.checkpointFailed generation) := by
  cases p <;> rfl

theorem State.enterFault_tables (s : State) : s.enterFault.link = s.tablesFaulted.link ∧
    s.enterFault.sched = s.tablesFaulted.sched ∧ s.enterFault.staging = s.tablesFaulted.staging ∧
    s.enterFault.service = s.tablesFaulted.service ∧ s.enterFault.blockMap = s.blockMap ∧ s.enterFault.regions = s.regions ∧
    s.enterFault.agree = s.agree := by
  obtain ⟨hlink, hsched, hstaging, hservice, hblockMap, hregions, hagree, -⟩ := s.faultTold_tables
  by_cases hcheckpoint : ∃ c, s.sched.job = some (.checkpoint c)
  · obtain ⟨c, hjob⟩ := hcheckpoint
    rw [State.enterFault_of_checkpoint hjob]
    exact ⟨hlink, hsched, hstaging, hservice, hblockMap, hregions, hagree⟩
  · rw [State.enterFault_of_other (not_exists.mp hcheckpoint)]
    exact ⟨hlink, hsched, hstaging, hservice, hblockMap, hregions, hagree⟩

theorem State.enterFault_port_of_other {s : State} (h : ∀ c, s.sched.job ≠ some (.checkpoint c)) (p : PortId) :
    s.enterFault.port p = ((s.port p).faultAll (s.base p) (s.endedByFault p)).acceptNotice .mediaFault := by
  rw [State.enterFault_of_other h, s.faultTold_port]

theorem State.enterFault_store_of_other {s : State} (h : ∀ c, s.sched.job ≠ some (.checkpoint c)) : s.enterFault.store = s.store := by
  obtain ⟨-, -, -, -, -, -, -, hstore⟩ := s.faultTold_tables
  rw [State.enterFault_of_other h, hstore]

section
variable {s : State} {c : CheckpointJob} (hjob : s.sched.job = some (.checkpoint c))
include hjob

theorem State.enterFault_port_of_checkpoint (p : PortId) : s.enterFault.port p =
    (((s.port p).faultAll (s.base p) (s.endedByFault p)).acceptNotice .mediaFault).acceptNotice (.checkpointFailed c.generation) := by
  rw [State.enterFault_of_checkpoint hjob, State.checkpointFailed_port, s.faultTold_port]

theorem State.enterFault_store_of_checkpoint :
    s.enterFault.store = { s.store with lastResult := .failed, checkpointPending := true } := by
  obtain ⟨-, -, -, -, -, -, -, hstore⟩ := s.faultTold_tables
  rw [State.enterFault_of_checkpoint hjob, ← hstore]
  rfl

end

/-- Settles O55: the tables by `State.tablesFaulted`, the store and the ports by whether the job was a checkpoint. -/
theorem entryToFaultEndsTheWork : Obligations.EntryToFaultEndsTheWork := by
  intro s t
  obtain ⟨hlink, hsched, hstaging, hservice, hblockMap, hregions, hagree⟩ := s.enterFault_tables
  refine ⟨hlink, hsched, hstaging.trans ?staging, ?store, hservice, hblockMap, hregions, hagree, fun p => ?port⟩
  case staging =>
    change { s.takenBack with wtWaiters := [], flushWaiters := [] } = _
    unfold State.takenBack
    cases s.sched.job with
    | none => rfl
    | some j =>
      cases j with
      | read | checkpoint | identify => rfl
      | flush j =>
        have hslot : s.staging.slots[j.slot] = s.slot j.slot := rfl
        simp only [Staging.takeBack, hslot]
        cases s.slot j.slot <;> rfl
  case store =>
    cases hjob : s.sched.job with
    | none => exact State.enterFault_store_of_other (by simp [hjob])
    | some j =>
      cases j with
      | checkpoint c => exact State.enterFault_store_of_checkpoint hjob
      | read | flush | identify => exact State.enterFault_store_of_other (by simp [hjob])
  case port =>
    cases hjob : s.sched.job with
    | none => exact State.enterFault_port_of_other (by simp [hjob]) p
    | some j =>
      cases j with
      | checkpoint c => exact State.enterFault_port_of_checkpoint hjob p
      | read | flush | identify => exact State.enterFault_port_of_other (by simp [hjob]) p

end Sys2Proof.Machine
end

section
/-! PROOFS. Frames that join the response queue (R53, R61 to R66). -/

namespace Sys2Proof.Machine

/-! ### A notice (R65, R66) -/

theorem PortUnit.noticeCount_eq (u : PortUnit) : u.noticeCount = (u.queue.filter Frame.isNotice).length :=
  List.countP_eq_length_filter

theorem State.setPort_self (s : State) (p : PortId) : s.setPort p (s.port p) = s := by cases p <;> rfl

theorem State.offer_eq (s : State) (p : PortId) (n : Notice) : s.offer p n = s.setPort p ((s.port p).acceptNotice n) := rfl

section
variable {u : PortUnit} (n : Notice)

theorem PortUnit.acceptNotice_offline (h : u.online = false) : u.acceptNotice n = u := if_pos (by simp [h])

theorem PortUnit.acceptNotice_placed (h : u.online = true) (hroom : u.noticeCount < 4) :
    u.acceptNotice n = { u with queue := u.queue ++ [.notice n u.gapPending], gapPending := false } := by
  rw [PortUnit.acceptNotice, if_neg (by simp [h]), if_pos (show u.noticeCount < Config.noticeRoom from hroom)]

theorem PortUnit.acceptNotice_dropped (h : u.online = true) (hfull : 4 ≤ u.noticeCount) : u.acceptNotice n =
    { u with flags := { u.flags with noticesLost := true }, gapPending := true, receiver := u.receiver.keepNoticesLost } := by
  rw [PortUnit.acceptNotice, if_neg (by simp [h]), if_neg (show ¬u.noticeCount < Config.noticeRoom from Nat.not_lt.mpr hfull)]

end

/-! ### A completion (R62 to R64) -/

theorem Record.isOpen_iff (tag : Byte) (x : Record) : x.isOpen tag = true ↔ x.tag = tag ∧ x.state ≠ .complete := by
  simp [Record.isOpen]

/-- What is done to the open records of a tag. -/
theorem Record.map_open (tag : Byte) (f : Record → Record) (xs : List Record) : (xs.map fun x => if x.isOpen tag then f x else x) =
    xs.map fun x => if x.tag = tag ∧ x.state ≠ .complete then f x else x :=
  List.map_congr_left fun x _ => if_congr (x.isOpen_iff tag) rfl rfl

/-- A completion stands behind the earlier ones of its event, before the later ones and the notices. -/
theorem insertCompletion_between (u : PortUnit) (c : Completion) (first second : List Completion) (notices : List (Notice × Bool))
    (hfirst : ∀ d ∈ first, u.arrival d.tag ≤ u.arrival c.tag) (hsecond : ∀ d ∈ second, u.arrival c.tag < u.arrival d.tag) :
    insertCompletion u c ((first ++ second).map .completion ++ notices.map fun n => .notice n.1 n.2) =
      (first ++ c :: second).map .completion ++ notices.map fun n => .notice n.1 n.2 := by
  induction first with
  | nil =>
    cases second with
    | nil => cases notices <;> rfl
    | cons d second => exact if_neg (Nat.not_le.mpr (hsecond d List.mem_cons_self))
  | cons d first ih =>
    refine (if_pos (hfirst d List.mem_cons_self)).trans (congrArg _ ?_)
    exact ih fun e he => hfirst e (List.mem_cons_of_mem _ he)

theorem PortUnit.complete_open (u : PortUnit) (base : Nat) (st : Status) (res : Result) {r : Record}
    (hfind : u.requests.find? (Record.isOpen r.tag) = some r) : u.complete base r.tag st res =
      { u with
        requests := u.requests.map fun q => if q.isOpen r.tag then q.finished else q
        queue := u.queue.take base ++ insertCompletion u ⟨r.tag, requestCode r.request, st, res⟩ (u.queue.drop base) } := by
  rw [PortUnit.complete, hfind]

theorem PortUnit.complete_closed (u : PortUnit) (base : Nat) (tag : Byte) (st : Status) (res : Result)
    (h : ∀ r ∈ u.requests, r.tag = tag → r.state = .complete) : u.complete base tag st res = u := by
  have hnone : u.requests.find? (Record.isOpen tag) = none :=
    List.find?_eq_none.mpr fun r hr hopen => ((r.isOpen_iff tag).mp hopen).2 (h r hr ((r.isOpen_iff tag).mp hopen).1)
  rw [PortUnit.complete, hnone]

/-- Settles O57: a notice by ONLINE and room; a completion goes after the completions of its event. -/
theorem framesJoinTheQueueInOrder : Obligations.FramesJoinTheQueueInOrder := by
  refine ⟨fun s p n => ?notice, fun u r st res older first second notices hfind hqueue hfirst hsecond => ?completion,
    fun u base tag st res => u.complete_closed base tag st res, fun s p tag st res => ⟨rfl, s.base_openEvent p⟩,
    fun s p tag st => ?marked⟩
  case notice =>
    simp only [← PortUnit.noticeCount_eq, s.offer_eq]
    refine ⟨fun hoff => ?_, fun hon hroom => ?_, fun hon hfull => ?_⟩
    · rw [PortUnit.acceptNotice_offline n hoff, s.setPort_self]
    · rw [PortUnit.acceptNotice_placed n hon hroom]
    · rw [PortUnit.acceptNotice_dropped n hon hfull]
  case completion =>
    have holder : u.queue.take older.length = older := by rw [hqueue, List.append_assoc, List.take_left]
    have hevent : u.queue.drop older.length =
        (first ++ second).map .completion ++ notices.map fun n => .notice n.1 n.2 := by
      rw [hqueue, List.append_assoc, List.drop_left]
    rw [u.complete_open older.length st res hfind, Record.map_open, holder, hevent,
      insertCompletion_between u ⟨r.tag, requestCode r.request, st, res⟩ first second notices hfirst hsecond, ← List.append_assoc]
    rfl
  case marked =>
    refine ⟨?_, ?_⟩
    · rw [State.setRecord, State.updPort, Record.map_open]
    · rw [State.startRecord, State.updPort, Record.map_open]

end Sys2Proof.Machine
end

section
/-! PROOFS. The output pins (R175, R180, R182, R185, R192). -/

namespace Sys2Proof.Machine

theorem bitsOfBytes_append (xs ys : List Byte) : bitsOfBytes (xs ++ ys) = bitsOfBytes xs ++ bitsOfBytes ys := List.flatMap_append

/-! ### One clock of a frame (R180, R182) -/

theorem shiftOut_one (bytes : List Byte) (position : Nat) :
    shiftOut bytes position 1 = [((bitsOfBytes bytes)[position]?).getD false] := by
  unfold shiftOut
  by_cases h : position < (bitsOfBytes bytes).length
  · have hleft : 1 - ((bitsOfBytes bytes).length - position) = 0 := by omega
    rw [hleft, List.drop_eq_getElem_cons h, List.getElem?_eq_getElem h]
    rfl
  · have hover : 1 - ((bitsOfBytes bytes).length - position) = 1 := by omega
    rw [hover, List.drop_eq_nil_of_le (Nat.not_lt.mp h), List.getElem?_eq_none (Nat.not_lt.mp h)]
    rfl

/-! ### The record of SDO (log 11) -/

section
variable (s : State) (p : PortId)

theorem State.addSdo_port (bits : List Bool) :
    (s.addSdo p bits).port p = { s.port p with sdo := (s.port p).sdo ++ bits } := s.updPort_port p _

theorem State.setReceiver_port (r : Receiver) : (s.setReceiver p r).port p = { s.port p with receiver := r } := s.updPort_port p _

theorem PortUnit.removeHead_sdo (u : PortUnit) : u.removeHead.sdo = u.sdo := by
  unfold PortUnit.removeHead
  split <;> rfl

theorem State.lowerBase_port (q : PortId) : (s.lowerBase q).port p = s.port p := by cases q <;> cases p <;> rfl

theorem State.clockFetch_sdo (frame : List Byte) (queued : Bool) (position count : Nat) :
    ((s.clockFetch p frame queued position count).port p).sdo = (s.port p).sdo ++ shiftOut frame position count := by
  unfold State.clockFetch
  dsimp only
  split
  · rw [State.lowerBase_port, State.updPort_port, PortUnit.removeHead_sdo, State.setReceiver_port, State.addSdo_port]
  · rw [State.setReceiver_port, State.addSdo_port]

theorem State.clockPeek_sdo (bytes : List Byte) (position : Nat) (clear : Sticky) (count : Nat) :
    ((s.clockPeek p bytes position clear count).port p).sdo =
      (s.port p).sdo ++ shiftOut (s.peekTaken p bytes (position + count)) position count := by
  unfold State.clockPeek
  dsimp only
  split
  · rw [State.updPort_port, State.setReceiver_port, State.addSdo_port]
  · rw [State.setReceiver_port, State.addSdo_port]

theorem State.stray_sdo (count : Nat) : ((s.stray p count).port p).sdo =
    (s.port p).sdo ++ (List.range count).map fun k => Config.strayBit (s.choices + k) := by
  cases p <;> rfl

end

/-- The byte that a clock of a PEEK reads is one that has been taken. -/
theorem State.peekTaken_shiftOut (s : State) (p : PortId) (bytes : List Byte) (position : Nat)
    (h : position < 8 * bytes.length ∨ 4 ≤ bytes.length) :
    shiftOut (s.peekTaken p bytes (position + 1)) position 1 = shiftOut bytes position 1 := by
  rw [shiftOut_one, shiftOut_one, State.peekTaken]
  rcases h with hin | hall
  · rw [bitsOfBytes_append, List.getElem?_append_left (by rwa [bitsOfBytes_length])]
  · have hnone : (List.range (min 4 ((position + 1) / 8 + 1))).drop bytes.length = [] :=
      List.drop_eq_nil_of_le (by rw [List.length_range]; exact (Nat.min_le_left _ _).trans hall)
    rw [hnone, List.map_nil, List.append_nil]

/-! ### The level of SDO (R175) -/

section
variable (s : State) {p : PortId}

theorem State.sdoLevel_sending {frame : List Byte} {queued : Bool} {position : Nat}
    (h : (s.port p).receiver = .sending frame queued position) :
    s.sdoLevel p = some (((bitsOfBytes frame)[position]?).getD false) := by
  simp [State.sdoLevel, h, shiftOut_one]

theorem State.sdoLevel_peeking {bytes : List Byte} {position : Nat} {clear : Sticky}
    (h : (s.port p).receiver = .peeking bytes position clear) :
    s.sdoLevel p = some (((bitsOfBytes bytes)[position]?).getD false) := by
  simp [State.sdoLevel, h, shiftOut_one]

/-- A clock reads the level that SDO has. -/
theorem State.clockData_sdo (b level : Bool) (hlevel : s.sdoLevel p = some level) (htyping : ∀ bits, (s.port p).receiver ≠ .typing bits)
    (hpeek : ∀ bytes position clear, (s.port p).receiver = .peeking bytes position clear →
      position < 8 * bytes.length ∨ 4 ≤ bytes.length) :
    ((s.clockData p [b]).port p).sdo = (s.port p).sdo ++ [level] := by
  cases hr : (s.port p).receiver with
  | idle => simp [State.sdoLevel, hr] at hlevel
  | typing bits => exact absurd hr (htyping bits)
  | receiving bits =>
    obtain rfl : false = level := by simpa [State.sdoLevel, hr] using hlevel
    simp only [State.clockData, hr, State.setReceiver_port, State.addSdo_port]
    rfl
  | sending frame queued position =>
    rw [s.sdoLevel_sending hr, Option.some.injEq] at hlevel
    simp only [State.clockData, hr, State.clockFetch_sdo, List.length_singleton, shiftOut_one, hlevel]
  | peeking bytes position clear =>
    rw [s.sdoLevel_peeking hr, Option.some.injEq] at hlevel
    simp only [State.clockData, hr, State.clockPeek_sdo, List.length_singleton,
      s.peekTaken_shiftOut p bytes position (hpeek _ _ _ hr), shiftOut_one, hlevel]
  | resetArmed =>
    obtain rfl : Config.strayBit s.choices = level := by simpa [State.sdoLevel, hr] using hlevel
    simp only [State.clockData, hr, List.isEmpty_cons, Bool.false_eq_true, if_false, State.setReceiver_port, State.stray_sdo]
    rfl
  | ignoring why =>
    cases why with
    | unknownType =>
      obtain rfl : false = level := by simpa [State.sdoLevel, hr] using hlevel
      simp only [State.clockData, hr, State.clockIgnored, State.addSdo_port]
      rfl
    | clockedReset | sinceColdReset =>
      obtain rfl : Config.strayBit s.choices = level := by simpa [State.sdoLevel, hr] using hlevel
      simp only [State.clockData, hr, State.clockIgnored, State.stray_sdo]
      rfl

end

theorem PortUnit.attention_iff (u : PortUnit) : u.attention = true ↔ u.queue ≠ [] := by simp [PortUnit.attention]

/-- Settles O33: the pins by RESET#, the level of SDO by the state of the receiver. -/
theorem outputsFollowTheState : Obligations.OutputsFollowTheState := by
  refine ⟨fun s hlow => if_pos hlow, fun s hhigh => ?high, fun s p => ⟨fun h => ?idle, fun bits h => ?silent,
    fun frame queued position h => ?sending, fun bytes position clear h => ?peeking, fun b level => s.clockData_sdo b level⟩⟩
  case high =>
    have hpins : s.pins = ⟨s.sdoLevel .A, s.sdoLevel .B, s.portA.attention, s.portB.attention, true, Config.idleClock⟩ :=
      if_neg (by simp [hhigh])
    rw [hpins]
    exact ⟨s.portA.attention_iff, s.portB.attention_iff, rfl, rfl, rfl⟩
  case idle => simp [State.sdoLevel, h]
  case silent => rcases h with h | h | h <;> simp [State.sdoLevel, h]
  case sending =>
    rw [s.sdoLevel_sending h]
    exact ⟨fun bit hbit => by rw [hbit]; rfl, fun hnone => by rw [hnone]; rfl⟩
  case peeking =>
    rw [s.sdoLevel_peeking h]
    exact ⟨fun bit hbit => by rw [hbit]; rfl, fun hnone => by rw [hnone]; rfl⟩

end Sys2Proof.Machine
end

section
/-! PROOFS. Request frames (R175, R177, R178, R186) and the transactions that carry them or damaged ones (R176, R183). -/

namespace Sys2Proof.Machine

/-! ### A request frame read back (R177, R186) -/

/-- Header and payload of a request, without the CRC. -/
def requestBody (tag : Byte) (q : Request) : List Byte := headerOfRequest tag q ++ payloadOfRequest q

theorem requestFrame_eq (tag : Byte) (q : Request) : requestFrame tag q = requestBody tag q ++ crc16Bytes (requestBody tag q) := rfl

theorem payloadOfRequest_length (tag : Byte) (q : Request) (h : keptWhole q = true) : (payloadOfRequest q).length =
    payloadLength ((headerOfRequest tag q).getD 0 0) ((headerOfRequest tag q).getD 3 0) := by
  cases q with
  | write r c o d =>
    simp only [keptWhole, Bool.and_eq_true, decide_eq_true_eq] at h
    exact h.2
  | unknown c =>
    have hcode : c ≠ 0x11 := by
      rintro rfl
      exact absurd h (by decide)
    exact (if_neg hcode).symm
  | _ => rfl

theorem requestBody_length (tag : Byte) (q : Request) (h : keptWhole q = true) : (requestBody tag q).length + 2 = frameLength q := by
  rw [requestBody, List.length_append, headerOfRequest_length]
  cases q with
  | write r c o d =>
    simp only [keptWhole, Bool.and_eq_true, decide_eq_true_eq] at h
    have hlength : (payloadOfRequest (.write r c o d)).length = Config.blockSize * c.toNat := h.2
    rw [hlength, frameLength]
    omega
  | _ => rfl

theorem requestFrame_length (tag : Byte) (q : Request) (h : keptWhole q = true) : (requestFrame tag q).length = frameLength q := by
  rw [requestFrame_eq, List.length_append, crc16Bytes_length, requestBody_length tag q h]

/-- The bytes of a frame that a SUBMIT looks at stand in the header. -/
theorem requestFrame_getD (tag : Byte) (q : Request) (i : Nat) (hi : i < 16) :
    (requestFrame tag q).getD i 0 = (headerOfRequest tag q).getD i 0 := by
  have hlt : i < (headerOfRequest tag q).length := by rwa [headerOfRequest_length]
  rw [requestFrame_eq, requestBody, List.append_assoc, List.getD_append _ _ _ _ hlt]

theorem submitVerdict_requestFrame (tag : Byte) (q : Request) (h : keptWhole q = true) :
    submitVerdict (bitsOfBytes (requestFrame tag q)) = some (tag, q) := by
  have hbody : 16 + payloadLength ((requestFrame tag q).getD 0 0) ((requestFrame tag q).getD 3 0) = (requestBody tag q).length := by
    rw [requestFrame_getD tag q 0 (by decide), requestFrame_getD tag q 3 (by decide), ← payloadOfRequest_length tag q h, requestBody,
      List.length_append, headerOfRequest_length]
  have hlength : (requestFrame tag q).length = (requestBody tag q).length + 2 := by
    rw [requestFrame_length tag q h, requestBody_length tag q h]
  have hlong : ¬(requestFrame tag q).length < 16 := by omega
  have hdrop : (requestFrame tag q).drop (requestBody tag q).length = crc16Bytes (requestBody tag q) := List.drop_left
  have htake : (requestFrame tag q).take (requestBody tag q).length = requestBody tag q := List.take_left
  have hheader : (requestFrame tag q).take 16 = headerOfRequest tag q := by
    rw [requestFrame_eq, requestBody, List.append_assoc, ← headerOfRequest_length tag q, List.take_left]
  have hpayload : (requestBody tag q).drop 16 = payloadOfRequest q := by
    rw [requestBody, ← headerOfRequest_length tag q, List.drop_left]
  simp only [submitVerdict, bytesOfBits_bitsOfBytes, bitsOfBytes_length, hbody, hdrop, htake]
  rw [if_neg hlong, if_neg (by omega), if_neg (not_not.mpr rfl), hheader, hpayload, requestOfHeader_back tag q h,
    requestFrame_getD tag q 1 (by decide), headerOfRequest_tag]

/-- Settles O27: the verdict undoes the frame code by code. -/
theorem requestFramesReadBack : Obligations.RequestFramesReadBack :=
  fun tag q h => ⟨submitVerdict_requestFrame tag q h, requestFrame_length tag q h⟩

end Sys2Proof.Machine
end

section
/-! PROOFS. Transactions on a port's wires, portion by portion (R175 to R178, R183, log 10). -/

namespace Sys2Proof.Machine

/-- SDO is 0 for this many clocks. -/
abbrev low (n : Nat) : List Bool := List.replicate n false

/-- The end of a portion: SEL# rises, or the transaction stays open (log 10). -/
def State.closing (s : State) (p : PortId) (closes : Bool) : State := if closes then s.selectRises p else s

/-! ### The rows -/

theorem State.transact_continues (s : State) (p : PortId) (b : Byte) (sdi : List Bool) (closes : Bool) :
    s.transact p b { opens := false, sdi := sdi, closes := closes } = (s.clockData p sdi).closing p closes := rfl

theorem State.transact_opens (s : State) (p : PortId) (b : Byte) (sdi : List Bool) (closes : Bool) (h : (s.port p).receiver = .idle) :
    s.transact p b { opens := true, sdi := sdi, closes := closes } =
      ((s.typeByteSampled p b).clockData p sdi).closing p closes := by
  simp [State.transact, State.closeOpen, h, State.closing]

section
variable {s : State} (h : Settled s) (p : PortId) (io : Portion)
include h

theorem exec_fetch : exec (.fetch p io) s = .next (s.openEvent.transact p 0xB2 io) :=
  congrArg Host.Outcome.next (s.fromOutside_quiet _ h.1 h.2)

theorem exec_peek : exec (.peek p io) s = .next (s.openEvent.transact p 0xB3 io) :=
  congrArg Host.Outcome.next (s.fromOutside_quiet _ h.1 h.2)

theorem exec_clockedPortReset : exec (.clockedPortReset p io) s = .next (s.openEvent.transact p 0xB4 io) :=
  congrArg Host.Outcome.next (s.fromOutside_quiet _ h.1 h.2)

theorem exec_submitFrameDiscarded : exec (.submitFrameDiscarded p io) s = .next (s.openEvent.transact p 0xB1 io) :=
  congrArg Host.Outcome.next (s.fromOutside_quiet _ h.1 h.2)

theorem exec_unknownTypeByte (b : Byte) : exec (.unknownTypeByte p b io) s = .next (s.openEvent.transact p b io) :=
  congrArg Host.Outcome.next (s.fromOutside_quiet _ h.1 h.2)

theorem exec_truncatedTypeByte (bits : List Bool) : exec (.truncatedTypeByte p bits) s = .next (s.openEvent.transactBits p bits) :=
  congrArg Host.Outcome.next (s.fromOutside_quiet _ h.1 h.2)

theorem exec_portReset : exec (.portReset p) s = .next (s.openEvent.transact p 0xB4 { opens := true, sdi := [], closes := true }) :=
  congrArg Host.Outcome.next (s.fromOutside_quiet _ h.1 h.2)

end

/-! ### The type byte (R175, R176) -/

section
variable (s : State) (p : PortId)

theorem State.updPort_eq (f : PortUnit → PortUnit) : s.updPort p f = s.setPort p (f (s.port p)) := rfl

theorem State.typeByteSampled_submit :
    s.typeByteSampled p 0xB1 = s.setPort p { s.port p with receiver := .receiving [], sdo := low 8 } := by
  cases p <;> rfl

theorem State.typeByteSampled_fetch : s.typeByteSampled p 0xB2 = s.setPort p { s.port p with
    receiver := .sending (s.port p).chosenFrame (!(s.port p).queue.isEmpty) 0, sdo := low 8 } := by
  cases p <;> rfl

theorem State.typeByteSampled_peek : s.typeByteSampled p 0xB3 = s.setPort p { s.port p with
    receiver := .peeking (s.peekTaken p [] 0) 0 Sticky.clear, sdo := low 8 } := by
  cases p <;> rfl

theorem State.typeByteSampled_reset :
    s.typeByteSampled p 0xB4 = s.setPort p { s.port p with receiver := .resetArmed, sdo := low 8 } := by
  cases p <;> rfl

theorem State.typeByteSampled_unknown {b : Byte} (h : b ∉ ([0xB1, 0xB2, 0xB3, 0xB4] : List Byte)) :
    s.typeByteSampled p b = s.setPort p { s.port p with
      receiver := .ignoring .unknownType, flags := { (s.port p).flags with frameError := true }, sdo := low 8 } := by
  simp only [List.mem_cons, List.not_mem_nil, or_false, not_or] at h
  obtain ⟨hsubmit, hfetch, hpeek, hreset⟩ := h
  simp only [State.typeByteSampled, if_neg hsubmit, if_neg hfetch, if_neg hpeek, if_neg hreset]
  cases p <;> rfl

end

/-! ### A portion in each state of the receiver -/

section
variable {s : State} {p : PortId} (sdi : List Bool) (closes : Bool)

theorem State.closing_of_open (t : State) : t.closing p false = t := rfl

/-- After an unknown type byte the rest is ignored, SDO at 0. -/
theorem State.portion_unknownType (h : (s.port p).receiver = .ignoring .unknownType) :
    (s.clockData p sdi).closing p closes = s.setPort p { s.port p with
      receiver := if closes then .idle else .ignoring .unknownType, sdo := (s.port p).sdo ++ low sdi.length } := by
  have hclocked : s.clockData p sdi = s.addSdo p (low sdi.length) := by
    simp only [State.clockData, h]
    rfl
  rw [hclocked, State.addSdo, State.updPort_eq]
  cases closes with
  | false => rw [State.closing_of_open, if_neg Bool.false_ne_true, ← h]
  | true =>
    simp only [State.closing, State.selectRises, State.setPort_port, h, State.setReceiver, State.updPort_eq, State.setPort_setPort]
    rfl

/-- A SUBMIT frame goes on. -/
theorem State.portion_receiving_open {bits : List Bool} (h : (s.port p).receiver = .receiving bits) :
    (s.clockData p sdi).closing p false = s.setPort p { s.port p with
      receiver := .receiving (bits ++ sdi), sdo := (s.port p).sdo ++ low sdi.length } := by
  simp only [State.closing_of_open, State.clockData, h, State.addSdo, State.setReceiver, State.updPort_eq, State.setPort_port,
    State.setPort_setPort]

/-- A SUBMIT frame ends, and is judged. -/
theorem State.portion_receiving_closed {bits : List Bool} (h : (s.port p).receiver = .receiving bits) :
    (s.clockData p sdi).closing p true = (s.setPort p { s.port p with
      receiver := .idle, sdo := (s.port p).sdo ++ low sdi.length }).judgeFrame p (bits ++ sdi) := by
  simp only [State.closing, if_true, State.clockData, h, State.selectRises, State.addSdo, State.setReceiver, State.updPort_eq,
    State.setPort_port, State.setPort_setPort]

/-- The free values that SDO takes at clocks for which R175 gives it none (log 11). -/
def State.strays (s : State) (n : Nat) : List Bool := (List.range n).map fun k => Config.strayBit (s.choices + k)

theorem State.strays_length (s : State) (n : Nat) : (s.strays n).length = n := by simp [State.strays]

/-- SEL# rises after a clocked PORT RESET. -/
theorem State.closing_clockedReset (h : (s.port p).receiver = .ignoring .clockedReset) : s.closing p closes =
    s.setPort p { s.port p with
      receiver := if closes then .idle else .ignoring .clockedReset
      flags := { (s.port p).flags with frameError := (s.port p).flags.frameError || closes } } := by
  cases closes with
  | false => rw [State.closing_of_open, if_neg Bool.false_ne_true, ← h, Bool.or_false, s.setPort_self]
  | true =>
    simp only [State.closing, if_true, State.selectRises, h, State.setReceiver, State.updPort_eq, State.setPort_port,
      State.setPort_setPort, Bool.or_true, PortUnit.setFrameError]

/-- SEL# rises at the end of a transaction in which cold reset ended. -/
theorem State.closing_sinceColdReset (h : (s.port p).receiver = .ignoring .sinceColdReset) : s.closing p closes =
    s.setPort p { s.port p with receiver := if closes then .idle else .ignoring .sinceColdReset } := by
  cases closes with
  | false => rw [State.closing_of_open, if_neg Bool.false_ne_true, ← h, s.setPort_self]
  | true =>
    simp only [State.closing, if_true, State.selectRises, h, State.setReceiver, State.updPort_eq]

/-- After clocks at which SDO takes free values. -/
def State.strayed (s : State) (p : PortId) (r : Receiver) (n : Nat) : State :=
  { s.setPort p { s.port p with receiver := r, sdo := (s.port p).sdo ++ s.strays n } with choices := s.choices + n }

theorem State.strayed_port (r : Receiver) (n : Nat) :
    (s.strayed p r n).port p = { s.port p with receiver := r, sdo := (s.port p).sdo ++ s.strays n } := by
  cases p <;> rfl

theorem State.stray_eq {r : Receiver} (h : (s.port p).receiver = r) (n : Nat) : s.stray p n = s.strayed p r n := by
  rw [State.strayed, ← h]
  rfl

theorem State.clockData_stray {r : Receiver} (h : (s.port p).receiver = r)
    (hr : r = .ignoring .clockedReset ∨ r = .ignoring .sinceColdReset) : s.clockData p sdi = s.strayed p r sdi.length := by
  rw [← State.stray_eq h]
  rcases hr with rfl | rfl <;> simp only [State.clockData, h, State.clockIgnored]

theorem State.clockData_resetArmed (h : (s.port p).receiver = .resetArmed) (hsdi : sdi ≠ []) :
    s.clockData p sdi = s.strayed p (.ignoring .clockedReset) sdi.length := by
  have hclocked : s.clockData p sdi = (s.stray p sdi.length).setReceiver p (.ignoring .clockedReset) := by
    simp [State.clockData, h, hsdi]
  rw [hclocked]
  cases p <;> rfl

/-- A PORT RESET that is clocked: its clocks read free values, and SEL# rising sets the frame-error flag. -/
theorem State.portion_clockedReset
    (h : (s.port p).receiver = .ignoring .clockedReset ∨ (s.port p).receiver = .resetArmed ∧ sdi ≠ []) :
    (s.clockData p sdi).closing p closes = { s.setPort p { s.port p with
      receiver := if closes then .idle else .ignoring .clockedReset
      flags := { (s.port p).flags with frameError := (s.port p).flags.frameError || closes }
      sdo := (s.port p).sdo ++ s.strays sdi.length } with choices := s.choices + sdi.length } := by
  have hclocked : s.clockData p sdi = s.strayed p (.ignoring .clockedReset) sdi.length := by
    rcases h with h | ⟨h, hsdi⟩
    · exact State.clockData_stray sdi h (.inl rfl)
    · exact State.clockData_resetArmed sdi h hsdi
  rw [hclocked, State.closing_clockedReset closes (by rw [State.strayed_port]), State.strayed_port]
  cases p <;> rfl

/-- The rest of a transaction in which cold reset ended: its clocks read free values, and no flag is set. -/
theorem State.portion_sinceColdReset (h : (s.port p).receiver = .ignoring .sinceColdReset) :
    (s.clockData p sdi).closing p closes = { s.setPort p { s.port p with
      receiver := if closes then .idle else .ignoring .sinceColdReset
      sdo := (s.port p).sdo ++ s.strays sdi.length } with choices := s.choices + sdi.length } := by
  rw [State.clockData_stray sdi h (.inr rfl), State.closing_sinceColdReset closes (by rw [State.strayed_port]), State.strayed_port]
  cases p <;> rfl

end

/-! ### Damaged SUBMIT frames (R178) -/

theorem bytesOfBits_length (bits : List Bool) : (bytesOfBits bits).length = bits.length / 8 := by
  induction bits using bytesOfBits.induct with
  | case1 b7 b6 b5 b4 b3 b2 b1 b0 rest ih =>
    simp only [bytesOfBits, List.length_cons, ih]
    omega
  | case2 bits h =>
    have hshort : bits.length < 8 := by
      match bits, h with
      | [], _ | [_], _ | [_, _], _ | [_, _, _], _ | [_, _, _, _], _ | [_, _, _, _, _], _ | [_, _, _, _, _, _], _
      | [_, _, _, _, _, _, _], _ => simp
      | b7 :: b6 :: b5 :: b4 :: b3 :: b2 :: b1 :: b0 :: rest, h => exact absurd rfl (h b7 b6 b5 b4 b3 b2 b1 b0 rest)
    rw [bytesOfBits.eq_2 bits h, Nat.div_eq_of_lt hshort]
    rfl

/-- A frame is truncated, over-long or fails its CRC. -/
def Damaged (bits : List Bool) : Prop :=
  let bytes := bytesOfBits bits
  let body := 16 + if bytes.getD 0 0 = 0x11 then 512 * (bytes.getD 3 0).toNat else 0
  bits.length < 8 * 16 ∨ bits.length ≠ 8 * (body + 2) ∨ bytes.drop body ≠ crc16Bytes (bytes.take body)

theorem submitVerdict_damaged {bits : List Bool} (h : Damaged bits) : submitVerdict bits = none := by
  unfold submitVerdict
  dsimp only
  by_cases hshort : (bytesOfBits bits).length < 16
  · exact if_pos hshort
  · rw [if_neg hshort]
    by_cases hlength : bits.length ≠ 8 * (16 + payloadLength ((bytesOfBits bits).getD 0 0) ((bytesOfBits bits).getD 3 0) + 2)
    · exact if_pos hlength
    · rw [if_neg hlength]
      have hlong : ¬bits.length < 8 * 16 := by
        rw [bytesOfBits_length] at hshort
        omega
      exact if_pos ((h.resolve_left hlong).resolve_left hlength)

/-- A damaged frame sets the frame-error flag and does nothing else. -/
theorem State.judgeFrame_damaged (s : State) (p : PortId) {bits : List Bool} (h : Damaged bits) :
    s.judgeFrame p bits = s.setPort p (s.port p).setFrameError := by
  rw [State.judgeFrame, submitVerdict_damaged h]
  rfl

/-! ### A type byte that is cut off (R176) -/

theorem State.transactBits_short (s : State) (p : PortId) (h : (s.port p).receiver = .idle) {bits : List Bool}
    (hshort : bits.length < 8) : s.transactBits p bits =
      s.setPort p { s.port p with
        flags := { (s.port p).flags with frameError := (s.port p).flags.frameError || !bits.isEmpty }, sdo := low bits.length } := by
  have hopened : s.openWith p bits = s.setPort p { s.port p with receiver := .typing bits, sdo := low bits.length } := by
    simp only [State.openWith, if_pos hshort, State.silent, State.setReceiver, State.updPort_eq, State.setPort_port,
      State.setPort_setPort]
  have hclosed : s.closeOpen p = s := if_pos h
  rw [State.transactBits, hclosed, hopened, State.selectRises, State.setPort_port]
  cases hbits : bits.isEmpty with
  | true =>
    simp only [hbits, if_true, State.setReceiver, State.updPort_eq, State.setPort_port, State.setPort_setPort, Bool.not_true,
      Bool.or_false, ← h]
  | false =>
    simp only [hbits, Bool.false_eq_true, if_false, State.setReceiver, State.updPort_eq, State.setPort_port, State.setPort_setPort,
      PortUnit.setFrameError, Bool.not_false, Bool.or_true, ← h]

/-! ### Damaged transactions (R175, R176, R178, R183) -/

theorem low_add (m n : Nat) : low m ++ low n = low (m + n) := List.replicate_append_replicate

/-- What a transaction that is not taken leaves at its port: the receiver, the frame-error flag, the record of SDO. -/
def State.wireEnd (s : State) (p : PortId) (r : Receiver) (flag : Bool) (sdo : List Bool) : State :=
  s.openEvent.setPort p { s.port p with
    receiver := r, flags := { (s.port p).flags with frameError := (s.port p).flags.frameError || flag }, sdo := sdo }

section
variable {s : State} {p : PortId} (hs : Settled s) (sdi : List Bool) (closes : Bool)
include hs

section
variable (hidle : (s.port p).receiver = .idle)
include hidle

theorem exec_unknownTypeByte_opens {b : Byte} (hb : b ∉ ([0xB1, 0xB2, 0xB3, 0xB4] : List Byte)) :
    exec (.unknownTypeByte p b { opens := true, sdi := sdi, closes := closes }) s =
      .next (s.wireEnd p (if closes then .idle else .ignoring .unknownType) true (low (8 + sdi.length))) := by
  rw [exec_unknownTypeByte hs, State.transact_opens _ _ _ _ _ (by simpa using hidle), State.typeByteSampled_unknown _ _ hb,
    State.portion_unknownType _ _ (by rw [State.setPort_port])]
  simp only [State.setPort_port, State.setPort_setPort, State.openEvent_port, low_add, State.wireEnd, Bool.or_true]

theorem exec_truncatedTypeByte_short {bits : List Bool} (hshort : bits.length < 8) :
    exec (.truncatedTypeByte p bits) s = .next (s.wireEnd p .idle (!bits.isEmpty) (low bits.length)) := by
  rw [exec_truncatedTypeByte hs, State.transactBits_short _ _ (by simpa using hidle) hshort]
  simp only [State.openEvent_port, State.wireEnd, ← hidle]

theorem exec_clockedPortReset_opens (hsdi : sdi ≠ []) :
    exec (.clockedPortReset p { opens := true, sdi := sdi, closes := closes }) s =
      .next { s.wireEnd p (if closes then .idle else .ignoring .clockedReset) closes (low 8 ++ s.strays sdi.length) with
        choices := s.choices + sdi.length } := by
  have hchoices (u : PortUnit) : (s.openEvent.setPort p u).choices = s.choices := by cases p <;> rfl
  rw [exec_clockedPortReset hs, State.transact_opens _ _ _ _ _ (by simpa using hidle), State.typeByteSampled_reset,
    State.portion_clockedReset _ _ (.inr ⟨by rw [State.setPort_port], hsdi⟩)]
  simp only [State.setPort_port, State.setPort_setPort, State.openEvent_port, State.wireEnd, State.strays, hchoices]

theorem exec_clockedPortReset_armed : exec (.clockedPortReset p { opens := true, sdi := [], closes := false }) s =
    .next (s.wireEnd p .resetArmed false (low 8)) := by
  have hstill : ∀ t : State, (t.port p).receiver = .resetArmed → t.clockData p [] = t := fun t h => by
    simp [State.clockData, h]
  rw [exec_clockedPortReset hs, State.transact_opens _ _ _ _ _ (by simpa using hidle), State.typeByteSampled_reset,
    State.closing_of_open, hstill _ (by rw [State.setPort_port])]
  simp only [State.openEvent_port, State.wireEnd, Bool.or_false]

theorem exec_submitFrame_damaged (hdamaged : Damaged sdi) :
    exec (.submitFrameDiscarded p { opens := true, sdi := sdi, closes := true }) s =
      .next (s.wireEnd p .idle true (low (8 + sdi.length))) := by
  rw [exec_submitFrameDiscarded hs, State.transact_opens _ _ _ _ _ (by simpa using hidle), State.typeByteSampled_submit,
    State.portion_receiving_closed (bits := []) _ (by rw [State.setPort_port]), List.nil_append, State.judgeFrame_damaged _ _ hdamaged]
  simp only [State.setPort_port, State.setPort_setPort, State.openEvent_port, low_add, State.wireEnd, PortUnit.setFrameError,
    Bool.or_true]

end

theorem exec_unknownTypeByte_goesOn (b : Byte) (hwire : (s.port p).receiver = .ignoring .unknownType) :
    exec (.unknownTypeByte p b { opens := false, sdi := sdi, closes := closes }) s =
      .next (s.wireEnd p (if closes then .idle else .ignoring .unknownType) false ((s.port p).sdo ++ low sdi.length)) := by
  rw [exec_unknownTypeByte hs, State.transact_continues, State.portion_unknownType _ _ (by simpa using hwire)]
  simp only [State.openEvent_port, State.wireEnd, Bool.or_false]

theorem exec_clockedPortReset_goesOn
    (hwire : (s.port p).receiver = .ignoring .clockedReset ∨ (s.port p).receiver = .resetArmed ∧ sdi ≠ []) :
    exec (.clockedPortReset p { opens := false, sdi := sdi, closes := closes }) s =
      .next { s.wireEnd p (if closes then .idle else .ignoring .clockedReset) closes ((s.port p).sdo ++ s.strays sdi.length) with
        choices := s.choices + sdi.length } := by
  rw [exec_clockedPortReset hs, State.transact_continues, State.portion_clockedReset _ _ (by simpa using hwire)]
  simp only [State.openEvent_port, State.wireEnd]
  rfl

theorem exec_clockedPortReset_sinceColdReset (hwire : (s.port p).receiver = .ignoring .sinceColdReset) :
    exec (.clockedPortReset p { opens := false, sdi := sdi, closes := closes }) s =
      .next { s.wireEnd p (if closes then .idle else .ignoring .sinceColdReset) false ((s.port p).sdo ++ s.strays sdi.length) with
        choices := s.choices + sdi.length } := by
  rw [exec_clockedPortReset hs, State.transact_continues, State.portion_sinceColdReset _ _ (by simpa using hwire)]
  simp only [State.openEvent_port, State.wireEnd, Bool.or_false]
  rfl

/-- Clocks that go on in a transaction for which R175 gives SDO no value. -/
theorem exec_clockedPortReset_after (hwire : (s.port p).receiver = .ignoring .clockedReset ∨
      (s.port p).receiver = .ignoring .sinceColdReset ∨ (s.port p).receiver = .resetArmed ∧ sdi ≠ []) :
    exec (.clockedPortReset p { opens := false, sdi := sdi, closes := closes }) s =
      .next { s.wireEnd p
          (if closes then .idle else if (s.port p).receiver = .resetArmed then .ignoring .clockedReset else (s.port p).receiver)
          (closes && (s.port p).receiver != .ignoring .sinceColdReset) ((s.port p).sdo ++ s.strays sdi.length) with
        choices := s.choices + sdi.length } := by
  have hclocked : (Receiver.ignoring .clockedReset != .ignoring .sinceColdReset) = true := bne_iff_ne.mpr nofun
  have harmed : (Receiver.resetArmed != .ignoring .sinceColdReset) = true := bne_iff_ne.mpr nofun
  have hsince : (Receiver.ignoring .sinceColdReset != .ignoring .sinceColdReset) = false := by simp
  rcases hwire with hwire | hwire | ⟨hwire, hsdi⟩
  · rw [exec_clockedPortReset_goesOn hs sdi closes (.inl hwire), hwire, hclocked, Bool.and_true, ite_self]
  · rw [exec_clockedPortReset_sinceColdReset hs sdi closes hwire, hwire, hsince, Bool.and_false,
      if_neg (show ¬Receiver.ignoring .sinceColdReset = .resetArmed from nofun)]
  · rw [exec_clockedPortReset_goesOn hs sdi closes (.inr ⟨hwire, hsdi⟩), hwire, harmed, Bool.and_true, if_pos rfl]

theorem exec_submitFrame_damagedOn {bits : List Bool} (hwire : (s.port p).receiver = .receiving bits) (hdamaged : Damaged (bits ++ sdi)) :
    exec (.submitFrameDiscarded p { opens := false, sdi := sdi, closes := true }) s =
      .next (s.wireEnd p .idle true ((s.port p).sdo ++ low sdi.length)) := by
  rw [exec_submitFrameDiscarded hs, State.transact_continues,
    State.portion_receiving_closed (bits := bits) _ (by simpa using hwire), State.judgeFrame_damaged _ _ hdamaged]
  simp only [State.setPort_port, State.setPort_setPort, State.openEvent_port, State.wireEnd, PortUnit.setFrameError, Bool.or_true]

end

/-- Settles O29: each transaction by the state of the receiver, opened by its type byte or going on. -/
theorem damagedTransactionSetsFrameErrorOnly : Obligations.DamagedTransactionSetsFrameErrorOnly := by
  refine ⟨fun s p hs hidle => ⟨fun b sdi closes hb => exec_unknownTypeByte_opens hs sdi closes hidle hb, ?nothing,
      fun bits hone hseven => ?cutOff,
      fun sdi closes hsdi => ⟨s.strays sdi.length, s.strays_length _, exec_clockedPortReset_opens hs sdi closes hidle hsdi⟩,
      ?armed, fun sdi hdamaged => exec_submitFrame_damaged hs sdi hidle hdamaged⟩,
    fun s p sdi closes hs => ⟨fun b hwire => ?unknownOn, fun hwire => ⟨s.strays sdi.length, s.strays_length _, ?clockedOn⟩,
      fun bits hwire hdamaged => exec_submitFrame_damagedOn hs sdi hwire hdamaged⟩⟩
  case nothing =>
    rw [exec_truncatedTypeByte_short hs hidle (by decide), State.wireEnd, List.isEmpty_nil, Bool.not_true, ← hidle, Bool.or_false,
      State.updPort_eq, State.openEvent_port]
    rfl
  case cutOff =>
    have hsome : bits.isEmpty = false := by
      rw [List.isEmpty_eq_false_iff, ← List.length_pos_iff]
      omega
    have hrow := exec_truncatedTypeByte_short hs hidle (show bits.length < 8 by omega)
    rw [hsome, State.wireEnd] at hrow
    exact hrow
  case armed => exact exec_clockedPortReset_armed hs hidle
  case unknownOn =>
    have hrow := exec_unknownTypeByte_goesOn hs sdi closes b hwire
    rw [← hwire] at hrow
    exact hrow
  case clockedOn => exact exec_clockedPortReset_after hs sdi closes hwire

end Sys2Proof.Machine
end

section
/-! PROOFS. SUBMIT frames on the wires (R175, R178) and PORT RESET (R71, R72, R184). -/

namespace Sys2Proof.Machine

/-! ### A port whose receiver alone is different -/

/-- The transaction of the port is over. -/
def State.receiverIdle (s : State) (p : PortId) : State := s.updPort p fun u => { u with receiver := .idle }

theorem State.receiverIdle_owedAt (s : State) (p : PortId) (k : Nat) : (s.receiverIdle p).owedAt k = s.owedAt k := by
  match k with
  | 0 | 1 | 2 | 3 | 4 | 5 | 6 => cases p <;> rfl
  | k + 7 => rfl

theorem State.receiverIdle_settled {s : State} (p : PortId) (h : Settled s) : Settled (s.receiverIdle p) := by
  refine ⟨(s.updPort_resetLow p _).trans h.1, ?_⟩
  have howed : (s.receiverIdle p).owedAt = s.owedAt := funext (s.receiverIdle_owedAt p)
  rw [State.firstOwed, howed]
  exact h.2

theorem State.receiverIdle_openEvent (s : State) (p : PortId) :
    (s.receiverIdle p).openEvent = s.openEvent.setPort p { s.port p with receiver := .idle } := by
  cases p <;> rfl

/-! ### A good SUBMIT frame (R178) -/

theorem State.submit_idle (s : State) (p : PortId) (tag : Byte) (q : Request) (h : (s.port p).receiver = .idle) :
    s.submit p tag q =
      (s.setPort p { s.port p with receiver := .idle, sdo := low (8 * (1 + frameLength q)) }).takeSubmit p tag q := by
  rw [State.submit, State.closeOpen, if_pos h, ← h]
  rfl

theorem State.judgeFrame_good (s : State) (p : PortId) {tag : Byte} {q : Request} (hk : keptWhole q = true) :
    s.judgeFrame p (bitsOfBytes (requestFrame tag q)) = s.takeSubmit p tag q := by
  rw [State.judgeFrame, submitVerdict_requestFrame tag q hk]

theorem frame_clocks {tag : Byte} {q : Request} (hk : keptWhole q = true) :
    8 + (bitsOfBytes (requestFrame tag q)).length = 8 * (1 + frameLength q) := by
  rw [bitsOfBytes_length, requestFrame_length tag q hk]
  omega

section
variable {s : State} {p : PortId} (hs : Settled s)
include hs

theorem exec_rowOf_idle (tag : Byte) {q : Request} (hk : keptWhole q = true) (hidle : (s.port p).receiver = .idle) :
    exec (rowOf p tag q) s = .next ((s.openEvent.setPort p { s.port p with
      receiver := .idle, sdo := low (8 * (1 + frameLength q)) }).takeSubmit p tag q) := by
  rw [exec_rowOf p tag q s hk, s.fromOutside_quiet _ hs.1 hs.2, State.submit_idle _ _ _ _ (by simpa using hidle), State.openEvent_port]

theorem exec_submitFrame_whole (tag : Byte) {q : Request} (hk : keptWhole q = true) (hidle : (s.port p).receiver = .idle) :
    exec (.submitFrameDiscarded p { opens := true, sdi := bitsOfBytes (requestFrame tag q), closes := true }) s =
      exec (rowOf p tag q) s := by
  rw [exec_submitFrameDiscarded hs, State.transact_opens _ _ _ _ _ (by simpa using hidle), State.typeByteSampled_submit,
    State.portion_receiving_closed (bits := []) _ (by rw [State.setPort_port]), List.nil_append, State.judgeFrame_good _ _ hk,
    exec_rowOf_idle hs tag hk hidle]
  simp only [State.setPort_port, State.setPort_setPort, State.openEvent_port, low_add, frame_clocks hk]

theorem exec_submitFrame_opens (sdi : List Bool) (hidle : (s.port p).receiver = .idle) :
    exec (.submitFrameDiscarded p { opens := true, sdi := sdi, closes := false }) s =
      .next (s.openEvent.setPort p { s.port p with receiver := .receiving sdi, sdo := low (8 + sdi.length) }) := by
  rw [exec_submitFrameDiscarded hs, State.transact_opens _ _ _ _ _ (by simpa using hidle), State.typeByteSampled_submit,
    State.portion_receiving_open (bits := []) _ (by rw [State.setPort_port])]
  simp only [State.setPort_port, State.setPort_setPort, State.openEvent_port, low_add, List.nil_append]

section
variable {bits : List Bool} (sdi : List Bool) (hwire : (s.port p).receiver = .receiving bits)
include hwire

theorem exec_submitFrame_goesOn : exec (.submitFrameDiscarded p { opens := false, sdi := sdi, closes := false }) s =
    .next (s.openEvent.setPort p { s.port p with
      receiver := .receiving (bits ++ sdi), sdo := (s.port p).sdo ++ low sdi.length }) := by
  rw [exec_submitFrameDiscarded hs, State.transact_continues, State.portion_receiving_open (bits := bits) _ (by simpa using hwire),
    State.openEvent_port]

theorem exec_submitFrame_ends {tag : Byte} {q : Request} (hk : keptWhole q = true)
    (hframe : bits ++ sdi = bitsOfBytes (requestFrame tag q)) (hsdo : (s.port p).sdo = low (8 + bits.length)) :
    exec (.submitFrameDiscarded p { opens := false, sdi := sdi, closes := true }) s = exec (rowOf p tag q) (s.receiverIdle p) := by
  have hclocks : 8 + bits.length + sdi.length = 8 * (1 + frameLength q) := by
    rw [← frame_clocks (tag := tag) hk, ← hframe, List.length_append, Nat.add_assoc]
  have hport : (s.receiverIdle p).port p = { s.port p with receiver := .idle } := s.updPort_port p _
  rw [exec_submitFrameDiscarded hs, State.transact_continues, State.portion_receiving_closed (bits := bits) _ (by simpa using hwire),
    hframe, State.judgeFrame_good _ _ hk, exec_rowOf_idle (State.receiverIdle_settled p hs) tag hk (by rw [hport]),
    State.receiverIdle_openEvent, State.setPort_setPort, State.openEvent_port, hport, hsdo, low_add, hclocks]

end
end

/-- Settles O28: by the portion: a whole frame, one that opens, goes on or ends. -/
theorem requestRowIsItsFrameOnTheWires : Obligations.RequestRowIsItsFrameOnTheWires := by
  refine ⟨fun _ _ tag _ hk hs hidle => exec_submitFrame_whole hs tag hk hidle, fun _ _ sdi hs hidle => ?opens,
    fun _ _ _ sdi hs hwire => ⟨?goesOn, fun _ _ hk hframe hsdo => exec_submitFrame_ends hs sdi hwire hk hframe hsdo⟩⟩
  case opens => rw [exec_submitFrame_opens hs sdi hidle, State.updPort_eq, State.openEvent_port]
  case goesOn => rw [exec_submitFrame_goesOn hs sdi hwire, State.updPort_eq, State.openEvent_port]

/-! ### PORT RESET (R71, R72, R184) -/

/-- What the part keeps of a port's work after PORT RESET: the waiting READs are gone, started work is detached (R71). -/
def State.leftBy (s : State) (p : PortId) : State :=
  let waiter := fun (w : Waiter) => if w.port = p then { w with detached := true } else w
  { s with
    sched := { s.sched.setWait p [] with
      job := match s.sched.job with
        | some (.read j) => some (.read (if j.port = p then { j with detached := true } else j))
        | other => other }
    staging := { s.staging with
      wtWaiters := s.staging.wtWaiters.map fun w => if w.port = p then { w with detached := true } else w
      flushWaiters := s.staging.flushWaiters.map fun w => if w.port = p then { w with detached := true } else w }
    link := { s.link with restartWaiters := s.link.restartWaiters.map waiter }
    service := { s.service with quiesce := s.service.quiesce.map fun q => { q with waiters := q.waiters.map waiter } } }

/-- The part with a port unit as after cold reset, but for its ONLINE bit and the record of SDO. -/
def State.emptiedPort (s : State) (p : PortId) (online : Bool) (sdo : List Bool) : State :=
  ((s.leftBy p).setPort p { PortUnit.coldReset with online := online, sdo := sdo }).openEvent

theorem State.detachWork_eq (s : State) (p : PortId) : s.detachWork p = s.leftBy p := by
  have hjob : s.sched.job.map (detachJob p) = match s.sched.job with
      | some (.read j) => some (.read (if j.port = p then { j with detached := true } else j))
      | other => other := by
    rcases s.sched.job with _ | (_ | _ | _ | _) <;> simp [detachJob]
  have hwaiter : detachWaiter p = fun w => if w.port = p then { w with detached := true } else w := by
    funext w
    simp [detachWaiter]
  unfold State.detachWork State.leftBy
  simp only [hjob, hwaiter, beq_iff_eq]

theorem State.portReset_openEvent (s : State) (p : PortId) (u : PortUnit) : (s.openEvent.setPort p u).portReset p =
    if u.online then (s.emptiedPort p u.online u.sdo).goOffline p else s.emptiedPort p u.online u.sdo := by
  have hemptied : (((s.openEvent.setPort p u).leftBy p).updPort p PortUnit.emptied).clearBase p = s.emptiedPort p u.online u.sdo := by
    cases p <;> rfl
  rw [State.portReset, State.detachWork_eq, hemptied, State.setPort_port]

theorem State.clockData_nothing {s : State} {p : PortId} (h : (s.port p).receiver = .resetArmed) : s.clockData p [] = s := by
  simp [State.clockData, h]

/-- A reset that is armed takes effect when SEL# rises (R184). -/
theorem State.portion_resetArmed {s : State} {p : PortId} (h : (s.port p).receiver = .resetArmed) :
    (s.clockData p []).closing p true = (s.setPort p { s.port p with receiver := .idle }).portReset p := by
  rw [State.clockData_nothing h]
  simp only [State.closing, if_true, State.selectRises, h, State.setReceiver, State.updPort_eq]

section
variable {s : State} {p : PortId} (hs : Settled s)
include hs

theorem exec_portReset_idle (hidle : (s.port p).receiver = .idle) : exec (.portReset p) s =
    .next ((s.openEvent.setPort p { s.port p with receiver := .idle, sdo := low 8 }).portReset p) := by
  rw [exec_portReset hs, State.transact_opens _ _ _ _ _ (by simpa using hidle), State.typeByteSampled_reset,
    State.portion_resetArmed (by rw [State.setPort_port])]
  simp only [State.setPort_port, State.setPort_setPort, State.openEvent_port]

theorem exec_clockedPortReset_fires (hwire : (s.port p).receiver = .resetArmed) (hsdo : (s.port p).sdo = low 8) :
    exec (.clockedPortReset p { opens := false, sdi := [], closes := true }) s = exec (.portReset p) (s.receiverIdle p) := by
  have hport : (s.receiverIdle p).port p = { s.port p with receiver := .idle } := s.updPort_port p _
  rw [exec_clockedPortReset hs, State.transact_continues, State.portion_resetArmed (by simpa using hwire),
    exec_portReset_idle (State.receiverIdle_settled p hs) (by rw [hport]), State.receiverIdle_openEvent, State.setPort_setPort,
    State.openEvent_port, hport, ← hsdo]

end

/-- Settles O32: SEL# rising fires the armed reset, and an ONLINE port departs by `State.goOffline_departed`. -/
theorem portResetEmptiesThePort : Obligations.PortResetEmptiesThePort := by
  refine ⟨fun s p hs hidle => ⟨fun hoffline => ?offline, fun honline => ?online⟩,
    fun s p hs hwire hsdo => exec_clockedPortReset_fires hs hwire hsdo⟩
  case offline =>
    rw [exec_portReset_idle hs hidle, State.portReset_openEvent, if_neg (by simp [hoffline])]
    rfl
  case online =>
    refine ⟨(s.emptiedPort p (s.port p).online (low 8)).goOffline p, ?_, State.goOffline_departed _ p⟩
    rw [exec_portReset_idle hs hidle, State.portReset_openEvent, if_pos honline]

end Sys2Proof.Machine
end

section
/-! PROOFS. FETCH (R55, R180, R181). -/

namespace Sys2Proof.Machine

/-! ### Bits shifted out -/

theorem bitsOfBytes_length_eq (bytes : List Byte) : 8 * bytes.length = (bitsOfBytes bytes).length := (bitsOfBytes_length bytes).symm

theorem shiftOut_inside {bytes : List Byte} {count : Nat} (h : count < (bitsOfBytes bytes).length) :
    shiftOut bytes 0 count = (bitsOfBytes bytes).take count := by
  have hnone : count - ((bitsOfBytes bytes).length - 0) = 0 := by omega
  rw [shiftOut, hnone, List.drop_zero, List.replicate_zero, List.append_nil]

theorem shiftOut_whole {bytes : List Byte} {count : Nat} (h : (bitsOfBytes bytes).length ≤ count) :
    shiftOut bytes 0 count = bitsOfBytes bytes ++ low (count - (bitsOfBytes bytes).length) := by
  rw [shiftOut, List.drop_zero, List.take_of_length_le h, Nat.sub_zero]

theorem frameBits_pos (f : Frame) (more : Bool) : 0 < (bitsOfBytes (frameBytes f more)).length := by
  rw [bitsOfBytes_length, frameBytes.eq_def, List.length_append, crc16Bytes_length]
  omega

/-! ### A portion of a FETCH -/

theorem PortUnit.removeHead_wire (u : PortUnit) (r : Receiver) (sdo : List Bool) :
    ({ u with receiver := r, sdo := sdo } : PortUnit).removeHead = { u.removeHead with receiver := r, sdo := sdo } := by
  rcases hq : u.queue with _ | ⟨_ | _, rest⟩ <;> simp [PortUnit.removeHead, hq]

/-- The last bit of a queued frame is shifted out in this portion. -/
def HeadLeaves (frame : List Byte) (queued : Bool) (position count : Nat) : Prop :=
  queued = true ∧ position < (bitsOfBytes frame).length ∧ (bitsOfBytes frame).length ≤ position + count

section
variable {s : State} {p : PortId} {frame : List Byte} {queued : Bool} {position : Nat}

theorem State.closing_sending (h : (s.port p).receiver = .sending frame queued position) (closes : Bool) : s.closing p closes =
    s.setPort p { s.port p with receiver := if closes then .idle else .sending frame queued position } := by
  cases closes with
  | false => rw [State.closing_of_open, if_neg Bool.false_ne_true, ← h, s.setPort_self]
  | true => simp only [State.closing, if_true, State.selectRises, h, State.setReceiver, State.updPort_eq]

theorem State.lowerBase_setPort (s : State) (p : PortId) (u : PortUnit) :
    (s.lowerBase p).setPort p u = (s.setPort p u).lowerBase p := by
  cases p <;> rfl

theorem State.clockFetch_stays {count : Nat} (h : ¬HeadLeaves frame queued position count) :
    s.clockFetch p frame queued position count = s.setPort p { s.port p with
      receiver := .sending frame queued (position + count), sdo := (s.port p).sdo ++ shiftOut frame position count } := by
  unfold State.clockFetch
  rw [bitsOfBytes_length_eq, if_neg]
  · simp only [State.addSdo, State.setReceiver, State.updPort_eq, State.setPort_port, State.setPort_setPort]
  · simpa only [HeadLeaves, Bool.and_eq_true, decide_eq_true_eq, and_assoc] using h

theorem State.clockFetch_leaves {count : Nat} (h : HeadLeaves frame queued position count) :
    s.clockFetch p frame queued position count = (s.setPort p ({ s.port p with
      receiver := .sending frame queued (position + count)
      sdo := (s.port p).sdo ++ shiftOut frame position count } : PortUnit).removeHead).lowerBase p := by
  unfold State.clockFetch
  rw [bitsOfBytes_length_eq, if_pos]
  · simp only [State.addSdo, State.setReceiver, State.updPort_eq, State.setPort_port, State.setPort_setPort]
  · simpa only [HeadLeaves, Bool.and_eq_true, decide_eq_true_eq, and_assoc] using h

section
variable (hwire : (s.port p).receiver = .sending frame queued position) (sdi : List Bool) (closes : Bool)
include hwire

/-- The frame stays in the queue. -/
theorem State.portion_sending_stays (h : ¬HeadLeaves frame queued position sdi.length) :
    (s.clockData p sdi).closing p closes = s.setPort p { s.port p with
      receiver := if closes then .idle else .sending frame queued (position + sdi.length)
      sdo := (s.port p).sdo ++ shiftOut frame position sdi.length } := by
  have hclocked : s.clockData p sdi = s.clockFetch p frame queued position sdi.length := by simp only [State.clockData, hwire]
  rw [hclocked, State.clockFetch_stays h, State.closing_sending (by rw [State.setPort_port]), State.setPort_port, State.setPort_setPort]

/-- The frame leaves the queue. -/
theorem State.portion_sending_leaves (h : HeadLeaves frame queued position sdi.length) :
    (s.clockData p sdi).closing p closes = (s.setPort p { (s.port p).removeHead with
      receiver := if closes then .idle else .sending frame queued (position + sdi.length)
      sdo := (s.port p).sdo ++ shiftOut frame position sdi.length }).lowerBase p := by
  have hclocked : s.clockData p sdi = s.clockFetch p frame queued position sdi.length := by simp only [State.clockData, hwire]
  rw [hclocked, State.clockFetch_leaves h, PortUnit.removeHead_wire,
    State.closing_sending (frame := frame) (queued := queued) (position := position + sdi.length)
      (by rw [State.lowerBase_port, State.setPort_port]),
    State.lowerBase_port, State.setPort_port, State.lowerBase_setPort, State.setPort_setPort]

end

end

/-! ### The frame that leaves -/

theorem PortUnit.removeHead_length (u : PortUnit) : u.removeHead.queue.length = u.queue.length - 1 := by
  rcases hq : u.queue with _ | ⟨_ | _, rest⟩ <;> simp [PortUnit.removeHead, hq]

theorem PortUnit.removeHead_notice {u : PortUnit} {n : Notice} {gap : Bool} {rest : List Frame} (h : u.queue = .notice n gap :: rest) :
    u.removeHead = { u with queue := rest } := by
  simp [PortUnit.removeHead, h]

theorem PortUnit.removeHead_completion {u : PortUnit} {c : Completion} {rest : List Frame} (h : u.queue = .completion c :: rest) :
    u.removeHead = { u with queue := rest, requests := u.requests.filter (·.tag != c.tag) } := by
  simp [PortUnit.removeHead, h]

/-! ### FETCH rows -/

/-- The port after a portion of a FETCH. -/
def PortUnit.fetched (u : PortUnit) (frame : List Byte) (queued : Bool) (position : Nat) (closes : Bool) (sdo : List Bool) : PortUnit :=
  { u with receiver := if closes then .idle else .sending frame queued position, sdo := sdo }

/-- The event of the row is as if the frame had left before it. -/
theorem State.openEvent_fetched (s : State) (p : PortId) (frame : List Byte) (queued : Bool) (position : Nat) (closes : Bool)
    (sdo : List Bool) : (s.openEvent.setPort p ((s.port p).removeHead.fetched frame queued position closes sdo)).lowerBase p =
      (s.setPort p ((s.port p).removeHead.fetched frame queued position closes sdo)).openEvent := by
  have hlength : ((s.port p).removeHead.fetched frame queued position closes sdo).queue.length = (s.port p).queue.length - 1 :=
    (s.port p).removeHead_length
  cases p <;> simp only [State.openEvent, State.setPort, State.lowerBase, State.port] at hlength ⊢ <;> rw [hlength]

section
variable {s : State} {p : PortId} (hs : Settled s) (sdi : List Bool) (closes : Bool)
include hs

section
variable (hidle : (s.port p).receiver = .idle)
include hidle

theorem exec_fetch_opens_stays (h : ¬HeadLeaves (s.port p).chosenFrame (!(s.port p).queue.isEmpty) 0 sdi.length) :
    exec (.fetch p { opens := true, sdi := sdi, closes := closes }) s = .next (s.openEvent.setPort p
      ((s.port p).fetched (s.port p).chosenFrame (!(s.port p).queue.isEmpty) sdi.length closes
        (low 8 ++ shiftOut (s.port p).chosenFrame 0 sdi.length))) := by
  rw [exec_fetch hs, State.transact_opens _ _ _ _ _ (by simpa using hidle), State.typeByteSampled_fetch, State.openEvent_port,
    State.portion_sending_stays (by rw [State.setPort_port]) _ _ h]
  simp only [State.setPort_port, State.setPort_setPort, PortUnit.fetched, Nat.zero_add]

theorem exec_fetch_opens_leaves (h : HeadLeaves (s.port p).chosenFrame (!(s.port p).queue.isEmpty) 0 sdi.length) :
    exec (.fetch p { opens := true, sdi := sdi, closes := closes }) s = .next (s.setPort p
      ((s.port p).removeHead.fetched (s.port p).chosenFrame (!(s.port p).queue.isEmpty) sdi.length closes
        (low 8 ++ shiftOut (s.port p).chosenFrame 0 sdi.length))).openEvent := by
  rw [exec_fetch hs, State.transact_opens _ _ _ _ _ (by simpa using hidle), State.typeByteSampled_fetch, State.openEvent_port,
    State.portion_sending_leaves (by rw [State.setPort_port]) _ _ h, State.setPort_port, State.setPort_setPort,
    PortUnit.removeHead_wire, Nat.zero_add]
  exact congrArg Host.Outcome.next (s.openEvent_fetched p _ _ _ _ _)

section
variable {f : Frame} {rest : List Frame} (hq : (s.port p).queue = f :: rest)
include hq

theorem exec_fetch_opens_cutShort (hshort : sdi.length < (bitsOfBytes (frameBytes f (!rest.isEmpty))).length) :
    exec (.fetch p { opens := true, sdi := sdi, closes := closes }) s = .next (s.openEvent.setPort p
      ((s.port p).fetched (frameBytes f (!rest.isEmpty)) true sdi.length closes
        (low 8 ++ (bitsOfBytes (frameBytes f (!rest.isEmpty))).take sdi.length))) := by
  have hchosen : (s.port p).chosenFrame = frameBytes f (!rest.isEmpty) := by rw [PortUnit.chosenFrame, hq]
  rw [exec_fetch_opens_stays hs sdi closes hidle (fun h => by rw [hchosen] at h; have := h.2.2; omega), hchosen,
    shiftOut_inside hshort, hq]
  rfl

theorem exec_fetch_opens_whole (hwhole : (bitsOfBytes (frameBytes f (!rest.isEmpty))).length ≤ sdi.length) :
    exec (.fetch p { opens := true, sdi := sdi, closes := closes }) s = .next (s.setPort p
      ((s.port p).removeHead.fetched (frameBytes f (!rest.isEmpty)) true sdi.length closes
        (low 8 ++ bitsOfBytes (frameBytes f (!rest.isEmpty)) ++
          low (sdi.length - (bitsOfBytes (frameBytes f (!rest.isEmpty))).length)))).openEvent := by
  have hchosen : (s.port p).chosenFrame = frameBytes f (!rest.isEmpty) := by rw [PortUnit.chosenFrame, hq]
  have hleaves : HeadLeaves (s.port p).chosenFrame (!(s.port p).queue.isEmpty) 0 sdi.length := by
    rw [hchosen, hq]
    exact ⟨rfl, frameBits_pos _ _, by omega⟩
  rw [exec_fetch_opens_leaves hs sdi closes hidle hleaves, hchosen, shiftOut_whole hwhole, ← List.append_assoc, hq]
  rfl

end

theorem exec_fetch_opens_empty (hq : (s.port p).queue = []) :
    exec (.fetch p { opens := true, sdi := sdi, closes := closes }) s = .next (s.openEvent.setPort p
      ((s.port p).fetched emptyFrame false sdi.length closes (low 8 ++ shiftOut emptyFrame 0 sdi.length))) := by
  have hchosen : (s.port p).chosenFrame = emptyFrame := by rw [PortUnit.chosenFrame, hq]
  rw [exec_fetch_opens_stays hs sdi closes hidle (fun h => by rw [hq] at h; exact absurd h.1 Bool.false_ne_true), hchosen, hq]
  rfl

end

section
variable {frame : List Byte} {queued : Bool} {position : Nat} (hwire : (s.port p).receiver = .sending frame queued position)
include hwire

theorem exec_fetch_goesOn_stays (h : ¬HeadLeaves frame queued position sdi.length) :
    exec (.fetch p { opens := false, sdi := sdi, closes := closes }) s = .next (s.openEvent.setPort p
      ((s.port p).fetched frame queued (position + sdi.length) closes ((s.port p).sdo ++ shiftOut frame position sdi.length))) := by
  rw [exec_fetch hs, State.transact_continues, State.portion_sending_stays (by simpa using hwire) _ _ h, State.openEvent_port]
  rfl

theorem exec_fetch_goesOn_leaves (h : HeadLeaves frame queued position sdi.length) :
    exec (.fetch p { opens := false, sdi := sdi, closes := closes }) s = .next (s.setPort p
      ((s.port p).removeHead.fetched frame queued (position + sdi.length) closes
        ((s.port p).sdo ++ shiftOut frame position sdi.length))).openEvent := by
  rw [exec_fetch hs, State.transact_continues, State.portion_sending_leaves (by simpa using hwire) _ _ h, State.openEvent_port]
  exact congrArg Host.Outcome.next (s.openEvent_fetched p _ _ _ _ _)

end

end

/-- Settles O30: by whether the last bit of a queued frame is shifted out in the portion (`HeadLeaves`). -/
theorem fetchDeliversTheHeadFrame : Obligations.FetchDeliversTheHeadFrame := by
  refine ⟨fun s p sdi closes hs hidle => ⟨fun f rest hq =>
      ⟨fun hshort => exec_fetch_opens_cutShort hs sdi closes hidle hq hshort,
        fun hwhole => ⟨fun n gap hf => ?wholeNotice, fun c hf => ?wholeCompletion⟩⟩, fun hq => ?empty⟩,
    fun s p sdi closes frame queued position hs hwire => ⟨fun hstays => ?stays,
      fun f rest hqueued hinside hend hq => ⟨fun n gap hf => ?leavesNotice, fun c hf => ?leavesCompletion⟩⟩⟩
  case wholeNotice =>
    have hrow := exec_fetch_opens_whole hs sdi closes hidle hq hwhole
    rw [PortUnit.removeHead_notice (hf ▸ hq)] at hrow
    exact hrow
  case wholeCompletion =>
    have hrow := exec_fetch_opens_whole hs sdi closes hidle hq hwhole
    rw [PortUnit.removeHead_completion (hf ▸ hq)] at hrow
    exact hrow
  case empty =>
    have hrow := exec_fetch_opens_empty hs sdi closes hidle hq
    rw [shiftOut, ← List.append_assoc, PortUnit.fetched, List.drop_zero, Nat.sub_zero, emptyFrame] at hrow
    exact hrow
  case stays =>
    have hnot : ¬HeadLeaves frame queued position sdi.length := by
      rintro ⟨hqueued, hinside, hend⟩
      rcases hstays with hnone | hpast | hbefore
      · exact absurd (hnone.symm.trans hqueued) Bool.false_ne_true
      · omega
      · omega
    have hrow := exec_fetch_goesOn_stays hs sdi closes hwire hnot
    rw [shiftOut, ← List.append_assoc] at hrow
    exact hrow
  case leavesNotice =>
    have hrow := exec_fetch_goesOn_leaves hs sdi closes hwire ⟨hqueued, hinside, hend⟩
    rw [shiftOut, ← List.append_assoc, PortUnit.removeHead_notice (hf ▸ hq)] at hrow
    exact hrow
  case leavesCompletion =>
    have hrow := exec_fetch_goesOn_leaves hs sdi closes hwire ⟨hqueued, hinside, hend⟩
    rw [shiftOut, ← List.append_assoc, PortUnit.removeHead_completion (hf ▸ hq)] at hrow
    exact hrow

end Sys2Proof.Machine
end

section
/-! PROOFS. PEEK (R182, log 10). -/

namespace Sys2Proof.Machine

/-! ### The status bytes -/

/-- The four status bytes of this moment. -/
def State.status (s : State) (p : PortId) : List Byte :=
  (List.range 4).map (peekByte (s.port p) s.service.state (s.port p.other).online)

/-- The bytes of a PEEK, those not yet taken as they are at this moment. -/
def State.statusAfter (s : State) (p : PortId) (taken : List Byte) : List Byte := taken ++ (s.status p).drop taken.length

/-- The number of status bytes taken at a shift position. -/
def takenAt (position : Nat) : Nat := min 4 (position / 8 + 1)

theorem takenAt_le (position : Nat) : takenAt position ≤ 4 := Nat.min_le_left _ _

theorem takenAt_mono {a b : Nat} (h : a ≤ b) : takenAt a ≤ takenAt b := by
  unfold takenAt
  omega

section
variable (s : State) (p : PortId)

theorem State.status_length : (s.status p).length = 4 := by rw [State.status, List.length_map, List.length_range]

theorem State.status_openEvent : s.openEvent.status p = s.status p := by cases p <;> rfl

theorem State.status_setPort (r : Receiver) (sdo : List Bool) :
    (s.setPort p { s.port p with receiver := r, sdo := sdo }).status p = s.status p := by
  cases p <;> rfl

theorem State.statusAfter_length {taken : List Byte} (h : taken.length ≤ 4) : (s.statusAfter p taken).length = 4 := by
  rw [State.statusAfter, List.length_append, List.length_drop, State.status_length]
  omega

/-- The bytes taken when a position is reached are the first ones. -/
theorem State.peekTaken_eq {taken : List Byte} {position : Nat} (h : taken.length ≤ takenAt position) :
    s.peekTaken p taken position = (s.statusAfter p taken).take (takenAt position) := by
  have hrange : List.range (takenAt position) = (List.range 4).take (takenAt position) := by
    rw [List.take_range, Nat.min_eq_left (takenAt_le _)]
  have htaken : s.peekTaken p taken position = taken ++ ((List.range (takenAt position)).drop taken.length).map
      (peekByte (s.port p) s.service.state (s.port p.other).online) := rfl
  rw [htaken, State.statusAfter, State.status, List.take_append, List.take_of_length_le h, hrange, List.drop_take, List.map_take,
    List.map_drop]

end

/-! ### Bits shifted out of the bytes taken so far -/

theorem bitsOfBytes_take (bytes : List Byte) (k : Nat) : bitsOfBytes (bytes.take k) = (bitsOfBytes bytes).take (8 * k) := by
  by_cases h : k ≤ bytes.length
  · conv_rhs => rw [← List.take_append_drop k bytes, bitsOfBytes_append]
    exact (List.take_left' (by rw [bitsOfBytes_length, List.length_take, Nat.min_eq_left h])).symm
  · rw [List.take_of_length_le (Nat.le_of_not_le h), List.take_of_length_le]
    rw [bitsOfBytes_length]
    omega

theorem shiftOut_take {bytes : List Byte} {k position count : Nat} (h : bytes.length ≤ k ∨ position + count ≤ 8 * k) :
    shiftOut (bytes.take k) position count = shiftOut bytes position count := by
  by_cases hall : bytes.length ≤ k
  · rw [List.take_of_length_le hall]
  · have hinside : position + count ≤ 8 * k := h.resolve_left hall
    have hnone (n : Nat) (hn : 8 * k ≤ n) : count - (n - position) = 0 := by omega
    unfold shiftOut
    rw [bitsOfBytes_take, List.drop_take, List.take_take, List.length_take, bitsOfBytes_length, Nat.min_eq_left (by omega),
      Nat.min_eq_left (by omega), hnone (8 * k) le_rfl, hnone (8 * bytes.length) (by omega)]

/-! ### A portion of a PEEK -/

/-- The flags that the last bit clears are chosen when byte 4 is taken. -/
def shownAt (position after : Nat) (now before : Sticky) : Sticky := if position < 24 ∧ 24 ≤ after then now else before

theorem PortUnit.shown_eq (u : PortUnit) {before after : List Byte} {position later : Nat} (clear : Sticky)
    (hbefore : before.length = takenAt position) (hafter : after.length = takenAt later) :
    u.shown before after clear = shownAt position later u.flags clear := by
  unfold PortUnit.shown shownAt
  refine if_congr ?_ rfl rfl
  rw [hbefore, hafter]
  unfold takenAt
  omega

/-- The port after a portion of a PEEK that has come to this position. -/
def PortUnit.peeked (u : PortUnit) (bytes : List Byte) (position count : Nat) (clear : Sticky) (closes : Bool) : PortUnit :=
  let shown := shownAt position (position + count) u.flags clear
  { u with
    receiver := if closes then .idle else .peeking (bytes.take (takenAt (position + count))) (position + count) shown
    flags := if position < 32 ∧ 32 ≤ position + count then u.flags.clearing shown else u.flags
    sdo := u.sdo ++ shiftOut bytes position count }

section
variable {s : State} {p : PortId} {taken : List Byte} {position : Nat} {clear : Sticky}

theorem State.closing_peeking (h : (s.port p).receiver = .peeking taken position clear) (closes : Bool) : s.closing p closes =
    s.setPort p { s.port p with receiver := if closes then .idle else .peeking taken position clear } := by
  cases closes with
  | false => rw [State.closing_of_open, if_neg Bool.false_ne_true, ← h, s.setPort_self]
  | true => simp only [State.closing, if_true, State.selectRises, h, State.setReceiver, State.updPort_eq]

theorem State.clockPeek_eq (htaken : taken.length = takenAt position) (count : Nat) :
    s.clockPeek p taken position clear count = s.setPort p ((s.port p).peeked (s.statusAfter p taken) position count clear false) := by
  have hle : takenAt position ≤ takenAt (position + count) := takenAt_mono (Nat.le_add_right _ _)
  have hfour : (s.statusAfter p taken).length = 4 := s.statusAfter_length p (htaken ▸ takenAt_le _)
  have hlength : ((s.statusAfter p taken).take (takenAt (position + count))).length = takenAt (position + count) := by
    rw [List.length_take, hfour, Nat.min_eq_left (takenAt_le _)]
  have hcount : (s.statusAfter p taken).length ≤ takenAt (position + count) ∨ position + count ≤ 8 * takenAt (position + count) := by
    rw [hfour]
    unfold takenAt
    omega
  unfold State.clockPeek PortUnit.peeked
  dsimp only
  rw [s.peekTaken_eq p (htaken.le.trans hle), PortUnit.shown_eq _ clear htaken hlength, shiftOut_take hcount]
  split <;> simp only [*, State.addSdo, State.setReceiver, State.updPort_eq, State.setPort_port, State.setPort_setPort, if_false,
    Bool.false_eq_true]

theorem State.portion_peeking (hwire : (s.port p).receiver = .peeking taken position clear) (htaken : taken.length = takenAt position)
    (sdi : List Bool) (closes : Bool) : (s.clockData p sdi).closing p closes =
      s.setPort p ((s.port p).peeked (s.statusAfter p taken) position sdi.length clear closes) := by
  have hclocked : s.clockData p sdi = s.clockPeek p taken position clear sdi.length := by simp only [State.clockData, hwire]
  rw [hclocked, State.clockPeek_eq htaken, State.closing_peeking (by rw [State.setPort_port]; rfl), State.setPort_port,
    State.setPort_setPort]
  rfl

end

theorem State.status_bits (s : State) (p : PortId) : (bitsOfBytes (s.status p)).length = 32 := by
  rw [bitsOfBytes_length, State.status_length]

theorem State.statusAfter_bits (s : State) (p : PortId) {taken : List Byte} {position : Nat} (h : taken.length = takenAt position) :
    (bitsOfBytes (s.statusAfter p taken)).length = 32 := by
  rw [bitsOfBytes_length, State.statusAfter_length s p (h ▸ takenAt_le _)]

/-! ### PEEK rows -/

section
variable {s : State} {p : PortId} (hs : Settled s) (sdi : List Bool) (closes : Bool)
include hs

theorem exec_peek_opens (hidle : (s.port p).receiver = .idle) : exec (.peek p { opens := true, sdi := sdi, closes := closes }) s =
    .next (s.openEvent.setPort p (({ s.port p with sdo := low 8 } : PortUnit).peeked (s.status p) 0 sdi.length Sticky.clear closes)) := by
  have hfirst : s.openEvent.peekTaken p [] 0 = (s.status p).take 1 := by
    rw [State.peekTaken_eq s.openEvent p (Nat.zero_le _), State.statusAfter, State.status_openEvent]
    rfl
  have hall : (s.status p).take 1 ++ (s.status p).drop ((s.status p).take 1).length = s.status p := by
    rw [List.length_take, State.status_length]
    exact List.take_append_drop 1 _
  rw [exec_peek hs, State.transact_opens _ _ _ _ _ (by simpa using hidle), State.typeByteSampled_peek, hfirst,
    State.portion_peeking (taken := (s.status p).take 1) (position := 0) (by rw [State.setPort_port])
      (by rw [List.length_take, State.status_length]; rfl),
    State.statusAfter, State.status_setPort, State.status_openEvent, hall, State.setPort_port, State.setPort_setPort,
    State.openEvent_port]
  rfl

theorem exec_peek_goesOn {taken : List Byte} {position : Nat} {clear : Sticky}
    (hwire : (s.port p).receiver = .peeking taken position clear) (htaken : taken.length = takenAt position) :
    exec (.peek p { opens := false, sdi := sdi, closes := closes }) s =
      .next (s.openEvent.setPort p ((s.port p).peeked (s.statusAfter p taken) position sdi.length clear closes)) := by
  rw [exec_peek hs, State.transact_continues, State.portion_peeking (by simpa using hwire) htaken, State.openEvent_port,
    State.statusAfter, State.status_openEvent]
  rfl

end

/-! ### The port after a PEEK -/

theorem Sticky.clearing_self (f : Sticky) : f.clearing f = Sticky.clear := by
  simp only [Sticky.clearing, Bool.and_not_self, Sticky.clear]

section
variable (u : PortUnit) {bytes : List Byte} (hbytes : (bitsOfBytes bytes).length = 32) {count : Nat} (closes : Bool)
include hbytes

theorem PortUnit.peeked_opening_cutShort (h : count < 32) :
    ({ u with sdo := low 8 } : PortUnit).peeked bytes 0 count Sticky.clear closes = { u with
      receiver := if closes then .idle else .peeking (bytes.take (takenAt count)) count (if 24 ≤ count then u.flags else Sticky.clear)
      sdo := low 8 ++ (bitsOfBytes bytes).take count } := by
  have hshown : shownAt 0 count u.flags Sticky.clear = if 24 ≤ count then u.flags else Sticky.clear :=
    if_congr (and_iff_right (by decide)) rfl rfl
  have hcutShort : ¬(0 < 32 ∧ 32 ≤ count) := fun hend => Nat.not_le.mpr h hend.2
  unfold PortUnit.peeked
  simp only [Nat.zero_add, hshown, shiftOut_inside (h.trans_eq hbytes.symm), if_neg hcutShort]

theorem PortUnit.peeked_opening_whole (h : 32 ≤ count) :
    ({ u with sdo := low 8 } : PortUnit).peeked bytes 0 count Sticky.clear closes = { u with
      receiver := if closes then .idle else .peeking (bytes.take (takenAt count)) count (if 24 ≤ count then u.flags else Sticky.clear)
      flags := Sticky.clear
      sdo := low 8 ++ bitsOfBytes bytes ++ low (count - 32) } := by
  have hshows : 24 ≤ count := Nat.le_trans (by decide) h
  have hshown : shownAt 0 count u.flags Sticky.clear = u.flags := if_pos ⟨by decide, hshows⟩
  have hwhole : 0 < 32 ∧ 32 ≤ count := ⟨by decide, h⟩
  unfold PortUnit.peeked
  simp only [Nat.zero_add, hshown, shiftOut_whole (hbytes.trans_le h), hbytes, if_pos hshows, if_pos hwhole,
    Sticky.clearing_self, List.append_assoc]

end

/-- Settles O31: an opening and a later portion by `PortUnit.peeked`, cut short or whole. -/
theorem peekShowsAndClearsTheFlags : Obligations.PeekShowsAndClearsTheFlags := by
  intro s p sdi closes hs
  refine ⟨fun hidle => ⟨fun hcutShort => ?openedCutShort, fun hwhole => ?openedWhole⟩,
    fun taken position clear hwire htaken => ⟨fun hgoesOn => ?goesOn, fun hends => ?ends⟩⟩
  case openedCutShort =>
    have hrow := exec_peek_opens hs sdi closes hidle
    rw [PortUnit.peeked_opening_cutShort _ (s.status_bits p) closes hcutShort] at hrow
    exact hrow
  case openedWhole =>
    have hrow := exec_peek_opens hs sdi closes hidle
    rw [PortUnit.peeked_opening_whole _ (s.status_bits p) closes hwhole] at hrow
    exact hrow
  case goesOn =>
    have hrow := exec_peek_goesOn hs sdi closes hwire htaken
    rw [PortUnit.peeked, shiftOut, s.statusAfter_bits p htaken, ← List.append_assoc, if_neg hgoesOn] at hrow
    exact hrow
  case ends =>
    have hrow := exec_peek_goesOn hs sdi closes hwire htaken
    rw [PortUnit.peeked, shiftOut, s.statusAfter_bits p htaken, ← List.append_assoc, if_pos hends] at hrow
    exact hrow

end Sys2Proof.Machine
end

section
/-! PROOFS. The bytes of the frames and of the messages to the medium (R68, R141, R187 to R191). -/

namespace Sys2Proof.Machine

/-- The bits of the attributes byte by their weights (R186). -/
theorem attrsCode_eq (a : Attrs) : attrsCode a =
    (if a.exclusive then 1 else 0) + 2 * (if a.peerRead then 1 else 0) + 4 * (if a.through then 1 else 0) +
      8 * (if a.kept then 1 else 0) := by
  simp only [attrsCode, mul_ite, mul_one, mul_zero]

theorem outcomeCode_eq : ∀ x ∈ [(OutcomeReason.applied, (1 : Byte)), (.declined, 2), (.lapsedDeadline, 3), (.lapsedPeerAbsent, 4),
    (.lapsedTargetFixed, 5), (.withdrawnProposer, 6), (.withdrawnProposerOffline, 7)], x.2 = outcomeCode x.1 := by
  decide

theorem completionBytes_region (tag code : Byte) (st : Status) (x : Region) (more : Bool) :
    completionBytes { tag := tag, code := code, status := st, result := .region x } more =
      responseHeader 1 tag (statusCode st) (regionStateCode x.state + 4 * holderCode x.hold + 16 * flagCode x.changing) (be24 x.base)
        (be24 x.length) (attrsCode x.attrs) x.leasePeriod (x.hold.elim 0 Hold.remaining) 0
        (2 * flagCode more) code := by
  obtain ⟨_, _, _, _, _, hold, _⟩ := x
  cases hold <;> rfl

theorem noticeBytes_define (id : Nat) (r : Fin 16) (b l : Nat) (a : Attrs) (k w : Nat) (gap more : Bool) :
    noticeBytes (.proposal id (.define r b l a k) w) gap more = responseHeader 2 1 0 r (be24 b) (be24 l) (attrsCode a + 16) k w id
      (flagCode gap + 2 * flagCode more) 0 := rfl

theorem noticeBytes_reconfigure (id : Nat) (r : Fin 16) (a : Attrs) (k w : Nat) (gap more : Bool) :
    noticeBytes (.proposal id (.reconfigure r a k) w) gap more = responseHeader 2 1 0 r (be24 0) (be24 0) (attrsCode a + 64) k w id
      (flagCode gap + 2 * flagCode more) 0 := rfl

/-- Settles O34: field by field; the attributes by their weights (`attrsCode_eq`). -/
theorem frameBytesFieldByField : Obligations.FrameBytesFieldByField := by
  refine ⟨fun f more => ?frame, fun tag code st more => ?completion, fun gap more => ?notice, ?statuses, fun n => ?messages⟩
  case frame => cases f <;> rfl
  case completion =>
    refine ⟨rfl, fun port service media loaded phase peer => ?attach, fun _ _ _ => rfl, fun _ => rfl, fun _ => rfl, fun x => ?region,
      fun _ _ => rfl, fun q => rfl⟩
    case attach => cases port <;> rfl
    case region =>
      refine (completionBytes_region tag code st x more).trans ?_
      rw [attrsCode_eq]
      obtain ⟨_, _, _, _, _, hold, _⟩ := x
      cases hold <;> rfl
  case notice =>
    refine ⟨fun id w => ⟨fun r b l a k => ?define, fun _ => rfl, fun _ _ => rfl, fun r a k => ?reconfigure, rfl, rfl, fun _ => rfl⟩,
      fun id x hx => ?outcome, fun r => ⟨rfl, rfl, rfl, fun _ => rfl⟩, fun g => rfl, rfl, rfl, rfl, rfl, rfl, rfl⟩
    case define =>
      refine (noticeBytes_define id r b l a k w gap more).trans ?_
      rw [attrsCode_eq]
      rfl
    case reconfigure =>
      refine (noticeBytes_reconfigure id r a k w gap more).trans ?_
      rw [attrsCode_eq]
      rfl
    case outcome =>
      obtain ⟨reason, number⟩ := x
      obtain rfl : number = outcomeCode reason := outcomeCode_eq _ hx
      exact ⟨fun _ _ _ _ _ => rfl, fun _ => rfl, fun _ _ => rfl, fun _ _ _ => rfl, rfl, rfl, fun _ => rfl⟩
  case statuses => decide
  case messages => exact ⟨rfl, fun _ => rfl, fun _ _ => rfl, rfl⟩

end Sys2Proof.Machine
end

section
/-! PROOFS. The table load: valid copies, the copy selected, the tables filled (R156, R166, R167). -/

namespace Sys2Proof.Machine

/-! ### Valid copies (R156) -/

theorem pairwiseApart_iff {α : Type} (apart : α → α → Bool) (xs : List α) :
    pairwiseApart apart xs = true ↔ xs.Pairwise fun x y => apart x y = true := by
  induction xs with
  | nil => simp [pairwiseApart]
  | cons x xs ih => rw [pairwiseApart, Bool.and_eq_true, List.all_eq_true, ih, List.pairwise_cons]

theorem definitionsApart_iff (ds : List Config.SavedRegion) :
    pairwiseApart (fun d e => d.id != e.id && !extentsOverlap d.base d.length e.base e.length) ds = true ↔
      ds.Pairwise fun d e => d.id ≠ e.id ∧ ¬Shares d.base d.length e.base e.length := by
  rw [pairwiseApart_iff]
  refine List.Pairwise.iff fun d e => ?_
  rw [Bool.and_eq_true, bne_iff_ne, Bool.not_eq_true', ← Bool.not_eq_true, extentsOverlap_iff]

theorem sparesApart_iff (es : List Spare) : sparesApart es = true ↔ es.Pairwise fun d e => ∀ lbn, d = .inUse lbn → d ≠ e := by
  rw [sparesApart, pairwiseApart_iff]
  refine List.Pairwise.iff fun d e => ?_
  cases d <;> simp

/-- A spare entry in use is for a block below L. -/
def Spare.inside (l : Nat) : Spare → Bool
  | .inUse lbn => decide (lbn < l)
  | .free => true
  | .retired => true

theorem Spare.inside_iff (es : List Spare) (l : Nat) :
    es.all (Spare.inside l) = true ↔ ∀ lbn, Spare.inUse lbn ∈ es → lbn < l := by
  rw [List.all_eq_true]
  refine ⟨fun h lbn hmem => of_decide_eq_true (h _ hmem), fun h e hmem => ?_⟩
  cases e with
  | inUse lbn => exact decide_eq_true (h lbn hmem)
  | free | retired => rfl

/-- The contents of a copy are well formed (R156 item 6). -/
def ContentsOk (c : Config.RawCopy) (p : Nat) : Prop :=
  let l := p - 24 - c.s
  16 ≤ c.s ∧ c.s ≤ 1024 ∧ 256 + 24 + c.s ≤ p ∧ c.phase ≠ none ∧
  (∀ d ∈ c.regions, d.id < 16 ∧ d.base + d.length ≤ l) ∧
  (c.regions.Pairwise fun d e => d.id ≠ e.id ∧ ¬Shares d.base d.length e.base e.length) ∧
  (∀ lbn, Spare.inUse lbn ∈ c.spares → lbn < l) ∧
  c.spares.Pairwise (fun d e => ∀ lbn, d = .inUse lbn → d ≠ e)

theorem contentsOk_iff (c : Config.RawCopy) : contentsOk c = true ↔ ContentsOk c c.p := by
  have hparts : contentsOk c = (decide (16 ≤ c.s) && decide (c.s ≤ 1024) && decide (256 + 24 + c.s ≤ c.p) && c.phase.isSome &&
      c.regions.all (fun d => decide (d.id < 16) && decide (d.base + d.length ≤ c.p - 24 - c.s)) &&
      pairwiseApart (fun d e => d.id != e.id && !extentsOverlap d.base d.length e.base e.length) c.regions &&
      c.spares.all (Spare.inside (c.p - 24 - c.s)) && sparesApart c.spares) := rfl
  rw [hparts, Bool.and_eq_true, Bool.and_eq_true, Bool.and_eq_true, sparesApart_iff, Spare.inside_iff, definitionsApart_iff]
  simp only [Bool.and_eq_true, decide_eq_true_eq, Option.isSome_iff_ne_none, List.all_eq_true, and_assoc]
  rfl

theorem copyOk_iff (bytes : List Byte) (p : Nat) : copyOk bytes p = true ↔
    (readCopy bytes).mark = Config.formatMark ∧ (readCopy bytes).crc = crc32 (bytes.take 6140) ∧ (readCopy bytes).generation ≠ 0 ∧
      (readCopy bytes).closing = (readCopy bytes).generation ∧ (readCopy bytes).p = p ∧ ContentsOk (readCopy bytes) p := by
  unfold copyOk
  simp only [Bool.and_eq_true, beq_iff_eq, bne_iff_ne, contentsOk_iff, and_assoc]
  refine and_congr_right fun _ => and_congr_right fun _ => and_congr_right fun _ => and_congr_right fun _ => and_congr_right fun hp => ?_
  rw [hp]

theorem validCopy_iff (blocks : List (Option Block)) (p : Nat) (c : Config.RawCopy) : validCopy blocks p = some c ↔
    (∀ x ∈ blocks, x ≠ none) ∧ c = readCopy (blocks.filterMap id).flatten ∧
      copyOk (blocks.filterMap id).flatten p = true := by
  have hread : blocks.all Option.isSome = true ↔ ∀ x ∈ blocks, x ≠ none := by
    simp only [List.all_eq_true, Option.isSome_iff_ne_none]
  unfold validCopy
  by_cases hall : ∀ x ∈ blocks, x ≠ none
  · rw [if_pos (hread.mpr hall)]
    dsimp only
    by_cases hok : copyOk (blocks.filterMap id).flatten p = true
    · rw [if_pos hok, Option.some.injEq]
      exact ⟨fun h => ⟨hall, h.symm, hok⟩, fun h => h.2.1.symm⟩
    · rw [if_neg hok]
      exact ⟨nofun, fun h => absurd h.2.2 hok⟩
  · rw [if_neg (mt hread.mp hall)]
    exact ⟨nofun, fun h => absurd h.1 hall⟩

/-- The conditions on a valid copy, one by one. -/
theorem validCopy_some_iff (blocks : List (Option Block)) (p : Nat) (c : Config.RawCopy) : validCopy blocks p = some c ↔
    (∀ x ∈ blocks, x ≠ none) ∧ c = readCopy (blocks.filterMap id).flatten ∧ c.mark = Config.formatMark ∧
      c.crc = crc32 ((blocks.filterMap id).flatten.take 6140) ∧ c.generation ≠ 0 ∧ c.closing = c.generation ∧ c.p = p ∧
      ContentsOk c p := by
  rw [validCopy_iff, copyOk_iff]
  refine and_congr_right fun _ => and_congr_right fun hc => ?_
  rw [hc]

/-! ### The copy selected (R166) -/

theorem selectCopy_both_first {a b : Config.RawCopy} (h : b.generation ≤ a.generation) :
    selectCopy (some a) (some b) = some (.copy0, a) := if_neg (Nat.not_lt.mpr h)

theorem selectCopy_both_second {a b : Config.RawCopy} (h : a.generation < b.generation) :
    selectCopy (some a) (some b) = some (.copy1, b) := if_pos h

/-! ### The tables filled (R167) -/

section
variable {s : State} {p : Nat} (h : s.link.identified = some p) {blocks : List (Option Block)}
include h

theorem State.loadTables_copy {copy : CopyId} {c : Config.RawCopy}
    (hselected : selectCopy (validCopy (blocks.take 12) p) (validCopy (blocks.drop 12) p) = some (copy, c)) :
    s.loadTables blocks = { s.loadCopy copy c p with link := { s.link with identified := none } } := by
  have hp : s.link.identified.getD 0 = p := by rw [h]; rfl
  unfold State.loadTables
  rw [hp]
  dsimp only [Config.copyBlocks]
  rw [hselected]
  rfl

theorem State.loadTables_blank
    (hselected : selectCopy (validCopy (blocks.take 12) p) (validCopy (blocks.drop 12) p) = none) :
    s.loadTables blocks = { s.loadBlank p with link := { s.link with identified := none } } := by
  have hp : s.link.identified.getD 0 = p := by rw [h]; rfl
  unfold State.loadTables
  rw [hp]
  dsimp only [Config.copyBlocks]
  rw [hselected]
  rfl

end

theorem State.loadCopy_region_saved (s : State) (copy : CopyId) {c : Config.RawCopy} (p : Nat) {r : Fin 16} {d : Config.SavedRegion}
    (hd : c.regions.find? (fun d => d.id == r.val) = some d) : (s.loadCopy copy c p).region r = loadedRegion d := by
  refine (Vector.getElem_ofFn r.isLt).trans ?_
  simp only [hd]

theorem State.loadCopy_region_other (s : State) (copy : CopyId) {c : Config.RawCopy} (p : Nat) {r : Fin 16}
    (hd : c.regions.find? (fun d => d.id == r.val) = none) : (s.loadCopy copy c p).region r = Region.undefinedRecord := by
  refine (Vector.getElem_ofFn r.isLt).trans ?_
  simp only [hd]

theorem State.loadBlank_region (s : State) (p : Nat) (r : Fin 16) : (s.loadBlank p).region r = Region.undefinedRecord :=
  Vector.getElem_replicate r.isLt

/-- Settles O52: the conditions of a valid copy one by one, then the load from a copy or a blank medium. -/
theorem tablesComeFromTheNewestCopy : Obligations.TablesComeFromTheNewestCopy := by
  refine ⟨fun a b => ⟨rfl, rfl, rfl, selectCopy_both_first, selectCopy_both_second⟩,
    fun blocks p c => validCopy_some_iff blocks p c, fun s blocks p hp => ?_⟩
  rcases hselected : selectCopy (validCopy (blocks.take 12) p) (validCopy (blocks.drop 12) p) with _ | ⟨copy, c⟩
  case none =>
    dsimp only
    rw [State.loadTables_blank hp hselected]
    exact ⟨rfl, rfl, rfl, rfl, nofun, fun _ => ⟨rfl, rfl, rfl, rfl, rfl, fun r => s.loadBlank_region p r⟩⟩
  case some =>
    dsimp only
    rw [State.loadTables_copy hp hselected]
    refine ⟨rfl, rfl, rfl, rfl, fun copy' c' heq => ?_, nofun⟩
    cases heq
    exact ⟨rfl, rfl, rfl, rfl, rfl,
      fun r => ⟨fun d hd => s.loadCopy_region_saved copy p hd, fun hd => s.loadCopy_region_other copy p hd⟩⟩

end Sys2Proof.Machine
end

section
/-! PROOFS. Metadata copies on the medium: layout, CRC-32, what is read back (R155, R156, R162, R163). -/

namespace Sys2Proof.Machine

/-! ### A lawful snapshot fits the bytes of a copy -/

section
variable {x : Config.Snapshot} (hx : SnapshotLawful x)
include hx

theorem SnapshotLawful.few_regions : x.regions.length ≤ 16 := by
  have hnodup : (x.regions.map Config.SavedRegion.id).Nodup :=
    List.pairwise_map.mpr (hx.ids.imp fun hlt => Nat.ne_of_lt hlt)
  have hsubset : x.regions.map Config.SavedRegion.id ⊆ List.range 16 := fun id hid => by
    obtain ⟨d, hd, rfl⟩ := List.mem_map.mp hid
    exact List.mem_range.mpr (hx.inside d hd).1
  simpa using (hnodup.subperm hsubset).length_le

theorem SnapshotLawful.fits : SnapshotFits x := by
  obtain ⟨_, hmost, hcount⟩ := hx.spares
  obtain ⟨_, hp⟩ := hx.blocks
  refine ⟨by omega, hcount.symm, by omega, hx.few_regions, fun d hd => ?saved, fun e he => ?inUse⟩
  case saved =>
    obtain ⟨hid, hinside, hlease, hlong⟩ := hx.inside d hd
    exact ⟨by omega, by omega, by omega, hlease, hlong⟩
  case inUse =>
    cases e with
    | inUse lbn =>
      have hlbn := hx.inUse lbn he
      simp only [spareNumber]
      omega
    | free | retired => simp [spareNumber]

/-- The contents of a copy of a lawful snapshot are well formed (R156 item 6). -/
theorem SnapshotLawful.contentsOk {c : Config.RawCopy} (hphase : c.phase = some x.phase) (hs : c.s = x.s)
    (hregions : c.regions = x.regions) (hspares : c.spares = x.spares) : ContentsOk c x.p := by
  obtain ⟨hleast, hmost, _⟩ := hx.spares
  unfold ContentsOk
  rw [hs, hphase, hregions, hspares]
  exact ⟨hleast, hmost, hx.blocks.1, nofun, fun d hd => ⟨(hx.inside d hd).1, (hx.inside d hd).2.1⟩,
    (hx.ids.and hx.apart).imp fun h => ⟨Nat.ne_of_lt h.1, h.2⟩, hx.inUse, hx.once⟩

end

/-! ### The layout (R155) -/

/-- What stands between the mark and the bytes of 00h. -/
def savedFields (x : Config.Snapshot) (g : Nat) : List Byte :=
  generationBytes g ++ coded Config.headerCode (headerFields x) ++ x.regions.flatMap definitionBytes ++ x.spares.flatMap spareBytes

/-- The bytes that the CRC-32 is over. -/
def copyBody (x : Config.Snapshot) (g : Nat) : List Byte :=
  be32 Config.formatMark.toNat ++ savedFields x g ++ List.replicate (6132 - (savedFields x g).length) 0 ++ generationBytes g

theorem copyFields_eq (x : Config.Snapshot) (g : Nat) : copyFields x g = be32 Config.formatMark.toNat ++ savedFields x g := by
  simp only [copyFields, savedFields, List.append_assoc]

theorem savedFields_length (x : Config.Snapshot) (g : Nat) :
    (savedFields x g).length = 12 + 9 * x.regions.length + 3 * x.spares.length := by
  have hlength := copyFields_length x g
  rw [copyFields_eq, List.length_append, show (be32 Config.formatMark.toNat).length = 4 from rfl] at hlength
  omega

theorem savedFields_fit {x : Config.Snapshot} (hx : SnapshotFits x) (g : Nat) : (savedFields x g).length ≤ 6132 := by
  have hregions := hx.regions
  have hspares := hx.spares
  rw [savedFields_length]
  omega

theorem copyBody_length {x : Config.Snapshot} (hx : SnapshotFits x) (g : Nat) : (copyBody x g).length = 6140 := by
  have hfit := savedFields_fit hx g
  simp only [copyBody, List.length_append, List.length_replicate, show (be32 Config.formatMark.toNat).length = 4 from rfl,
    show (generationBytes g).length = 4 from rfl]
  omega

theorem copyBytes_eq {x : Config.Snapshot} (hx : SnapshotFits x) (g : Nat) :
    copyBytes x g = copyBody x g ++ crc32Bytes (crc32 (copyBody x g)) := by
  have hfit := savedFields_fit hx g
  have hmark : (be32 Config.formatMark.toNat).length = 4 := rfl
  have hbody : (copyFields x g ++ List.replicate copyRoom 0).take copyRoom ++ generationBytes g = copyBody x g := by
    rw [copyFields_eq, List.take_append, List.take_of_length_le (by rw [List.length_append, hmark, copyRoom]; omega),
      List.take_replicate, List.length_append, hmark, copyRoom, copyBody, Nat.min_eq_left (by omega),
      show 6136 - (4 + (savedFields x g).length) = 6132 - (savedFields x g).length by omega]
  unfold copyBytes
  dsimp only
  rw [hbody]

/-! ### A copy written whole -/

/-- What a copy written whole reads back as. -/
def writtenCopy (x : Config.Snapshot) (g : Nat) : Config.RawCopy :=
  { mark := Config.formatMark, generation := g, p := x.p, phase := some x.phase, s := x.s, regions := x.regions,
    spares := x.spares, closing := g, crc := crc32 ((copyBytes x g).take 6140) }

/-- The blocks that a checkpoint has written. -/
def writtenBlocks (x : Config.Snapshot) (g : Nat) : List (Option Block) := (List.range 12).map fun k => some (copyBlock x g k)

theorem filterMap_some_flatten {f : Nat → Block} (n : Nat) :
    (((List.range n).map fun k => some (f k)).filterMap id).flatten = ((List.range n).map f).flatten := by
  rw [List.filterMap_map, ← List.filterMap_eq_map]
  rfl

theorem writtenBlocks_bytes (x : Config.Snapshot) (g : Nat) : ((writtenBlocks x g).filterMap id).flatten = copyBytes x g := by
  rw [writtenBlocks, filterMap_some_flatten, copyBlocks_flatten]

theorem blocks_present {f : Nat → Block} (n : Nat) : ∀ x ∈ (List.range n).map fun k => some (f k), x ≠ none := fun x hx => by
  obtain ⟨k, _, rfl⟩ := List.mem_map.mp hx
  exact nofun

section
variable {x : Config.Snapshot} (hx : SnapshotLawful x) {g : Nat} (hg : g < 4294967296)
include hx hg

theorem readCopy_written : readCopy ((writtenBlocks x g).filterMap id).flatten = writtenCopy x g := by
  rw [writtenBlocks_bytes, readCopy_copyBytes x g hx.fits hg, writtenCopy]

/-- It is valid for its P alone. -/
theorem validCopy_written_p {p : Nat} {c : Config.RawCopy} (h : validCopy (writtenBlocks x g) p = some c) : p = x.p := by
  obtain ⟨_, hc, _, _, _, _, hp, _⟩ := (validCopy_some_iff _ _ _).mp h
  rw [← hp, hc, readCopy_written hx hg, writtenCopy]

theorem validCopy_written (hone : 1 ≤ g) : validCopy (writtenBlocks x g) x.p = some (writtenCopy x g) := by
  refine (validCopy_some_iff _ _ _).mpr ⟨blocks_present 12, (readCopy_written hx hg).symm, rfl, ?_, Nat.pos_iff_ne_zero.mp hone, rfl,
    rfl, hx.contentsOk rfl rfl rfl rfl⟩
  rw [writtenBlocks_bytes, writtenCopy]

end

/-! ### The CRC-32 -/

theorem crc32_snoc (bytes : List Byte) (byte : Byte) :
    crc32 (bytes ++ [byte]) = (List.range 8).foldl (fun (r : BitVec 32) k =>
      if r.msb = byte.getLsbD (7 - k) then r <<< 1 else (r <<< 1) ^^^ 0x04C11DB7) (crc32 bytes) := by
  have hbits : bitsOfBytes [byte] = (List.range 8).map fun k => byte.getLsbD (7 - k) := rfl
  have hbit (r : BitVec 32) (b : Bool) : crc32Bit r b = if r.msb = b then r <<< 1 else (r <<< 1) ^^^ 0x04C11DB7 := by
    rw [BitVec.msb_eq_getLsbD_last]
    unfold crc32Bit
    cases r.getLsbD 31 <;> cases b <;> rfl
  unfold crc32
  rw [bitsOfBytes_append, List.foldl_append, hbits, List.foldl_map]
  simp only [hbit]

/-! ### A copy of which only the first blocks have been written (R162) -/

/-- The blocks of a copy over an older one. -/
def mixedBlock (x y : Config.Snapshot) (g h k i : Nat) : Block := if i < k then copyBlock x g i else copyBlock y h i

theorem flatten_drop_blocks {m : Nat} (blocks : List Block) (k : Nat) (h : ∀ b ∈ blocks, b.length = m) :
    blocks.flatten.drop (m * k) = (blocks.drop k).flatten := by
  induction k generalizing blocks with
  | zero => simp
  | succ k ih =>
    cases blocks with
    | nil => simp
    | cons b rest =>
      have hb : b.length = m := h b List.mem_cons_self
      have hrest := ih rest fun c hc => h c (List.mem_cons_of_mem _ hc)
      rw [List.flatten_cons, Nat.mul_succ, Nat.add_comm, ← List.drop_drop, List.drop_left' hb, hrest, List.drop_succ_cons]

/-- A field within one block of a copy. -/
theorem fieldAt_copyBlock (x : Config.Snapshot) (g k : Nat) {first count : Nat} (h : first + count ≤ 512) :
    fieldAt (copyBlock x g k) first count = fieldAt (copyBytes x g) (512 * k + first) count := by
  have hblock : copyBlock x g k = ((copyBytes x g).drop (512 * k)).take 512 := rfl
  rw [hblock]
  unfold fieldAt
  rw [List.drop_take, List.take_take, List.drop_drop, Nat.min_eq_left (by omega)]

theorem generation_field (x : Config.Snapshot) (g : Nat) : fieldAt (copyBytes x g) 4 4 = generationBytes g := by
  obtain ⟨middle, crc, _, _, hparts, _⟩ := copyBytes_parts x g
  rw [hparts]
  rfl

theorem closing_field (x : Config.Snapshot) (g : Nat) : fieldAt (copyBytes x g) 6136 4 = generationBytes g := by
  obtain ⟨middle, crc, hmiddle, _, hparts, _⟩ := copyBytes_parts x g
  have hgeneration : (generationBytes g).length = 4 := rfl
  rw [hparts, fieldAt, ← List.append_assoc, ← List.append_assoc, List.drop_left', List.take_left' hgeneration]
  simp only [List.length_append, hmiddle, hgeneration, show (be32 Config.formatMark.toNat).length = 4 from rfl]

section
variable (x y : Config.Snapshot) (g h : Nat) {k : Nat}

/-- The bytes of the blocks. -/
def mixedBytes (x y : Config.Snapshot) (g h k : Nat) : List Byte := ((List.range 12).map (mixedBlock x y g h k)).flatten

theorem mixed_generation (hk : 1 ≤ k) : fieldAt (mixedBytes x y g h k) 4 4 = generationBytes g := by
  have hfirst : mixedBlock x y g h k 0 = copyBlock x g 0 := if_pos hk
  have hlength : (copyBlock x g 0).length = 512 := copyBlock_length x g 0 (by decide)
  rw [mixedBytes, List.range_succ_eq_map, List.map_cons, List.flatten_cons, hfirst]
  unfold fieldAt
  rw [List.drop_append_of_le_length (by omega), List.take_append_of_le_length (by rw [List.length_drop]; omega)]
  exact (fieldAt_copyBlock x g 0 (by decide)).trans (generation_field x g)

theorem mixed_closing (hk : k ≤ 11) : fieldAt (mixedBytes x y g h k) 6136 4 = generationBytes h := by
  have hlast : mixedBlock x y g h k 11 = copyBlock y h 11 := if_neg (Nat.not_lt.mpr hk)
  have hlength : ∀ b ∈ (List.range 12).map (mixedBlock x y g h k), b.length = 512 := fun b hb => by
    obtain ⟨i, hi, rfl⟩ := List.mem_map.mp hb
    rw [mixedBlock]
    split
    · exact copyBlock_length x g i (List.mem_range.mp hi)
    · exact copyBlock_length y h i (List.mem_range.mp hi)
  have hend : (mixedBytes x y g h k).drop (512 * 11) = copyBlock y h 11 := by
    have hone : ((List.range 12).map (mixedBlock x y g h k)).drop 11 = [mixedBlock x y g h k 11] := rfl
    rw [mixedBytes, flatten_drop_blocks _ _ hlength, hone, List.flatten_singleton, hlast]
  unfold fieldAt
  rw [show 6136 = 512 * 11 + 504 from rfl, ← List.drop_drop, hend]
  exact (fieldAt_copyBlock y h 11 (by decide)).trans (closing_field y h)

theorem validCopy_mixed (p : Nat) (hg : g < 4294967296) (hh : h < 4294967296) (hne : g ≠ h) (hone : 1 ≤ k) (hlast : k ≤ 11) :
    validCopy ((List.range 12).map fun i => some (mixedBlock x y g h k i)) p = none := by
  refine Option.eq_none_iff_forall_ne_some.mpr fun c hvalid => ?_
  obtain ⟨_, hc, _, _, _, hclosing, _⟩ := (validCopy_some_iff _ _ _).mp hvalid
  have hbytes : c = readCopy (mixedBytes x y g h k) := hc.trans (congrArg readCopy (filterMap_some_flatten 12))
  have hgeneration : c.generation = g := by
    rw [hbytes]
    exact (congrArg generationOf (mixed_generation x y g h hone)).trans (generationOf_bytes g hg)
  have hclosed : c.closing = h := by
    rw [hbytes]
    exact (congrArg generationOf (mixed_closing x y g h hlast)).trans (generationOf_bytes h hh)
  exact hne (hgeneration.symm.trans (hclosing.symm.trans hclosed))

end

/-- Settles O53: a whole copy by its layout; a mixed one has the generation of the one and the closing generation of the other. -/
theorem copiesReadBackAsWritten : Obligations.CopiesReadBackAsWritten := by
  refine ⟨fun x g p hx hone hlast => ?whole, ⟨Config.crcOrder, fun c => rfl⟩, ⟨rfl, crc32_snoc⟩,
    fun x y g h k p _ hg _ hh hne hone hlast => validCopy_mixed x y g h p (by omega) (by omega) hne hone hlast⟩
  case whole =>
    have hg : g < 4294967296 := by omega
    refine ⟨copyBytes_eq hx.fits g, copyBody_length hx.fits g, savedFields_fit hx.fits g, rfl, coded_length _ _,
      definitionBytes_length, spareBytes_length, copyBlock_length x g, fun hp => ?otherP,
      ⟨writtenCopy x g, validCopy_written hx hg hone, rfl, rfl, rfl, rfl, rfl⟩⟩
    case otherP => exact Option.eq_none_iff_forall_ne_some.mpr fun c hvalid => hp (validCopy_written_p hx hg hvalid)

end Sys2Proof.Machine
end
